-- ==== Sys2Proof/Word.lean ====
section
/-!
DEFINITION. The words of the TXD-1024: 32-bit register words, 64-bit pairs and addresses, bytes, and
the 64-lane masks of a wave (R2, R7, R16, R91).
-/
namespace Sys2Proof

/-- A lane or uniform register, and an instruction word (R16, R59). -/
abbrev Word := BitVec 32
/-- A register pair, a virtual address, a system register (R19, R28, R34). -/
abbrev DWord := BitVec 64
/-- One byte of memory. -/
abbrev Byte := BitVec 8
/-- One bit a lane of a wave of W = 64 (R2). -/
abbrev Mask := BitVec 64

/-- The wave width W of this part (R2). -/
abbrev waveWidth : Nat := 64

/-- The lanes of a mask in ascending order (R9). -/
def lanesOf (m : Mask) : List Nat := (List.range waveWidth).filter fun l => m.getLsbD l

/-- The mask of a list of lanes. -/
def maskOf : List Nat → Mask
  | [] => 0
  | l :: r => (if l < waveWidth then BitVec.twoPow 64 l else 0) ||| maskOf r

/-- Bits `[hi:lo]` of a number (R7). -/
def bitsOf (w hi lo : Nat) : Nat := w / 2 ^ lo % 2 ^ (hi - lo + 1)

/-- A number's low `n` bits read as two's complement (R91). -/
def signExt (n x : Nat) : Int :=
  if x % 2 ^ n < 2 ^ (n - 1) then (x % 2 ^ n : Nat) else (x % 2 ^ n : Nat) - (2 ^ n : Nat)

/-- The bytes of a number, least significant first, `n` of them (R7). -/
def bytesOf : Nat → Nat → List Byte
  | 0, _ => []
  | n + 1, x => BitVec.ofNat 8 x :: bytesOf n (x / 256)

/-- The number that little-endian bytes stand for (R7). -/
def ofBytes : List Byte → Nat
  | [] => 0
  | b :: r => b.toNat + 256 * ofBytes r

end Sys2Proof
end

