-- ==== Sys2Proof/Machine/Flags.lean ====
section
/-!
DEFINITION. The FPST flags (R31, R87): six sticky bits, and how an instruction adds flags to them.
-/
namespace Sys2Proof.Machine

/-- The six flags of FPST, in its bit order (R31). -/
abbrev Flags := BitVec 6

/-- [0] IV, invalid (R87). -/
def flagIV : Flags := 0x01
/-- [1] DZ, divide by zero (R87). -/
def flagDZ : Flags := 0x02
/-- [2] OF, overflow (R87). -/
def flagOF : Flags := 0x04
/-- [3] UF, underflow (R87). -/
def flagUF : Flags := 0x08
/-- [4] NX, inexact (R87). -/
def flagNX : Flags := 0x10
/-- [5] SL, sparsity loss (R87, R105). -/
def flagSL : Flags := 0x20

/-- A flag when its condition holds. -/
def flagIf (c : Bool) (f : Flags) : Flags := if c then f else 0

/-- FPST after an instruction raises `raised`: flags are sticky (R31). -/
def stickFlags (old raised : Flags) : Flags := old ||| raised

/-- The flags of a list of results, ORed together (R83, R107). -/
def orFlags : List Flags → Flags
  | [] => 0
  | f :: r => f ||| orFlags r

end Sys2Proof.Machine
end

