-- ==== Sys2Proof/Machine/Float.lean ====
section
/-!
DEFINITION. The binary floating-point formats and exact arithmetic of "Number Formats and Exact Arithmetic"
(R81 to R96): encodings, `Round`, special values, the arithmetic of one element, and every conversion pair.
Values are computed exactly as integers times powers of two and narrowed once, by `roundFin`.
-/
namespace Sys2Proof.Machine

/-- The four formats of R81. -/
inductive Fmt | f16 | bf16 | f32 | f64
  deriving DecidableEq, Repr

/-- The rounding modes of FPMODE.RM and of rounding fields (R30, R73). -/
inductive RMode | rne | rz | ru | rd
  deriving DecidableEq, Repr

/-- FPMODE.RM as a mode (R30). -/
def RMode.ofBits (b : BitVec 2) : RMode :=
  if b = 0 then .rne else if b = 1 then .rz else if b = 2 then .ru else .rd

namespace Fmt
/-- Fraction bits (R81). -/
def fbits : Fmt → Nat | .f16 => 10 | .bf16 => 7 | .f32 => 23 | .f64 => 52
/-- Exponent bits (R81). -/
def ebits : Fmt → Nat | .f16 => 5 | .bf16 => 8 | .f32 => 8 | .f64 => 11
/-- The precision p (R81). -/
def prec (f : Fmt) : Nat := f.fbits + 1
/-- The bias (R81). -/
def bias (f : Fmt) : Nat := 2 ^ (f.ebits - 1) - 1
/-- emax (R81). -/
def emax (f : Fmt) : Int := f.bias
/-- emin (R81). -/
def emin (f : Fmt) : Int := 1 - (f.bias : Int)
/-- The width in bits (R81). -/
def width (f : Fmt) : Nat := 1 + f.ebits + f.fbits
/-- The all-ones exponent in place. -/
def infBits (f : Fmt) : Nat := (2 ^ f.ebits - 1) * 2 ^ f.fbits
/-- The sign bit in place. -/
def signBit (f : Fmt) : Nat := 2 ^ (f.width - 1)
/-- The canonical quiet NaN (R82). -/
def qnan (f : Fmt) : Nat := f.infBits + 2 ^ (f.fbits - 1)
/-- The largest finite value (R81). -/
def maxFinite (f : Fmt) : Nat := f.infBits - 1
end Fmt

/-- A sign in place. -/
def withSign (f : Fmt) (neg : Bool) (mag : Nat) : Nat := if neg then f.signBit + mag else mag

/-- What an encoding stands for: a NaN, an infinity, or (−1)^neg × m × 2^e exactly (m = 0 for a zero). -/
inductive FVal
  | nan
  | inf (neg : Bool)
  | fin (neg : Bool) (m : Nat) (e : Int)
  deriving DecidableEq, Repr

/-- The sign of an encoding. -/
def signOf (f : Fmt) (x : Nat) : Bool := x / 2 ^ (f.width - 1) % 2 = 1
/-- The fraction field. -/
def fracOf (f : Fmt) (x : Nat) : Nat := x % 2 ^ f.fbits
/-- The exponent field. -/
def expOf (f : Fmt) (x : Nat) : Nat := x / 2 ^ f.fbits % 2 ^ f.ebits

/-- The value of an encoding (R81, R82). -/
def valueOf (f : Fmt) (x : Nat) : FVal :=
  let ex := expOf f x
  let fr := fracOf f x
  if ex = 2 ^ f.ebits - 1 then (if fr = 0 then .inf (signOf f x) else .nan)
  else if ex = 0 then .fin (signOf f x) fr (f.emin - f.fbits)
  else .fin (signOf f x) (2 ^ f.fbits + fr) ((ex : Int) - f.bias - f.fbits)

/-- A NaN: all-ones exponent and nonzero fraction (R82). -/
def isNaN (f : Fmt) (x : Nat) : Bool := decide (expOf f x = 2 ^ f.ebits - 1) && decide (fracOf f x ≠ 0)
/-- A signalling NaN: the top fraction bit is 0 (R82). -/
def isSNaN (f : Fmt) (x : Nat) : Bool := isNaN f x && decide (fracOf f x / 2 ^ (f.fbits - 1) = 0)
/-- A zero of either sign. -/
def isZero (f : Fmt) (x : Nat) : Bool := decide (x % 2 ^ (f.width - 1) = 0)
/-- An infinity. -/
def isInf (f : Fmt) (x : Nat) : Bool := decide (x % 2 ^ (f.width - 1) = f.infBits)

/-- Quieting sets the top fraction bit (R82). -/
def quiet (f : Fmt) (x : Nat) : Nat :=
  if fracOf f x / 2 ^ (f.fbits - 1) = 0 then x % 2 ^ f.width + 2 ^ (f.fbits - 1) else x % 2 ^ f.width

/-- A NaN carried, quieted, into another format (R88). -/
def nanInto (src dst : Fmt) (x : Nat) : Nat :=
  let payload := fracOf src x % 2 ^ (src.fbits - 1)
  let moved :=
    if src.fbits ≤ dst.fbits then payload * 2 ^ (dst.fbits - src.fbits)
    else payload / 2 ^ (src.fbits - dst.fbits)
  withSign dst (signOf src x) (dst.qnan + moved)

/-- RoundInt of m ÷ 2^sh for a magnitude of the given sign (R85). -/
def roundShift (mode : RMode) (neg : Bool) (m sh : Nat) : Nat :=
  let n := m / 2 ^ sh
  let r := m % 2 ^ sh
  if r = 0 then n
  else match mode with
    | .rne => if 2 ^ sh < 2 * r ∨ (2 * r = 2 ^ sh ∧ n % 2 = 1) then n + 1 else n
    | .rz => n
    | .ru => if neg then n else n + 1
    | .rd => if neg then n + 1 else n

/-- `Overflow(s, mode, fmt)` (R85). -/
def overflowBits (f : Fmt) (mode : RMode) (neg : Bool) : Nat :=
  let toInf := match mode with
    | .rne => true
    | .rz => false
    | .ru => !neg
    | .rd => neg
  withSign f neg (if toInf then f.infBits else f.maxFinite)

/-- `Round(x, fmt, mode)` of (−1)^neg × m × 2^e with m > 0: the encoding and the flags (R85). -/
def roundFin (f : Fmt) (mode : RMode) (neg : Bool) (m : Nat) (e : Int) : Nat × Flags :=
  let top := e + Nat.log2 m
  let ee := max top f.emin
  let ue := ee - f.fbits
  let sh := (ue - e).toNat
  let n := if ue ≤ e then m * 2 ^ (e - ue).toNat else roundShift mode neg m sh
  let exact := decide (ue ≤ e) || decide (m % 2 ^ sh = 0)
  let carry := decide (n = 2 ^ f.prec)
  let n' := if carry then 2 ^ f.fbits else n
  let e' := if carry then ee + 1 else ee
  if f.emax < e' then (overflowBits f mode neg, flagOF ||| flagNX)
  else
    let mag := if n' < 2 ^ f.fbits then n' else (e' + f.bias).toNat * 2 ^ f.fbits + (n' - 2 ^ f.fbits)
    (withSign f neg mag, if exact then 0 else flagNX ||| flagIf (decide (top < f.emin)) flagUF)

/-- `Round` of any value that is not a NaN; the caller gives a zero its sign (R85, R86). -/
def roundVal (f : Fmt) (mode : RMode) : FVal → Nat × Flags
  | .nan => (f.qnan, 0)
  | .inf neg => (withSign f neg f.infBits, 0)
  | .fin neg m e => if m = 0 then (withSign f neg 0, 0) else roundFin f mode neg m e

/-- The first NaN of the operands, quieted (R88), with IV for a signalling operand (R87); none without a NaN. -/
def firstNaN (f : Fmt) (ops : List Nat) : Option (Nat × Flags) :=
  match ops.find? (isNaN f) with
  | none => none
  | some x => some (quiet f x, flagIf (ops.any (isSNaN f)) flagIV)

/-- An invalid operation delivers the canonical quiet NaN and sets IV (R88, R89). -/
def invalidResult (f : Fmt) : Nat × Flags := (f.qnan, flagIV)

/-- Exact sum of two values that are not NaNs; none for infinities of opposite sign (R86, R89). -/
def addExact (mode : RMode) : FVal → FVal → Option FVal
  | .nan, _ => some .nan
  | _, .nan => some .nan
  | .inf a, .inf b => if a = b then some (.inf a) else none
  | .inf a, .fin .. => some (.inf a)
  | .fin .., .inf b => some (.inf b)
  | .fin na ma ea, .fin nb mb eb =>
    let e := min ea eb
    let x : Int := (if na then -(ma : Int) else ma) * 2 ^ (ea - e).toNat
    let y : Int := (if nb then -(mb : Int) else mb) * 2 ^ (eb - e).toNat
    let z := x + y
    if z = 0 then some (.fin (if na = nb then na else decide (mode = .rd)) 0 0)
    else some (.fin (decide (z < 0)) z.natAbs e)

/-- Exact product of two values that are not NaNs; none for 0 × Inf (R86, R89). -/
def mulExact : FVal → FVal → Option FVal
  | .nan, _ => some .nan
  | _, .nan => some .nan
  | .inf a, .inf b => some (.inf (a != b))
  | .inf a, .fin nb mb _ => if mb = 0 then none else some (.inf (a != nb))
  | .fin na ma _, .inf b => if ma = 0 then none else some (.inf (na != b))
  | .fin na ma ea, .fin nb mb eb => some (.fin (na != nb) (ma * mb) (ea + eb))

/-- Negation of an encoding. -/
def negBits (f : Fmt) (x : Nat) : Nat := if signOf f x then x % 2 ^ f.width - f.signBit else x % 2 ^ f.width + f.signBit

/-- The rounded result, or the invalid one. -/
def deliver (f : Fmt) (mode : RMode) : Option FVal → Nat × Flags
  | none => invalidResult f
  | some v => roundVal f mode v

/-- Round(a + b) (R119, R120). -/
def fpAdd (f : Fmt) (mode : RMode) (a b : Nat) : Nat × Flags :=
  (firstNaN f [a, b]).getD (deliver f mode (addExact mode (valueOf f a) (valueOf f b)))

/-- Round(a − b); a NaN operand keeps its own sign (R88, R119). -/
def fpSub (f : Fmt) (mode : RMode) (a b : Nat) : Nat × Flags :=
  (firstNaN f [a, b]).getD (deliver f mode (addExact mode (valueOf f a) (valueOf f (negBits f b))))

/-- Round(a × b) (R119, R120). -/
def fpMul (f : Fmt) (mode : RMode) (a b : Nat) : Nat × Flags :=
  (firstNaN f [a, b]).getD (deliver f mode (mulExact (valueOf f a) (valueOf f b)))

/-- Round(a × b + c) with one rounding; NaN order a, b, c; 0 × Inf sets IV even beside a quiet NaN addend
(R89, R119, R140). -/
def fpFma (f : Fmt) (mode : RMode) (a b c : Nat) : Nat × Flags :=
  let badProduct := (isInf f a && isZero f b) || (isZero f a && isInf f b)
  match firstNaN f [a, b, c] with
  | some (x, fl) => (x, fl ||| flagIf badProduct flagIV)
  | none =>
    deliver f mode ((mulExact (valueOf f a) (valueOf f b)).bind fun p => addExact mode p (valueOf f c))

/-- The quotient of finite nonzero magnitudes to `k` more bits than asked, its lost part kept as a last 1 bit, so
that every later rounding is the rounding of the exact quotient. -/
def quotientSticky (ma mb k : Nat) : Nat :=
  let n := ma * 2 ^ k
  2 * (n / mb) + (if n % mb = 0 then 0 else 1)

/-- Round(a ÷ b), correctly rounded; finite nonzero ÷ zero gives ±Inf and DZ (R87, R89, R119). -/
def fpDiv (f : Fmt) (mode : RMode) (a b : Nat) : Nat × Flags :=
  match firstNaN f [a, b] with
  | some r => r
  | none =>
    match valueOf f a, valueOf f b with
    | .inf _, .inf _ => invalidResult f
    | .inf na, .fin nb _ _ => (withSign f (na != nb) f.infBits, 0)
    | .fin na _ _, .inf nb => (withSign f (na != nb) 0, 0)
    | .fin na ma ea, .fin nb mb eb =>
      if mb = 0 then
        if ma = 0 then invalidResult f else (withSign f (na != nb) f.infBits, flagDZ)
      else if ma = 0 then (withSign f (na != nb) 0, 0)
      else roundFin f mode (na != nb) (quotientSticky ma mb 120) (ea - eb - 121)
    | _, _ => invalidResult f

/-- The integer square root, bit by bit from bit `k` down. -/
def isqrtFrom (n : Nat) : Nat → Nat → Nat
  | 0, r => if (r + 1) * (r + 1) ≤ n then r + 1 else r
  | k + 1, r =>
    let r' := r + 2 ^ (k + 1)
    isqrtFrom n k (if r' * r' ≤ n then r' else r)

/-- floor(√n). -/
def isqrt (n : Nat) : Nat := isqrtFrom n (Nat.log2 n / 2 + 1) 0

/-- Round(√a), correctly rounded; −0 gives −0, a number below −0 is invalid (R86, R89, R119). -/
def fpSqrt (f : Fmt) (mode : RMode) (a : Nat) : Nat × Flags :=
  match firstNaN f [a] with
  | some r => r
  | none =>
    match valueOf f a with
    | .inf neg => if neg then invalidResult f else (f.infBits, 0)
    | .fin neg m e =>
      if m = 0 then (withSign f neg 0, 0)
      else if neg then invalidResult f
      else
        let odd := e % 2 = 1
        let m' := (if odd then 2 * m else m) * 2 ^ 140
        let e' := (if odd then e - 1 else e) - 140
        let r := isqrt m'
        roundFin f mode false (2 * r + (if r * r = m' then 0 else 1)) (e' / 2 - 1)
    | .nan => invalidResult f

/-- Comparison of two values that are not NaNs, −0 equal to +0 (R123). -/
def cmpExact : FVal → FVal → Ordering
  | .nan, _ => .eq
  | _, .nan => .eq
  | .inf a, .inf b => if a = b then .eq else if a then .lt else .gt
  | .inf a, .fin .. => if a then .lt else .gt
  | .fin .., .inf b => if b then .gt else .lt
  | .fin na ma ea, .fin nb mb eb =>
    let e := min ea eb
    compare ((if na then -(ma : Int) else ma) * 2 ^ (ea - e).toNat : Int)
      ((if nb then -(mb : Int) else mb) * 2 ^ (eb - e).toNat)

/-- Below in the total order of R90, where −0 stands below +0. -/
def belowR90 (f : Fmt) (a b : Nat) : Bool :=
  match cmpExact (valueOf f a) (valueOf f b) with
  | .lt => true
  | .gt => false
  | .eq => isZero f a && isZero f b && signOf f a && !signOf f b

/-- minimumNumber and maximumNumber (R90). -/
def fpMinMax (f : Fmt) (isMax : Bool) (a b : Nat) : Nat × Flags :=
  let fl := flagIf (isSNaN f a || isSNaN f b) flagIV
  if isNaN f a && isNaN f b then (quiet f a, fl)
  else if isNaN f a then (b % 2 ^ f.width, fl)
  else if isNaN f b then (a % 2 ^ f.width, fl)
  else if belowR90 f a b then ((if isMax then b else a) % 2 ^ f.width, fl)
  else ((if isMax then a else b) % 2 ^ f.width, fl)

/-- The conditions of floating-point compares (R73, R123). -/
inductive FCond | eq | ne | lt | le | gt | ge | ordered | unordered
  deriving DecidableEq, Repr

/-- One floating-point compare with its flags: IV for a signalling NaN in conditions 2 to 7 (R123). -/
def fpCompare (f : Fmt) (c : FCond) (a b : Nat) : Bool × Flags :=
  let un := isNaN f a || isNaN f b
  let o := cmpExact (valueOf f a) (valueOf f b)
  let r := match c with
    | .eq => !un && o == .eq
    | .ne => un || o != .eq
    | .lt => !un && o == .lt
    | .le => !un && o != .gt
    | .gt => !un && o == .gt
    | .ge => !un && o != .lt
    | .ordered => !un
    | .unordered => un
  (r, flagIf (decide (c ≠ .eq ∧ c ≠ .ne) && (isSNaN f a || isSNaN f b)) flagIV)

/-- The class number of an encoding in the order of `fcls` (R75). -/
def fpClass (f : Fmt) (x : Nat) : Nat :=
  if isNaN f x then (if isSNaN f x then 0 else 1)
  else if isInf f x then (if signOf f x then 2 else 9)
  else if isZero f x then (if signOf f x then 5 else 6)
  else if expOf f x = 0 then (if signOf f x then 4 else 7)
  else if signOf f x then 3 else 8

/-- FP constants +0.5 +1 +2 +4 −0.5 −1 −2 −4 in a format (R41). -/
def fpConst (f : Fmt) (k : Nat) : Nat :=
  withSign f (decide (4 ≤ k % 8)) ((f.bias - 1 + k % 4) * 2 ^ f.fbits)

/-! ### Conversions (R91 to R96) -/

/-- The types of `cvt`, by their codes (R73, R81, R91). -/
inductive NumTy | i32 | n32 | i64 | n64 | f32 | f64 | f16 | bf16
  deriving DecidableEq, Repr

namespace NumTy
/-- The floating format of a type, if it is one. -/
def fmt? : NumTy → Option Fmt
  | .f32 => some .f32 | .f64 => some .f64 | .f16 => some .f16 | .bf16 => some .bf16 | _ => none
/-- The width of a type in bits. -/
def width : NumTy → Nat
  | .i32 | .n32 | .f32 => 32 | .i64 | .n64 | .f64 => 64 | .f16 | .bf16 => 16
/-- A 64-bit type occupies a pair (R92). -/
def isWide (t : NumTy) : Bool := t.width == 64
/-- A signed integer type (R91). -/
def isSigned : NumTy → Bool | .i32 | .i64 => true | _ => false
/-- The least value of an integer type (R91). -/
def lo : NumTy → Int | .i32 => -2 ^ 31 | .i64 => -2 ^ 63 | _ => 0
/-- The greatest value of an integer type (R91). -/
def hi : NumTy → Int | .i32 => 2 ^ 31 - 1 | .n32 => 2 ^ 32 - 1 | .i64 => 2 ^ 63 - 1 | _ => 2 ^ 64 - 1
end NumTy

/-- An integer as the bit pattern of a type (R91). -/
def intBits (t : NumTy) (v : Int) : Nat := (v % (2 ^ t.width : Nat)).toNat

/-- The integer that a pattern of an integer type stands for (R91). -/
def intOf (t : NumTy) (x : Nat) : Int := if t.isSigned then signExt t.width x else (x % 2 ^ t.width : Nat)

/-- Kind W, and the exact integer pairs, which it covers: integer narrowing (R93, R94). -/
def cvtIntInt (src dst : NumTy) (sat : Bool) (x : Nat) : Nat × Flags :=
  let v := intOf src x
  if dst.lo ≤ v ∧ v ≤ dst.hi then (intBits dst v, 0)
  else if sat then (intBits dst (if v < dst.lo then dst.lo else dst.hi), 0)
  else (intBits dst v, 0)

/-- Kind F: `Round(value, to, rnd)`, saturating to the largest finite when asked (R95). -/
def cvtRound (dst : Fmt) (mode : RMode) (sat : Bool) (v : FVal) : Nat × Flags :=
  let r := roundVal dst mode v
  match v with
  | .fin neg _ _ =>
    if sat && decide (r.2 &&& flagOF ≠ 0) then (withSign dst neg dst.maxFinite, flagOF ||| flagNX) else r
  | _ => r

/-- From an integer to a floating type (R93, R95). -/
def cvtIntFp (src : NumTy) (dst : Fmt) (mode : RMode) (sat : Bool) (x : Nat) : Nat × Flags :=
  let v := intOf src x
  cvtRound dst mode sat (.fin (decide (v < 0)) v.natAbs 0)

/-- From a floating type to a floating type (R88, R93, R95). -/
def cvtFpFp (src dst : Fmt) (mode : RMode) (sat : Bool) (x : Nat) : Nat × Flags :=
  if isNaN src x then (nanInto src dst x, flagIf (isSNaN src x) flagIV)
  else cvtRound dst mode sat (valueOf src x)

/-- Kind I: to an integer, with the nearer end of the range outside it (R96). -/
def cvtFpInt (src : Fmt) (dst : NumTy) (mode : RMode) (sat : Bool) (x : Nat) : Nat × Flags :=
  let outFlags := flagNX ||| (if sat then flagOF else flagIV)
  match valueOf src x with
  | .nan => (0, flagIV)
  | .inf neg => (intBits dst (if neg then dst.lo else dst.hi), outFlags)
  | .fin neg m e =>
    let mag := if 0 ≤ e then m * 2 ^ e.toNat else roundShift mode neg m (-e).toNat
    let exact := decide (0 ≤ e) || decide (m % 2 ^ (-e).toNat = 0)
    let n : Int := if neg then -(mag : Int) else mag
    if n < dst.lo then (intBits dst dst.lo, outFlags)
    else if dst.hi < n then (intBits dst dst.hi, outFlags)
    else (intBits dst n, flagIf (!exact) flagNX)

/-- `cvt` of one element: the 56 pairs of R93. -/
def cvtBits (src dst : NumTy) (mode : RMode) (sat : Bool) (x : Nat) : Nat × Flags :=
  match src.fmt?, dst.fmt? with
  | none, none => cvtIntInt src dst sat x
  | none, some g => cvtIntFp src g mode sat x
  | some f, none => cvtFpInt f dst mode sat x
  | some f, some g => cvtFpFp f g mode sat x

/-! ### Packed elements, hdot2, scaled folds and the activation quadratic -/

/-- The element format of a packed operation (R83, R120). -/
def packedFmt (bf : Bool) : Fmt := if bf then .bf16 else .f16

/-- A packed operation: each element alone, the flags ORed (R83). -/
def packed2 (op : Nat → Nat → Nat → Nat × Flags) (a b d : Nat) : Nat × Flags :=
  let lo := op (a % 65536) (b % 65536) (d % 65536)
  let hi := op (a / 65536 % 65536) (b / 65536 % 65536) (d / 65536 % 65536)
  (lo.1 % 65536 + 65536 * (hi.1 % 65536), lo.2 ||| hi.2)

/-- `hdot2`: (d + x0·y0) + x1·y1 exactly, one rounding to f32 (R121). -/
def fpDot2 (f : Fmt) (mode : RMode) (a b d : Nat) : Nat × Flags :=
  let x0 := a % 65536
  let x1 := a / 65536 % 65536
  let y0 := b % 65536
  let y1 := b / 65536 % 65536
  let bad (x y : Nat) : Bool := (isInf f x && isZero f y) || (isZero f x && isInf f y)
  let ops := [x0, y0, x1, y1]
  let fl := flagIf (ops.any (isSNaN f) || isSNaN .f32 d || bad x0 y0 || bad x1 y1) flagIV
  match ops.find? (isNaN f) with
  | some x => (nanInto f .f32 x, fl)
  | none =>
    if isNaN .f32 d then (quiet .f32 d, fl)
    else
      deliver .f32 mode
        ((mulExact (valueOf f x0) (valueOf f y0)).bind fun p0 =>
          (addExact mode (valueOf .f32 d) p0).bind fun t =>
            (mulExact (valueOf f x1) (valueOf f y1)).bind fun p1 => addExact mode t p1)

/-- A value times 2^k. -/
def scaleVal (k : Int) : FVal → FVal
  | .fin neg m e => .fin neg m (e + k)
  | v => v

/-- `mscl` of one lane: d + x × 2^(bs + bt − 254) with one rounding, a NaN scale giving the canonical NaN (R102). -/
def fpScaleFold (mode : RMode) (d x bs bt : Nat) : Nat × Flags :=
  if bs = 255 ∨ bt = 255 then (Fmt.qnan .f32, flagIV)
  else match firstNaN .f32 [d, x] with
    | some r => r
    | none =>
      deliver .f32 mode (addExact mode (valueOf .f32 d) (scaleVal ((bs : Int) + bt - 254) (valueOf .f32 x)))

/-- Round of (a − b) × c with one rounding in rne, no flags: u of `atab` (R133). -/
def subMulRound (a b c : Nat) : Nat :=
  match firstNaN .f32 [a, b, c] with
  | some r => r.1
  | none =>
    (deliver .f32 .rne
      ((addExact .rne (valueOf .f32 a) (valueOf .f32 (negBits .f32 b))).bind fun t =>
        mulExact t (valueOf .f32 c))).1

/-- clamp(floor(u), 0, 255) of an f32 (R133); a NaN is read as 0 (log 12). -/
def clampFloor255 (u : Nat) : Nat :=
  match valueOf .f32 u with
  | .nan => 0
  | .inf neg => if neg then 0 else 255
  | .fin neg m e =>
    if neg then 0
    else min 255 (if 0 ≤ e then m * 2 ^ e.toNat else m / 2 ^ (-e).toNat)

end Sys2Proof.Machine
end

