-- ==== Sys2Proof/Config.lean ====
section
/-!
DEFINITION. What an implementation fixes (R1, R28, R40, R414), and the free values: constants without a body for what
the spec leaves open, so that no proof can see them.
-/
namespace Sys2Proof.Config

/-- Enabled cores (R3). -/
abbrev cores : Nat := 1024
/-- Wave slots of a core (R11). -/
abbrev slots : Nat := 64
/-- Rows of a quarter that quotas may hold (R17). -/
abbrev rowsPerQuarter : Nat := 480
/-- FWBASE as start-up step 3 writes it (R40, R414): the physical base of system memory. DESIGN CHOICE, log 2. -/
def fwBase : Nat := 0xF0_0000_0000
/-- FWLEN as start-up step 3 writes it (R40). DESIGN CHOICE, log 2. -/
def fwLen : Nat := 0x400_0000
/-- This device's number in its coherent domain (R263, R399). DESIGN CHOICE, log 2. -/
def deviceNumber : Nat := 0
/-- The pad ways that the configuration image names for a die, which start-up step 3 sets (R281, R414). DESIGN CHOICE, log
2. -/
def padWays (_die : Nat) : Option Nat := some 8
/-- The core numbers whose own cores the configuration image does not enable: a spare has each of them (R3, R413, R414).
DESIGN CHOICE, log 2. -/
def disabledCores : List Nat := []
/-- The physical base of the system memory, the 64 GiB that no partition is granted (R390). DESIGN CHOICE, log 2. -/
def sysBase : Nat := 0xF0_0000_0000

/-- Devices of the coherent domain, numbered from 0 (R263, R317). DESIGN CHOICE, log 2. -/
def domain : Nat := 64
/-- The physical address of the global root table (R274), in system memory. DESIGN CHOICE, log 2. -/
def globalRoot : Nat := sysBase + 0x1900_0000
/-- The physical base of the runtime area's pages (R390). DESIGN CHOICE, log 2. -/
def runtimeBase : Nat := sysBase + 0x0400_0000
/-- The physical base of partition n's trap and context areas, 3.75 GiB for each (R390). DESIGN CHOICE, log 2. -/
def trapBase (n : Nat) : Nat := sysBase + 0x4000_0000 + n * 0xF000_0000

/-- Entries of 144 bytes in the log of a partition in each stack: the smallest of R405's sizes, 16 MiB. DESIGN CHOICE,
log 2. -/
def logEntries : Nat := 16777216 / 144

/-- A `sfu` result before its bound is applied, by function code and input (R130: the manual gives a bound, and equal
inputs give equal results). Free value, log 5. -/
opaque sfuRaw : Nat → Word → Word
/-- A value the spec does not state, drawn by a counter of State. Free value, log 6. -/
opaque freeWord : Nat → Word
/-- The launch key Ulusor issues to a partition at its n-th creation, 32 bytes as one number (R348, R389). Free value, log 7. -/
opaque launchKey : Nat → Nat → BitVec 256
/-- The RSASSA-PSS signature of a usage record under the device identity key (R398), by the 128 bytes signed and the
salt drawn. Free value, log 7. -/
opaque recordSignature : BitVec 1024 → Nat → BitVec 3072
/-- What a free choice among allowed orders or places picks, by a counter of State (R417). Free value, log 6. -/
opaque freeNat : Nat → Nat
/-- Bytes at the end of a `.data` image that are padding, of those that may be, by the region's number and the image's bytes
(R240: the image does not hold the length). Free value, log 28. -/
opaque dataPadding : Nat → List Byte → Nat

end Sys2Proof.Config
end

