-- ==== Sys2Proof/Machine/Dx.lean ====
section
/-!
DEFINITION. The dual-exponent block formats, the matrix sum, the 2:4 sparse transforms and the orders of the wave
reductions (R97 to R109).
-/
namespace Sys2Proof.Machine

/-- The dx formats (R97). -/
inductive DxFmt | dx8 | dx6 | dx4
  deriving DecidableEq, Repr

namespace DxFmt
/-- Element bits (R97). -/
def ebits : DxFmt → Nat | .dx8 => 8 | .dx6 => 6 | .dx4 => 4
/-- k (R97). -/
def k : DxFmt → Nat | .dx8 => 5 | .dx6 => 3 | .dx4 => 1
/-- The largest m (R97). -/
def maxM : DxFmt → Nat | .dx8 => 63 | .dx6 => 15 | .dx4 => 3
/-- The bytes of a block (R97). -/
def blockBytes : DxFmt → Nat | .dx8 => 34 | .dx6 => 26 | .dx4 => 18
/-- d of R100. -/
def dist : DxFmt → Nat | .dx8 => 4 | .dx6 => 3 | .dx4 => 2
/-- The registers, or lanes, that hold a block: ceil(L ÷ 4). -/
def words (f : DxFmt) : Nat := (f.blockBytes + 3) / 4
end DxFmt

/-- Element i of a block given as one little-endian number of its bytes: its value (R97, R98). -/
def dxElem (f : DxFmt) (block i : Nat) : FVal :=
  let x := block / 2 ^ (16 + i * f.ebits) % 2 ^ f.ebits
  let m := x % 2 ^ (f.ebits - 2)
  let neg := decide (x / 2 ^ (f.ebits - 2) % 2 = 1)
  let e := if x / 2 ^ (f.ebits - 1) = 0 then block % 256 else block / 256 % 256
  if e = 255 then .nan else .fin neg m ((e : Int) - 127 - f.k)

/-- An element as f32: exact, no flag, a NaN element the canonical NaN (R99). -/
def dxElemF32 (f : DxFmt) (block i : Nat) : Nat := (roundVal .f32 .rne (dxElem f block i)).1

/-- One quantised element: selector, sign, magnitude and its flags. -/
structure DxQ where
  sel : Bool
  neg : Bool
  m : Nat
  flags : Flags
  deriving DecidableEq, Repr

/-- A finite magnitude rounded to units of 2^u (R100's RoundInt in rne). -/
def roundUnits (m : Nat) (e u : Int) : Nat :=
  if u ≤ e then m * 2 ^ (e - u).toNat else roundShift .rne false m (u - e).toNat

/-- a[i] of R100: the magnitude, with the largest finite for an infinity. -/
def dxMag (x : Nat) : Nat × Int :=
  match valueOf .f32 x with
  | .fin _ m e => (m, e)
  | _ => match valueOf .f32 (Fmt.maxFinite .f32) with
    | .fin _ m e => (m, e)
    | _ => (0, 0)

/-- The larger of two magnitudes. -/
def magMax (a b : Nat × Int) : Nat × Int :=
  if cmpExact (.fin false a.1 a.2) (.fin false b.1 b.2) == .lt then b else a

/-- E1 of R100. -/
def dxE1 (f : DxFmt) (amax : Nat × Int) : Nat :=
  if amax.1 = 0 then 0
  else
    let e1 := min 254 (max 0 (amax.2 + Nat.log2 amax.1 + 127)).toNat
    if f.maxM < roundUnits amax.1 amax.2 ((e1 : Int) - 127 - f.k) ∧ e1 < 254 then e1 + 1 else e1

/-- One element of R100. -/
def dxQuant (f : DxFmt) (e0 e1 x : Nat) : DxQ :=
  let neg := signOf .f32 x
  let a := dxMag x
  let u0 := (e0 : Int) - 127 - f.k
  let u1 := (e1 : Int) - 127 - f.k
  let m0 := roundUnits a.1 a.2 u0
  let isI := isInf .f32 x
  let m1 := roundUnits a.1 a.2 u1
  let useLow := decide (m0 ≤ f.maxM)
  let m := if useLow then m0 else min m1 f.maxM
  let u := if useLow then u0 else u1
  let tooLarge := !useLow && (decide (f.maxM < m1) || isI)
  let inexact := isI || cmpExact (.fin false m u) (.fin false a.1 a.2) != .eq
  { sel := !useLow, neg := neg, m := m,
    flags := flagIf tooLarge flagOF ||| flagIf inexact flagNX |||
      flagIf (decide (m = 0) && !isZero .f32 x) flagUF }

/-- The bits of one element. -/
def DxQ.bits (f : DxFmt) (q : DxQ) : Nat :=
  (if q.sel then 2 ^ (f.ebits - 1) else 0) + (if q.neg then 2 ^ (f.ebits - 2) else 0) + q.m

/-- The element stream from position `i` on. -/
def dxStream (f : DxFmt) : List DxQ → Nat → Nat
  | [], _ => 0
  | q :: r, i => q.bits f * 2 ^ (16 + i * f.ebits) + dxStream f r (i + 1)

/-- R100: 32 f32 values into one block, as the little-endian number of its bytes, with the flags. -/
def dxPack (f : DxFmt) (xs : List Nat) : Nat × Flags :=
  if xs.any (isNaN .f32) then
    let q : DxQ := { sel := true, neg := false, m := 0, flags := 0 }
    (0xFFFF + dxStream f (xs.map fun _ => q) 0, flagIf (xs.any (isSNaN .f32)) flagIV)
  else
    let amax := (xs.map dxMag).foldl magMax (0, 0)
    let e1 := dxE1 f amax
    let e0 := e1 - f.dist
    let qs := xs.map (dxQuant f e0 e1)
    (e0 + 256 * e1 + dxStream f qs 0, orFlags (qs.map (·.flags)))

/-! ### The matrix sum (R103) -/

/-- The exact sum of the products of one k-block; none where it is an invalid or NaN sum (R89, R103). -/
def dotExact : List (FVal × FVal) → Option FVal
  | [] => some (.fin true 0 0)
  | (a, b) :: r =>
    if a = .nan ∨ b = .nan then none
    else (mulExact a b).bind fun p => (dotExact r).bind fun t => addExact .rne p t

/-- One accumulation step: T rounded, acc + T rounded (R103); a NaN in acc propagates quieted. -/
def accStep (acc : Nat) (blk : List (FVal × FVal)) : Nat :=
  let t := match dotExact blk with
    | none => Fmt.qnan .f32
    | some v => (roundVal .f32 .rne v).1
  (fpAdd .f32 .rne acc t).1

/-- One output element of an `mma`: the blocks in ascending k (R103). -/
def mmaElem (acc : Nat) (blocks : List (List (FVal × FVal))) : Nat := blocks.foldl accStep acc

/-! ### The 2:4 layout (R104 to R106) -/

/-- The magnitude of a 16-bit element as R104 compares it. -/
def mag15 (x : Nat) : Nat := x % 32768

/-- Position `i` ranks before position `j` for keeping: the larger magnitude, an equal one by lower position. -/
def ranksBefore (g : List Nat) (i j : Nat) : Bool :=
  let a := mag15 (g.getD i 0)
  let b := mag15 (g.getD j 0)
  decide (b < a) || (decide (a = b) && decide (i < j))

/-- A position is kept when at most one other ranks before it (R105): nonzero elements rank before zeros, and zeros
rank by lower position. -/
def kept (g : List Nat) (i : Nat) : Bool :=
  decide (((List.range 4).filter fun j => j ≠ i && ranksBefore g j i).length < 2)

/-- A compressed group: the two kept elements, the nibble and whether SL is set (R104, R105). -/
def compactGroup (g : List Nat) : (Nat × Nat) × Nat × Bool :=
  let ps := (List.range 4).filter (kept g)
  let p := ps.getD 0 0
  let q := ps.getD 1 1
  ((g.getD p 0, g.getD q 0), p + 4 * q, decide (2 < (g.filter fun x => mag15 x ≠ 0).length))

/-- A dense group: the second element written last (R106). -/
def expandGroup (first second nib : Nat) : List Nat :=
  (List.range 4).map fun i => if i = nib / 4 % 4 then second else if i = nib % 4 then first else 0

/-! ### Reductions and scans (R107 to R109) -/

/-- The functions of `red` and `scan` in code order (R75). -/
inductive RedFn
  | addI32 | addF32 | minI32 | maxI32 | minN32 | maxN32 | minF32 | maxF32 | and | or | xor
  deriving DecidableEq, Repr

/-- The identities (R109). -/
def RedFn.identity : RedFn → Word
  | .addI32 => 0 | .addF32 => 0x80000000 | .minI32 => 0x7FFFFFFF | .maxI32 => 0x80000000
  | .minN32 => 0xFFFFFFFF | .maxN32 => 0 | .minF32 => 0x7F800000 | .maxF32 => 0xFF800000
  | .and => 0xFFFFFFFF | .or => 0 | .xor => 0

/-- One combine, its `a` from the lower lane (R107). -/
def RedFn.combine (fn : RedFn) (a b : Word) : Word × Flags :=
  let fp (r : Nat × Flags) : Word × Flags := (BitVec.ofNat 32 r.1, r.2)
  match fn with
  | .addI32 => (a + b, 0)
  | .addF32 => fp (fpAdd .f32 .rne a.toNat b.toNat)
  | .minI32 => (if b.toInt < a.toInt then b else a, 0)
  | .maxI32 => (if a.toInt < b.toInt then b else a, 0)
  | .minN32 => (if b.toNat < a.toNat then b else a, 0)
  | .maxN32 => (if a.toNat < b.toNat then b else a, 0)
  | .minF32 => fp (fpMinMax .f32 false a.toNat b.toNat)
  | .maxF32 => fp (fpMinMax .f32 true a.toNat b.toNat)
  | .and => (a &&& b, 0)
  | .or => (a ||| b, 0)
  | .xor => (a ^^^ b, 0)

/-- One level of R107's tree: the first half combined with the second. -/
def redLevel (fn : RedFn) (t : List Word) : List (Word × Flags) :=
  let h := t.length / 2
  List.zipWith fn.combine (t.take h) (t.drop h)

/-- R107's tree over a wave, `n` levels. -/
def redTree (fn : RedFn) : Nat → List Word → Flags → Word × Flags
  | 0, t, fl => (t.headD fn.identity, fl)
  | n + 1, t, fl =>
    let l := redLevel fn t
    redTree fn n (l.map (·.1)) (fl ||| orFlags (l.map (·.2)))

/-- One step of R108 with offset `o`: every element from `o` on combined with the one `o` below it. -/
def scanLevel (fn : RedFn) (o : Nat) (u : List Word) : List (Word × Flags) :=
  (u.take o).map (fun x => (x, 0)) ++ List.zipWith fn.combine u (u.drop o)

/-- R108's inclusive prefixes: `n` steps from offset `o`. -/
def scanTree (fn : RedFn) : Nat → Nat → List Word → Flags → List Word × Flags
  | 0, _, u, fl => (u, fl)
  | n + 1, o, u, fl =>
    let l := scanLevel fn o u
    scanTree fn n (2 * o) (l.map (·.1)) (fl ||| orFlags (l.map (·.2)))

end Sys2Proof.Machine
end

