-- ==== Sys2Proof/Machine/Sfu.lean ====
section
/-!
DEFINITION. The special functions of `sfu` (R130). The listed exact results are given; every other result is a free
value held inside R130's bound: the free value stands where it lies within the bound of the exact value, and the
nearest f32 stands otherwise. The exact value is enclosed in fixed point with 400 fraction bits.
-/
namespace Sys2Proof.Machine

/-- The functions in code order (R75, R130). -/
inductive SfuFn | exp2 | log2 | rcp | rsqrt | sinPi | cosPi | tanh | erf
  deriving DecidableEq, Repr

/-- The code of a function (R130). -/
def SfuFn.code : SfuFn → Nat
  | .exp2 => 0 | .log2 => 1 | .rcp => 2 | .rsqrt => 3 | .sinPi => 4 | .cosPi => 5 | .tanh => 6 | .erf => 7

/-- Fraction bits of the fixed-point enclosure. -/
def fxBits : Nat := 400
/-- One in fixed point. -/
def fxOne : Int := 2 ^ fxBits
/-- Fixed-point product. -/
def fxMul (a b : Int) : Int := a * b / fxOne

/-- Σ over odd j of z^j ÷ j with the given sign rule, `n` terms: atanh (sgn = 1) or atan (sgn = −1) of z. -/
def oddSeries (sgn z2 : Int) : Nat → Nat → Int → Int
  | 0, _, _ => 0
  | n + 1, j, t => t / j + oddSeries sgn z2 n (j + 2) (sgn * fxMul t z2)

/-- atanh z for |z| ≤ 1/3. -/
def fxAtanh (z : Int) : Int := oddSeries 1 (fxMul z z) 140 1 z
/-- ln 2 = 2 atanh(1/3). -/
def fxLn2 : Int := 2 * fxAtanh (fxOne / 3)
/-- π = 16 atan(1/5) − 4 atan(1/239). -/
def fxPi : Int :=
  16 * oddSeries (-1) (fxOne / 25) 100 1 (fxOne / 5) - 4 * oddSeries (-1) (fxOne / (239 * 239)) 40 1 (fxOne / 239)

/-- Σ of t·y^j ÷ j! from term j on. -/
def expSeries (y : Int) : Nat → Nat → Int → Int
  | 0, _, _ => 0
  | n + 1, j, t => t + expSeries y n (j + 1) (fxMul t y / (j + 1))
/-- e^y for |y| < 1. -/
def fxExp (y : Int) : Int := expSeries y 110 0 fxOne

/-- sin y (start j = 1, t = y) or cos y (start j = 0, t = 1) by Taylor. -/
def trigSeries (y2 : Int) : Nat → Nat → Int → Int
  | 0, _, _ => 0
  | n + 1, j, t => t + trigSeries y2 n (j + 2) (-(fxMul t y2) / ((j + 1) * (j + 2)))

/-- Σ of (−1)^n x^(2n+1) ÷ (n! (2n+1)), `t` holding x^(2n+1) ÷ n!. -/
def erfSeries (x2 : Int) : Nat → Nat → Int → Int
  | 0, _, _ => 0
  | n + 1, j, t => t / (2 * j + 1) + erfSeries x2 n (j + 1) (-(fxMul t x2) / (j + 1))

/-- e^(−y) for y ≥ 0: the power of two and the fraction taken apart. -/
def fxExpNeg (y : Int) : Int :=
  let k := y / fxLn2
  fxExp (-(y - k * fxLn2)) / 2 ^ k.toNat

/-- A fixed-point number as a value. -/
def fxVal (x : Int) (e : Int) : FVal := .fin (decide (x < 0)) x.natAbs (e - fxBits)

/-- A finite magnitude in fixed point. -/
def toFx (m : Nat) (e : Int) : Int := m * fxOne * 2 ^ e.toNat / 2 ^ (-e).toNat

/-- sin(πr) for 0 ≤ r ≤ 1 in fixed point, by symmetry about 1/2. -/
def fxSinPi (r : Int) : Int :=
  let r' := if 2 * r ≤ fxOne then r else fxOne - r
  let y := fxMul r' fxPi
  trigSeries (fxMul y y) 100 1 y

/-- The value that R130 calls exact, for a finite nonzero input that is in the function's domain. -/
def sfuExact (fn : SfuFn) (neg : Bool) (m : Nat) (e : Int) : FVal :=
  match fn with
  | .exp2 =>
    if 9 ≤ e + Nat.log2 m then .fin false 1 (if neg then -512 else 512)
    else
      let x := if neg then -(toFx m e) else toFx m e
      let k := x / fxOne
      fxVal (fxExp (fxMul (x - k * fxOne) fxLn2)) k
  | .log2 =>
    let k := e + Nat.log2 m
    let f := toFx m (-(Nat.log2 m : Int))
    fxVal (k * fxOne + 2 * fxAtanh ((f - fxOne) * fxOne / (f + fxOne)) * fxOne / fxLn2) 0
  | .rcp => .fin neg (2 ^ 300 / m) (-e - 300)
  | .rsqrt =>
    let odd := e % 2 = 1
    let m' := if odd then 2 * m else m
    let e' := if odd then e - 1 else e
    .fin false (isqrt (2 ^ 600 / m')) (-(e' / 2) - 300)
  | .sinPi =>
    let r := toFx m e % (2 * fxOne)
    let v := if r ≤ fxOne then fxSinPi r else -(fxSinPi (r - fxOne))
    fxVal (if neg then -v else v) 0
  | .cosPi =>
    let r := (toFx m e + fxOne / 2) % (2 * fxOne)
    fxVal (if r ≤ fxOne then fxSinPi r else -(fxSinPi (r - fxOne))) 0
  | .tanh =>
    let q := fxExpNeg (2 * toFx m e)
    let v := (fxOne - q) * fxOne / (fxOne + q)
    fxVal (if neg then -v else v) 0
  | .erf =>
    let x := toFx m e
    let s := erfSeries (fxMul x x) 400 0 x
    let rootPi : Int := isqrt (fxPi * fxOne).toNat
    let v := 2 * s * fxOne / rootPi
    fxVal (if neg then -v else v) 0

/-- The bound of a function in ulps (R130). -/
def SfuFn.ulps : SfuFn → Nat
  | .exp2 | .log2 | .rcp => 1
  | _ => 2

/-- |y − exact| is no more than the bound, for a finite y (R130). -/
def sfuWithin (fn : SfuFn) (exact y : FVal) : Bool :=
  match exact, y with
  | .fin ne me ee, .fin ny my ey =>
    let lo := min (min ee ey) (-460)
    let x : Int := (if ne then -(me : Int) else me) * 2 ^ (ee - lo).toNat
    let z : Int := (if ny then -(my : Int) else my) * 2 ^ (ey - lo).toNat
    let top := max (ee + Nat.log2 me) (-126)
    let bound : Int := fn.ulps * 2 ^ (top - 23 - lo).toNat
    let small := decide (fn = .sinPi ∨ fn = .cosPi) && decide (ee + Nat.log2 me < -10)
    let bound' := if small then max bound (2 ^ (-32 - lo).toNat) else bound
    decide ((x - z).natAbs ≤ bound'.natAbs)
  | _, _ => false

/-- A finite nonzero magnitude is an integer. -/
def isIntVal (m : Nat) (e : Int) : Bool := decide (0 ≤ e) || decide (m % 2 ^ (-e).toNat = 0)

/-- The listed exact result of a finite nonzero input, if R130 lists one. -/
def sfuListed (fn : SfuFn) (neg : Bool) (m : Nat) (e : Int) : Option Nat :=
  let k := Nat.log2 m
  let pow2 := decide (m = 2 ^ k)
  let ex : Int := e + k
  let f32 (s : Bool) (m : Nat) (e : Int) : Nat := (roundVal .f32 .rne (.fin s m e)).1
  let n : Int := if 0 ≤ e then m * 2 ^ e.toNat else (m / 2 ^ (-e).toNat : Nat)
  match fn with
  | .exp2 =>
    let s : Int := if neg then -n else n
    if decide (ex < 9) && isIntVal m e && decide (-149 ≤ s) && decide (s ≤ 127) then some (f32 false 1 s) else none
  | .log2 => if pow2 then some (f32 (decide (ex < 0)) ex.natAbs 0) else none
  | .rcp => if pow2 && decide (-126 ≤ ex) && decide (ex ≤ 126) then some (f32 neg 1 (-ex)) else none
  | .rsqrt =>
    if pow2 && decide (ex % 2 = 0) && decide (-126 ≤ ex) && decide (ex ≤ 126) then some (f32 false 1 (-(ex / 2)))
    else none
  | .sinPi =>
    if isIntVal m e then some (f32 neg 0 0)
    else if isIntVal m (e + 1) then
      -- x = n + 1/2, so n is floor(x): (−1)^n
      let fl := if neg then n + 1 else n
      some (f32 (decide (fl % 2 = 1)) 1 0)
    else none
  | .cosPi =>
    if isIntVal m e then some (f32 (decide (n % 2 = 1)) 1 0)
    else if isIntVal m (e + 1) then some 0
    else none
  | .tanh => if cmpExact (.fin false m e) (.fin false 73 (-3)) != .lt then some (f32 neg 1 0) else none
  | .erf => if cmpExact (.fin false m e) (.fin false 4 0) != .lt then some (f32 neg 1 0) else none

/-- The flags of a delivered value that is not a listed one, for a finite input (R130). -/
def sfuFlags (exact : FVal) (delivered : Nat) : Flags :=
  flagNX ||| flagIf (isInf .f32 delivered) flagOF |||
  flagIf (decide (expOf .f32 delivered = 0) && cmpExact (valueOf .f32 delivered) exact != .eq) flagUF

/-- A pole: an infinity that a finite input delivers and that is no listed exact result (R130, log 5). -/
def sfuPole (neg : Bool) : Word × Flags :=
  (BitVec.ofNat 32 (withSign .f32 neg (Fmt.infBits .f32)), flagDZ ||| flagOF ||| flagNX)

/-- `sfu.<fn>` of one f32 (R130); a NaN is no listed exact result, so NX is set with it, too. -/
def sfuResult (fn : SfuFn) (x : Word) : Word × Flags :=
  let b := x.toNat
  let bad : Word × Flags := (BitVec.ofNat 32 (Fmt.qnan .f32), flagIV ||| flagNX)
  let w (n : Nat) : Word := BitVec.ofNat 32 n
  match valueOf .f32 b with
  | .nan => (w (quiet .f32 b), flagNX ||| flagIf (isSNaN .f32 b) flagIV)
  | .inf neg =>
    match fn with
    | .exp2 => (if neg then 0 else x, 0)
    | .log2 => if neg then bad else (x, 0)
    | .rcp => (w (withSign .f32 neg 0), 0)
    | .rsqrt => if neg then bad else (0, 0)
    | .sinPi | .cosPi => bad
    | .tanh | .erf => (w (withSign .f32 neg (fpConst .f32 1)), 0)
  | .fin neg m e =>
    if m = 0 then
      match fn with
      | .exp2 | .cosPi => (w (fpConst .f32 1), 0)
      | .log2 => sfuPole true
      | .rcp | .rsqrt => sfuPole neg
      | .sinPi | .tanh | .erf => (x, 0)
    else if neg && decide (fn = .log2 ∨ fn = .rsqrt) then bad
    else match sfuListed fn neg m e with
      | some r => (w r, 0)
      | none =>
        let exact := sfuExact fn neg m e
        let raw := Config.sfuRaw fn.code x
        let y := if sfuWithin fn exact (valueOf .f32 raw.toNat) then raw.toNat
          else (roundVal .f32 .rne exact).1
        (w y, sfuFlags exact y)

end Sys2Proof.Machine
end

