-- ==== Sys2Proof/Syntax.lean ====
section
/-!
DEFINITION. The steps of the TXD-1024 as data: one constructor for each row of spec/opcode_table.json. The first 127
are the Draik instructions (R59 to R77); the rest are the part's own events, which name the agent that acts.
-/
namespace Sys2Proof
open Machine

/-- The special operands in code order from 0xE0 (R25). -/
inductive Special
  | lid | tid | wid | teamX | teamY | teamZ | grid | w | core | clkLo | clkHi | qtr | spawnArg | depth | slot
  deriving DecidableEq, Repr

/-- An operand code (R25, R41): a lane register, a uniform register, an integer constant 0 to 15 or −1 to −8, an FP
constant, or a special. -/
inductive Opnd
  | lane (r : BitVec 7)
  | unif (r : BitVec 6)
  | pos (k : BitVec 4)
  | neg (k : BitVec 3)
  | fp (k : BitVec 3)
  | special (k : Special)
  deriving DecidableEq, Repr

/-- An even register pair, named by its even register: v2k:v2k+1 or s2k:s2k+1 (R19, R73). -/
inductive Pair
  | lane (k : BitVec 6)
  | unif (k : BitVec 5)
  deriving DecidableEq, Repr

/-- The conditions of integer compares (R73). -/
inductive ICond | eq | ne | lt | le | gt | ge
  deriving DecidableEq, Repr

/-- Load sizes in code order (R74). -/
inductive LdSize | u8 | s8 | u16 | s16 | b32 | b64 | b128
  deriving DecidableEq, Repr

/-- Store sizes (R74). -/
inductive StSize | b8 | b16 | b32 | b64 | b128
  deriving DecidableEq, Repr

/-- Source modes of `shfl` and `push` (R162). -/
inductive XlMode | idx | rel | xor | wrel
  deriving DecidableEq, Repr

/-- The modes of `vote` that write a predicate (R166). -/
inductive VoteMode | all | any | eq
  deriving DecidableEq, Repr

/-- A branch condition: none is `always`; otherwise a predicate and its sense (R73). -/
abbrev BrCond := Option (Fin 24 × Bool)

/-- A predicate source; none is the field value 31, which reads as 1 (R75). -/
abbrev PSrc := Option (Fin 24)

/-- The operations of `atom` (R181). -/
inductive AtomOp | add | and | or | xor | min | max | umin | umax | xchg | faddF32
  deriving DecidableEq, Repr

/-- The formats of `mma` and of a handle (R200, R205). -/
inductive MmaFmt | dx8 | dx6 | dx4 | bf16 | fp16
  deriving DecidableEq, Repr

/-- The transform of a copy with its metadata address (R75, R188). -/
inductive Xf
  | none
  | expand (metaAddr : Pair)
  | compact (metaAddr : Pair)
  deriving DecidableEq, Repr

/-- The windows that `drain` names (R196). -/
inductive DrainPath | global | diePad | cluster | scratch | host
  deriving DecidableEq, Repr

/-- The system registers (R28). -/
inductive SysReg
  | wavew | fpmode | fpst | tfb | thdl | ckst | clk | quota | atgen | lkcnt | depth | rivl
  | fw (n : BitVec 4)
  deriving DecidableEq, Repr

/-- What the start-up steps of R414 find: signatures, calibration, self-test. -/
structure StartReport where
  /-- Firmware copy A passes step 1. -/
  copyA : Bool
  /-- Firmware copy B passes step 1. -/
  copyB : Bool
  /-- The identity key agrees (step 2). -/
  identity : Bool
  /-- The configuration image is signed and names this identity (step 3). -/
  config : Bool
  /-- The host link calibrates (step 4). -/
  hostLink : Bool
  /-- The link trains in PCIe mode (R383). -/
  pcie : Bool := false
  /-- A die whose fabric does not calibrate (step 4). -/
  fabric : Option Nat
  /-- A stack whose DRAM PHY does not calibrate (step 4). -/
  dram : Option Nat
  /-- Nellys ports that fail (step 4); the start continues. -/
  badPorts : List Nat
  /-- The trained lanes and rate of each port (R399). -/
  ports : List (Nat × (Nat × Nat)) := []
  /-- Memory initialises (step 5). -/
  memory : Bool
  /-- Cores that fail self-test and are replaced by a spare (step 6). -/
  replaced : List Nat
  /-- A core fails and no spare of its die is left (step 6). -/
  noSpare : Option Nat
  /-- A pseudo-channel stays degraded (R404). -/
  degraded : Option Nat
  deriving DecidableEq, Repr

/-- The unit whose check fails (R400): of the result of the instruction that the wave in a slot issues next, of a value that its
last access has sent, of the chunk that the copy engine moves for its k-th copy; a word of a register file, of an accumulator
slot, of a scratchpad or pad by its key, or a cache word by its physical address, that its code cannot correct; the tag of a
line in an L1 or in a die's slice; symbols of a chunk of a stack that have gone wrong, by pin (R269, R404). -/
inductive CheckUnit
  | result (slot : Nat)
  | sent (slot : Nat)
  | copy (k : Nat)
  | lane (slot r l : Nat)
  | uniform (slot r : Nat)
  | acc (n i : Nat)
  | onChip (key : Nat)
  | cache (pa : Nat)
  | l1Tag (line : Nat)
  | sliceTag (die line : Nat)
  | symbols (stack chunk : Nat) (pins : List Nat)
  deriving DecidableEq, Repr

/-- The steps. In an instruction `sw` is the switch marker, bit 31 of its first word (R59); a field that R75 and R76
reserve is not carried, because it is 0. -/
inductive Instr
  -- integer, address and bit instructions (R116, R117)
  | add (sw : Bool) (d : BitVec 7) (a b : Opnd) (sat : Bool)
  | sub (sw : Bool) (d : BitVec 7) (a b : Opnd) (sat : Bool)
  | mulLo (sw : Bool) (d : BitVec 7) (a b : Opnd)
  | mulHi (sw : Bool) (d : BitVec 7) (a b : Opnd) (u : Bool)
  | madLo (sw : Bool) (d : BitVec 7) (a b : Opnd)
  | min (sw : Bool) (d : BitVec 7) (a b : Opnd) (u : Bool)
  | max (sw : Bool) (d : BitVec 7) (a b : Opnd) (u : Bool)
  | absd (sw : Bool) (d : BitVec 7) (a b : Opnd) (u : Bool)
  | and (sw : Bool) (d : BitVec 7) (a b : Opnd)
  | or (sw : Bool) (d : BitVec 7) (a b : Opnd)
  | xor (sw : Bool) (d : BitVec 7) (a b : Opnd)
  | andn (sw : Bool) (d : BitVec 7) (a b : Opnd)
  | shl (sw : Bool) (d : BitVec 7) (a b : Opnd)
  | shr (sw : Bool) (d : BitVec 7) (a b : Opnd) (arith : Bool)
  | rot (sw : Bool) (d : BitVec 7) (a b : Opnd)
  | bfe (sw : Bool) (d : BitVec 7) (a b : Opnd) (signed : Bool)
  | bfi (sw : Bool) (d : BitVec 7) (a b : Opnd)
  | popc (sw : Bool) (d : BitVec 7) (a : Opnd)
  | clz (sw : Bool) (d : BitVec 7) (a : Opnd)
  | ctz (sw : Bool) (d : BitVec 7) (a : Opnd)
  | brev (sw : Bool) (d : BitVec 7) (a : Opnd)
  | perm (sw : Bool) (d : BitVec 7) (a b : Opnd)
  | addI64 (sw : Bool) (d : BitVec 7) (a b : Opnd)
  | subI64 (sw : Bool) (d : BitVec 7) (a b : Opnd)
  | mulWide (sw : Bool) (d : BitVec 7) (a b : Opnd) (u : Bool)
  | idiv (sw : Bool) (d : BitVec 7) (a b : Opnd) (u : Bool)
  | irem (sw : Bool) (d : BitVec 7) (a b : Opnd) (u : Bool)
  | shlI64 (sw : Bool) (d : BitVec 7) (a b : Opnd)
  | shrI64 (sw : Bool) (d : BitVec 7) (a b : Opnd) (arith : Bool)
  -- floating point (R119 to R122)
  | fadd (sw : Bool) (d : BitVec 7) (a b : Opnd) (wide : Bool)
  | fsub (sw : Bool) (d : BitVec 7) (a b : Opnd) (wide : Bool)
  | fmul (sw : Bool) (d : BitVec 7) (a b : Opnd) (wide : Bool)
  | ffma (sw : Bool) (d : BitVec 7) (a b : Opnd) (wide : Bool)
  | fmin (sw : Bool) (d : BitVec 7) (a b : Opnd) (wide : Bool)
  | fmax (sw : Bool) (d : BitVec 7) (a b : Opnd) (wide : Bool)
  | fdiv (sw : Bool) (d : BitVec 7) (a b : Opnd) (wide : Bool)
  | fsqrt (sw : Bool) (d : BitVec 7) (a : Opnd) (wide : Bool)
  | hadd (sw : Bool) (d : BitVec 7) (a b : Opnd) (bf : Bool)
  | hsub (sw : Bool) (d : BitVec 7) (a b : Opnd) (bf : Bool)
  | hmul (sw : Bool) (d : BitVec 7) (a b : Opnd) (bf : Bool)
  | hfma (sw : Bool) (d : BitVec 7) (a b : Opnd) (bf : Bool)
  | hmin (sw : Bool) (d : BitVec 7) (a b : Opnd) (bf : Bool)
  | hmax (sw : Bool) (d : BitVec 7) (a b : Opnd) (bf : Bool)
  | hdot2 (sw : Bool) (d : BitVec 7) (a b : Opnd) (bf : Bool)
  | fabs (sw : Bool) (d : BitVec 7) (a : Opnd)
  | fneg (sw : Bool) (d : BitVec 7) (a : Opnd)
  -- compares and predicates (R123 to R126)
  | cmpI32 (sw : Bool) (pd : Fin 24) (c : ICond) (a b : Opnd)
  | cmpN32 (sw : Bool) (pd : Fin 24) (c : ICond) (a b : Opnd)
  | cmpF32 (sw : Bool) (pd : Fin 24) (c : FCond) (a b : Opnd)
  | cmpF64 (sw : Bool) (pd : Fin 24) (c : FCond) (a b : Opnd)
  | cmpI64 (sw : Bool) (pd : Fin 24) (c : ICond) (a b : Opnd)
  | movp (sw : Bool) (d : BitVec 7) (a : Opnd) (p : Fin 24) (sense wide : Bool)
  | plop (sw : Bool) (pd : Fin 24) (pa pb : PSrc) (f : BitVec 8)
  | fcls (sw : Bool) (pd : Fin 24) (a : Opnd) (mask : BitVec 10) (wide : Bool)
  -- moves, conversions, special functions, activation tables (R127 to R135)
  | mov (sw : Bool) (d : BitVec 7) (a : Opnd) (wide : Bool)
  | cvt (sw : Bool) (d : BitVec 7) (a : Opnd) (src dst : NumTy) (rnd : RMode) (sat : Bool)
  | dxq (sw : Bool) (d : BitVec 7) (a : Opnd) (fmt : DxFmt)
  | dxqUnpack (sw : Bool) (d : BitVec 7) (a : Opnd) (fmt : DxFmt)
  | sfu (sw : Bool) (d : BitVec 7) (a : Opnd) (fn : SfuFn)
  | atab (sw : Bool) (d : BitVec 7) (a : Opnd)
  | atld (sw : Bool) (a b : Opnd)
  | atsw (sw : Bool)
  -- cross-lane (R161 to R166)
  | shfl (sw : Bool) (d : BitVec 7) (a : Opnd) (k : BitVec 6) (mode : XlMode)
  | push (sw : Bool) (d : BitVec 7) (a : Opnd) (k : BitVec 6) (mode : XlMode)
  | red (sw : Bool) (d : BitVec 7) (a : Opnd) (fn : RedFn)
  | scan (sw : Bool) (d : BitVec 7) (a : Opnd) (fn : RedFn) (excl : Bool)
  | vote (sw : Bool) (mode : VoteMode) (pa : PSrc) (pd : Fin 24)
  | voteBallot (sw : Bool) (d : BitVec 6) (pa : PSrc)
  -- team coordination and control (R141 to R160)
  | barArrive (sw : Bool) (id : BitVec 4) (count : Opnd)
  | barWait (sw : Bool) (id : BitVec 4) (count : Opnd)
  | barBoth (sw : Bool) (id : BitVec 4) (count : Opnd)
  | rq (sw : Bool) (q : Fin 16)
  | spawn (sw : Bool) (arg : Opnd) (off : BitVec 16)
  | bra (sw : Bool) (u : Bool) (c : BrCond) (off : BitVec 17)
  | bri (sw : Bool) (idx : Opnd) (table : BitVec 10)
  | call (sw : Bool) (u : Bool) (c : BrCond) (off : BitVec 17)
  | ret (sw : Bool) (u : Bool)
  | exit (sw : Bool)
  | joinEnrol (sw : Bool) (j : BitVec 3)
  | joinWait (sw : Bool) (j : BitVec 3)
  | joinStrike (sw : Bool) (j : BitVec 3)
  | nap (sw : Bool)
  -- loads and stores (R170 to R180)
  | ld (sw : Bool) (d : BitVec 7) (a : Pair) (size : LdSize) (off : BitVec 6)
  | ldl (sw : Bool) (d : BitVec 7) (a : Pair) (size : LdSize) (off : BitVec 6)
  | lds (sw : Bool) (d : BitVec 7) (a : Pair) (size : LdSize) (off : BitVec 6)
  | ldc (sw : Bool) (d : BitVec 7) (a : Pair) (size : LdSize) (off : BitVec 6)
  | ldk (sw : Bool) (d : BitVec 7) (a : Pair) (size : LdSize) (off : BitVec 6)
  | ldg (sw : Bool) (d : BitVec 7) (a : Pair) (size : LdSize) (off : BitVec 6)
  | st (sw : Bool) (a : Pair) (data : Opnd) (size : StSize) (off : BitVec 5)
  | stl (sw : Bool) (a : Pair) (data : Opnd) (size : StSize) (off : BitVec 5)
  | sts (sw : Bool) (a : Pair) (data : Opnd) (size : StSize) (off : BitVec 5)
  | stc (sw : Bool) (a : Pair) (data : Opnd) (size : StSize) (off : BitVec 5)
  | stk (sw : Bool) (a : Pair) (data : Opnd) (size : StSize) (off : BitVec 5)
  | stg (sw : Bool) (a : Pair) (data : Opnd) (size : StSize) (off : BitVec 5)
  | ldblk (sw : Bool) (d : BitVec 7) (a : Pair) (fmt : DxFmt)
  | cmpst (sw : Bool) (a : Pair) (data : Opnd) (wide : Bool)
  | chk (sw : Bool) (idx : Opnd) (region : BitVec 10) (sc : Fin 5)
  | ldw (sw : Bool) (d : BitVec 7) (a : Pair) (wide : Bool) (off : BitVec 6)
  -- long forms (R136 to R140, R163, R181 to R186)
  | movi (sw : Bool) (d : BitVec 7) (wide : Bool) (imm : Word)
  | addi (sw : Bool) (d : BitVec 7) (a : Opnd) (sat : Bool) (imm : Word)
  | lop3 (sw : Bool) (d : BitVec 7) (a b c : Opnd) (f : BitVec 8)
  | lea (sw : Bool) (d : BitVec 7) (a b : Opnd) (sh : Fin 5) (sx : Bool) (disp : BitVec 28)
  | ldx (sw : Bool) (d : BitVec 7) (a : Pair) (size : LdSize) (off : Word)
  | stx (sw : Bool) (a : Pair) (data : Opnd) (size : StSize) (off : Word)
  | atom (sw : Bool) (d : BitVec 7) (a : Pair) (b : Opnd) (wide : Bool) (op : AtomOp) (off : BitVec 24)
  | cas (sw : Bool) (d : BitVec 7) (a : Pair) (b c : Opnd) (wide : Bool) (off : BitVec 16)
  | acq (sw : Bool) (a : Pair) (off : Word)
  | rel (sw : Bool) (a : Pair) (off : Word)
  | ffma3 (sw : Bool) (d : BitVec 7) (a b c : Opnd) (wide : Bool) (rnd : RMode)
  | shflx (sw : Bool) (d : BitVec 7) (a b f : Opnd)
  -- matrix and copies (R188 to R216)
  | thset (sw : Bool) (h : BitVec 4) (quad : BitVec 4)
  | mma (sw : Bool) (tag : BitVec 3) (h : BitVec 4) (b : BitVec 4) (fmt : MmaFmt) (fold : Bool) (row0 kb : BitVec 16)
  | accRd (sw : Bool) (tag : BitVec 3) (d : BitVec 3)
  | accZero (sw : Bool) (tag : BitVec 3)
  | accRel (sw : Bool) (tag : BitVec 3)
  | mscl (sw : Bool) (d : BitVec 7) (a b c : Opnd) (br bc : BitVec 2)
  | cpy (sw : Bool) (dst src : Pair) (xf : Xf) (len : Opnd)
  | cseal (sw : Bool)
  | cwait (sw : Bool) (n : BitVec 3)
  | drain (sw : Bool) (path : DrainPath)
  -- system (R220 to R231)
  | trap (sw : Bool) (code : BitVec 16)
  | rdsr (sw : Bool) (d : Pair) (sr : SysReg)
  | wrsr (sw : Bool) (sr : SysReg) (a : Opnd)
  | launch (sw : Bool) (a : Pair) (off : Word)
  | trig (sw : Bool)
  | rmark (sw : Bool)
  | eret (sw : Bool)
  -- events of a core
  | clauseEntry
  | variableResultWrite (core slot k : Nat)
  | commitInstant (core slot : Nat)
  | committedStorePerform (core slot : Nat)
  | rollback (core slot : Nat)
  | trapEntry (core slot : Nat)
  | atswExchange (core quarter : Nat)
  | spawnBinTimerExpiry (core bin : Nat)
  | spawnWaveFormation (core bin : Nat)
  | ldwTimeout (core slot k : Nat)
  | ldwReread (core slot k : Nat)
  | watchNotify (place : Nat)
  | copyCompletion (core k : Nat)
  | copyAbort (core k addr : Nat)
  | mmaAccept (core : Nat)
  | mmaBReadEnd (core stage : Nat)
  | mmaAFetchDone (core stage : Nat)
  | mmaComputeStart (core : Nat)
  | mmaComplete (core : Nat)
  | mmaReplay (core group : Nat)
  | mmaAbort (core stage cause addr : Nat)
  -- events of the dispatchers
  | launchRecordParse (part slot : Nat)
  | gridQueueEntry (grid : Nat)
  | teamPlacement
  | sliceExpiry (team : Nat)
  | preemption (team : Nat)
  | deferralDeadline (team : Nat)
  | reclaim (cluster : Nat)
  | reclaimDeadline (cluster : Nat)
  | pageFault (core slot : Nat)
  | teamRestore (team : Nat)
  -- translation and the host's view of memory
  | shootdown (va bytes asid : Nat)
  | atsInvalidation (part pasid va bytes : Nat)
  | hostCxlMemAccess (part off : Nat) (write : Bool) (bytes data : Nat)
  -- coherence: `m` is the message's place among those in flight
  | gets (m : Nat)
  | getx (m : Nat)
  | fwd (m : Nat)
  | tok (m : Nat)
  | done (m : Nat)
  | notice (m : Nat)
  | recallLine (die line : Nat)
  | preq (core line first words : Nat) (write : Bool)
  | pact (die core : Nat)
  | pdone (die core : Nat)
  | transientRequestFailure (core line first words : Nat) (write : Bool)
  | rds (m : Nat)
  | rdx (m : Nat)
  | upg (m : Nat)
  | evs (m : Nat)
  | eve (m : Nat)
  | wbm (m : Nat)
  | wbo (m : Nat)
  | fwds (m : Nat)
  | fwdx (m : Nat)
  | inv (m : Nat)
  | binv (m : Nat)
  | data (m : Nat)
  | ack (m : Nat)
  | chipLoss (chip : Nat)
  -- reliability, metering, start-up
  | intervalClose (part ctx : Nat)
  | contextRollback (part ctx : Nat)
  | pipelineError (core : Nat) (u : CheckUnit)
  | memoryScrub (stack chunk : Nat) (pins : List Nat)
  | routerFence (die router : Nat)
  | dieMeterReport (die : Nat)
  | deviceStart (r : StartReport)
  | startTimeout
  | coreReset (core : Nat)
  -- admission
  | admitKernel (part index : Nat)
  | installRuntimeLibrary (index : Nat)
  | unload (part index : Nat)
  -- the management mailbox
  | create
  | destroy
  | clearStartCounter
  | jobRollback
  | mailboxInstall
  -- the host's register writes and what follows them
  | fqack (part value : Nat)
  | logicalDeviceReset (part : Nat)
  | biascmd (part value : Nat)
  | biasChangeDone (part : Nat)
  | grcmd (part value : Nat)
  | granuleChangeDone (part : Nat)
  | umreq (part value : Nat)
  | usageRecordWrite (part : Nat)
  | registerWrite (part off width value : Nat)
  | hostCxlCacheSnoop (line : Nat)
  | hostMmioAccess (off : Nat) (write : Bool) (bytes data : Nat)
  | nellysPortDown (port : Nat)
  | firmwareUpdate (copyB : Bool)
  deriving DecidableEq, Repr

end Sys2Proof
end

