-- ==== Sys2Proof/WellFormed.lean ====
section
/-!
DEFINITION. What makes an instruction as data an instruction of Draik: register alignment (R19, R74, R75) and the
pairs of coded fields that R73, R75 and R181 reserve. Every other field is bounded by its type.
-/
namespace Sys2Proof
open Machine

/-- A D register of n registers: aligned to n (R19, R74). -/
def regOk (n : Nat) (d : BitVec 7) : Bool := decide (d.toNat % n = 0)

/-- An operand of n registers: a register is aligned to n; constants and specials have any width (R19, R25, R41). -/
def opndOk (n : Nat) : Opnd → Bool
  | .lane r => decide (r.toNat % n = 0)
  | .unif r => decide (r.toNat % n = 0)
  | _ => true

/-- The registers of a 64-bit form, or of a 32-bit one. -/
def wideRegs (wide : Bool) : Nat := if wide then 2 else 1

/-- The registers of a load's result (R74). -/
def LdSize.regs : LdSize → Nat | .b64 => 2 | .b128 => 4 | _ => 1
/-- The registers of a store's data (R74). -/
def StSize.regs : StSize → Nat | .b64 => 2 | .b128 => 4 | _ => 1
/-- Bytes of a load (R74). -/
def LdSize.bytes : LdSize → Nat | .u8 | .s8 => 1 | .u16 | .s16 => 2 | .b32 => 4 | .b64 => 8 | .b128 => 16
/-- Bytes of a store (R74). -/
def StSize.bytes : StSize → Nat | .b8 => 1 | .b16 => 2 | .b32 => 4 | .b64 => 8 | .b128 => 16
/-- Registers of a conversion type (R92). -/
def numRegs (t : NumTy) : Nat := wideRegs t.isWide

namespace Instr

/-- Every register operand is aligned (R19, R74); the forms whose operands are aligned by their type answer true. -/
def aligned : Instr → Bool
  | addI64 _ d a b | subI64 _ d a b => regOk 2 d && opndOk 2 a && opndOk 2 b
  | mulWide _ d _ _ _ => regOk 2 d
  | shlI64 _ d a _ | shrI64 _ d a _ _ => regOk 2 d && opndOk 2 a
  | fadd _ d a b w | fsub _ d a b w | fmul _ d a b w | ffma _ d a b w | fmin _ d a b w | fmax _ d a b w
  | fdiv _ d a b w => regOk (wideRegs w) d && opndOk (wideRegs w) a && opndOk (wideRegs w) b
  | fsqrt _ d a w | mov _ d a w => regOk (wideRegs w) d && opndOk (wideRegs w) a
  | cmpF64 _ _ _ a b | cmpI64 _ _ _ a b => opndOk 2 a && opndOk 2 b
  | movp _ d a _ _ w => regOk (wideRegs w) d && opndOk (wideRegs w) a
  | fcls _ _ a _ w => opndOk (wideRegs w) a
  | cvt _ d a src dst _ _ => regOk (numRegs dst) d && opndOk (numRegs src) a
  | ld _ d _ z _ | ldl _ d _ z _ | lds _ d _ z _ | ldc _ d _ z _ | ldk _ d _ z _ | ldg _ d _ z _ | ldx _ d _ z _ =>
    regOk z.regs d
  | st _ _ x z _ | stl _ _ x z _ | sts _ _ x z _ | stc _ _ x z _ | stk _ _ x z _ | stg _ _ x z _ | stx _ _ x z _ =>
    opndOk z.regs x
  | cmpst _ _ x w => opndOk (wideRegs w) x
  | ldw _ d _ w _ => regOk (wideRegs w) d
  | movi _ d w _ => regOk (wideRegs w) d
  | lea _ d a _ _ _ _ => regOk 2 d && opndOk 2 a
  | atom _ d _ b w _ _ => regOk (wideRegs w) d && opndOk (wideRegs w) b
  | cas _ d _ b c w _ => regOk (wideRegs w) d && opndOk (wideRegs w) b && opndOk (wideRegs w) c
  | ffma3 _ d a b c w _ =>
    regOk (wideRegs w) d && opndOk (wideRegs w) a && opndOk (wideRegs w) b && opndOk (wideRegs w) c
  | wrsr _ _ a => opndOk 2 a
  | _ => true

/-- No coded field holds a reserved pair: from ≠ to (R73), `fadd.f32` is 32-bit only (R181), and a barrier's count is no
lane register and no special that differs from lane to lane (R156). -/
def fieldsOk : Instr → Bool
  | cvt _ _ _ src dst _ _ => decide (src ≠ dst)
  | atom _ _ _ _ w op _ => !(w && decide (op = .faddF32))
  | barArrive _ _ c | barWait _ _ c | barBoth _ _ c =>
    match c with
    | .lane _ => false
    | .special .lid | .special .tid | .special .spawnArg => false
    | _ => true
  | _ => true

/-- A well-formed instruction. -/
def WellFormed (i : Instr) : Bool := i.fieldsOk && i.aligned

end Instr
end Sys2Proof
end

