-- ==== Sys2Proof/Decode.lean ====
section
/-!
DEFINITION. Words, clause headers and the opcode map (R59 to R80): the decoder, total on any bits and rejecting by the
subcode of R78, the encoder written from the same tables, and each opcode's class, latency and speculation class.
-/
namespace Sys2Proof
open Machine

/-- Why a word is not an instruction; the constructors stand in the order in which they are looked for (log 8). -/
inductive Reject
  | reservedOpcode | reservedField | operandKind | classMismatch | notLast | alignment | badHeader | badTarget
  deriving DecidableEq, Repr

/-- The trap subcode (R78). -/
def Reject.subcode : Reject → Nat
  | .reservedOpcode => 1 | .reservedField => 2 | .operandKind => 3 | .classMismatch => 4 | .alignment => 5
  | .badHeader => 6 | .badTarget => 7 | .notLast => 8

/-! ### Operand codes (R25, R41) -/

/-- A special's place after 0xE0 (R25). -/
def Special.index : Special → Nat
  | .lid => 0 | .tid => 1 | .wid => 2 | .teamX => 3 | .teamY => 4 | .teamZ => 5 | .grid => 6 | .w => 7 | .core => 8
  | .clkLo => 9 | .clkHi => 10 | .qtr => 11 | .spawnArg => 12 | .depth => 13 | .slot => 14

/-- The special at a place after 0xE0 (R25). -/
def Special.ofIndex : Nat → Special
  | 0 => .lid | 1 => .tid | 2 => .wid | 3 => .teamX | 4 => .teamY | 5 => .teamZ | 6 => .grid | 7 => .w | 8 => .core
  | 9 => .clkLo | 10 => .clkHi | 11 => .qtr | 12 => .spawnArg | 13 => .depth | _ => .slot

/-- The operand that an 8-bit code names; none for 0xEF to 0xFF (R25). -/
def Opnd.ofCode (c : Nat) : Option Opnd :=
  if c < 0x80 then some (.lane (BitVec.ofNat 7 c))
  else if c < 0xC0 then some (.unif (BitVec.ofNat 6 (c - 0x80)))
  else if c < 0xD0 then some (.pos (BitVec.ofNat 4 (c - 0xC0)))
  else if c < 0xD8 then some (.neg (BitVec.ofNat 3 (c - 0xD0)))
  else if c < 0xE0 then some (.fp (BitVec.ofNat 3 (c - 0xD8)))
  else if c < 0xEF then some (.special (Special.ofIndex (c - 0xE0)))
  else none

/-- The code of an operand (R25, R41). -/
def Opnd.code : Opnd → Nat
  | .lane r => r.toNat
  | .unif r => 0x80 + r.toNat
  | .pos k => 0xC0 + k.toNat
  | .neg k => 0xD0 + k.toNat
  | .fp k => 0xD8 + k.toNat
  | .special k => 0xE0 + k.index

/-- The pair that a register code names, an odd register taken as its even partner (R73). -/
def Pair.ofCode (c : Nat) : Pair :=
  if c < 0x80 then .lane (BitVec.ofNat 6 (c / 2)) else .unif (BitVec.ofNat 5 ((c - 0x80) / 2))

/-- The code of a pair's even register (R19). -/
def Pair.code : Pair → Nat
  | .lane k => 2 * k.toNat
  | .unif k => 0x80 + 2 * k.toNat

/-! ### Coded fields -/

/-- Integer conditions by code; 6 and 7 are reserved (R73). -/
def ICond.ofCode : Nat → Option ICond
  | 0 => some .eq | 1 => some .ne | 2 => some .lt | 3 => some .le | 4 => some .gt | 5 => some .ge | _ => none
/-- R73. -/
def ICond.code : ICond → Nat
  | .eq => 0 | .ne => 1 | .lt => 2 | .le => 3 | .gt => 4 | .ge => 5
/-- Floating-point conditions by code (R73). -/
def condOfCode : Nat → FCond
  | 0 => .eq | 1 => .ne | 2 => .lt | 3 => .le | 4 => .gt | 5 => .ge | 6 => .ordered | _ => .unordered
/-- R73. -/
def condCode : FCond → Nat
  | .eq => 0 | .ne => 1 | .lt => 2 | .le => 3 | .gt => 4 | .ge => 5 | .ordered => 6 | .unordered => 7
/-- Conversion types by code (R73). -/
def numTyOfCode : Nat → NumTy
  | 0 => .i32 | 1 => .n32 | 2 => .i64 | 3 => .n64 | 4 => .f32 | 5 => .f64 | 6 => .f16 | _ => .bf16
/-- R73. -/
def numTyCode : NumTy → Nat
  | .i32 => 0 | .n32 => 1 | .i64 => 2 | .n64 => 3 | .f32 => 4 | .f64 => 5 | .f16 => 6 | .bf16 => 7
/-- Rounding modes by code (R73). -/
def rmodeOfCode : Nat → RMode
  | 0 => .rne | 1 => .rz | 2 => .ru | _ => .rd
/-- R73. -/
def rmodeCode : RMode → Nat
  | .rne => 0 | .rz => 1 | .ru => 2 | .rd => 3
/-- dx formats by code; 3 is reserved (R75). -/
def dxOfCode : Nat → Option DxFmt
  | 0 => some .dx8 | 1 => some .dx6 | 2 => some .dx4 | _ => none
/-- R75. -/
def dxCode : DxFmt → Nat
  | .dx8 => 0 | .dx6 => 1 | .dx4 => 2
/-- `sfu` functions by code (R75). -/
def sfuOfCode : Nat → SfuFn
  | 0 => .exp2 | 1 => .log2 | 2 => .rcp | 3 => .rsqrt | 4 => .sinPi | 5 => .cosPi | 6 => .tanh | _ => .erf
/-- `red` and `scan` functions by code; 11 to 15 are reserved (R75). -/
def redOfCode : Nat → Option RedFn
  | 0 => some .addI32 | 1 => some .addF32 | 2 => some .minI32 | 3 => some .maxI32 | 4 => some .minN32
  | 5 => some .maxN32 | 6 => some .minF32 | 7 => some .maxF32 | 8 => some .and | 9 => some .or | 10 => some .xor
  | _ => none
/-- R75. -/
def redCode : RedFn → Nat
  | .addI32 => 0 | .addF32 => 1 | .minI32 => 2 | .maxI32 => 3 | .minN32 => 4 | .maxN32 => 5 | .minF32 => 6
  | .maxF32 => 7 | .and => 8 | .or => 9 | .xor => 10
/-- Load sizes by code; 7 is reserved (R74). -/
def ldOfCode : Nat → Option LdSize
  | 0 => some .u8 | 1 => some .s8 | 2 => some .u16 | 3 => some .s16 | 4 => some .b32 | 5 => some .b64
  | 6 => some .b128 | _ => none
/-- R74. -/
def LdSize.code : LdSize → Nat
  | .u8 => 0 | .s8 => 1 | .u16 => 2 | .s16 => 3 | .b32 => 4 | .b64 => 5 | .b128 => 6
/-- Store sizes by code; 1, 3 and 7 are reserved (R74). -/
def stOfCode : Nat → Option StSize
  | 0 => some .b8 | 2 => some .b16 | 4 => some .b32 | 5 => some .b64 | 6 => some .b128 | _ => none
/-- R74. -/
def StSize.code : StSize → Nat
  | .b8 => 0 | .b16 => 2 | .b32 => 4 | .b64 => 5 | .b128 => 6
/-- Lane-source modes by code (R162). -/
def xlOfCode : Nat → XlMode
  | 0 => .idx | 1 => .rel | 2 => .xor | _ => .wrel
/-- R162. -/
def XlMode.code : XlMode → Nat
  | .idx => 0 | .rel => 1 | .xor => 2 | .wrel => 3
/-- `atom` operations by code; 10 to 15 are reserved (R181). -/
def atomOfCode : Nat → Option AtomOp
  | 0 => some .add | 1 => some .and | 2 => some .or | 3 => some .xor | 4 => some .min | 5 => some .max
  | 6 => some .umin | 7 => some .umax | 8 => some .xchg | 9 => some .faddF32 | _ => none
/-- R181. -/
def AtomOp.code : AtomOp → Nat
  | .add => 0 | .and => 1 | .or => 2 | .xor => 3 | .min => 4 | .max => 5 | .umin => 6 | .umax => 7 | .xchg => 8
  | .faddF32 => 9
/-- Matrix formats by code; 5 to 7 are reserved (R205). -/
def mmaOfCode : Nat → Option MmaFmt
  | 0 => some .dx8 | 1 => some .dx6 | 2 => some .dx4 | 3 => some .bf16 | 4 => some .fp16 | _ => none
/-- R205. -/
def MmaFmt.code : MmaFmt → Nat
  | .dx8 => 0 | .dx6 => 1 | .dx4 => 2 | .bf16 => 3 | .fp16 => 4
/-- `drain` paths by code; 5 to 7 are reserved (R196). -/
def drainOfCode : Nat → Option DrainPath
  | 0 => some .global | 1 => some .diePad | 2 => some .cluster | 3 => some .scratch | 4 => some .host | _ => none
/-- R196. -/
def DrainPath.code : DrainPath → Nat
  | .global => 0 | .diePad => 1 | .cluster => 2 | .scratch => 3 | .host => 4
/-- System registers by number; the numbers outside R29's ranges are reserved (R28, R29). -/
def srOfCode (n : Nat) : Option SysReg :=
  match n with
  | 0 => some .wavew | 1 => some .fpmode | 2 => some .fpst | 3 => some .tfb | 4 => some .thdl | 5 => some .ckst
  | 6 => some .clk | 7 => some .quota | 8 => some .atgen | 9 => some .lkcnt | 10 => some .depth | 11 => some .rivl
  | _ => if 16 ≤ n ∧ n < 32 then some (.fw (BitVec.ofNat 4 (n - 16))) else none
/-- R28. -/
def SysReg.code : SysReg → Nat
  | .wavew => 0 | .fpmode => 1 | .fpst => 2 | .tfb => 3 | .thdl => 4 | .ckst => 5 | .clk => 6 | .quota => 7
  | .atgen => 8 | .lkcnt => 9 | .depth => 10 | .rivl => 11 | .fw n => 16 + n.toNat

/-- A predicate p0 to p23 from a field; 24 and above are reserved (R73). -/
def predOf (n : Nat) : Option (Fin 24) := if h : n < 24 then some ⟨n, h⟩ else none
/-- A predicate source: 31 reads as 1 (R75). -/
def psrcOf (n : Nat) : Option PSrc := if n = 31 then some none else (predOf n).map some
/-- The field of a predicate source. -/
def psrcCode : PSrc → Nat
  | none => 31
  | some p => p.val
/-- A branch condition from p and sense; sense 1 with p = 31 is reserved (R73). -/
def brCondOf (p sense : Nat) : Option BrCond :=
  if p = 31 then (if sense = 0 then some none else none)
  else (predOf p).map fun q => some (q, decide (sense = 1))
/-- The p field of a condition. -/
def brCondP : BrCond → Nat
  | none => 31
  | some (p, _) => p.val
/-- The sense field of a condition. -/
def brCondSense : BrCond → Nat
  | none => 0
  | some (_, s) => s.toNat

/-! ### Decoding -/

/-- Continue with an operand, or reject its code (R78 subcode 3). -/
def opd (c : Nat) (k : Opnd → Except Reject Instr) : Except Reject Instr :=
  match Opnd.ofCode c with
  | some o => k o
  | none => .error .operandKind
/-- Continue with a coded value, or reject a reserved one (R78 subcode 2). -/
def coded {α : Type} (v : Option α) (k : α → Except Reject Instr) : Except Reject Instr :=
  match v with
  | some x => k x
  | none => .error .reservedField
/-- Continue where a reserved field is 0 (R78 subcode 2). -/
def res (v : Nat) (k : Except Reject Instr) : Except Reject Instr := if v = 0 then k else .error .reservedField
/-- Continue where a code names a register, so that it can name an address pair (R73; R78 subcode 3). -/
def regCode (c : Nat) (k : Except Reject Instr) : Except Reject Instr :=
  if c < 0xC0 then k else .error .operandKind
/-- Deliver the instruction where its registers are aligned; `odd` counts registers that a pair, quad or block field
cannot name. With `strict` false alignment is not looked at (R78 subcode 5). -/
def fin (strict : Bool) (odd : Nat) (i : Instr) : Except Reject Instr :=
  if strict && (decide (odd ≠ 0) || !i.aligned) then .error .alignment else .ok i

section Fields
variable (w : Nat)
/-- SW, bit 31 (R59). -/
def fSw : Bool := decide (bitsOf w 31 31 = 1)
/-- M, bit 0 of A3 (R73). -/
def fM : Bool := decide (bitsOf w 0 0 = 1)
/-- D of A3 (R73). -/
def fD : BitVec 7 := BitVec.ofNat 7 (bitsOf w 23 17)
end Fields

/-- A3 with D, A, B and M (R73). -/
def a3 (strict : Bool) (w : Nat) (mk : Bool → BitVec 7 → Opnd → Opnd → Bool → Instr) : Except Reject Instr :=
  opd (bitsOf w 16 9) fun a => opd (bitsOf w 8 1) fun b => fin strict 0 (mk (fSw w) (fD w) a b (fM w))
/-- A3 with M reserved. -/
def a3r (strict : Bool) (w : Nat) (mk : Bool → BitVec 7 → Opnd → Opnd → Instr) : Except Reject Instr :=
  res (bitsOf w 0 0) (a3 strict w fun s d a b _ => mk s d a b)
/-- A3 with B reserved and M. -/
def a2 (strict : Bool) (w : Nat) (mk : Bool → BitVec 7 → Opnd → Bool → Instr) : Except Reject Instr :=
  res (bitsOf w 8 1) (opd (bitsOf w 16 9) fun a => fin strict 0 (mk (fSw w) (fD w) a (fM w)))
/-- A3 with B and M reserved. -/
def a2r (strict : Bool) (w : Nat) (mk : Bool → BitVec 7 → Opnd → Instr) : Except Reject Instr :=
  res (bitsOf w 0 0) (a2 strict w fun s d a _ => mk s d a)
/-- CMP (R73). -/
def cmpForm {γ : Type} (strict : Bool) (w : Nat) (cond : Nat → Option γ)
    (mk : Bool → Fin 24 → γ → Opnd → Opnd → Instr) : Except Reject Instr :=
  coded (predOf (bitsOf w 23 19)) fun pd => coded (cond (bitsOf w 18 16)) fun c =>
    opd (bitsOf w 15 8) fun a => opd (bitsOf w 7 0) fun b => fin strict 0 (mk (fSw w) pd c a b)
/-- MEM-L (R73, R74). -/
def memL (strict : Bool) (w : Nat) (mk : Bool → BitVec 7 → Pair → LdSize → BitVec 6 → Instr) : Except Reject Instr :=
  coded (ldOfCode (bitsOf w 8 6)) fun z => regCode (bitsOf w 16 9)
    (fin strict (bitsOf w 16 9 % 2) (mk (fSw w) (fD w) (Pair.ofCode (bitsOf w 16 9)) z (BitVec.ofNat 6 (bitsOf w 5 0))))
/-- MEM-S (R73, R74). -/
def memS (strict : Bool) (w : Nat) (mk : Bool → Pair → Opnd → StSize → BitVec 5 → Instr) : Except Reject Instr :=
  coded (stOfCode (bitsOf w 7 5)) fun z => regCode (bitsOf w 23 16) (opd (bitsOf w 15 8) fun x =>
    fin strict (bitsOf w 23 16 % 2) (mk (fSw w) (Pair.ofCode (bitsOf w 23 16)) x z (BitVec.ofNat 5 (bitsOf w 4 0))))
/-- XL (R73). -/
def xlForm (strict : Bool) (w : Nat) (mk : Bool → BitVec 7 → Opnd → BitVec 6 → XlMode → Instr) : Except Reject Instr :=
  res (bitsOf w 0 0) (opd (bitsOf w 16 9) fun a =>
    fin strict 0 (mk (fSw w) (fD w) a (BitVec.ofNat 6 (bitsOf w 8 3)) (xlOfCode (bitsOf w 2 1))))
/-- BR (R73). -/
def brForm (w : Nat) (mk : Bool → Bool → BrCond → BitVec 17 → Instr) : Except Reject Instr :=
  coded (brCondOf (bitsOf w 22 18) (bitsOf w 17 17)) fun c =>
    .ok (mk (fSw w) (decide (bitsOf w 23 23 = 1)) c (BitVec.ofNat 17 (bitsOf w 16 0)))
/-- `bar` (R75, R156): the count is a uniform register, a constant or a wave-uniform special. -/
def barForm (w : Nat) (mk : Bool → BitVec 4 → Opnd → Instr) : Except Reject Instr :=
  res (bitsOf w 9 0) (opd (bitsOf w 17 10) fun a =>
    let i := mk (fSw w) (BitVec.ofNat 4 (bitsOf w 21 18)) a
    if i.fieldsOk then .ok i else .error .operandKind)

/-- The instruction with opcode `op` in words `w` and `w2` (R73 to R76). -/
def decodeOp (strict : Bool) (op w w2 : Nat) : Except Reject Instr :=
  match op with
  | 0x00 => a3 strict w .add
  | 0x01 => a3 strict w .sub
  | 0x02 => a3r strict w .mulLo
  | 0x03 => a3 strict w .mulHi
  | 0x04 => a3r strict w .madLo
  | 0x05 => a3 strict w .min
  | 0x06 => a3 strict w .max
  | 0x07 => a3 strict w .absd
  | 0x08 => a3r strict w .and
  | 0x09 => a3r strict w .or
  | 0x0A => a3r strict w .xor
  | 0x0B => a3r strict w .andn
  | 0x0C => a3r strict w .shl
  | 0x0D => a3 strict w .shr
  | 0x0E => a3r strict w .rot
  | 0x0F => a3 strict w .bfe
  | 0x10 => a3r strict w .bfi
  | 0x11 => a2r strict w .popc
  | 0x12 => a2r strict w .clz
  | 0x13 => a2r strict w .ctz
  | 0x14 => a2r strict w .brev
  | 0x15 => a3r strict w .perm
  | 0x16 => a3r strict w .addI64
  | 0x17 => a3r strict w .subI64
  | 0x18 => a3 strict w .mulWide
  | 0x19 => a3 strict w .idiv
  | 0x1A => a3 strict w .irem
  | 0x1B => a3r strict w .shlI64
  | 0x1C => a3 strict w .shrI64
  | 0x20 => a3 strict w .fadd
  | 0x21 => a3 strict w .fsub
  | 0x22 => a3 strict w .fmul
  | 0x23 => a3 strict w .ffma
  | 0x24 => a3 strict w .fmin
  | 0x25 => a3 strict w .fmax
  | 0x26 => a3 strict w .fdiv
  | 0x27 => a2 strict w .fsqrt
  | 0x28 => a3 strict w .hadd
  | 0x29 => a3 strict w .hsub
  | 0x2A => a3 strict w .hmul
  | 0x2B => a3 strict w .hfma
  | 0x2C => a3 strict w .hmin
  | 0x2D => a3 strict w .hmax
  | 0x2E => a3 strict w .hdot2
  | 0x2F => a2 strict w fun s d a m => if m then .fneg s d a else .fabs s d a
  | 0x30 => cmpForm strict w ICond.ofCode .cmpI32
  | 0x31 => cmpForm strict w ICond.ofCode .cmpN32
  | 0x32 => cmpForm strict w (fun c => some (condOfCode c)) .cmpF32
  | 0x33 => cmpForm strict w (fun c => some (condOfCode c)) .cmpF64
  | 0x34 => cmpForm strict w ICond.ofCode .cmpI64
  | 0x35 => res (bitsOf w 2 1) (coded (predOf (bitsOf w 8 4)) fun p => opd (bitsOf w 16 9) fun a =>
      fin strict 0 (.movp (fSw w) (fD w) a p (decide (bitsOf w 3 3 = 1)) (fM w)))
  | 0x36 => res (bitsOf w 0 0) (coded (predOf (bitsOf w 23 19)) fun pd => coded (psrcOf (bitsOf w 18 14)) fun pa =>
      coded (psrcOf (bitsOf w 13 9)) fun pb => .ok (.plop (fSw w) pd pa pb (BitVec.ofNat 8 (bitsOf w 8 1))))
  | 0x37 => coded (predOf (bitsOf w 23 19)) fun pd => opd (bitsOf w 18 11) fun a =>
      fin strict 0 (.fcls (fSw w) pd a (BitVec.ofNat 10 (bitsOf w 10 1)) (fM w))
  | 0x38 => a2 strict w .mov
  | 0x39 =>
    let src := numTyOfCode (bitsOf w 8 6)
    let dst := numTyOfCode (bitsOf w 5 3)
    if src = dst then .error .reservedField
    else opd (bitsOf w 16 9) fun a => fin strict 0 (.cvt (fSw w) (fD w) a src dst (rmodeOfCode (bitsOf w 2 1)) (fM w))
  | 0x3A => res (bitsOf w 5 0) (coded (dxOfCode (bitsOf w 8 7)) fun f => opd (bitsOf w 16 9) fun a =>
      .ok (if bitsOf w 6 6 = 0 then .dxq (fSw w) (fD w) a f else .dxqUnpack (fSw w) (fD w) a f))
  | 0x3B => res (bitsOf w 5 0) (opd (bitsOf w 16 9) fun a => .ok (.sfu (fSw w) (fD w) a (sfuOfCode (bitsOf w 8 6))))
  | 0x3C => a2r strict w .atab
  | 0x3D => res (bitsOf w 23 17) (res (bitsOf w 0 0) (opd (bitsOf w 16 9) fun a => opd (bitsOf w 8 1) fun b =>
      .ok (.atld (fSw w) a b)))
  | 0x3E => res (bitsOf w 23 0) (.ok (.atsw (fSw w)))
  | 0x40 => xlForm strict w .shfl
  | 0x41 => xlForm strict w .push
  | 0x42 => res (bitsOf w 4 0) (coded (redOfCode (bitsOf w 8 5)) fun f => opd (bitsOf w 16 9) fun a =>
      .ok (.red (fSw w) (fD w) a f))
  | 0x43 => res (bitsOf w 3 0) (coded (redOfCode (bitsOf w 8 5)) fun f => opd (bitsOf w 16 9) fun a =>
      .ok (.scan (fSw w) (fD w) a f (decide (bitsOf w 4 4 = 1))))
  | 0x44 => res (bitsOf w 4 0) (coded (psrcOf (bitsOf w 14 10)) fun pa =>
      if bitsOf w 16 15 = 2 then
        res (bitsOf w 9 5) (if strict && decide (bitsOf w 17 17 = 1) then .error .alignment
          else .ok (.voteBallot (fSw w) (BitVec.ofNat 6 (bitsOf w 23 18)) pa))
      else res (bitsOf w 23 17) (coded (predOf (bitsOf w 9 5)) fun pd =>
        .ok (.vote (fSw w) (if bitsOf w 16 15 = 0 then .all else if bitsOf w 16 15 = 1 then .any else .eq) pa pd)))
  | 0x45 =>
    if bitsOf w 23 22 = 0 then barForm w .barArrive
    else if bitsOf w 23 22 = 1 then barForm w .barWait
    else if bitsOf w 23 22 = 2 then barForm w .barBoth
    else .error .reservedField
  | 0x46 => res (bitsOf w 18 0)
      (if h : 1 ≤ bitsOf w 23 19 ∧ bitsOf w 23 19 ≤ 16 then .ok (.rq (fSw w) ⟨bitsOf w 23 19 - 1, by omega⟩)
        else .error .reservedField)
  | 0x47 => opd (bitsOf w 23 16) fun a => .ok (.spawn (fSw w) a (BitVec.ofNat 16 (bitsOf w 15 0)))
  | 0x48 => brForm w .bra
  | 0x49 => res (bitsOf w 5 0) (opd (bitsOf w 23 16) fun a => .ok (.bri (fSw w) a (BitVec.ofNat 10 (bitsOf w 15 6))))
  | 0x4A => brForm w .call
  | 0x4B => res (bitsOf w 22 0) (.ok (.ret (fSw w) (decide (bitsOf w 23 23 = 1))))
  | 0x4C => res (bitsOf w 23 0) (.ok (.exit (fSw w)))
  | 0x4D => res (bitsOf w 18 0)
      (if bitsOf w 23 22 = 0 then .ok (.joinEnrol (fSw w) (BitVec.ofNat 3 (bitsOf w 21 19)))
        else if bitsOf w 23 22 = 1 then .ok (.joinWait (fSw w) (BitVec.ofNat 3 (bitsOf w 21 19)))
        else if bitsOf w 23 22 = 2 then .ok (.joinStrike (fSw w) (BitVec.ofNat 3 (bitsOf w 21 19)))
        else .error .reservedField)
  | 0x4E => res (bitsOf w 23 0) (.ok (.nap (fSw w)))
  | 0x50 => memL strict w .ld
  | 0x51 => memL strict w .ldl
  | 0x52 => memL strict w .lds
  | 0x53 => memL strict w .ldc
  | 0x54 => memL strict w .ldk
  | 0x55 => memL strict w .ldg
  | 0x56 => memS strict w .st
  | 0x57 => memS strict w .stl
  | 0x58 => memS strict w .sts
  | 0x59 => memS strict w .stc
  | 0x5A => memS strict w .stk
  | 0x5B => memS strict w .stg
  | 0x5C => res (bitsOf w 6 0) (coded (dxOfCode (bitsOf w 8 7)) fun f => regCode (bitsOf w 16 9)
      (fin strict (bitsOf w 16 9 % 2) (.ldblk (fSw w) (fD w) (Pair.ofCode (bitsOf w 16 9)) f)))
  | 0x5D => res (bitsOf w 4 0)
      (if bitsOf w 7 5 = 4 ∨ bitsOf w 7 5 = 5 then
        regCode (bitsOf w 23 16) (opd (bitsOf w 15 8) fun x => fin strict (bitsOf w 23 16 % 2)
          (.cmpst (fSw w) (Pair.ofCode (bitsOf w 23 16)) x (decide (bitsOf w 7 5 = 5))))
      else .error .reservedField)
  | 0x5E => res (bitsOf w 2 0)
      (if h : bitsOf w 5 3 < 5 then opd (bitsOf w 23 16) fun a =>
        .ok (.chk (fSw w) a (BitVec.ofNat 10 (bitsOf w 15 6)) ⟨bitsOf w 5 3, h⟩)
      else .error .reservedField)
  | 0x5F =>
    if bitsOf w 8 6 = 4 ∨ bitsOf w 8 6 = 5 then
      regCode (bitsOf w 16 9) (fin strict (bitsOf w 16 9 % 2) (.ldw (fSw w) (fD w) (Pair.ofCode (bitsOf w 16 9))
        (decide (bitsOf w 8 6 = 5)) (BitVec.ofNat 6 (bitsOf w 5 0))))
    else .error .reservedField
  | 0x60 => res (bitsOf w 16 1) (fin strict 0 (.movi (fSw w) (fD w) (fM w) (BitVec.ofNat 32 w2)))
  | 0x61 => res (bitsOf w 8 1) (opd (bitsOf w 16 9) fun a =>
      .ok (.addi (fSw w) (fD w) a (fM w) (BitVec.ofNat 32 w2)))
  | 0x62 => res (bitsOf w2 15 0) (res (bitsOf w 0 0) (opd (bitsOf w2 31 24) fun c =>
      a3 strict w fun s d a b _ => .lop3 s d a b c (BitVec.ofNat 8 (bitsOf w2 23 16))))
  | 0x63 => if h : bitsOf w2 31 29 < 5 then a3r strict w fun s d a b =>
        .lea s d a b ⟨bitsOf w2 31 29, h⟩ (decide (bitsOf w2 28 28 = 1)) (BitVec.ofNat 28 (bitsOf w2 27 0))
      else .error .reservedField
  | 0x64 => res (bitsOf w 5 0) (coded (ldOfCode (bitsOf w 8 6)) fun z => regCode (bitsOf w 16 9)
      (fin strict (bitsOf w 16 9 % 2)
        (.ldx (fSw w) (fD w) (Pair.ofCode (bitsOf w 16 9)) z (BitVec.ofNat 32 w2))))
  | 0x65 => res (bitsOf w 4 0) (coded (stOfCode (bitsOf w 7 5)) fun z => regCode (bitsOf w 23 16)
      (opd (bitsOf w 15 8) fun x => fin strict (bitsOf w 23 16 % 2)
        (.stx (fSw w) (Pair.ofCode (bitsOf w 23 16)) x z (BitVec.ofNat 32 w2))))
  | 0x66 => res (bitsOf w2 27 24) (coded (atomOfCode (bitsOf w2 31 28)) fun o =>
      if o = .faddF32 ∧ fM w then .error .reservedField
      else regCode (bitsOf w 16 9) (opd (bitsOf w 8 1) fun b => fin strict (bitsOf w 16 9 % 2)
        (.atom (fSw w) (fD w) (Pair.ofCode (bitsOf w 16 9)) b (fM w) o (BitVec.ofNat 24 (bitsOf w2 23 0)))))
  | 0x67 => res (bitsOf w2 23 16) (regCode (bitsOf w 16 9) (opd (bitsOf w 8 1) fun b => opd (bitsOf w2 31 24) fun c =>
      fin strict (bitsOf w 16 9 % 2)
        (.cas (fSw w) (fD w) (Pair.ofCode (bitsOf w 16 9)) b c (fM w) (BitVec.ofNat 16 (bitsOf w2 15 0)))))
  | 0x68 => res (bitsOf w 15 0) (regCode (bitsOf w 23 16) (fin strict (bitsOf w 23 16 % 2)
      (.acq (fSw w) (Pair.ofCode (bitsOf w 23 16)) (BitVec.ofNat 32 w2))))
  | 0x69 => res (bitsOf w 15 0) (regCode (bitsOf w 23 16) (fin strict (bitsOf w 23 16 % 2)
      (.rel (fSw w) (Pair.ofCode (bitsOf w 23 16)) (BitVec.ofNat 32 w2))))
  | 0x6A => res (bitsOf w2 21 0) (opd (bitsOf w2 31 24) fun c =>
      a3 strict w fun s d a b m => .ffma3 s d a b c m (rmodeOfCode (bitsOf w2 23 22)))
  | 0x6B => res (bitsOf w2 23 0) (res (bitsOf w 0 0) (opd (bitsOf w2 31 24) fun f =>
      a3 strict w fun s d a b _ => .shflx s d a b f))
  | 0x70 => res (bitsOf w 11 0)
      (if 0x80 ≤ bitsOf w 19 12 ∧ bitsOf w 19 12 < 0xC0 then
        fin strict (bitsOf w 19 12 % 4)
          (.thset (fSw w) (BitVec.ofNat 4 (bitsOf w 23 20)) (BitVec.ofNat 4 ((bitsOf w 19 12 - 0x80) / 4)))
      else .error .operandKind)
  | 0x71 => res (bitsOf w 4 0) (coded (mmaOfCode (bitsOf w 8 6)) fun f =>
      if bitsOf w 16 9 < 0x80 then fin strict (bitsOf w 16 9 % 8)
        (.mma (fSw w) (BitVec.ofNat 3 (bitsOf w 23 21)) (BitVec.ofNat 4 (bitsOf w 20 17))
          (BitVec.ofNat 4 (bitsOf w 16 9 / 8)) f (decide (bitsOf w 5 5 = 1)) (BitVec.ofNat 16 (bitsOf w2 31 16))
          (BitVec.ofNat 16 (bitsOf w2 15 0)))
      else .error .operandKind)
  | 0x72 => res (bitsOf w 11 0)
      (if bitsOf w 23 22 = 0 then fin strict (bitsOf w 18 12 % 16)
          (.accRd (fSw w) (BitVec.ofNat 3 (bitsOf w 21 19)) (BitVec.ofNat 3 (bitsOf w 18 12 / 16)))
        else if bitsOf w 23 22 = 3 then .error .reservedField
        else res (bitsOf w 18 12)
          (if bitsOf w 23 22 = 1 then .ok (.accZero (fSw w) (BitVec.ofNat 3 (bitsOf w 21 19)))
            else .ok (.accRel (fSw w) (BitVec.ofNat 3 (bitsOf w 21 19)))))
  | 0x73 => res (bitsOf w2 19 0) (res (bitsOf w 0 0) (opd (bitsOf w2 31 24) fun c => a3 strict w fun s d a b _ =>
      .mscl s d a b c (BitVec.ofNat 2 (bitsOf w2 23 22)) (BitVec.ofNat 2 (bitsOf w2 21 20))))
  | 0x74 => res (bitsOf w 5 0) (res (bitsOf w2 15 0)
      (if bitsOf w 7 6 = 3 ∨ (bitsOf w 7 6 = 0 ∧ bitsOf w2 23 16 ≠ 0xC0) then .error .reservedField
      else regCode (bitsOf w 23 16) (regCode (bitsOf w 15 8) (opd (bitsOf w2 31 24) fun len =>
        if bitsOf w 7 6 = 0 then fin strict (bitsOf w 23 16 % 2 + bitsOf w 15 8 % 2)
          (.cpy (fSw w) (Pair.ofCode (bitsOf w 23 16)) (Pair.ofCode (bitsOf w 15 8)) .none len)
        else regCode (bitsOf w2 23 16)
          (fin strict (bitsOf w 23 16 % 2 + bitsOf w 15 8 % 2 + bitsOf w2 23 16 % 2)
            (.cpy (fSw w) (Pair.ofCode (bitsOf w 23 16)) (Pair.ofCode (bitsOf w 15 8))
              (if bitsOf w 7 6 = 1 then .expand (Pair.ofCode (bitsOf w2 23 16))
                else .compact (Pair.ofCode (bitsOf w2 23 16))) len))))))
  | 0x75 => res (bitsOf w 23 0) (.ok (.cseal (fSw w)))
  | 0x76 => res (bitsOf w 20 0) (.ok (.cwait (fSw w) (BitVec.ofNat 3 (bitsOf w 23 21))))
  | 0x77 => res (bitsOf w 20 0) (coded (drainOfCode (bitsOf w 23 21)) fun p => .ok (.drain (fSw w) p))
  | 0x78 => res (bitsOf w 7 0) (.ok (.trap (fSw w) (BitVec.ofNat 16 (bitsOf w 23 8))))
  | 0x79 => res (bitsOf w 15 6) (coded (srOfCode (bitsOf w 5 0)) fun r => regCode (bitsOf w 23 16)
      (fin strict (bitsOf w 23 16 % 2) (.rdsr (fSw w) (Pair.ofCode (bitsOf w 23 16)) r)))
  | 0x7A => res (bitsOf w 15 6) (coded (srOfCode (bitsOf w 5 0)) fun r => opd (bitsOf w 23 16) fun a =>
      fin strict 0 (.wrsr (fSw w) r a))
  | 0x7B => res (bitsOf w 15 0) (regCode (bitsOf w 23 16) (fin strict (bitsOf w 23 16 % 2)
      (.launch (fSw w) (Pair.ofCode (bitsOf w 23 16)) (BitVec.ofNat 32 w2))))
  | 0x7C => res (bitsOf w 23 0) (.ok (.trig (fSw w)))
  | 0x7D => res (bitsOf w 23 0) (.ok (.rmark (fSw w)))
  | 0x7E => res (bitsOf w 23 0) (.ok (.eret (fSw w)))
  | _ => .error .reservedOpcode

/-- The opcode of a first word (R59). -/
def opcodeOf (w : Nat) : Nat := bitsOf w 30 24

/-- A two-word opcode, the reserved 0x6C to 0x6F included (R60). -/
def twoWord (op : Nat) : Bool :=
  (decide (0x60 ≤ op) && decide (op ≤ 0x6F)) || op == 0x71 || op == 0x73 || op == 0x74 || op == 0x7B

/-- Decode two words; the second is looked at only by two-word opcodes. -/
def decodeWords (strict : Bool) (w w2 : Nat) : Except Reject Instr := decodeOp strict (opcodeOf w) w w2

/-! ### Encoding -/

/-- SW and OP in place (R59). -/
def eHead (op : Nat) (sw : Bool) : Nat := sw.toNat * 2 ^ 31 + op * 2 ^ 24
/-- A3 in place (R73). -/
def eA3 (op : Nat) (sw : Bool) (d : BitVec 7) (a b m : Nat) : Nat :=
  eHead op sw + d.toNat * 2 ^ 17 + a * 2 ^ 9 + b * 2 + m
/-- CMP in place. -/
def eCmp (op : Nat) (sw : Bool) (pd : Fin 24) (c : Nat) (a b : Opnd) : Nat :=
  eHead op sw + pd.val * 2 ^ 19 + c * 2 ^ 16 + a.code * 2 ^ 8 + b.code
/-- MEM-L in place. -/
def eMemL (op : Nat) (sw : Bool) (d : BitVec 7) (a : Pair) (z off : Nat) : Nat :=
  eHead op sw + d.toNat * 2 ^ 17 + a.code * 2 ^ 9 + z * 2 ^ 6 + off
/-- MEM-S in place. -/
def eMemS (op : Nat) (sw : Bool) (a : Pair) (x : Opnd) (z off : Nat) : Nat :=
  eHead op sw + a.code * 2 ^ 16 + x.code * 2 ^ 8 + z * 2 ^ 5 + off
/-- XL in place. -/
def eXl (op : Nat) (sw : Bool) (d : BitVec 7) (a : Opnd) (k : BitVec 6) (m : XlMode) : Nat :=
  eHead op sw + d.toNat * 2 ^ 17 + a.code * 2 ^ 9 + k.toNat * 2 ^ 3 + m.code * 2
/-- BR in place. -/
def eBr (op : Nat) (sw u : Bool) (c : BrCond) (off : BitVec 17) : Nat :=
  eHead op sw + u.toNat * 2 ^ 23 + brCondP c * 2 ^ 18 + brCondSense c * 2 ^ 17 + off.toNat
/-- `bar` in place. -/
def eBar (sub : Nat) (sw : Bool) (id : BitVec 4) (c : Opnd) : Nat :=
  eHead 0x45 sw + sub * 2 ^ 22 + id.toNat * 2 ^ 18 + c.code * 2 ^ 10
/-- The metadata field of a copy (R75). -/
def Xf.metaCode : Xf → Nat
  | .none => 0xC0
  | .expand m | .compact m => m.code
/-- The xf field (R75). -/
def Xf.code : Xf → Nat
  | .none => 0 | .expand _ => 1 | .compact _ => 2

/-- The words of an instruction, first word first; an event has none. -/
def encode : Instr → List Nat
  | .add s d a b m => [eA3 0x00 s d a.code b.code m.toNat]
  | .sub s d a b m => [eA3 0x01 s d a.code b.code m.toNat]
  | .mulLo s d a b => [eA3 0x02 s d a.code b.code 0]
  | .mulHi s d a b m => [eA3 0x03 s d a.code b.code m.toNat]
  | .madLo s d a b => [eA3 0x04 s d a.code b.code 0]
  | .min s d a b m => [eA3 0x05 s d a.code b.code m.toNat]
  | .max s d a b m => [eA3 0x06 s d a.code b.code m.toNat]
  | .absd s d a b m => [eA3 0x07 s d a.code b.code m.toNat]
  | .and s d a b => [eA3 0x08 s d a.code b.code 0]
  | .or s d a b => [eA3 0x09 s d a.code b.code 0]
  | .xor s d a b => [eA3 0x0A s d a.code b.code 0]
  | .andn s d a b => [eA3 0x0B s d a.code b.code 0]
  | .shl s d a b => [eA3 0x0C s d a.code b.code 0]
  | .shr s d a b m => [eA3 0x0D s d a.code b.code m.toNat]
  | .rot s d a b => [eA3 0x0E s d a.code b.code 0]
  | .bfe s d a b m => [eA3 0x0F s d a.code b.code m.toNat]
  | .bfi s d a b => [eA3 0x10 s d a.code b.code 0]
  | .popc s d a => [eA3 0x11 s d a.code 0 0]
  | .clz s d a => [eA3 0x12 s d a.code 0 0]
  | .ctz s d a => [eA3 0x13 s d a.code 0 0]
  | .brev s d a => [eA3 0x14 s d a.code 0 0]
  | .perm s d a b => [eA3 0x15 s d a.code b.code 0]
  | .addI64 s d a b => [eA3 0x16 s d a.code b.code 0]
  | .subI64 s d a b => [eA3 0x17 s d a.code b.code 0]
  | .mulWide s d a b m => [eA3 0x18 s d a.code b.code m.toNat]
  | .idiv s d a b m => [eA3 0x19 s d a.code b.code m.toNat]
  | .irem s d a b m => [eA3 0x1A s d a.code b.code m.toNat]
  | .shlI64 s d a b => [eA3 0x1B s d a.code b.code 0]
  | .shrI64 s d a b m => [eA3 0x1C s d a.code b.code m.toNat]
  | .fadd s d a b m => [eA3 0x20 s d a.code b.code m.toNat]
  | .fsub s d a b m => [eA3 0x21 s d a.code b.code m.toNat]
  | .fmul s d a b m => [eA3 0x22 s d a.code b.code m.toNat]
  | .ffma s d a b m => [eA3 0x23 s d a.code b.code m.toNat]
  | .fmin s d a b m => [eA3 0x24 s d a.code b.code m.toNat]
  | .fmax s d a b m => [eA3 0x25 s d a.code b.code m.toNat]
  | .fdiv s d a b m => [eA3 0x26 s d a.code b.code m.toNat]
  | .fsqrt s d a m => [eA3 0x27 s d a.code 0 m.toNat]
  | .hadd s d a b m => [eA3 0x28 s d a.code b.code m.toNat]
  | .hsub s d a b m => [eA3 0x29 s d a.code b.code m.toNat]
  | .hmul s d a b m => [eA3 0x2A s d a.code b.code m.toNat]
  | .hfma s d a b m => [eA3 0x2B s d a.code b.code m.toNat]
  | .hmin s d a b m => [eA3 0x2C s d a.code b.code m.toNat]
  | .hmax s d a b m => [eA3 0x2D s d a.code b.code m.toNat]
  | .hdot2 s d a b m => [eA3 0x2E s d a.code b.code m.toNat]
  | .fabs s d a => [eA3 0x2F s d a.code 0 0]
  | .fneg s d a => [eA3 0x2F s d a.code 0 1]
  | .cmpI32 s p c a b => [eCmp 0x30 s p c.code a b]
  | .cmpN32 s p c a b => [eCmp 0x31 s p c.code a b]
  | .cmpF32 s p c a b => [eCmp 0x32 s p (condCode c) a b]
  | .cmpF64 s p c a b => [eCmp 0x33 s p (condCode c) a b]
  | .cmpI64 s p c a b => [eCmp 0x34 s p c.code a b]
  | .movp s d a p sense m =>
    [eHead 0x35 s + d.toNat * 2 ^ 17 + a.code * 2 ^ 9 + p.val * 2 ^ 4 + sense.toNat * 2 ^ 3 + m.toNat]
  | .plop s pd pa pb f =>
    [eHead 0x36 s + pd.val * 2 ^ 19 + psrcCode pa * 2 ^ 14 + psrcCode pb * 2 ^ 9 + f.toNat * 2]
  | .fcls s pd a mask m => [eHead 0x37 s + pd.val * 2 ^ 19 + a.code * 2 ^ 11 + mask.toNat * 2 + m.toNat]
  | .mov s d a m => [eA3 0x38 s d a.code 0 m.toNat]
  | .cvt s d a src dst r sat =>
    [eHead 0x39 s + d.toNat * 2 ^ 17 + a.code * 2 ^ 9 + numTyCode src * 2 ^ 6 + numTyCode dst * 2 ^ 3 +
      rmodeCode r * 2 + sat.toNat]
  | .dxq s d a f => [eHead 0x3A s + d.toNat * 2 ^ 17 + a.code * 2 ^ 9 + dxCode f * 2 ^ 7]
  | .dxqUnpack s d a f => [eHead 0x3A s + d.toNat * 2 ^ 17 + a.code * 2 ^ 9 + dxCode f * 2 ^ 7 + 2 ^ 6]
  | .sfu s d a f => [eHead 0x3B s + d.toNat * 2 ^ 17 + a.code * 2 ^ 9 + f.code * 2 ^ 6]
  | .atab s d a => [eA3 0x3C s d a.code 0 0]
  | .atld s a b => [eHead 0x3D s + a.code * 2 ^ 9 + b.code * 2]
  | .atsw s => [eHead 0x3E s]
  | .shfl s d a k m => [eXl 0x40 s d a k m]
  | .push s d a k m => [eXl 0x41 s d a k m]
  | .red s d a f => [eHead 0x42 s + d.toNat * 2 ^ 17 + a.code * 2 ^ 9 + redCode f * 2 ^ 5]
  | .scan s d a f x => [eHead 0x43 s + d.toNat * 2 ^ 17 + a.code * 2 ^ 9 + redCode f * 2 ^ 5 + x.toNat * 2 ^ 4]
  | .vote s m pa pd =>
    [eHead 0x44 s + (match m with | .all => 0 | .any => 1 | .eq => 3) * 2 ^ 15 + psrcCode pa * 2 ^ 10 + pd.val * 2 ^ 5]
  | .voteBallot s d pa => [eHead 0x44 s + d.toNat * 2 ^ 18 + 2 * 2 ^ 15 + psrcCode pa * 2 ^ 10]
  | .barArrive s id c => [eBar 0 s id c]
  | .barWait s id c => [eBar 1 s id c]
  | .barBoth s id c => [eBar 2 s id c]
  | .rq s q => [eHead 0x46 s + (q.val + 1) * 2 ^ 19]
  | .spawn s a off => [eHead 0x47 s + a.code * 2 ^ 16 + off.toNat]
  | .bra s u c off => [eBr 0x48 s u c off]
  | .bri s a t => [eHead 0x49 s + a.code * 2 ^ 16 + t.toNat * 2 ^ 6]
  | .call s u c off => [eBr 0x4A s u c off]
  | .ret s u => [eHead 0x4B s + u.toNat * 2 ^ 23]
  | .exit s => [eHead 0x4C s]
  | .joinEnrol s j => [eHead 0x4D s + j.toNat * 2 ^ 19]
  | .joinWait s j => [eHead 0x4D s + 1 * 2 ^ 22 + j.toNat * 2 ^ 19]
  | .joinStrike s j => [eHead 0x4D s + 2 * 2 ^ 22 + j.toNat * 2 ^ 19]
  | .nap s => [eHead 0x4E s]
  | .ld s d a z o => [eMemL 0x50 s d a z.code o.toNat]
  | .ldl s d a z o => [eMemL 0x51 s d a z.code o.toNat]
  | .lds s d a z o => [eMemL 0x52 s d a z.code o.toNat]
  | .ldc s d a z o => [eMemL 0x53 s d a z.code o.toNat]
  | .ldk s d a z o => [eMemL 0x54 s d a z.code o.toNat]
  | .ldg s d a z o => [eMemL 0x55 s d a z.code o.toNat]
  | .st s a x z o => [eMemS 0x56 s a x z.code o.toNat]
  | .stl s a x z o => [eMemS 0x57 s a x z.code o.toNat]
  | .sts s a x z o => [eMemS 0x58 s a x z.code o.toNat]
  | .stc s a x z o => [eMemS 0x59 s a x z.code o.toNat]
  | .stk s a x z o => [eMemS 0x5A s a x z.code o.toNat]
  | .stg s a x z o => [eMemS 0x5B s a x z.code o.toNat]
  | .ldblk s d a f => [eHead 0x5C s + d.toNat * 2 ^ 17 + a.code * 2 ^ 9 + dxCode f * 2 ^ 7]
  | .cmpst s a x w => [eMemS 0x5D s a x (4 + w.toNat) 0]
  | .chk s a r sc => [eHead 0x5E s + a.code * 2 ^ 16 + r.toNat * 2 ^ 6 + sc.val * 2 ^ 3]
  | .ldw s d a w o => [eMemL 0x5F s d a (4 + w.toNat) o.toNat]
  | .movi s d m imm => [eHead 0x60 s + d.toNat * 2 ^ 17 + m.toNat, imm.toNat]
  | .addi s d a m imm => [eA3 0x61 s d a.code 0 m.toNat, imm.toNat]
  | .lop3 s d a b c f => [eA3 0x62 s d a.code b.code 0, c.code * 2 ^ 24 + f.toNat * 2 ^ 16]
  | .lea s d a b sh x disp =>
    [eA3 0x63 s d a.code b.code 0, sh.val * 2 ^ 29 + x.toNat * 2 ^ 28 + disp.toNat]
  | .ldx s d a z off => [eMemL 0x64 s d a z.code 0, off.toNat]
  | .stx s a x z off => [eMemS 0x65 s a x z.code 0, off.toNat]
  | .atom s d a b m op off => [eA3 0x66 s d a.code b.code m.toNat, op.code * 2 ^ 28 + off.toNat]
  | .cas s d a b c m off => [eA3 0x67 s d a.code b.code m.toNat, c.code * 2 ^ 24 + off.toNat]
  | .acq s a off => [eHead 0x68 s + a.code * 2 ^ 16, off.toNat]
  | .rel s a off => [eHead 0x69 s + a.code * 2 ^ 16, off.toNat]
  | .ffma3 s d a b c m r => [eA3 0x6A s d a.code b.code m.toNat, c.code * 2 ^ 24 + rmodeCode r * 2 ^ 22]
  | .shflx s d a b f => [eA3 0x6B s d a.code b.code 0, f.code * 2 ^ 24]
  | .thset s h q => [eHead 0x70 s + h.toNat * 2 ^ 20 + (0x80 + 4 * q.toNat) * 2 ^ 12]
  | .mma s t h b f fold row0 kb =>
    [eHead 0x71 s + t.toNat * 2 ^ 21 + h.toNat * 2 ^ 17 + 8 * b.toNat * 2 ^ 9 + f.code * 2 ^ 6 + fold.toNat * 2 ^ 5,
      row0.toNat * 2 ^ 16 + kb.toNat]
  | .accRd s t d => [eHead 0x72 s + t.toNat * 2 ^ 19 + 16 * d.toNat * 2 ^ 12]
  | .accZero s t => [eHead 0x72 s + 1 * 2 ^ 22 + t.toNat * 2 ^ 19]
  | .accRel s t => [eHead 0x72 s + 2 * 2 ^ 22 + t.toNat * 2 ^ 19]
  | .mscl s d a b c br bc =>
    [eA3 0x73 s d a.code b.code 0, c.code * 2 ^ 24 + br.toNat * 2 ^ 22 + bc.toNat * 2 ^ 20]
  | .cpy s dst src xf len =>
    [eHead 0x74 s + dst.code * 2 ^ 16 + src.code * 2 ^ 8 + xf.code * 2 ^ 6, len.code * 2 ^ 24 + xf.metaCode * 2 ^ 16]
  | .cseal s => [eHead 0x75 s]
  | .cwait s n => [eHead 0x76 s + n.toNat * 2 ^ 21]
  | .drain s p => [eHead 0x77 s + p.code * 2 ^ 21]
  | .trap s c => [eHead 0x78 s + c.toNat * 2 ^ 8]
  | .rdsr s d r => [eHead 0x79 s + d.code * 2 ^ 16 + r.code]
  | .wrsr s r a => [eHead 0x7A s + a.code * 2 ^ 16 + r.code]
  | .launch s a off => [eHead 0x7B s + a.code * 2 ^ 16, off.toNat]
  | .trig s => [eHead 0x7C s]
  | .rmark s => [eHead 0x7D s]
  | .eret s => [eHead 0x7E s]
  | _ => []

/-- Decoding of a list of words, the words after the instruction ignored; none where it is not an instruction. -/
def decodeList : List Nat → Option Instr
  | [] => none
  | w :: r => (decodeWords true w (r.headD 0)).toOption

/-! ### The clause header (R62) -/

/-- The classes (R62). -/
inductive Cls | valu | uni | mem | xsf | mtx | ctrl | sys | mix
  deriving DecidableEq, Repr

/-- Classes by code (R62). -/
def Cls.ofCode : Nat → Cls
  | 0 => .valu | 1 => .uni | 2 => .mem | 3 => .xsf | 4 => .mtx | 5 => .ctrl | 6 => .sys | _ => .mix

/-- A clause header (R62): gp none is 31, unguarded. -/
structure Header where
  gs : Bool
  gp : Option (Fin 24)
  ck : Bool
  bs : Bool
  bn : Nat
  wb : Bool
  wm : Bool
  wr : Bool
  cls : Cls
  n : Nat
  deriving DecidableEq, Repr

/-- The header in a word; none where it breaks R62. -/
def decodeHeader (w : Nat) : Option Header :=
  let gp := bitsOf w 21 17
  let gs := bitsOf w 22 22
  let bn := bitsOf w 12 10
  let wb := bitsOf w 9 9
  if bitsOf w 31 23 ≠ 0 ∨ bitsOf w 16 15 ≠ 0 ∨ bitsOf w 3 0 = 0 then none
  else if 24 ≤ gp ∧ gp ≤ 30 then none
  else if gp = 31 ∧ gs = 1 then none
  else if wb = 0 ∧ bn ≠ 0 then none
  else some {
    gs := decide (gs = 1), gp := predOf gp, ck := decide (bitsOf w 14 14 = 1), bs := decide (bitsOf w 13 13 = 1),
    bn := bn, wb := decide (wb = 1), wm := decide (bitsOf w 8 8 = 1), wr := decide (bitsOf w 7 7 = 1),
    cls := Cls.ofCode (bitsOf w 6 4), n := bitsOf w 3 0 }

/-- The header of a MIX clause of one instruction that starts a block: 0x003E_2071 (R62, R66). -/
def mixHeaderWord : Nat := 0x003E2071

/-! ### Properties of opcodes (R77, R299) -/

/-- The class of an opcode (R77). -/
def opClass (op : Nat) : Cls :=
  if op ≤ 0x39 then .valu
  else if op ≤ 0x3C then .xsf
  else if op ≤ 0x3F then .sys
  else if op ≤ 0x44 then .xsf
  else if op ≤ 0x4F then .ctrl
  else if op ≤ 0x5F then .mem
  else if op ≤ 0x63 then .valu
  else if op ≤ 0x69 then .mem
  else if op = 0x6A then .valu
  else if op = 0x6B then .xsf
  else if op = 0x73 then .valu
  else if op ≤ 0x77 then .mtx
  else .sys

/-- An opcode whose class is UNI where its destination is a uniform register (R77). -/
def opVU (op : Nat) : Bool :=
  decide (op ≤ 0x2F) || op == 0x38 || op == 0x39 || (decide (0x60 ≤ op) && decide (op ≤ 0x63)) || op == 0x6A

/-- An opcode that stands last in its clause (R67). -/
def opLast (op : Nat) : Bool := op == 0x49 || op == 0x4A || op == 0x4B || op == 0x4C || op == 0x7E

/-- The opcode of an instruction; none for an event. -/
def Instr.opcode (i : Instr) : Option Nat := (encode i).head?.map opcodeOf

/-- The step is an event of the part, not an instruction of a program. -/
def Instr.isEvent (i : Instr) : Bool := (encode i).isEmpty

/-- Commit-first instructions (R299). -/
def opCommitFirst (op : Nat) : Bool :=
  op == 0x3D || op == 0x3E || op == 0x45 || op == 0x46 || op == 0x4C || op == 0x4D || op == 0x70 || op == 0x71 ||
  op == 0x72 || op == 0x76 || op == 0x77 || op == 0x78 || op == 0x7A || op == 0x7D || op == 0x7E

/-! ### Instructions inside a clause (R65, R78) -/

/-- An operand that a UNI clause allows: a uniform register, a constant or a wave-uniform special (R65). -/
def uniOpnd : Opnd → Bool
  | .lane _ => false
  | .special .lid | .special .tid | .special .spawnArg => false
  | _ => true

/-- The D field and the source operands of the opcodes that a UNI clause can hold (R65, R77). -/
def uniFields : Instr → Option (BitVec 7 × List Opnd)
  | .add _ d a b _ | .sub _ d a b _ | .mulLo _ d a b | .mulHi _ d a b _ | .madLo _ d a b | .min _ d a b _
  | .max _ d a b _ | .absd _ d a b _ | .and _ d a b | .or _ d a b | .xor _ d a b | .andn _ d a b | .shl _ d a b
  | .shr _ d a b _ | .rot _ d a b | .bfe _ d a b _ | .bfi _ d a b | .perm _ d a b | .addI64 _ d a b | .subI64 _ d a b
  | .mulWide _ d a b _ | .idiv _ d a b _ | .irem _ d a b _ | .shlI64 _ d a b | .shrI64 _ d a b _ | .fadd _ d a b _
  | .fsub _ d a b _ | .fmul _ d a b _ | .ffma _ d a b _ | .fmin _ d a b _ | .fmax _ d a b _ | .fdiv _ d a b _
  | .hadd _ d a b _ | .hsub _ d a b _ | .hmul _ d a b _ | .hfma _ d a b _ | .hmin _ d a b _ | .hmax _ d a b _
  | .hdot2 _ d a b _ | .lea _ d a b _ _ _ => some (d, [a, b])
  | .popc _ d a | .clz _ d a | .ctz _ d a | .brev _ d a | .fsqrt _ d a _ | .fabs _ d a | .fneg _ d a | .mov _ d a _
  | .cvt _ d a _ _ _ _ | .addi _ d a _ _ => some (d, [a])
  | .movi _ d _ _ => some (d, [])
  | .lop3 _ d a b c _ | .ffma3 _ d a b c _ _ => some (d, [a, b, c])
  | _ => none

/-- A UNI clause's limits on D and the sources (R65). -/
def uniOk (i : Instr) : Bool :=
  match uniFields i with
  | none => true
  | some (d, ops) => decide (d.toNat < 64) && ops.all uniOpnd

/-- The instruction in two words of a clause of class `cls`, `last` at the clause's end (R78, subcodes 1 to 5 and 8). A D of
64 to 127 in a UNI clause, which R65 calls reserved, counts as an operand kind that the clause excludes (log 45). -/
def decodeIn (cls : Cls) (last : Bool) (w w2 : Nat) : Except Reject Instr :=
  match decodeWords false w w2 with
  | .error r => .error r
  | .ok i =>
    let op := opcodeOf w
    let c := if cls = .uni ∧ opVU op then .uni else opClass op
    if cls = .uni && !uniOk i then .error .operandKind
    else if cls ≠ .mix ∧ c ≠ cls then .error .classMismatch
    else if opLast op && !last then .error .notLast
    else decodeWords true w w2

/-- An instruction read from `nbits` bits numbered as spec/opcode_table.json numbers them, every higher bit 0: the two
words laid out little-endian, first word at the lowest address, and given to the decoder (R7, R60). -/
def decodeTableWord (nbits w : Nat) : Option Instr :=
  let v := w % 2 ^ nbits
  decodeList [v % 2 ^ 32, v / 2 ^ 32 % 2 ^ 32]

end Sys2Proof
end

