-- ==== Sys2Proof/Machine/Assoc.lean ====
section
/-!
DEFINITION. Finite maps from a number to data, held as plain lists in ascending key order: the one form in
which State holds memory, registers, waves, teams and every other numbered thing.
-/
namespace Sys2Proof.Machine

variable {α : Type}

/-- The value at a key; `d` where the key is not listed. -/
def look (d : α) : List (Nat × α) → Nat → α
  | [], _ => d
  | (k', v) :: r, k => if k = k' then v else look d r k

/-- The value at a key, if the key is listed. -/
def find? : List (Nat × α) → Nat → Option α
  | [], _ => none
  | (k', v) :: r, k => if k = k' then some v else find? r k

/-- The map with `v` listed at `k`. -/
def put : List (Nat × α) → Nat → α → List (Nat × α)
  | [], k, v => [(k, v)]
  | (k', v') :: r, k, v =>
    if k < k' then (k, v) :: (k', v') :: r
    else if k = k' then (k, v) :: r
    else (k', v') :: put r k v

/-- The map without an entry at `k`. -/
def del : List (Nat × α) → Nat → List (Nat × α)
  | [], _ => []
  | (k', v') :: r, k => if k = k' then del r k else (k', v') :: del r k

/-- The map that reads `v` at `k`, with the value an unlisted key reads as (`d`) never listed. -/
def putd [DecidableEq α] (d : α) (m : List (Nat × α)) (k : Nat) (v : α) : List (Nat × α) :=
  if v = d then del m k else put m k v

/-- The canonical form: keys strictly rising and no entry equal to what an unlisted key reads as. -/
def canon [DecidableEq α] (d : α) : List (Nat × α) → Bool
  | [] => true
  | [(_, v)] => decide (v ≠ d)
  | (k, v) :: (k', v') :: r => decide (v ≠ d) && decide (k < k') && canon d ((k', v') :: r)

/-- Change the value at a key. -/
def modify (d : α) (m : List (Nat × α)) (k : Nat) (f : α → α) : List (Nat × α) := put m k (f (look d m k))

/-- Change every listed value. -/
def mapVals (f : Nat → α → α) (m : List (Nat × α)) : List (Nat × α) := m.map fun kv => (kv.1, f kv.1 kv.2)

/-- The lowest key from `from` on, among `n`, that is not listed. -/
def freeKey (m : List (Nat × α)) : Nat → Nat → Nat
  | k, 0 => k
  | k, n + 1 => if (find? m k).isSome then freeKey m (k + 1) n else k

end Sys2Proof.Machine
end

