-- ==== Sys2Proof/Machine/CoreState.lean ====
section
/-!
DEFINITION. The state of a core and of what runs on it: threads, waves, teams, the accumulator, the engines, the
range-lock table and the speculation records (R11 to R33, R131, R157, R200, R211, R225, R291 to R301, R368 to R382).
-/
namespace Sys2Proof.Machine

/-- A trap to deliver: cause, subcode and fault address (R223). -/
structure TrapInfo where
  cause : Nat
  sub : Nat
  addr : Nat
  deriving DecidableEq, Repr

/-- What a thread owes before it issues (R64): nothing, steps 1 and 2 of R63 after a resume, all three, or only step 3, its
sample taken. -/
inductive Owes | nothing | resume | entry | open_
  deriving DecidableEq, Repr

/-- What holds a thread (R150); each wait ends by the state of the core, its team or its engines. -/
inductive Hold
  | none
  /-- A header's WM and WB waits (R63), for the group's lanes. -/
  | header (m : Mask) (wm : Bool) (wb : Option Nat)
  /-- Until the wave holds no live checkpoint, its store buffer is empty and no access is unperformed (R300). -/
  | commit
  /-- Until the live checkpoint commits (R291, R292), and no load of an uncached page is outstanding (R197). -/
  | ckpt
  /-- Until store-buffer entries free (R294). -/
  | buffer
  /-- `bar.wait` with the arrival flag set (R157), with the PC and header of the `bar` (R363). -/
  | barOwn (id : Nat) (pc hdr : DWord)
  /-- `bar.wait` with the flag clear: until the phase exceeds `v` (R157). -/
  | barNext (id v : Nat) (pc hdr : DWord)
  /-- `rq` until the pool holds the rows (R159). -/
  | rq (n : Nat)
  /-- `spawn` until a bin is free for the entry address (R160). -/
  | spawn (entry : DWord)
  /-- An `ldw` park, ended by its result (R180). -/
  | ldw (id : Nat)
  /-- An `acq` park on the lock word at this virtual address (R185). -/
  | acq (va : Nat)
  /-- An `acq` or `rel` that waits for the event of its store-buffer entry (R185, R294). -/
  | event (id : Nat)
  /-- A strict-mode park on a rejoin mask (R155). -/
  | parked (j : Nat)
  /-- The trapping group before its outstanding results are written (R72). -/
  | trapWait
  /-- Until the stores of the wave's trap frame have performed (R225). -/
  | frame
  /-- At a quartet instruction, until the fourth wave issues or the engine accepts (R204). -/
  | quartet
  /-- `cwait` (R195). -/
  | batches (m : Mask) (n : Nat)
  /-- Until the core may access some bytes, by virtual address and key: to write them, or to read them (R289). -/
  | tokens (write : Bool) (need : List (Nat × Nat))
  /-- `drain`: until these copies complete (R196). -/
  | drain (ids : List Nat)
  /-- At an `eret`, until every handler thread stands at one (R227). -/
  | eret
  /-- A page fault under service, with its kind: 0 read, 1 write, 2 fetch (R276, R362, R395). -/
  | fault (va kind : Nat)
  /-- `rmark` until its context's interval closes (R231). -/
  | rmark
  /-- An `atab` or `atsw` while a switch is under way in the quarter, with its place in the order in which they were held (R134,
  R382). -/
  | bank (n : Nat)
  /-- The group of an `atsw` that has issued: until ATGEN, which was `gen`, changes (R134). -/
  | exchange (gen : DWord)
  /-- An `atld` until the clock at which the shadow bank is cleared (R382). -/
  | clear (t : Nat)
  deriving DecidableEq, Repr

/-- A thread's view of one barrier: its arrival flag, whether it has arrived since the wave's last arrival, and the
phase recorded for its latest counted arrival (R157). -/
structure BarView where
  flag : Bool := false
  since : Bool := false
  phase : Nat := 0
  deriving DecidableEq, Repr

/-- A sealed batch of copies: those unfinished, and the error mark (R193, R194). -/
structure Batch where
  copies : List Nat
  err : Option Nat
  deriving DecidableEq, Repr

/-- A thread (R11, R16, R28, R151). -/
structure Thread where
  live : Bool := true
  pc : DWord := 0
  lr : DWord := 0
  rm : BitVec 2 := 0
  fpst : BitVec 6 := 0
  back : Nat := 0
  demoted : Bool := false
  owes : Owes := .entry
  /-- The header of the clause its PC lies in (R61). -/
  hdr : DWord := 0
  hold : Hold := .none
  /-- The outstanding results it waits for, after a switch marker or at a header with WR = 1 (R63, R70). -/
  wait : List Nat := []
  /-- Held because a trap of its wave is in progress outside its group (R225). -/
  trapHeld : Bool := false
  /-- %spawn.arg (R25). -/
  arg : Word := 0
  bars : List (Nat × BarView) := []
  /-- It was saved at a `bar` that counted its arrival, and issues it again without a second one (R363, log 10). -/
  again : Bool := false
  triggered : Bool := false
  /-- Copies released since the last `cseal` (R194). -/
  open_ : List Nat := []
  /-- The error mark of an aborted copy among them (R193). -/
  openErr : Option Nat := none
  /-- Batches not yet finished, oldest first, and finished ones that still carry an error mark. -/
  batches : List Batch := []
  deriving DecidableEq, Repr

/-- One write of a result. -/
inductive Write
  | reg (r l : Nat) (w : Word)
  | unif (r : Nat) (w : Word)
  | pred (l p : Nat) (b : Bool)
  | flags (l : Nat) (f : BitVec 6)
  deriving DecidableEq, Repr

/-- One lane's access: its lane, its virtual address and the memory key of each of its bytes. -/
structure Access where
  lane : Nat
  va : Nat
  keys : List Nat
  deriving DecidableEq, Repr

/-- What an outstanding variable-latency result waits for (R69). -/
inductive Source
  /-- Values computed at issue. -/
  | value (ws : List Write)
  /-- A load; each lane reads its bytes when it performs (R176). -/
  | load (size : LdSize) (acc : List Access)
  /-- An `ldblk`: one access for each half, by the half's lowest lane (R178). -/
  | block (fmt : DxFmt) (acc : List Access)
  /-- A waiting load with the expected values; `start` is the clock of the park once it parks (R180), and `poll` the clock
  of the next reread of a park that nothing watches (R341). -/
  | wait (wide : Bool) (acc : List Access) (expect : List Nat) (start poll : Option Nat)
  /-- An atomic in the store buffer, whose event gives the result (R183). -/
  | buffered
  /-- An `acc.rd` of a slot (R213). -/
  | slot (n : Nat) (ws : List Write)
  /-- An `atab` against the bank of its quarter's generation (R133, R134). -/
  | table (ws : List Write)
  deriving DecidableEq, Repr

/-- An outstanding variable-latency result (R69). -/
structure Pend where
  id : Nat
  pc : DWord
  hdr : DWord
  mask : Mask
  /-- The first destination register. -/
  d : Nat
  /-- The registers that are pending. -/
  n : Nat
  src : Source
  /-- Issued inside the live region, so speculative (R293). -/
  spec : Bool
  /-- An access to a page with C = 0 (R282, R300). -/
  unc : Bool := false
  /-- The wave's lowest quota since its issue: rows given up are not written, even once taken back (R17, R159). -/
  cap : Nat := 128
  /-- CLK at its issue: a table read takes 18 clocks, a slot read 20 (R374, R382). -/
  at_ : Nat := 0
  deriving DecidableEq, Repr

/-- What a store-buffer entry does when it performs (R294). -/
inductive SbOp
  | store
  | atom (op : AtomOp) (wide : Bool)
  | cas (wide : Bool)
  /-- The write of 1 by the lanes that took their locks inside a region (R185). -/
  | acq
  /-- An `acq` whose lanes are decided by its event: outside a region, or in cautious mode (R185, R302). -/
  | lock
  | rel
  /-- A line of a trap frame (R225). -/
  | frame
  deriving DecidableEq, Repr

/-- One lane's part of a store-buffer entry: its data, and b and c of an atomic. -/
structure SbLane where
  acc : Access
  data : Nat
  other : Nat
  deriving DecidableEq, Repr

/-- A store-buffer entry: one instruction's accesses (R294). -/
structure SbEntry where
  id : Nat
  pc : DWord
  hdr : DWord
  mask : Mask
  op : SbOp
  lanes : List SbLane
  /-- Issued in the live region: it waits for the commit instant. -/
  spec : Bool
  deriving DecidableEq, Repr

/-- A copy's ranges and transform (R188). -/
structure CopyOp where
  id : Nat
  team : Nat
  slot : Nat
  lane : Nat
  /-- The serial number of the issuing wave. -/
  wave : Nat
  pc : DWord
  xf : Nat
  dst : Nat
  src : Nat
  len : Nat
  metaAddr : Nat
  deriving DecidableEq, Repr

/-- A buffered effect held until commit (R301). -/
inductive Effect
  | copy (c : CopyOp)
  | seal (lanes : Mask)
  | spawn (entry : DWord) (args : List Word)
  | trig (lanes : Mask)
  | launch (addr : Nat)
  deriving DecidableEq, Repr

/-- A buffered effect as its wave holds it (R301): its number in program order, the group that issued it, and whether it
belongs to the live region. -/
structure Held where
  id : Nat
  mask : Mask
  spec : Bool
  eff : Effect
  deriving DecidableEq, Repr

/-- A live checkpoint: the state R292 records, with the shadowed rows. -/
structure Checkpoint where
  threads : List (Nat × Thread)
  base : Thread
  preds : List (Nat × BitVec 24)
  unif : List (Nat × Word)
  rows : List (Nat × Word)
  /-- Rows the region has shadowed (R292). -/
  shadows : List Nat
  /-- The wave's words in error. -/
  bad : List Nat
  /-- The PC the checkpoint resumes at, to count rollbacks (R302). -/
  at_ : DWord
  deriving DecidableEq, Repr

/-- What the running step acts on: the issue group that a selection chose, with the words of its instruction (R61,
R150). -/
structure Cursor where
  core : Nat := 0
  slot : Nat := 0
  /-- Active: the lanes of the group that passed the guard (R63). -/
  active : Mask := 0
  pc : DWord := 0
  /-- The next PC (R61). -/
  npc : DWord := 0
  /-- The header of the instruction's clause. -/
  hdr : DWord := 0
  w0 : Word := 0
  w1 : Word := 0
  /-- The instruction takes class UNI (R65). -/
  uni : Bool := false
  deriving DecidableEq, Repr

/-- A trap in progress (R225): the frame's address, the wave's quota at entry (R227), the trapping group, and the trap's
PC and next PC with the headers of their clauses. -/
structure Handler where
  frame : Nat
  quota : Nat
  group : Mask
  pc : DWord
  hdr : DWord
  npc : DWord
  nhdr : DWord
  deriving DecidableEq, Repr

/-- A trap that waits for its group's results (R72): with the group's cursor, whether an instruction was read, and what
the default handler would write for it (R118). -/
structure TrapReq where
  info : TrapInfo
  group : Mask
  cur : Cursor
  fetched : Bool
  emu : List Write
  deriving DecidableEq, Repr

/-- A wave (R11, R14, R16, R292 to R302). -/
structure Wave where
  /-- Its own number, by which a copy knows its issuing thread (R377). -/
  serial : Nat := 0
  team : Nat
  wid : Nat
  quartet : Option Nat
  quota : Nat
  regs : List (Nat × Word) := []
  unif : List (Nat × Word) := []
  preds : List (Nat × BitVec 24) := []
  rejoin : List (Nat × Mask) := []
  threads : List (Nat × Thread) := []
  /-- What a thread not listed is: the state of every thread at creation. -/
  base : Thread
  tfb : DWord := 0
  cm : Word := 0
  rb : Word := 0
  pend : List Pend := []
  sbuf : List SbEntry := []
  /-- Buffered effects held, oldest first. -/
  effects : List Held := []
  ckpt : Option Checkpoint := none
  /-- A mark of the region is lost, or the wave must roll back for another reason (R297). -/
  lost : Bool := false
  region : Nat := 0
  rollbacks : Nat := 0
  /-- The checkpoint PC of the last rollback (R302). -/
  lastAt : DWord := 0
  cautious : Bool := false
  /-- Issues left of the second pass over a region that could not commit, which is cautious throughout (R298). -/
  pass : Nat := 0
  handler : Option Handler := none
  /-- A trap raised, waiting for the group's results and for commit (R72, R114). -/
  trapReq : Option TrapReq := none
  phases : List (Nat × Nat) := []
  /-- The count read at the wave's latest arrival issue, by barrier (R157). -/
  barCounts : List (Nat × Nat) := []
  /-- The quartet instruction at which it waits (R204). -/
  rdv : Option Cursor := none
  /-- The access to an uncached page that the wave issued last, whose value has been sent (R403). -/
  sent : Option Cursor := none
  /-- Abort marks by tag (R210). -/
  aborts : List (Nat × TrapInfo) := []
  /-- Register words that their code could not correct and that nothing has written since (R401): a lane register by
  64 × row + lane, a uniform register by 8192 + its number. -/
  bad : List Nat := []
  deriving DecidableEq, Repr

/-- A barrier (R156). -/
structure Barrier where
  count : Nat := 0
  phase : Nat := 0
  deriving DecidableEq, Repr

/-- A granted region (R171, R348). -/
structure Region where
  base : Nat
  len : Nat
  ro : Bool
  deriving DecidableEq, Repr

/-- A spawn bin in use (R160, R356). -/
structure Bin where
  team : Nat
  entry : DWord
  args : List Word
  /-- CLK at which the timer expires; none before its first entry and after an expiry (R160). -/
  expires : Option Nat
  /-- An expiry found no slot or rows: the bin forms its wave once both are free (R356). -/
  dueWave : Bool
  deriving DecidableEq, Repr

/-- A team (R11, R33, R56, R156, R159, R171, R200, R229, R283). -/
structure Team where
  live : Bool := true
  /-- The grid's handle; none for firmware's team of a core reset (R40). -/
  grid : Option Nat := none
  index : Nat := 0
  x : Nat := 0
  y : Nat := 0
  z : Nat := 0
  waves : Nat := 1
  quartets : Nat := 0
  /-- `.slots` (R56). -/
  slots : Nat := 8
  /-- QUOTA × 8. -/
  quota : Nat := 128
  /-- The core the team is resident on; none when it is queued or saved. -/
  core : Option Nat := none
  lkcnt : Nat := 0
  /-- THDL of firmware's team, 0 at core reset, where no launch record gives it (log 1); a grid's is in the grid (R28). -/
  fwThdl : DWord := 0
  bars : List (Nat × Barrier) := []
  handles : List (Nat × BitVec 128) := []
  /-- Slots bound to tags, by 8 × quartet + tag (R23, R211). -/
  tags : List (Nat × Nat) := []
  pools : List (Nat × Nat) := []
  regions : List (Nat × Region) := []
  /-- Regions declared by the kernel. -/
  numRegions : Nat := 0
  /-- Entry counts and offsets of jump tables, from the entry header (R146). -/
  tables : List (Nat × List Int) := []
  /-- The sealed entry header (R146). -/
  entry : DWord := 0
  lpriv : Nat := 0
  scratch : Nat := 0
  /-- Scratchpad offset of each wave's lane-private block, and of the team scratch (R283). -/
  blocks : List (Nat × Nat) := []
  scratchAt : Nat := 0
  /-- Records in the launch buffer: the 128 bytes read at commit, as one number (R229). -/
  launches : List Nat := []
  /-- The entry of its core's range-lock table reserved for each of its quartets (R379). -/
  reserved : List (Nat × Nat) := []
  /-- CLK at which this residency began (R351, R358). -/
  since : Nat := 0
  /-- Every wave has triggered or retired (R230). -/
  triggered : Bool := false
  /-- A page whose fault the team was saved for, and pages faulted once already (R362). -/
  faulted : List Nat := []
  /-- Pages awaited before restore (R362). -/
  waiting : List Nat := []
  /-- A pre-emption or reclaim is due, with the clock at which its deferral ends (R358, R360). -/
  due : Option Nat := none
  /-- The die, and its dispatcher's clock, since which the team has been passed over (R6, R353). -/
  passed : Option (Nat × Nat) := none
  /-- The order in which it became ready to restore (R352). -/
  readyAt : Option Nat := none
  /-- The core on which rows or blocks of a pre-empted team still stand, marked with the team as their stale owner: rows by
  quarter, and blocks by their number in the frame, offset and length (R361). -/
  stale : Option Nat := none
  staleRows : List Nat := []
  staleBlocks : List (Nat × Nat × Nat) := []
  /-- Page faults to be posted when the save that they began has ended: address and kind (R362). -/
  posting : List (Nat × Nat) := []
  /-- It is being taken off its core: its waves have rolled back and issue nothing (R361, R362). -/
  saving : Bool := false
  /-- Its whole grid is pre-empted at a deadline, locks or not (R358, R360). -/
  forced : Bool := false
  /-- Its quarter has been fenced, and it is to be restored elsewhere; it has been, and has issued nothing since (R402,
  R403). -/
  fencedOff : Bool := false
  retry : Bool := false
  /-- The team frame of a saved team (R363): its waves by 4 × index + quarter, the bytes of its lane-private blocks by
  2^22 × (index + 1) + offset and of its scratch by offset, its bound slots, its active banks by quarter, and its bins
  with the cycles left to their timers. -/
  saved : List (Nat × Wave) := []
  savedBytes : List (Nat × Byte) := []
  savedSlots : List (Nat × List (Nat × Word)) := []
  savedBanks : List (Nat × List (Nat × Word)) := []
  savedBins : List Bin := []
  deriving DecidableEq, Repr

/-- An entry of the range-lock table (R378). -/
structure LockEntry where
  v : Bool := false
  dst : Bool := false
  eng : Bool := false
  rsv : Bool := false
  wave : Nat := 0
  seq : Nat := 0
  len : Nat := 0
  start : Nat := 0
  /-- CLK from which thread accesses are checked against it: they see the table as it stood before a clock's registrations
  (R380). -/
  from_ : Nat := 0
  deriving DecidableEq, Repr

/-- A released copy (R375): its operation number and whether it is active. -/
structure Copy where
  op : CopyOp
  /-- Its place in the order of registration among the core's engine operations (R191). -/
  reg : Nat
  seq : Nat
  /-- Its entries of the range-lock table. -/
  entries : List Nat
  active : Bool
  /-- Dense bytes not yet moved (R375). -/
  left : Nat
  /-- Pages whose fault has been posted for it (R362). -/
  faulted : List Nat
  deriving DecidableEq, Repr

/-- A matrix operation the engine has accepted (R369 to R372). -/
structure MmaOp where
  /-- Its place in the order of registration among the core's engine operations (R191). -/
  reg : Nat
  team : Nat
  quartet : Nat
  tag : Nat
  slot : Nat
  stage : Nat
  fmt : MmaFmt
  fold : Bool
  handle : BitVec 128
  row0 : Nat
  kb : Nat
  /-- The 32-element blocks of B read at acceptance, by 4 × column + k-block (R206, R370). -/
  b : List (Nat × Nat)
  bRead : Bool
  /-- The 32-element blocks of A, by 4 × row + k-block, once fetched; unlisted ones are zeros (R207, R371). -/
  a : Option (List (Nat × Nat))
  /-- The words of memory, by key ÷ 4, of which the fetcher holds a token (R209). -/
  held : List Nat
  started : Bool
  /-- CLK of its acceptance and of its start (R370, R372). -/
  acceptAt : Nat
  startAt : Nat
  /-- Groups of the mismatches so far: the second one of a group computes on its neighbour (R373). -/
  replays : List Nat
  lock : Option Nat
  /-- Pages whose fault has been posted for it (R210). -/
  faulted : List Nat
  deriving DecidableEq, Repr

/-- A rendezvous that has completed and waits: an `mma` for the engine (R369), or an `acc.zero` for a slot (R211, R374). -/
structure MmaWait where
  team : Nat
  quartet : Nat
  tag : Nat
  /-- An `acc.zero` that waits for a slot, not an `mma` (R211). -/
  zero : Bool
  /-- CLK of the rendezvous, and the slot of its quartet-index-0 wave, which orders those of one clock (R369). -/
  at_ : Nat
  slot0 : Nat
  /-- Its place in the order in which bindings became due, once it waits for a slot (R374). -/
  due : Option Nat
  handle : Nat
  b : Nat
  fmt : MmaFmt
  fold : Bool
  row0 : Nat
  kb : Nat
  deriving DecidableEq, Repr

/-- An accumulator slot in use (R211, R214). -/
structure AccSlot where
  data : List (Nat × Word) := []
  /-- The tag is unbound and the slot waits for the reads already issued (R214). -/
  releasing : Bool := false
  /-- Its words that their code could not correct (R401). -/
  bad : List Nat := []
  deriving DecidableEq, Repr

/-- One activation bank (R131): its owner team and 770 words, unlisted ones 0. -/
structure Bank where
  owner : Option Nat := none
  words : List (Nat × Word) := []
  deriving DecidableEq, Repr

/-- A quarter (R131, R134, R150). -/
structure Quarter where
  /-- The slot selected last (R150). -/
  last : Nat := 15
  /-- CLK from which the issue port is free (R150). -/
  free : Nat := 0
  active : Bank := {}
  shadow : Bank := {}
  atgen : DWord := 0
  /-- An exchange waits for the `atab` in flight (R134); the team that switched. -/
  switching : Option Nat := none
  /-- CLK from which `atab` may issue, after an exchange or a restore, and up to which the shadow bank is cleared (R382). -/
  bankFree : Nat := 0
  clearEnd : Nat := 0
  deriving DecidableEq, Repr

/-- A speculative mark: wave slot, the line of its keys and the span of words (R293). -/
structure Mark where
  slot : Nat
  line : Nat
  f : Nat
  n : Nat
  deriving DecidableEq, Repr

/-- A span record (R320). -/
structure Span where
  f : Nat
  n : Nat
  tk : Nat
  o : Bool
  dm : BitVec 32
  oc : Nat
  deriving DecidableEq, Repr

/-- A line in an L1 (R279): its virtual line and tag (none is G), its leaf's W and S, and its span records. A core's L1
holds a line under one virtual address at a time (R280), so lines are kept by their physical number. -/
structure L1Line where
  va : Nat
  asid : Option Nat
  w : Bool
  sealed_ : Bool
  spans : List Span
  deriving DecidableEq, Repr

/-- An outstanding request of a core for tokens (R323, R328): its number, the line, and the virtual line it fills. -/
structure TokenReq where
  num : Nat
  line : Nat
  va : Nat
  f : Nat
  n : Nat
  write : Bool
  /-- CLK of its issue, and failures so far (R328). -/
  at_ : Nat
  fails : Nat
  persistent : Bool
  /-- The context number that the request carries (R405). -/
  ctx : Option Nat
  deriving DecidableEq, Repr

/-- A TLB entry (R276): page base and size in bytes, its tag (none is global) and the leaf. -/
structure TlbEntry where
  base : Nat
  size : Nat
  asid : Option Nat
  leaf : Nat
  deriving DecidableEq, Repr

/-- A core (R3, R28, R40, R150, R279, R293, R368 to R382). -/
structure Core where
  clk : DWord := 0
  /-- Strict mode or normal service (R40). -/
  strict : Bool := true
  /-- fw3, CORECTL (R40). -/
  corectl : DWord := 0
  /-- fw0 to fw15 but fw0, fw1 and fw3, which have a home elsewhere; unlisted ones 0. -/
  fw : List (Nat × DWord) := []
  waves : List (Nat × Wave)
  quarters : List (Nat × Quarter) := []
  locks : List (Nat × LockEntry) := []
  copies : List Copy := []
  seq : Nat := 0
  /-- CLK up to which the copy engine's moves are accounted for, and whose turn is next (R375). -/
  copyAt : Nat := 0
  copyTurn : Nat := 0
  /-- CLK at which operations that waited for range locks are looked at again (R375, R381). -/
  wake : Option Nat := none
  acc : List (Nat × AccSlot) := []
  mmaWait : List MmaWait := []
  mmas : List MmaOp := []
  /-- CLK from which the fetcher is free (R371). -/
  fetchFree : Nat := 0
  bins : List (Nat × Bin) := []
  marks : List Mark := []
  l1 : List (Nat × L1Line) := []
  reqs : List TokenReq := []
  /-- The core TLB, newest first (R276). -/
  tlb : List TlbEntry := []
  /-- The partition whose lines the L1 holds, and that last ran here (R337, R359). -/
  tenant : Option Nat := none
  /-- Fenced quarters (R402). -/
  fenced : List Nat := []
  /-- CLK up to which the cycles of its resident teams have been metered (R397). -/
  cycAt : Nat := 0
  /-- Instructions whose latest attempt had a pipeline-error mismatch: wave slot and PC (R402). -/
  mismatches : List (Nat × Nat) := []
  deriving DecidableEq, Repr

end Sys2Proof.Machine
end

