-- ==== Sys2Proof/Machine/DieState.lean ====
section
/-!
DEFINITION. The state of coherence, of the dispatchers and of management: slice frames, home directories, messages in
flight, the persistent-request arbiters, LLC lines, kernels, grids, contexts, partitions and the device registers
(R266 to R273, R318 to R340, R344 to R364, R383 to R416, R418).
-/
namespace Sys2Proof.Machine

/-- The states of R319, R330 and R332. -/
inductive Moesi | m | o | e | s | i
  deriving DecidableEq, Repr

/-- A message in flight on a die's mesh, or between a die and a line's home (R323, R331). -/
inductive Msg
  | gets (core line f n num : Nat) (ctx : Option Nat)
  | getx (core line f n num : Nat) (ctx : Option Nat)
  /-- To the holder `dest`, for the requester's request of that number. -/
  | fwd (dest core line f n num : Nat) (write : Bool)
  /-- From a core, or from the home slice of `die` where `src` is none, to a core, or to that slice where `dest` is none. -/
  | tok (die : Nat) (src dest : Option Nat) (line : Nat) (spans : List Span)
  /-- From the slice to a holding core. -/
  | recall (core line : Nat)
  | done (core line f n num : Nat) (spans : List Span)
  | notice (die core line : Nat) (spans : List Span)
  | rds (die line : Nat) (ctx : Option Nat)
  | rdx (die line : Nat) (ctx : Option Nat)
  | upg (die line : Nat) (ctx : Option Nat)
  | evs (die line : Nat)
  | eve (die line : Nat)
  | wbm (die line : Nat) (mask : BitVec 32)
  | wbo (die line : Nat) (mask : BitVec 32)
  /-- To the owner die, for the requester. -/
  | fwds (owner die line : Nat)
  | fwdx (owner die line : Nat)
  | inv (dest line : Nat)
  | binv (dest line : Nat)
  /-- With the sectors that it carries (R266). -/
  | data (die line : Nat) (mask : BitVec 32) (grant : Moesi) (sectors : BitVec 4)
  /-- A completion: from a probed die to the home, or from the home to a die (`toHome` false), there for an eviction or
  for an Upg. -/
  | ack (die line : Nat) (toHome evict : Bool) (mask : BitVec 32)
  deriving DecidableEq, Repr

/-- A local request that waits at its home slice (R319, R322). -/
structure LocalReq where
  core : Nat
  /-- Its number, and the virtual line it fills (R280, R323). -/
  num : Nat
  va : Nat
  f : Nat
  n : Nat
  write : Bool
  /-- The context number that the request carries (R405). -/
  ctx : Option Nat
  deriving DecidableEq, Repr

/-- A line's frame in its home slice on one die (R319, R320, R322). -/
structure Frame where
  st : Moesi := .i
  recs : List Span := []
  /-- The partition of the latest request for the line (R337, R397). -/
  part : Option Nat := none
  /-- The sectors of the line that the frame holds (R266). -/
  valid : BitVec 4 := 0
  /-- Cores of the die that hold a record, with the virtual line each holds it under: the reverse map (R280, R325). -/
  holders : List (Nat × Nat) := []
  /-- Requests that the die's outstanding request will let the slice serve, in arrival order (R342). -/
  waiting : List LocalReq := []
  /-- Requests that wait for its end, for a recall or for a starved core, to be treated as new ones (R322, R328, R342). -/
  later : List LocalReq := []
  /-- GETX requests served and not yet DONE (R325, R327). -/
  serving : List LocalReq := []
  /-- The die's own request at the home directory (R333). -/
  asked : Option Moesi := none
  /-- The line is under recall: the frame needs a fifth record (R322), or a probe waits for it (R333). -/
  recalled : Bool := false
  probed : Bool := false
  /-- The line's dirty words that the slice answers for. -/
  dm : BitVec 32 := 0
  deriving DecidableEq, Repr

/-- What completes a request that a home is serving: data or an Ack once every probe is acknowledged, the owner's data,
or the end of a capacity eviction (R332). -/
inductive After | data | ack | owner | free
  deriving DecidableEq, Repr

/-- The request that a home is serving for a line: its die (8 for none), the dies whose Acks it waits for, the context
number it carried. -/
structure Busy where
  die : Nat
  acks : List Nat
  after : After
  ctx : Option Nat
  deriving DecidableEq, Repr

/-- A home directory entry (R330, R336). -/
structure Dir where
  st : Moesi := .i
  owner : Nat := 0
  sharers : BitVec 8 := 0
  busy : Option Busy := none
  queue : List Msg := []
  groups : BitVec 16 := 0
  ownerChip : Option Nat := none
  /-- The order of its last use, for replacement (R330). -/
  used : Nat := 0
  deriving DecidableEq, Repr

/-- An entry of a die's arbiter (R328). -/
structure Persistent where
  core : Nat
  line : Nat
  f : Nat
  n : Nat
  write : Bool
  active : Bool
  deriving DecidableEq, Repr

/-- The nine metering counters of R397, in offset order from 0x080. -/
inductive Meter | cyc | kdx8 | kdx4 | kh16 | vis | drd | dwr | nlb | hlb
  deriving DecidableEq, Repr

/-- A line in a die's notice buffer (R334): its state, dirty words and sectors at the eviction, and whether the home has served
a newer request of the die, so that the eviction is to be discarded. -/
structure Notice where
  line : Nat
  st : Moesi
  mask : BitVec 32
  valid : BitVec 4
  stale : Bool
  deriving DecidableEq, Repr

/-- A die (R281, R328, R334, R353, R397, R411). -/
structure Die where
  /-- Local cycles of the die's dispatcher (R6, R353, R360). -/
  clk : Nat := 0
  /-- The die TLB, newest first (R276). -/
  tlb : List TlbEntry := []
  padWays : Nat := 0
  arbiter : List Persistent := []
  /-- The core whose persistent request was served last (R329); none was, so core 0 comes first (DESIGN CHOICE, log 107). -/
  lastServed : Nat := 127
  noticeBuf : List Notice := []
  deadRouters : List Nat := []
  /-- The routers' tables once a router is dead (R412), by source × 128 + destination: the route's kind, the output port and the
  via router. -/
  routes : List (Nat × List Nat) := []
  /-- Events not yet reported to Ulusor, by partition × 16 + counter, and for each of the die's cores with unreported events
  the CLK of the first (R397). -/
  unreported : List (Nat × Nat) := []
  meterSince : List (Nat × Nat) := []
  deriving DecidableEq, Repr

/-- A region as a kernel declares it (R240, R254). -/
structure KRegion where
  kind : Nat
  base : Nat
  len : Nat
  dataOff : Nat
  dataLen : Nat
  minLen : Nat
  written : Bool
  granule : Nat
  deriving DecidableEq, Repr

/-- A sealed kernel or runtime library with its descriptor's fields (R239, R254). -/
structure Kernel where
  part : Nat
  /-- The sealed entry header. -/
  entry : Nat
  codeBytes : Nat
  dest : Nat
  destBytes : Nat
  runtime : Bool
  regs : Nat
  waves : Nat
  quartets : Nat
  slots : Nat
  lpriv : Nat
  scratch : Nat
  clusMin : Nat
  padMin : Nat
  regions : List KRegion
  /-- The least argument block (R248, R254). -/
  argsMin : Nat
  tables : List (List Int)
  /-- The physical pages of its sealed code and data, in order, and the virtual page that the first has. -/
  pages : List Nat
  firstPage : Nat
  unloading : Bool := false
  deriving DecidableEq, Repr

/-- A grid's place in its life (R349 to R351). -/
inductive GridState | waiting | queued | ended
  deriving DecidableEq, Repr

/-- A grid (R11, R13, R347 to R351). -/
structure Grid where
  id : Nat
  part : Nat
  kid : Nat
  depth : Nat
  parent : Option Nat
  /-- The context: the handle of the host-launched grid it descends from (R405). -/
  ctx : Nat
  prio : Nat
  early : Bool
  gx : Nat
  gy : Nat
  gz : Nat
  waves : Nat
  quota : Nat
  lpriv : Nat
  scratch : Nat
  clus : Nat
  dpad : Nat
  timer : Nat
  deps : List Nat
  cmpl : Nat
  thdl : DWord
  argsAt : Nat
  regions : List (Nat × Region)
  /-- The order of parsing (R352). -/
  seq : Nat
  st : GridState
  /-- The die, and its dispatcher's clock, since which its next team has been passed over (R6, R353). -/
  passed : Option (Nat × Nat)
  /-- Teams not yet placed: the next index; placed, live and retired teams. -/
  nextTeam : Nat
  liveTeams : Nat
  retiredTeams : Nat
  /-- Teams that have triggered or exited (R230). -/
  triggeredTeams : Nat
  liveChildren : Nat
  status : Nat
  trap : Option (TrapInfo × Nat × Nat × Nat)
  copyErr : Option Nat
  cycles : Nat
  /-- The scratchpad share on each core of a cluster it runs on, and the pad part on each die (R285, R286, R355). -/
  clusAt : List (Nat × Nat)
  padAt : List (Nat × Nat)
  /-- The die that placed its previous team (R353). -/
  lastDie : Option Nat
  deriving DecidableEq, Repr

/-- An entry of a context's undo log (R405, R406). -/
structure LogEntry where
  line : Nat
  /-- The interval's number, RIVL at the append. -/
  interval : DWord
  old : List Byte
  shared : Bool
  /-- Its place in the order of appending over all contexts. -/
  seq : Nat
  deriving DecidableEq, Repr

/-- A context's recovery state (R405 to R410). -/
structure Context where
  rivl : DWord := 0
  log : List LogEntry := []
  /-- The 64 KiB units that the older frame set takes in the context area (R390, R407). -/
  spare : Nat := 0
  /-- The current frame set: the context's teams with their waves (R407); none without a closed interval. -/
  frames : Option (List (Nat × Team)) := none
  /-- The context's grids as they stood at that close. -/
  grids : List (Nat × Grid) := []
  closing : Bool := false
  rolledBack : Bool := false
  deriving DecidableEq, Repr

/-- A page-service command in progress (R394, R418). -/
structure PageCmd where
  page : Nat
  code : Nat
  deriving DecidableEq, Repr

/-- A partition, that is, a logical device (R384 to R398). -/
structure Partition where
  created : Bool := false
  ready : Bool := false
  rst : Bool := false
  err : Nat := 0
  clusters : BitVec 128 := 0
  colours : BitVec 128 := 0
  asidBase : Nat := 0
  asidCount : Nat := 0
  memBytes : Nat := 0
  pad : Nat := 0
  /-- ASID entries in use, by index: root and PASID (R392). -/
  asids : List (Nat × (Nat × Nat)) := []
  bias : Option PageCmd := none
  biasErr : Bool := false
  gran : Option PageCmd := none
  granErr : Bool := false
  counters : List (Nat × Nat) := []
  nonce : DWord := 0
  time : DWord := 0
  requests : List Nat := []
  recSeq : Nat := 0
  prevHash : List Byte := []
  key : Nat := 0
  slice : Nat := 2 ^ 22
  /-- Next slot and phase of the fault queue, and entries not freed: page and ASID (R395). -/
  fqNext : Nat := 0
  fqPhase : Bool := true
  fqOpen : List (Nat × Nat) := []
  /-- Faults that wait for an entry: page address, grid ID, kind, core (R395). -/
  unposted : List (Nat × Nat × Nat × Nat) := []
  /-- Statuses of ended grids, newest first, at most 1024 (R350). -/
  ended : List (Nat × Nat) := []
  assigned : Nat := 0
  /-- Launch slots whose nonzero slot byte has been seen and that are not parsed yet, in order (R346). -/
  slotsSeen : List Nat := []
  lastDie : Option Nat := none
  /-- Ring entries named by ADMDB and not processed yet, and the entry processed last (R234, R238). -/
  admPending : List Nat := []
  admLast : Nat := 63
  /-- Creations so far: a new launch key each time. -/
  creations : Nat := 0
  deriving DecidableEq, Repr

/-- An admit request that the Pavane unit of a die has taken up (R235, R238): its ring entry, since when by that die's
clock, what its entry and its image's header hold, and the physical pages of its destination, which are in admission. -/
structure Checking where
  part : Nat
  index : Nat
  unit : Nat
  since : Nat
  dest : Nat
  bytes : Nat
  fault : Nat
  desc : Nat
  image : Nat
  size : Nat
  head : List Byte
  pas : List Nat
  deriving DecidableEq, Repr

/-- The management state of the device (R383, R388, R399, R414 to R416). -/
structure Device where
  ready : Bool := false
  minimal : Bool := false
  failed : Bool := false
  reason : Nat := 0
  step : Nat := 0
  die : Nat := 0
  detail : Nat := 0
  fwb : Bool := false
  startCnt : Nat := 0
  cxl : Bool := true
  mbCmd : Nat := 0
  mbBusy : Bool := false
  mbStatus : Nat := 0
  mbReq : List (Nat × Byte) := []
  mbRes : List (Nat × Byte) := []
  /-- Nellys ports that are down, and their error counts (R399). -/
  downPorts : List Nat := []
  portErrors : List (Nat × Nat) := []
  /-- The ports' trained lanes and rates in GT/s (R399). -/
  ports : List (Nat × (Nat × Nat)) := []
  /-- The partitions of the usage-record requests not yet served, in order (R398). -/
  usage : List Nat := []
  /-- The final usage record of the latest destruction of each partition (R391). -/
  finalRecords : List (Nat × List Byte) := []
  lostChips : List Nat := []
  /-- Sealed libraries in the runtime area, by offset: kernel handle (R390). -/
  libraries : List (Nat × Nat) := []
  /-- First free offset of the runtime area. -/
  runtimeTop : Nat := 0
  /-- Requests of the firmware admission ring (R388). -/
  fwRing : List (Nat × Byte) := []
  fwPending : List Nat := []
  /-- The 64-byte descriptors of the sealed libraries, by offset, kept in system memory (R254, log 30). -/
  libDescs : List (Nat × List Byte) := []
  /-- Unloads that a Pavane unit has taken up: partition, ring entry, kernel ID (R237, R238). -/
  unloads : List (Nat × Nat × Nat) := []
  /-- Admissions that the Pavane units have taken up (R235, R238). -/
  checking : List Checking := []
  /-- The partition that the Pavane units served last (R238). -/
  lastAdmit : Nat := 15
  /-- The cores that a spare stands for, with the spare's number on its die: with the rest of a die's own cores they are its
  enabled cores (R3, R413). -/
  spares : List (Nat × Nat) := []
  /-- Cores out of placement or lost (R402, R411). -/
  lostCores : List Nat := []
  /-- The partition that the dispatchers served last (R353). -/
  lastPart : Nat := 15
  /-- Local cycles of the management core, and those at which the start began (R6, R414). -/
  clk : Nat := 0
  startAt : Nat := 0
  /-- What the device's latest answer to a host read carries (R314). -/
  hostData : Nat := 0
  /-- Clusters under reclaim, with the clock of its start (R360). -/
  reclaims : List (Nat × Nat) := []
  deriving DecidableEq, Repr

/-- The host's grant of a line by CXL.cache (R287): for ownership or to share, given or only asked for. -/
structure HostGrant where
  own : Bool
  given : Bool
  deriving DecidableEq, Repr

/-- A memory controller's record of a stack (R404): where the scrub stands, symbols corrected in this pass by
pseudo-channel × 64 + pin, dead pins, and pins that a start has mapped onto spares. -/
structure Stack where
  /-- Corrections of reads logged for firmware (R269). -/
  logged : Nat := 0
  /-- Local cycles of the memory controller, and those at which the scrub pass began (R6, R404). -/
  clk : Nat := 0
  passAt : Nat := 0
  scrubAt : Nat := 0
  corrected : List (Nat × Nat) := []
  /-- Symbols that stand wrong in DRAM: chunk and pin (R269). -/
  wrong : List (Nat × Nat) := []
  dead : List Nat := []
  spared : List Nat := []
  deriving DecidableEq, Repr

end Sys2Proof.Machine
end

