-- ==== Sys2Proof/Machine/State.lean ====
section
/-!
DEFINITION. The state of the machine, all of it plain data, what an unlisted part of it is, and the state after reset
(R40, R414).
-/
namespace Sys2Proof.Machine

/-- Why a step can stop. No step of this model stops with a fault: every trap of the spec is taken (R225), and every
address either has bytes or raises the access-violation trap (R34). Nothing raises one, so it is safe. -/
inductive Fault
  deriving DecidableEq, Repr

/-- Why an instruction has no meaning in the model. -/
inductive Refusal
  /-- Raised by Dispatch alone, for an instruction without a meaning; safe. -/
  | notModelled (mnemonic : String)
  deriving DecidableEq, Repr

/-- The state of the part. -/
structure State where
  /-- Bytes of DRAM and host memory at their PA, of scratchpads and pads at the keys of Ops; see `Memory.wf`. -/
  mem : List Host.Cell := []
  /-- Poisoned 32-byte sectors of PA, and poisoned words of on-chip memories, by their first keys, as the caches or, where no
  cache holds them, DRAM give them (R270, R401). -/
  poison : List Nat := []
  /-- Sectors that stand as poison in DRAM while a cache holds them good (R270). -/
  dramPoison : List Nat := []
  /-- Granule codes by page; unlisted pages are G128, code 2 (R268). -/
  granules : List (Nat × Nat) := []
  /-- Pages in host bias (R268). -/
  hostBias : List Nat := []
  /-- Lines that the device has asked the host for by CXL.cache, or been granted (R287). -/
  hostGrants : List (Nat × HostGrant) := []
  hbmStacks : List (Nat × Stack) := []
  /-- LLC lines: valid and dirty sectors (R266, R273). -/
  llc : List (Nat × (BitVec 4 × BitVec 4)) := []
  cores : List (Nat × Core) := []
  teams : List (Nat × Team) := []
  grids : List (Nat × Grid) := []
  kernels : List (Nat × Kernel) := []
  contexts : List (Nat × Context) := []
  parts : List (Nat × Partition) := []
  dies : List (Nat × Die) := []
  /-- Slice frames, by 8 × line + die. -/
  frames : List (Nat × Frame) := []
  /-- Home directory entries, by line. -/
  dirs : List (Nat × Dir) := []
  msgs : List Msg := []
  /-- Writes of units of the device, by keys and value, that wait for words of which a fetcher holds a token (R209, R289). -/
  unitWaits : List (List Nat × Nat) := []
  device : Device := {}
  /-- Next handle of a team or grid, and of a kernel ID. -/
  nextHandle : Nat := 2048
  nextKid : Nat := 1
  /-- Next place in an order, and next number of a wave; firmware's waves of a core reset have number 0. -/
  nextSeq : Nat := 1
  /-- What other agents and the host do next (model's own field, log 3). -/
  inputs : List Instr := []
  /-- Which core selects next, in turns of 4096 (model's own field, log 3). -/
  turn : Nat := 0
  /-- The group of the running step (model's own field, log 4). -/
  cur : Cursor := {}
  /-- The counter that free values are drawn by (model's own field, log 4). -/
  fresh : Nat := 0
  deriving DecidableEq, Repr

/-- A thread of the wave that core reset forms (R40): at FWBASE's first instruction, owing the clause entry. -/
def fwThread : Thread :=
  { pc := BitVec.ofNat 64 (Config.fwBase + 4), hdr := BitVec.ofNat 64 Config.fwBase }

/-- The frame of the trap area that belongs to a core's wave slot, in partition n's system range (R390). -/
def trapFrame (part core slot : Nat) : Nat := (16 * part + 15) * 2 ^ 48 + (core * 64 + slot) * 0x9000

/-- The wave that core reset forms: slot 0 of quarter 0, 64 lanes, quota 128 (R40); TFB is the model's choice, and so are
s0 and s1, which read 0: there is no argument block (log 1). -/
def fwWave (core : Nat) : Wave :=
  { team := core, wid := 0, quartet := none, quota := 128, base := fwThread,
    tfb := BitVec.ofNat 64 (trapFrame 0 core 0) }

/-- A core after core reset (R40). fw4 and fw5 hold what start-up step 3 gives them, after a core reset by management, too
(DESIGN CHOICE, log 42). -/
def resetCore (core : Nat) : Core := { waves := [(0, fwWave core)] }

/-- Firmware's team of a core (R40). -/
def fwTeam (core : Nat) : Team := { core := some core }

namespace State

/-- A core; one that is not listed is as core reset left it. -/
def core (s : State) (k : Nat) : Core := look (resetCore k) s.cores k
/-- The state with a core replaced. -/
def setCore (s : State) (k : Nat) (c : Core) : State := { s with cores := put s.cores k c }
/-- A team; handles below 1024 are firmware's teams. -/
def team (s : State) (k : Nat) : Team := look (fwTeam k) s.teams k
/-- The state with a team replaced. -/
def setTeam (s : State) (k : Nat) (t : Team) : State := { s with teams := put s.teams k t }
/-- A partition. -/
def part (s : State) (n : Nat) : Partition := look {} s.parts n
/-- The state with a partition replaced. -/
def setPart (s : State) (n : Nat) (p : Partition) : State := { s with parts := put s.parts n p }
/-- A die. -/
def die (s : State) (n : Nat) : Die := look {} s.dies n
/-- The state with a die replaced. -/
def setDie (s : State) (n : Nat) (d : Die) : State := { s with dies := put s.dies n d }
/-- The state with a grid replaced. -/
def setGrid (s : State) (n : Nat) (g : Grid) : State := { s with grids := put s.grids n g }
/-- A context. -/
def context (s : State) (n : Nat) : Context := look {} s.contexts n
/-- The state with a context replaced. -/
def setContext (s : State) (n : Nat) (c : Context) : State := { s with contexts := put s.contexts n c }
/-- A slice frame of a line on a die. -/
def frame (s : State) (die line : Nat) : Frame := look {} s.frames (8 * line + die)
/-- The state with a slice frame replaced. -/
def setFrame (s : State) (die line : Nat) (f : Frame) : State := { s with frames := put s.frames (8 * line + die) f }
/-- A home directory entry. -/
def dir (s : State) (line : Nat) : Dir := look {} s.dirs line
/-- The state with a directory entry replaced. -/
def setDir (s : State) (line : Nat) (d : Dir) : State := { s with dirs := put s.dirs line d }

/-- The machine right after reset (R40, R414 step 5): memory lists nothing, every core is as core reset leaves it. -/
def reset : State := {}

end State
end Sys2Proof.Machine
end

