-- ==== Sys2Proof/Machine/Memory.lean ====
section
/-!
DEFINITION. Memory: its canonical form, the keys under which each byte of the part is held, poison, the address windows
of R34 to R36, translation (R263, R274 to R278, R384, R390) and the check of one access (R172, R173).
-/
namespace Sys2Proof.Machine

/-! ### Bytes -/

/-- Memory lists only bytes that differ from 0, at strictly rising keys. -/
def Memory.wf (m : List Host.Cell) : Bool := canon (0 : Byte) m

/-- What a byte that nothing has written reads as: 0 (R414 step 5; for on-chip memory log 1). -/
def unlistedByte : Byte := 0

/-- The byte at a key. -/
def readByte (s : State) (k : Nat) : Byte := look unlistedByte s.mem k
/-- The state with one byte written. -/
def writeByte (s : State) (k : Nat) (b : Byte) : State := { s with mem := putd unlistedByte s.mem k b }
/-- The little-endian number in the bytes at a list of keys (R7). -/
def readKeys (s : State) (keys : List Nat) : Nat := ofBytes (keys.map (readByte s))
/-- The state with a number's bytes written at a list of keys, least significant first (R7). -/
def writeKeys (s : State) : List Nat → Nat → State
  | [], _ => s
  | k :: r, v => writeKeys (writeByte s k (BitVec.ofNat 8 v)) r (v / 256)
/-- n consecutive keys. -/
def keysFrom (k n : Nat) : List Nat := (List.range n).map (k + ·)
/-- n bytes at a physical address. -/
def readPA (s : State) (pa n : Nat) : Nat := readKeys s (keysFrom pa n)
/-- n bytes written at a physical address. -/
def writePA (s : State) (pa n v : Nat) : State := writeKeys s (keysFrom pa n) v
/-- A list of bytes written from a physical address on. -/
def writeBytes (s : State) : Nat → List Byte → State
  | _, [] => s
  | pa, b :: r => writeBytes (writeByte s pa b) (pa + 1) r
/-- n bytes read from a physical address on. -/
def readBytes (s : State) (pa n : Nat) : List Byte := (keysFrom pa n).map (readByte s)
/-- The state with the keys written 0. -/
def zeroKeys (s : State) (keys : List Nat) : State := { s with mem := keys.foldl (fun m k => del m k) s.mem }
/-- The state with every byte from `lo` to `lo + n − 1` written 0. -/
def zeroRange (s : State) (lo n : Nat) : State :=
  { s with mem := s.mem.filter fun c => decide (c.1 < lo) || decide (lo + n ≤ c.1) }

/-! ### Keys of on-chip memory -/

/-- The first key that is no physical address (R263). -/
def onChip : Nat := 2 ^ 52
/-- The key of a byte of a core's scratchpad (R283). -/
def scratchKey (core o : Nat) : Nat := onChip + core * 2 ^ 18 + o
/-- The key of a byte of a partition's part of a slice's pad ways on a die; the whole pad, in minimal mode, is that of number 16
(R281, R286, R415). -/
def padKey (part die slice o : Nat) : Nat := 2 ^ 53 + part * 2 ^ 29 + die * 2 ^ 26 + slice * 131072 + o
/-- The line of a key. -/
def lineOf (k : Nat) : Nat := k / 128

/-! ### Poison -/

/-- The unit that poison covers: a 32-byte sector of memory, a word of an on-chip memory (R270, R401). -/
def poisonUnit (k : Nat) : Nat := if k < onChip then k / 32 * 32 else k / 4 * 4
/-- The bytes of a poison unit. -/
def poisonLen (k : Nat) : Nat := if k < onChip then 32 else 4
/-- The first of the keys that is poisoned. -/
def firstPoison (s : State) (keys : List Nat) : Option Nat := keys.find? fun k => s.poison.contains (poisonUnit k)
/-- Poison the units of some keys. -/
def addPoison (s : State) (keys : List Nat) : State :=
  { s with poison := keys.foldl (fun p k => if p.contains (poisonUnit k) then p else poisonUnit k :: p) s.poison }
/-- A write of all these keys clears the poison of a unit it covers whole (R270). -/
def clearPoison (s : State) (keys : List Nat) : State :=
  { s with poison := s.poison.filter fun u => !((keysFrom u (poisonLen u)).all fun k => keys.contains k) }

/-! ### Windows (R34) -/

/-- The address windows. -/
inductive Win | global | host | pad | cluster | scratch | lane
  deriving DecidableEq, Repr

/-- A window's first address. -/
def Win.first : Win → Nat
  | .global => 0 | .host => 0x100_0000_0000_0000 | .pad => 0x1FF_0000_0000_0000 | .cluster => 0x1FF_0001_0000_0000
  | .scratch => 0x1FF_0002_0000_0000 | .lane => 0x1FF_0003_0000_0000
/-- A window's last address. -/
def Win.last : Win → Nat
  | .global => 0x0FF_FFFF_FFFF_FFFF | .host => 0x1FE_FFFF_FFFF_FFFF | .pad => 0x1FF_0000_FFFF_FFFF
  | .cluster => 0x1FF_0001_00FF_FFFF | .scratch => 0x1FF_0002_000F_FFFF | .lane => 0x1FF_0003_0000_FFFF
/-- The window of an address, if it has one. -/
def windowOf (a : Nat) : Option Win :=
  [Win.global, .host, .pad, .cluster, .scratch, .lane].find? fun w => decide (w.first ≤ a) && decide (a ≤ w.last)
/-- A window that is translated (R274). -/
def Win.translated : Win → Bool
  | .global | .host => true
  | _ => false

/-! ### Teams, grids and partitions of an access -/

/-- The grid of a team. -/
def State.gridOf (s : State) (t : Team) : Option Grid := t.grid.bind (find? s.grids)
/-- The partition of a team; none for firmware's. -/
def State.partOf (s : State) (t : Team) : Option Nat := (s.gridOf t).map (·.part)
/-- Colours of a partition, ascending (R271). -/
def colourList (p : Partition) : List Nat := (List.range 128).filter fun i => p.colours.getLsbD i
/-- The physical address of page i of a partition's memory: the pages of its colours in ascending order (R386, log 13). -/
def partPage (p : Partition) (i : Nat) : Nat :=
  let cs := colourList p
  Config.deviceNumber * 2 ^ 40 + ((i / cs.length) * 128 + cs.getD (i % cs.length) 0) * 65536
/-- The physical address of an offset in a partition's memory (R384). -/
def partPA (p : Partition) (off : Nat) : Nat := partPage p (off / 65536) + off % 65536
/-- The partition's ASID that its grids run under: its first (log 14). -/
def asidOf (p : Partition) : Nat := p.asidBase

/-! ### Translation (R263, R274 to R276, R384, R390) -/

/-- A leaf as an access uses it. -/
structure Leaf where
  /-- The physical address of the byte asked for. -/
  pa : Nat
  w : Bool
  sealed_ : Bool
  c : Bool
  deriving DecidableEq, Repr

/-- The granule code of a page (R268). -/
def State.granule (s : State) (pa : Nat) : Nat := look 2 s.granules (pa / 65536)
/-- The page is in device bias (R268). -/
def State.devBias (s : State) (pa : Nat) : Bool := !s.hostBias.contains (pa / 65536)
/-- A physical address that R263 gives to something in the domain. -/
def validPA (pa : Nat) : Bool :=
  (decide (pa < 2 ^ 46) && decide (pa / 2 ^ 40 < Config.domain)) || (decide (2 ^ 51 ≤ pa) && decide (pa < 2 ^ 52))
/-- The address lies in this device's DRAM. -/
def ownDram (pa : Nat) : Bool := decide (pa / 2 ^ 40 = Config.deviceNumber)
/-- Some byte of the range lies in a partition's control area (R384). -/
def coversControl (s : State) (pa size : Nat) : Bool :=
  s.parts.any fun p => p.2.created && decide (pa < partPage p.2 0 + 65536) && decide (partPage p.2 0 < pa + size)

/-- The bytes that a leaf of a level maps. -/
def levelSize (level : Nat) : Nat := if level = 0 then 2 ^ 16 else if level = 1 then 2 ^ 21 else 2 ^ 30

/-- An entry is valid at a level (R275): V, no reserved field, an LV the level allows. -/
def pteValid (level e : Nat) : Bool :=
  decide (bitsOf e 0 0 = 1) && decide (bitsOf e 63 52 = 0) && decide (bitsOf e 11 10 = 0) &&
  (match bitsOf e 2 1 with
   | 0 => decide (0 < level)
   | lv => decide (level + 1 = lv))

/-- The granule and bias tables agree with a leaf's GR and B for every page of the leaf (R268). Unlisted pages are G128, in
device bias. -/
def tablesAgree (s : State) (base size gr b : Nat) : Bool :=
  let n := size / 65536
  let within (p : Nat) : Bool := decide (base / 65536 ≤ p) && decide (p < base / 65536 + n)
  (if gr = 2 then !(s.granules.any fun g => within g.1)
    else decide ((s.granules.filter fun g => within g.1 && g.2 == gr).length = n)) &&
  (if b = 1 then !(s.hostBias.any within) else decide ((s.hostBias.filter within).eraseDups.length = n))

/-- A valid leaf maps: G fits the window, the page is aligned and exists, GR and B agree with the tables for device
DRAM, and the control area is not covered (R263, R268, R275, R384). -/
def leafOk (s : State) (level va e : Nat) : Bool :=
  let size := levelSize level
  let base := bitsOf e 51 12 * 4096
  decide (bitsOf e 9 9 = if va < Win.host.first then 1 else 0) && decide (base % size = 0) && validPA base &&
  (!ownDram base || tablesAgree s base size (bitsOf e 8 7) (bitsOf e 6 6)) &&
  !coversControl s base size

/-- The walk from a table at `table`, at `level`; the depth falls with the level (R274). -/
def walkFrom (s : State) (va : Nat) : Nat → Nat → Option (Nat × Nat)
  | 0, table =>
    let e := readPA s (table + 8 * bitsOf va 20 16) 8
    if pteValid 0 e && leafOk s 0 va e then some (0, e) else none
  | level + 1, table =>
    let idx := bitsOf va (21 + 9 * level + 8) (21 + 9 * level)
    let e := readPA s (table + 8 * idx) 8
    if pteValid (level + 1) e then
      if bitsOf e 2 1 = 0 then walkFrom s va level (bitsOf e 51 12 * 4096)
      else if leafOk s (level + 1) va e then some (level + 1, e) else none
    else none

/-- The leaf entry that the device itself installs for partition n's system range: level, entry (R390). -/
def systemLeaf (s : State) (va : Nat) : Option (Nat × Nat) :=
  let n := va / 2 ^ 48 / 16
  let o := va % 2 ^ 48
  let mk (pa : Nat) (w sl : Nat) : Option (Nat × Nat) :=
    some (0, pa / 65536 * 65536 + 2 ^ 9 + 2 * 2 ^ 7 + 2 ^ 6 + sl * 2 ^ 5 + 2 ^ 4 + w * 2 ^ 3 + 2 + 1)
  if !(s.part n).created then none
  else if o < 0x9000_0000 then mk (Config.trapBase n + o) 1 0
  else if 2 ^ 32 ≤ o ∧ o < 2 ^ 32 + 0x6000_0000 then mk (Config.trapBase n + 0x9000_0000 + (o - 2 ^ 32)) 1 0
  else if 2 ^ 33 ≤ o ∧ o < 2 ^ 33 + 0x1000_0000 then mk (Config.runtimeBase + (o - 2 ^ 33)) 0 1
  else none

/-- The walk of a translated address for a partition (R274, R383, R390); in minimal mode no memory holds a table (R415). -/
def walk (s : State) (part : Option Nat) (va : Nat) : Option (Nat × Nat) :=
  let i4 := va / 2 ^ 48
  if s.device.minimal then none
  else if i4 < 256 then
    if i4 % 16 = 15 then systemLeaf s va
    else
      let e := readPA s (Config.globalRoot + 8 * i4) 8
      if pteValid 4 e then walkFrom s va 3 (bitsOf e 51 12 * 4096) else none
  else
    match part with
    | none => none
    | some n =>
      match find? (s.part n).asids 0 with
      | none => none
      | some (root, _) =>
        if !s.device.cxl then none
        else
          let e := readPA s (root + 8 * i4) 8
          if pteValid 4 e then walkFrom s va 3 (bitsOf e 51 12 * 4096) else none

/-- The tag of a TLB entry: none for the global window (R276). -/
def tlbTag (s : State) (part : Option Nat) (va : Nat) : Option Nat :=
  if va < Win.host.first then none else some ((part.map fun n => asidOf (s.part n)).getD 0)

/-- The entry of a TLB that maps an address under a tag (R276). -/
def tlbHit (ts : List TlbEntry) (tag : Option Nat) (va : Nat) : Option TlbEntry :=
  ts.find? fun t => decide (t.base ≤ va) && decide (va < t.base + t.size) && decide (t.asid = tag)

/-- The set of an entry in a TLB of so many sets: the low bits of its page number (log 33). -/
def TlbEntry.set (sets : Nat) (t : TlbEntry) : Nat := t.base / t.size % sets

/-- The entries of a TLB, but those of one set after the first `n` of it. -/
def keepWays (sets set : Nat) : Nat → List TlbEntry → List TlbEntry
  | _, [] => []
  | n, t :: r =>
    if t.set sets = set then
      match n with
      | 0 => keepWays sets set 0 r
      | n + 1 => t :: keepWays sets set n r
    else t :: keepWays sets set n r

/-- An entry taken into a TLB: the oldest of a full set leaves (R276, log 33). -/
def tlbInsert (sets ways : Nat) (t : TlbEntry) (ts : List TlbEntry) : List TlbEntry :=
  t :: keepWays sets (t.set sets) (ways - 1) ts

/-- The entry that maps an address for a core: of its own TLB, of its die's, or of the walk (R276). -/
def tlbEntry (s : State) (core : Nat) (part : Option Nat) (va : Nat) : Option TlbEntry :=
  let tag := tlbTag s part va
  match tlbHit (s.core core).tlb tag va with
  | some t => some t
  | none =>
    match tlbHit (s.die (core / 128)).tlb tag va with
    | some t => some t
    | none => (walk s part va).map fun (level, e) =>
        { base := va / levelSize level * levelSize level, size := levelSize level, asid := tag, leaf := e }

/-- The leaf of an entry, for an address it maps. -/
def TlbEntry.leafAt (t : TlbEntry) (va : Nat) : Leaf :=
  { pa := bitsOf t.leaf 51 12 * 4096 + (va - t.base) % t.size, w := decide (bitsOf t.leaf 3 3 = 1),
    sealed_ := decide (bitsOf t.leaf 5 5 = 1), c := decide (bitsOf t.leaf 4 4 = 1) }

/-- The leaf that maps an address (R276). -/
def translate (s : State) (core : Nat) (part : Option Nat) (va : Nat) : Option Leaf :=
  (tlbEntry s core part va).map (·.leafAt va)

/-- The line of a core's L1 that holds an address's virtual line (R276, R279). -/
def l1Hit (s : State) (core : Nat) (part : Option Nat) (va : Nat) : Option (Nat × L1Line) :=
  (s.core core).l1.find? fun e => e.2.va == va / 128 && e.2.asid == tlbTag s part va

/-- The leaf that a data access uses: a line of the core's L1 under this address carries its own, and only a miss is
translated (R276, R279). -/
def dataLeaf (s : State) (core : Nat) (part : Option Nat) (va : Nat) : Option Leaf :=
  match l1Hit s core part va with
  | some e => some { pa := 128 * e.1 + va % 128, w := e.2.w, sealed_ := e.2.sealed_, c := true }
  | none => translate s core part va

/-- The TLBs take an entry for an address they translate: 64 sets of 8 ways in a core, 2048 of 16 in a die (R276). -/
def tlbFill (s : State) (core : Nat) (part : Option Nat) (va : Nat) : State :=
  let tag := tlbTag s part va
  if (tlbHit (s.core core).tlb tag va).isSome then s
  else match tlbEntry s core part va with
    | none => s
    | some t =>
      let d := s.die (core / 128)
      let s := if (tlbHit d.tlb tag va).isSome then s
        else s.setDie (core / 128) { d with tlb := tlbInsert 2048 16 t d.tlb }
      let c := s.core core
      s.setCore core { c with tlb := tlbInsert 64 8 t c.tlb }

/-- A physical page is in admission: a write to it is refused as one to a sealed page is (R38, R235). -/
def inAdmission (s : State) (pa : Nat) : Bool := s.device.checking.any fun a => a.pas.contains (pa / 65536 * 65536)

/-! ### The check of one access -/

/-- What a check finds: the keys of the bytes and whether the page is cacheable, a trap, or a missing translation. -/
inductive Fate
  | ok (keys : List Nat) (cacheable : Bool)
  | trap (t : TrapInfo)
  | miss (va : Nat)
  deriving DecidableEq, Repr

/-- Who accesses: core, wave slot and lane, with their wave and team. -/
structure Who where
  core : Nat
  lane : Nat
  wave : Wave
  team : Team

/-- The bytes that the launch allots in an on-chip window (R35, R283, R285, R286). -/
def allotment (s : State) (w : Who) : Win → Nat
  | .lane => w.team.lpriv
  | .scratch => w.team.scratch
  | .cluster => ((s.gridOf w.team).map (·.clus)).getD 0
  | .pad => ((s.gridOf w.team).map (·.dpad)).getD 0
  | _ => 0

/-- The key of offset o of an on-chip window (R284 to R286). -/
def chipKey (s : State) (w : Who) (win : Win) (o : Nat) : Nat :=
  let g := s.gridOf w.team
  match win with
  | .lane => scratchKey w.core (look 0 w.team.blocks w.wave.wid + 256 * (o / 4) + 4 * w.lane + o % 4)
  | .scratch => scratchKey w.core (w.team.scratchAt + o)
  | .cluster =>
    let core := w.core / 8 * 8 + o / 256 % 8
    scratchKey core (look 0 ((g.map (·.clusAt)).getD []) core + 256 * (o / 2048) + o % 256)
  | .pad =>
    let die := w.core / 128
    padKey ((s.partOf w.team).getD 0) die (o / 256 % 384) (look 0 ((g.map (·.padAt)).getD []) die + 256 * (o / 98304) + o % 256)
  | _ => 0

/-- Translation and permission of the bytes of a range, page by page in address order (R172 step 4, R276). -/
def checkPages (s : State) (core : Nat) (part : Option Nat) (write : Bool) : List Nat → List Nat → Bool → Fate
  | [], acc, c => .ok acc c
  | va :: r, acc, c =>
    match dataLeaf s core part va with
    | none => .miss va
    | some l =>
      if write && (l.sealed_ || inAdmission s l.pa) then .trap { cause := 8, sub := 5, addr := va }
      else if write && !l.w then .trap { cause := 8, sub := 4, addr := va }
      else checkPages s core part write r (acc ++ [l.pa]) (c && l.c)

/-- Steps 2 to 4 of R172 for n bytes at va; `form` is the window a window form asks for (R34, R35, R170, R173). -/
def checkRange (s : State) (w : Who) (form : Option Win) (write : Bool) (va n : Nat) : Fate :=
  match windowOf va with
  | none => .trap { cause := 8, sub := 1, addr := va }
  | some win =>
    if form.isSome && form != some win then .trap { cause := 8, sub := 1, addr := va }
    else if win.last < va + n - 1 then .trap { cause := 6, sub := 0, addr := win.last + 1 }
    else if win.translated then checkPages s w.core (s.partOf w.team) write (keysFrom va n) [] true
    else
      let o := va - win.first
      let lim := allotment s w win
      if lim < o + n then .trap { cause := 8, sub := 2, addr := win.first + max o lim }
      else .ok ((keysFrom o n).map (chipKey s w win)) false

/-- The team of the operation that holds an entry of the range-lock table. -/
def lockTeam (c : Core) (n : Nat) : Nat :=
  match c.copies.find? fun x => x.entries.contains n with
  | some x => x.op.team
  | none => ((c.mmas.find? fun m => m.lock == some n).map (·.team)).getD 0

/-- An address names the same bytes for two teams of a core (R35): in the translated windows always, in those of a grid for
teams of one grid, else for one team. -/
def sameSpace (s : State) (va t u : Nat) : Bool :=
  match windowOf va with
  | some .global | some .host => true
  | some .pad | some .cluster => (s.team t).grid == (s.team u).grid
  | _ => t == u

/-- Step 5 of R172: the range-lock table of the issuing core, by virtual address, where that names the same bytes for the
operation's team, as it stood before this clock's registrations (R190, R380). -/
def checkLocks (s : State) (core team : Nat) (write : Bool) (va n : Nat) : Option TrapInfo :=
  let c := s.core core
  let hits (dst : Bool) (a : Nat) : Bool :=
    c.locks.any fun e => e.2.v && decide (e.2.from_ ≤ c.clk.toNat) && (e.2.dst == dst) && decide (e.2.start ≤ a) &&
      decide (a < e.2.start + e.2.len) && sameSpace s a team (lockTeam c e.1)
  let bytes := keysFrom va n
  match bytes.find? (hits true) with
  | some a => some { cause := 9, sub := 0, addr := a }
  | none =>
    if write then (bytes.find? (hits false)).map fun a => { cause := 9, sub := 1, addr := a } else none

/-- The whole check of R172 for one access of n bytes with a size code; `align` 1 is no alignment rule. -/
def checkAccess (s : State) (w : Who) (form : Option Win) (write : Bool) (align code va n : Nat) : Fate :=
  if va % align ≠ 0 then .trap { cause := 7, sub := code, addr := va }
  else match checkRange s w form write va n with
    | .ok keys c =>
      match checkLocks s w.core w.wave.team write va n with
      | some t => .trap t
      | none => .ok keys c
    | f => f

end Sys2Proof.Machine
end

