-- ==== Sys2Proof/Machine/Waves.lean ====
section
/-!
DEFINITION. The named operations over registers, predicates, threads and waves (R16, R20, R42), the performing of a
write with the marks it takes (R289, R293), and the metering of events (R397).
-/
namespace Sys2Proof.Machine

/-! ### Waves and threads -/

/-- What a slot without a wave reads as: a wave with no live thread. -/
def noWave : Wave := { team := 0, wid := 0, quartet := none, quota := 0, base := { live := false } }

/-- One write of a result made to a checkpoint's image. -/
def Checkpoint.write (k : Checkpoint) : Write → Checkpoint
  | .reg r l v => { k with rows := putd 0 k.rows (r * 64 + l) v, bad := k.bad.filter (· ≠ r * 64 + l) }
  | .unif r v => { k with unif := putd 0 k.unif r v, bad := k.bad.filter (· ≠ 8192 + r) }
  | .pred l p b =>
    let x := look (0 : BitVec 24) k.preds l
    { k with preds := putd 0 k.preds l (if b then x ||| BitVec.twoPow 24 p else x &&& ~~~(BitVec.twoPow 24 p)) }
  | .flags l f =>
    let t := look k.base k.threads l
    { k with threads := put k.threads l { t with fpst := t.fpst ||| f } }

/-- The writes of a result but those to rows that its wave has given up since its issue (R17, R159). -/
def Pend.kept (p : Pend) (ws : List Write) : List Write :=
  ws.filter fun x => match x with
    | .reg r _ _ => decide (r < p.cap)
    | _ => true

namespace Wave

/-- The thread of a lane. -/
def thread (w : Wave) (l : Nat) : Thread := look w.base w.threads l
/-- The wave with a thread replaced. -/
def setThread (w : Wave) (l : Nat) (t : Thread) : Wave := { w with threads := put w.threads l t }
/-- Lane register r of lane l (R16). -/
def reg (w : Wave) (r l : Nat) : Word := look 0 w.regs (r * 64 + l)
/-- The wave with a lane register written. -/
def setReg (w : Wave) (r l : Nat) (v : Word) : Wave :=
  { w with regs := putd 0 w.regs (r * 64 + l) v, bad := w.bad.filter (· ≠ r * 64 + l) }
/-- Uniform register s[r] (R16). -/
def uni (w : Wave) (r : Nat) : Word := look 0 w.unif r
/-- The wave with a uniform register written. -/
def setUni (w : Wave) (r : Nat) (v : Word) : Wave :=
  { w with unif := putd 0 w.unif r v, bad := w.bad.filter (· ≠ 8192 + r) }
/-- The predicate word of lane l (R16). -/
def predWord (w : Wave) (l : Nat) : BitVec 24 := look 0 w.preds l
/-- Predicate p of lane l. -/
def pred (w : Wave) (l p : Nat) : Bool := (w.predWord l).getLsbD p
/-- The wave with a predicate word written. -/
def setPredWord (w : Wave) (l : Nat) (x : BitVec 24) : Wave := { w with preds := putd 0 w.preds l x }
/-- The wave with predicate p of lane l written. -/
def setPred (w : Wave) (l p : Nat) (b : Bool) : Wave :=
  w.setPredWord l (if b then w.predWord l ||| BitVec.twoPow 24 p else w.predWord l &&& ~~~(BitVec.twoPow 24 p))
/-- The wave with a change made to the threads of a list of lanes. -/
def mapThreads (f : Nat → Thread → Thread) : List Nat → Wave → Wave
  | [], w => w
  | l :: r, w => mapThreads f r (w.setThread l (f l (w.thread l)))
/-- The wave with flags set in a thread's FPST (R31). -/
def stick (w : Wave) (l : Nat) (f : BitVec 6) : Wave :=
  w.setThread l { w.thread l with fpst := (w.thread l).fpst ||| f }
/-- One write of a result (R42). -/
def write (w : Wave) : Write → Wave
  | .reg r l v => w.setReg r l v
  | .unif r v => w.setUni r v
  | .pred l p b => w.setPred l p b
  | .flags l f => w.stick l f
/-- A list of writes, in order. -/
def writes : List Write → Wave → Wave
  | [], w => w
  | x :: r, w => writes r (w.write x)
/-- A write is made: the lane registers, predicates and flags of a thread that has exited are not written again (R12). -/
def takes (w : Wave) : Write → Bool
  | .reg _ l _ | .pred l _ _ | .flags l _ => (w.thread l).live
  | .unif .. => true
/-- A list of writes made to the image that a live checkpoint holds, too: those of a result older than the region, which a
rollback keeps (R292, R297). -/
def deliver (spec : Bool) (ws : List Write) (w : Wave) : Wave :=
  let ws := ws.filter w.takes
  let w := writes ws w
  if spec then w else { w with ckpt := w.ckpt.map fun k => ws.foldl Checkpoint.write k }
/-- A change made to the threads of some lanes, and, where it belongs to what is older than the region, to the image that a
live checkpoint holds of them (R292, R297). -/
def mapBoth (spec : Bool) (f : Nat → Thread → Thread) (ls : List Nat) (w : Wave) : Wave :=
  let w := mapThreads f ls w
  if spec then w
  else { w with ckpt := w.ckpt.map fun k =>
    { k with threads := ls.foldl (fun ts l => put ts l (f l (look k.base ts l))) k.threads } }
/-- The lanes whose threads are live. -/
def liveMask (w : Wave) : Mask := maskOf ((List.range 64).filter fun l => (w.thread l).live)
/-- An access of the wave has not performed (R291); the reads of an `ldw` that has parked have. -/
def unperformed (w : Wave) : Bool :=
  !w.sbuf.isEmpty || w.pend.any fun p => match p.src with
    | .load .. | .block .. | .buffered => true
    | .wait _ _ _ start _ => start.isNone
    | _ => false
/-- A load of an uncached page has not performed (R197, R282). -/
def uncLoad (w : Wave) : Bool :=
  w.pend.any fun p => p.unc && (match p.src with
    | .load .. | .block .. => true
    | .wait _ _ _ start _ => start.isNone
    | _ => false)
/-- In cautious mode: for its next region, or through a second pass (R298, R302). -/
def careful (w : Wave) : Bool := w.cautious || decide (0 < w.pass)
/-- No live checkpoint, an empty store buffer and every access performed (R300). -/
def quiet (w : Wave) : Bool := w.ckpt.isNone && !w.unperformed
/-- A result of some of these lanes is outstanding (R69). -/
def outstanding (w : Wave) (m : Mask) : Bool := w.pend.any fun p => decide (p.mask &&& m ≠ 0)

end Wave

namespace Core
/-- A quarter of the core. -/
def quarter (c : Core) (q : Nat) : Quarter := look {} c.quarters q
/-- Operations that wait for range locks are looked at again in the clock after this one (R375, R381). -/
def freed (c : Core) : Core := { c with wake := some (c.wake.getD (c.clk.toNat + 1)) }
/-- The core with a quarter replaced. -/
def setQuarter (c : Core) (q : Nat) (x : Quarter) : Core := { c with quarters := put c.quarters q x }
/-- The place of an operation among the registrations of a core: those of one clock are `mma` before copies, by wave slot
(R191, R380). -/
def regOrder (c : Core) (mma : Bool) (slot : Nat) : Nat :=
  ((2 * c.clk.toNat + if mma then 0 else 1) * 64 + slot) * 2 ^ 64 + c.seq
/-- An entry of the range-lock table. -/
def lock (c : Core) (n : Nat) : LockEntry := look {} c.locks n
end Core

namespace State

/-- The wave in a core's slot. -/
def wave (s : State) (core slot : Nat) : Wave := look noWave (s.core core).waves slot
/-- The slot holds a wave. -/
def hasWave (s : State) (core slot : Nat) : Bool := (find? (s.core core).waves slot).isSome
/-- The state with a wave replaced. -/
def setWave (s : State) (core slot : Nat) (w : Wave) : State :=
  s.setCore core { s.core core with waves := put (s.core core).waves slot w }
/-- The wave of the running step. -/
def cw (s : State) : Wave := s.wave s.cur.core s.cur.slot
/-- The state with the running step's wave replaced. -/
def setCw (s : State) (w : Wave) : State := s.setWave s.cur.core s.cur.slot w
/-- The team of the running step's wave. -/
def ct (s : State) : Team := s.team s.cw.team
/-- The state with that team replaced. -/
def setCt (s : State) (t : Team) : State := s.setTeam s.cw.team t
/-- The core of the running step. -/
def cc (s : State) : Core := s.core s.cur.core
/-- The quarter of the running step's wave (R354). -/
def cq (s : State) : Nat := s.cur.slot / 16
/-- The lanes of Active, ascending. -/
def lanes (s : State) : List Nat := lanesOf s.cur.active
/-- The lowest lane of Active (R42); 0 where there is none. -/
def lowLane (s : State) : Nat := s.lanes.headD 0
/-- The accessor of an access by a lane of the running step. -/
def who (s : State) (l : Nat) : Who := { core := s.cur.core, lane := l, wave := s.cw, team := s.ct }
/-- A fresh number for a free value, and the state that will draw the next one. -/
def draw (s : State) : Nat × State := (s.fresh, { s with fresh := s.fresh + 1 })

end State

/-! ### Marks and the performing of writes (R289, R293) -/

/-- A wave whose mark is lost must roll back; one without a region has nothing to lose (R297). -/
def Wave.lose (w : Wave) : Wave := if w.ckpt.isSome then { w with lost := true } else w

/-- A mark covers one of the words for which `hit` holds, by key ÷ 4. -/
def Mark.hits (m : Mark) (hit : Nat → Bool) : Bool := (List.range m.n).any fun i => hit (32 * m.line + m.f + i)

/-- The marks of a core on some words are lost, but for the wave in slot `but` (R293). -/
def loseMarks (c : Core) (but : Option Nat) (hit : Nat → Bool) : Core :=
  let gone := c.marks.filter fun m => m.hits hit && decide (some m.slot ≠ but)
  if gone.isEmpty then c
  else
    { c with
      marks := c.marks.filter fun m => !(m.hits hit && decide (some m.slot ≠ but))
      waves := mapVals (fun k w => if gone.any fun m => m.slot == k then w.lose else w) c.waves }

/-- Every core's marks on the written words are lost, but for the writing wave's own (R293). -/
def loseAll (s : State) (core : Option Nat) (slot : Option Nat) (keys : List Nat) : State :=
  let ws := keys.map (· / 4)
  { s with cores := mapVals (fun k c => loseMarks c (if some k = core then slot else none) ws.contains) s.cores }

/-- A write performs: the bytes change, covered poison clears, and marks on its words are lost (R270, R289, R293). -/
def performWrite (s : State) (core slot : Option Nat) (keys : List Nat) (v : Nat) : State :=
  loseAll (clearPoison (writeKeys s keys v) keys) core slot keys

/-! ### Metering (R397) -/

/-- Metered events of a partition on a die, not yet reported to Ulusor (R397). -/
def meter (s : State) (die : Nat) (part : Option Nat) (m : Meter) (n : Nat) : State :=
  match part with
  | none => s
  | some p =>
    let k := p * 16 + (match m with
      | .cyc => 0 | .kdx8 => 1 | .kdx4 => 2 | .kh16 => 3 | .vis => 4 | .drd => 5 | .dwr => 6 | .nlb => 7 | .hlb => 8)
    let d := s.die die
    s.setDie die { d with unreported := put d.unreported k (look 0 d.unreported k + n) }

end Sys2Proof.Machine
end

