-- ==== Sys2Proof/Machine/Llc.lean ====
section
/-!
DEFINITION. Where lines live, the LLC of each stack and the traffic to DRAM and over the links, with the decoding of what a
read delivers (R264 to R267, R269 to R273, R397, R404).
-/
namespace Sys2Proof.Machine

/-! ### Where lines live (R265, R271 to R273) -/

/-- The stack that holds a physical address of this device's DRAM (R265). -/
def stackOf (pa : Nat) : Nat := Nat.xor (bitsOf pa 11 8) (bitsOf pa 27 24)
/-- The gang of a stack that holds a physical address (R265). -/
def gangOf (pa : Nat) : Nat := Nat.xor (bitsOf pa 14 12) (bitsOf pa 30 28)
/-- The home die of a line (R272). -/
def homeDie (line : Nat) : Nat := stackOf (128 * line) / 2
/-- The home slice of a line within every die (R272). -/
def sliceOf (line : Nat) : Nat :=
  let pa := 128 * line
  3 * Nat.xor (bitsOf pa 13 7) (bitsOf pa 29 23) + line % 2 ^ 45 % 3
/-- The router where the slices of a router stand: itself, or, once it is dead, the next live one (R411). -/
def liveRouter (dead : List Nat) (r : Nat) : Nat :=
  (((List.range 128).map fun i => (r + i) % 128).find? fun x => !dead.contains x).getD r
/-- The slice that serves as a line's home slice on a die, once the homes of dead slices have moved (R411). -/
def sliceAt (s : State) (die line : Nat) : Nat :=
  3 * liveRouter (s.die die).deadRouters (sliceOf line / 3) + sliceOf line % 3
/-- The colour of a line's page (R271). -/
def colourOf (line : Nat) : Nat := bitsOf (128 * line) 22 16
/-- The LLC set of a line (R273). -/
def llcSet (line : Nat) : Nat :=
  let pa := 128 * line
  512 * bitsOf pa 22 16 + 32 * bitsOf pa 15 12 + 2 * bitsOf pa 26 23 + bitsOf pa 7 7
/-- The directory set of a line: 64 sets; their index is the model's choice (log 22). -/
def dirSet (line : Nat) : Nat := colourOf line % 64

/-- The partition whose memory holds a physical address of this device (R386). -/
def partOfPA (s : State) (pa : Nat) : Option Nat :=
  if ownDram pa then
    (s.parts.find? fun p => p.2.created && p.2.colours.getLsbD (bitsOf pa 22 16)).map (·.1)
  else none

/-- A physical address on a chip that is lost (R338, R339). -/
def lostPA (s : State) (pa : Nat) : Bool := decide (pa < 2 ^ 46) && s.device.lostChips.contains (pa / 2 ^ 40)

/-- The partition of a context. -/
def partOfCtx (s : State) (ctx : Option Nat) : Option Nat := (ctx.bind (find? s.grids)).map (·.part)

/-! ### Codewords (R264, R269, R404) -/

/-- A code of a granule (R264): its first pseudo-channel in the gang, how many it spans, the parity of its pins where it
takes every second one, and its check symbols. -/
def codesOf (g : Nat) : List (Nat × Nat × Option Nat × Nat) :=
  match g with
  | 0 => (List.range 8).map fun i => (i, 1, none, 4)
  | 1 => (List.range 4).map fun i => (2 * i, 2, none, 8)
  | 2 => (List.range 2).map fun i => (4 * i, 4, none, 16)
  | _ => [(0, 8, some 0, 16), (0, 8, some 1, 16)]

/-- A pin, numbered by 64 × pseudo-channel + pin, carries a symbol of a code of a gang. -/
def pinIn (gang : Nat) (c : Nat × Nat × Option Nat × Nat) (pin : Nat) : Bool :=
  let pc := pin / 64
  decide (8 * gang + c.1 ≤ pc) && decide (pc < 8 * gang + c.1 + c.2.1) && (match c.2.2.1 with
    | some p => pin % 2 == p
    | none => true)

/-- Errors beside erasures exceed a code: 2e + f > c (R404). -/
def codeFails (gang : Nat) (c : Nat × Nat × Option Nat × Nat) (wrong dead : List Nat) : Bool :=
  let e := (wrong.eraseDups.filter fun p => pinIn gang c p && !dead.contains p).length
  let f := (dead.eraseDups.filter (pinIn gang c)).length
  decide (c.2.2.2 < 2 * e + f)

/-- The bytes of a granule's poison unit (R264). -/
def granuleBytes (g : Nat) : Nat := 32 * 2 ^ g

/-- A cache holds a sector: the LLC, a slice or an L1 (R266). -/
def sectorCached (s : State) (pa : Nat) : Bool :=
  let line := pa / 128
  (look (0, 0) s.llc line).1.getLsbD (pa % 128 / 32) ||
  ((List.range 8).any fun d => let fr := s.frame d line; fr.st != .i && fr.valid.getLsbD (pa % 128 / 32)) ||
  s.cores.any fun c => (find? c.2.l1 line).isSome

/-- DRAM holds some sectors as poison; a cache's good copies stay good (R270). -/
def poisonDram (s : State) (keys : List Nat) : State :=
  (keys.map poisonUnit).eraseDups.foldl (fun s u =>
    if sectorCached s u && !s.poison.contains u then
      { s with dramPoison := if s.dramPoison.contains u then s.dramPoison else u :: s.dramPoison }
    else addPoison s [u]) s

/-- The number of a chunk within its stack (R265). -/
def chunkOf (pa : Nat) : Nat := 8 * (pa % 2 ^ 40 / 32768) + gangOf pa

/-- What the decoding of a read of some sectors of one chunk finds (R269): a codeword with more errors than its code corrects is
delivered as poison, and so is what DRAM holds as poison; a codeword that is corrected is logged. -/
def decodeRead (s : State) (pa : Nat) (secs : List Nat) : State :=
  let st := look {} s.hbmStacks (stackOf pa)
  let wrong := (st.wrong.filter fun x => x.1 == chunkOf pa).map (·.2)
  let poisoned := secs.filter s.dramPoison.contains
  let s := { addPoison s poisoned with dramPoison := s.dramPoison.filter fun u => !secs.contains u }
  if st.dead.isEmpty && wrong.isEmpty then s
  else
    let base := pa / 256 * 256
    let inside (c : Nat × Nat × Option Nat × Nat) (u : Nat) : Bool :=
      decide (base + 32 * c.1 ≤ u) && decide (u < base + 32 * (c.1 + c.2.1))
    ((codesOf (s.granule pa)).filter fun c => secs.any (inside c)).foldl (fun s c =>
      if codeFails (gangOf pa) c wrong st.dead then addPoison s (secs.filter (inside c))
      else if (wrong ++ st.dead).any (pinIn (gangOf pa) c) then
        { s with hbmStacks := modify {} s.hbmStacks (stackOf pa) fun x => { x with logged := x.logged + 1 } }
      else s) s

/-- Sectors written to DRAM: what stood there, poison or wrong symbols, is gone. -/
def writeDram (s : State) (line : Nat) (written : BitVec 4) : State :=
  let pa := 128 * line
  let gone (u : Nat) : Bool := decide (u / 128 = line) && written.getLsbD (u % 128 / 32)
  let pcs := ((List.range 4).filter written.getLsbD).map fun i => 8 * gangOf pa + line % 2 * 4 + i
  { s with
    dramPoison := s.dramPoison.filter fun u => !gone u
    hbmStacks := if (look {} s.hbmStacks (stackOf pa)).wrong.isEmpty then s.hbmStacks
      else modify {} s.hbmStacks (stackOf pa) fun x =>
        { x with wrong := x.wrong.filter fun y => !(y.1 == chunkOf pa && pcs.contains (y.2 / 64)) } }

/-! ### The LLC and DRAM traffic (R266, R267, R273, R397) -/

/-- The sectors of a line that a DRAM transfer moves for some needed ones, and its bytes, by granule (R266, R267). -/
def granuleSectors (g : Nat) (need : BitVec 4) : BitVec 4 × Nat :=
  match g with
  | 0 => (need, 32 * ((List.range 4).filter fun i => need.getLsbD i).length)
  | 1 =>
    let lo := need.getLsbD 0 || need.getLsbD 1
    let hi := need.getLsbD 2 || need.getLsbD 3
    ((if lo then 3 else 0) ||| (if hi then 12 else 0), 64 * (lo.toNat + hi.toNat))
  | 2 => (15, 128)
  | _ => (15, 256)

/-- The lines that the LLC allocates, keeps and evicts with a line: a G256 page's pair (R267). -/
def llcUnit (s : State) (line : Nat) : List Nat :=
  if s.granule (128 * line) = 3 then [line / 2 * 2, line / 2 * 2 + 1] else [line]

/-- A write-back writes as poison every poison unit, among the written sectors of a line, that holds a poisoned sector
(R264, R270). -/
def poisonUnits (s : State) (line : Nat) (written : BitVec 4) : State :=
  let n := granuleBytes (s.granule (128 * line))
  let units := ((List.range 4).filter written.getLsbD).map fun i => (128 * line + 32 * i) / n * n
  units.eraseDups.foldl (fun s u =>
    if (firstPoison s (keysFrom u n)).isSome then poisonDram s (keysFrom u n) else s) (writeDram s line written)

/-- A line leaves the LLC with its unit: the dirty sectors go to DRAM, of a G256 pair the whole chunk (R266, R267). -/
def llcEvict (s : State) (line : Nat) : State :=
  let g := s.granule (128 * line)
  let unit := llcUnit s line
  let dirty (l : Nat) : BitVec 4 := (look (0, 0) s.llc l).2
  let d := unit.foldl (fun m l => m ||| dirty l) 0
  let s' := { s with llc := unit.foldl del s.llc }
  if d = 0 then s'
  else
    let s' := unit.foldl (fun x l => poisonUnits x l (if g = 3 then 15 else (granuleSectors g (dirty l)).1)) s'
    meter s' (homeDie line) (partOfPA s (128 * line)) .dwr (granuleSectors g d).2

/-- The LLC keeps 24 lines in a set; which one leaves, with its unit, is a free choice (log 6, R273). -/
def llcTrim (s : State) (line : Nat) : State :=
  let stack := stackOf (128 * line)
  let others := (s.llc.filter fun e =>
    llcSet e.1 == llcSet line && stackOf (128 * e.1) == stack && e.1 != line).map (·.1)
  if others.length < 24 then s
  else
    let (n, s) := s.draw
    llcEvict s (others.getD (Config.freeNat n % others.length) 0)

/-- Sectors of a line read through the LLC for a partition: those it lacks come from DRAM, decoded; a line of host memory
or of another device crosses its link, and one of a lost chip comes as poison (R266, R267, R269, R337, R339). -/
def llcFetch (s : State) (line : Nat) (need : BitVec 4) (part : Option Nat) : State :=
  let pa := 128 * line
  let die := homeDie line
  if !ownDram pa then
    let s := if lostPA s pa then addPoison s (keysFrom pa 128) else s
    meter s die part (if 2 ^ 51 ≤ pa then .hlb else .nlb) 128
  else
    let v := (look (0, 0) s.llc line).1
    if need &&& ~~~v = 0 then s
    else
      let g := s.granule pa
      let (got, n) := granuleSectors g (need &&& ~~~v)
      let s := meter s die part .drd n
      let unit := llcUnit s line
      let secs := unit.flatMap fun l => ((List.range 4).filter (got &&& ~~~(look (0, 0) s.llc l).1).getLsbD).map fun i => 128 * l + 32 * i
      let s := decodeRead s pa secs
      unit.foldl (fun s l =>
        let (v, d) := look (0, 0) s.llc l
        llcTrim { s with llc := put s.llc l (v ||| got, d) } l) s

/-- The sectors that some words touch. -/
def sectorsOf (mask : BitVec 32) : BitVec 4 :=
  BitVec.ofNat 4 ((List.range 4).foldl (fun n i =>
    if mask.toNat / 2 ^ (8 * i) % 256 = 0 then n else n + 2 ^ i) 0)
/-- The sectors that some words cover whole. -/
def wholeSectors (mask : BitVec 32) : BitVec 4 :=
  BitVec.ofNat 4 ((List.range 4).foldl (fun n i =>
    if mask.toNat / 2 ^ (8 * i) % 256 = 255 then n + 2 ^ i else n) 0)
/-- The words of n bytes at an offset in a line. -/
def wordMask (off n : Nat) : BitVec 32 := BitVec.ofNat 32 (2 ^ ((off % 128 + n + 3) / 4) - 2 ^ (off % 128 / 4))

/-- Dirty words written to the LLC, or over the link to another device or the host for a partition (R332, R337). What
else the codewords of those sectors hold is fetched first (log 34). -/
def llcWrite (s : State) (line : Nat) (mask : BitVec 32) (part : Option Nat) : State :=
  let pa := 128 * line
  if mask = 0 then s
  else if !ownDram pa then meter s (homeDie line) part (if 2 ^ 51 ≤ pa then .hlb else .nlb) 128
  else
    let m := sectorsOf mask
    let g := s.granule pa
    let rest := (granuleSectors g m).1 &&& ~~~(wholeSectors mask)
    let s := if rest = 0 && g ≠ 3 then s else llcFetch s line (if g = 3 then 15 else rest) (partOfPA s pa)
    let (v, d) := look (0, 0) s.llc line
    llcTrim { s with llc := put s.llc line (v ||| m, d ||| m) } line

end Sys2Proof.Machine
end

