-- ==== Sys2Proof/Machine/Tokens.lean ====
section
/-!
DEFINITION. Token counting as an access sees it (R289, R318 to R321, R327, R328): what an L1 holds of a word, the requests
it makes, and how tokens leave and enter it.
-/
namespace Sys2Proof.Machine

/-- A span record covers a word of its line. -/
def Span.covers (r : Span) (w : Nat) : Bool := decide (r.f ≤ w) && decide (w < r.f + r.n)
/-- The tokens and the owner token that some records hold of a word. -/
def tokensOf (rs : List Span) (w : Nat) : Nat × Bool :=
  match rs.find? (·.covers w) with
  | some r => (r.tk, r.o)
  | none => (0, false)
/-- The dirty words of some records. -/
def dirtyOf (rs : List Span) : BitVec 32 := rs.foldl (fun m r => m ||| r.dm) 0

/-- One word of a line as a cache holds it. -/
structure WordTok where
  tk : Nat
  o : Bool
  dirty : Bool
  oc : Nat
  deriving DecidableEq, Repr

/-- The words of a line by number (R320). -/
def spread (rs : List Span) : List WordTok :=
  (List.range 32).map fun w =>
    match rs.find? (·.covers w) with
    | some r => { tk := r.tk, o := r.o, dirty := r.dm.getLsbD w, oc := r.oc }
    | none => { tk := 0, o := false, dirty := false, oc := 0 }

/-- The records of a run of words from `w` on, maximal runs of equal words together (R320, R326). A slice keeps words of no
token, with the core that owns them, which sets its records apart; an L1 or a message does neither. -/
def gather (slice : Bool) : Nat → List WordTok → List Span
  | _, [] => []
  | w, t :: r =>
    if t.tk = 0 && !t.o && !slice then gather slice (w + 1) r
    else
      let bit : BitVec 32 := if t.dirty && t.o then BitVec.twoPow 32 w else 0
      match gather slice (w + 1) r with
      | [] => [{ f := w, n := 1, tk := t.tk, o := t.o, dm := bit, oc := t.oc }]
      | x :: xs =>
        if decide (x.f = w + 1) && decide (x.tk = t.tk) && (x.o == t.o) && (t.o || !slice || x.oc == t.oc) then
          { x with f := w, n := x.n + 1, dm := x.dm ||| bit } :: xs
        else { f := w, n := 1, tk := t.tk, o := t.o, dm := bit, oc := t.oc } :: x :: xs

/-- The die of a core. -/
def dieOf (core : Nat) : Nat := core / 128

/-- The L1 records of a line in a core. -/
def Core.line (c : Core) (line : Nat) : List Span := ((find? c.l1 line).map (·.spans)).getD []
/-- The core with a line's records replaced, its tag kept; a line without records is dropped. -/
def Core.setLine (c : Core) (line : Nat) (rs : List Span) : Core :=
  if rs.isEmpty then { c with l1 := del c.l1 line }
  else { c with l1 := modify { va := line, asid := none, w := true, sealed_ := false, spans := [] } c.l1 line fun e =>
    { e with spans := rs } }

/-- The core may read (one token) or write (all 128) the word at a key through a virtual address: its L1 holds the word
under that address (R279, R280, R318). -/
def Core.mayAccess (c : Core) (write : Bool) (va key : Nat) : Bool :=
  match find? c.l1 (lineOf key) with
  | none => false
  | some e =>
    let tk := (tokensOf e.spans (key % 128 / 4)).1
    e.va == va / 128 && (if write then decide (tk = 128) else decide (0 < tk))

/-- The bytes, by virtual address and key, whose words the core may not access. Keys of on-chip memory need no token
(R289). -/
def missingKeys (c : Core) (write : Bool) (need : List (Nat × Nat)) : List (Nat × Nat) :=
  need.filter fun x => decide (x.2 < onChip) && !c.mayAccess write x.1 x.2
/-- The first of them. -/
def missingKey (c : Core) (write : Bool) (need : List (Nat × Nat)) : Option (Nat × Nat) :=
  need.find? fun x => decide (x.2 < onChip) && !c.mayAccess write x.1 x.2

/-- The span of a line that some keys touch: first word, word count (R279). -/
def spanOf (line : Nat) (keys : List Nat) : Nat × Nat :=
  let ws := (keys.filter fun k => lineOf k == line).map fun k => k % 128 / 4
  let lo := ws.foldl min 31
  let hi := ws.foldl max 0
  (lo, hi - lo + 1)

/-- An access's bytes go through the L1: to a translated page with C = 1 (R279, R282). -/
def needsTokens (s : State) (core slot : Nat) (x : Access) : Bool :=
  match windowOf x.va with
  | some w => w.translated && (match dataLeaf s core (s.partOf (s.team (s.wave core slot).team)) x.va with
      | some l => l.c
      | none => true)
  | none => false

/-- The bytes of some accesses for which the core needs tokens, by virtual address and key. -/
def tokenKeys (s : State) (core slot : Nat) (xs : List Access) : List (Nat × Nat) :=
  (xs.filter (needsTokens s core slot)).flatMap fun x => (List.range x.keys.length).map fun i => (x.va + i, x.keys.getD i 0)

/-- The context number of a team (R405). -/
def ctxOf (s : State) (t : Team) : Option Nat := (s.gridOf t).map (·.ctx)

/-- The lowest free request number of a core (R323). -/
def freeNum (c : Core) : Option Nat := (List.range 64).find? fun n => c.reqs.all fun r => r.num != n

/-- A request for the words of one line that some bytes touch, by the wave in a slot (R279, R323, R405); none where one
for them is outstanding, no number is free, or the address has no translation. A cautious region after 16 rollbacks leaves it
to the die arbiter (R302). -/
def requestLine (s : State) (core slot : Nat) (write : Bool) (need : List (Nat × Nat)) (line : Nat) : State :=
  let c := s.core core
  let w := s.wave core slot
  let t := s.team w.team
  let pers := w.careful && decide (16 ≤ w.rollbacks)
  let mine := need.filter fun x => decide (x.2 < onChip) && lineOf x.2 == line
  let (f, n) := spanOf line (mine.map (·.2))
  let va := (mine.head?.map (·.1)).getD 0
  if c.reqs.any fun r => r.line == line && r.va == va / 128 && (r.write || !write) && decide (r.f ≤ f) && decide (f + n ≤ r.f + r.n)
  then s
  else match freeNum c with
    | none => s
    | some num =>
      if (dataLeaf s core (s.partOf t) va).isNone then s
      else
        let s := s.setCore core { c with
          reqs := c.reqs ++ [{ num := num, line := line, va := va / 128, f := f, n := n, write := write
                               at_ := c.clk.toNat, fails := 0, persistent := pers, ctx := ctxOf s t }] }
        if pers then s
        else { s with msgs := s.msgs ++ [if write then .getx core line f n num (ctxOf s t) else .gets core line f n num (ctxOf s t)] }

/-- Requests for the tokens that a wave's accesses lack, one for each line (R279, R295). -/
def requestTokens (s : State) (core slot : Nat) (write : Bool) (need : List (Nat × Nat)) : State :=
  (((missingKeys (s.core core) write need).map fun x => lineOf x.2).eraseDups).foldl
    (fun s l => requestLine s core slot write need l) s

/-- The words written become dirty in the record that holds their owner token (R318, R320). -/
def markDirty (c : Core) (keys : List Nat) : Core :=
  keys.foldl (fun c k =>
    if k < onChip then
      let line := lineOf k
      c.setLine line ((c.line line).map fun r =>
        if r.o && r.covers (k % 128 / 4) then { r with dm := r.dm ||| BitVec.twoPow 32 (k % 128 / 4) } else r)
    else c) c

/-- Words of a core's marks on a line from which the last token goes (R293). -/
def loseLineMarks (c : Core) (line : Nat) (gone : Nat → Bool) : Core :=
  loseMarks c none fun w => decide (w / 32 = line) && gone (w % 32)

/-- A word without tokens, owned by a core. -/
def noTok (oc : Nat) : WordTok := { tk := 0, o := false, dirty := false, oc := oc }

/-- A part made of every word. -/
def splitBy (part : Nat → WordTok → WordTok × WordTok) (ws : List WordTok) : List WordTok × List WordTok :=
  let ps := (List.range 32).map fun w => part w (ws.getD w (noTok 0))
  (ps.map (·.1), ps.map (·.2))

/-- What a responder sends of a word of the span f to f + n − 1, and keeps: for a read one token where it holds two, or
its owner token where that is all it holds; a lone token that is not the owner's stays (R324). For a write every
token (R325). -/
def sentPart (write : Bool) (f n w : Nat) (t : WordTok) : WordTok × WordTok :=
  if decide (f ≤ w) && decide (w < f + n) && decide (0 < t.tk) then
    if write then (t, noTok t.oc)
    else if 2 ≤ t.tk then ({ tk := 1, o := false, dirty := false, oc := t.oc }, { t with tk := t.tk - 1 })
    else if t.o then (t, noTok t.oc)
    else (noTok t.oc, t)
  else (noTok 0, t)

/-- What a responder sends of some words, and what stays. -/
def splitWords (write : Bool) (f n : Nat) (ws : List WordTok) : List WordTok × List WordTok := splitBy (sentPart write f n) ws

/-- Tokens added word by word (R326); the owner core that a slice knows stays. -/
def addWords (a b : List WordTok) : List WordTok :=
  List.zipWith (fun x y => { tk := x.tk + y.tk, o := x.o || y.o, dirty := x.dirty || y.dirty, oc := x.oc }) a b

/-- A slice frame with its words replaced: one that needs a fifth record is to be recalled (R322). -/
def Frame.withWords (fr : Frame) (ws : List WordTok) : Frame :=
  let rs := gather true 0 ws
  { fr with recs := rs, recalled := fr.recalled || decide (4 < rs.length) }

/-- Tokens added to a slice's records (R327). -/
def slicePut (s : State) (die line : Nat) (sp : List Span) : State :=
  let fr := s.frame die line
  s.setFrame die line { fr.withWords (addWords (spread fr.recs) (spread sp)) with dm := fr.dm ||| dirtyOf sp }

/-- Parks of a core whose watched token of a line is gone: a new request goes at once on the thread's behalf (R341). -/
def rewatch (s : State) (core line : Nat) : State :=
  (s.core core).waves.foldl (fun s kw =>
    kw.2.pend.foldl (fun s p =>
      match p.src with
      | .wait _ acc _ (some _) none =>
        let mine := acc.filter fun x => x.keys.any fun k => lineOf k == line
        if mine.isEmpty then s else requestTokens s core kw.1 false (tokenKeys s core kw.1 mine)
      | _ => s) s) s

/-- Every token of a line held by the L1s of a die goes back to its slice frame, whose words then all stand in one
record with 128 tokens (R322, R327); marks on the line are lost, and parks on it watch again. -/
def recallLine (s : State) (die line : Nat) : State :=
  let fr := s.frame die line
  let hs := s.cores.filter fun c => dieOf c.1 == die && !(c.2.line line).isEmpty
  let dm := hs.foldl (fun m c => m ||| dirtyOf (c.2.line line)) (fr.dm ||| dirtyOf fr.recs)
  let s := hs.foldl (fun s c => s.setCore c.1 (loseLineMarks ((s.core c.1).setLine line []) line fun _ => true)) s
  let s := s.setFrame die line { fr with
    recs := if fr.st = .i then [] else [{ f := 0, n := 32, tk := 128, o := true, dm := dm, oc := 0 }]
    holders := [], dm := dm }
  hs.foldl (fun s c => rewatch s c.1 line) s

/-- A message in flight that carries tokens of a line: the die, and the tokens. -/
def Msg.tokens (line : Nat) : Msg → Option (Nat × List Span)
  | .tok d _ _ l sp => if l = line && !sp.isEmpty then some (d, sp) else none
  | .notice d _ l sp => if l = line && !sp.isEmpty then some (d, sp) else none
  | _ => none

/-- Messages in flight carry tokens of a line. -/
def tokensInFlight (s : State) (line : Nat) : Bool := s.msgs.any fun m => (m.tokens line).isSome

/-- Every token of a line goes back to its slices, those in flight among them: a unit of the device that writes the line
then holds all of them (R289, R318, log 35). -/
def claimLine (s : State) (line : Nat) : State :=
  let moving := s.msgs.filterMap (·.tokens line)
  let s := { s with msgs := s.msgs.filter fun m => (m.tokens line).isNone }
  let s := moving.foldl (fun s m => slicePut s m.1 line m.2) s
  (List.range 8).foldl (fun s d => if (s.frame d line).st = .i then s else recallLine s d line) s

/-- The lines of memory that some keys touch. -/
def linesOf (keys : List Nat) : List Nat := ((keys.filter fun k => decide (k < onChip)).map lineOf).eraseDups

/-- A write that stays performed through a rollback: the old values that logs hold of its bytes follow it (R409). -/
def patchLogs (s : State) (keys : List Nat) : State :=
  let lines := linesOf keys
  let fix (e : LogEntry) : LogEntry :=
    if lines.contains e.line then
      { e with old := (List.range 128).map fun i =>
          let k := 128 * e.line + i
          if keys.contains k then readByte s k else e.old.getD i 0 }
    else e
  { s with contexts := mapVals (fun _ c => { c with log := c.log.map fix }) s.contexts }

/-- A fetcher of another core than `core` holds a token of one of some words, by key ÷ 4, so nobody else writes them
(R209). -/
def fetcherHolds (s : State) (core : Option Nat) (words : List Nat) : Bool :=
  s.cores.any fun c => decide (some c.1 ≠ core) && c.2.mmas.any fun m => m.held.any words.contains

/-- A write by a unit of the device: it takes every token of the words, and the write performs (R289), for good (R409); while a
fetcher holds one of them, or an earlier write of a byte waits, it waits (R209, log 90). -/
def unitWrite (s : State) (keys : List Nat) (v : Nat) : State :=
  if fetcherHolds s none (keys.map (· / 4)) || (s.unitWaits.any fun w => w.1.any keys.contains) then
    { s with unitWaits := s.unitWaits ++ [(keys, v)] }
  else patchLogs (performWrite ((linesOf keys).foldl claimLine s) none none keys v) keys

/-- The units' writes that wait try again, in order (R209). -/
def retryUnits (s : State) : State :=
  match s.unitWaits with
  | [] => s
  | ws => ws.foldl (fun s w => unitWrite s w.1 w.2) { s with unitWaits := [] }

/-- A unit of the device writes n bytes from `lo` on 0: every token of their lines is its own, poison goes, marks on the words
are lost, and no log brings the bytes back (R270, R289, R293, R409). -/
def unitZero (s : State) (lo n : Nat) : State :=
  let mine (k : Nat) : Bool := decide (lo ≤ k) && decide (k < lo + n)
  let lines := ((s.frames.filter fun f => mine (f.1 / 8 * 128)).map (·.1 / 8)).eraseDups
  let s := zeroRange (lines.foldl claimLine s) lo n
  { s with poison := s.poison.filter fun k => !mine k, dramPoison := s.dramPoison.filter fun k => !mine k
           contexts := mapVals (fun _ c => { c with log := c.log.filter fun e => !mine (128 * e.line) }) s.contexts
           cores := mapVals (fun _ c => loseMarks c none fun w => mine (4 * w)) s.cores }

/-- The words of a line that some keys touch. -/
def maskOfKeys (line : Nat) (keys : List Nat) : BitVec 32 :=
  (keys.filter fun k => lineOf k == line).foldl (fun (m : BitVec 32) k => m ||| BitVec.twoPow 32 (k % 128 / 4)) 0

/-- The engine gathers every token of the lines of some bytes on every die and returns them to their slices (R192); sectors
that no die holds come from the line's home for a partition (R266, R376). None while tokens of one of them are in flight. -/
def engineGather (s : State) (part : Option Nat) (keys : List Nat) : Option State :=
  let lines := linesOf keys
  if lines.any (tokensInFlight s) then none
  else some (lines.foldl (fun s l =>
    let dies := (List.range 8).filter fun d => decide ((s.frame d l).st ≠ .i)
    let have_ := dies.foldl (fun v d => v ||| (s.frame d l).valid) (0 : BitVec 4)
    let lack := sectorsOf (maskOfKeys l keys) &&& ~~~have_
    let s := if lack = 0 then s else llcFetch s l lack part
    dies.foldl (fun s d => recallLine s d l) s) s)

/-- The words that the engine has written become dirty where the line is answered for: at the die that owns it, else at its home
(R266, R376). -/
def engineDirty (s : State) (part : Option Nat) (keys : List Nat) : State :=
  (linesOf keys).foldl (fun s l =>
    let m := maskOfKeys l keys
    let owner := (List.range 8).find? fun d => let st := (s.frame d l).st; st == .m || st == .o || st == .e
    match owner with
    | none => llcWrite s l m part
    | some d =>
      let fr := s.frame d l
      s.setFrame d l { fr with
        st := if fr.st = .e then .m else fr.st, dm := fr.dm ||| m
        recs := fr.recs.map fun r => if r.o then { r with dm := r.dm ||| (m &&& BitVec.ofNat 32 ((2 ^ r.n - 1) * 2 ^ r.f)) } else r }) s

end Sys2Proof.Machine
end

