-- ==== Sys2Proof/Machine/Ops.lean ====
section
/-!
DEFINITION. The named operations over PCs (R61, R68, R151), the writes of the device's own units (R289), the end of
threads, waves, teams and grids (R11, R12, R228, R351), taking an exception (R72, R114, R225, R226, R228) and the return
from one (R227).
-/
namespace Sys2Proof.Machine

/-! ### PCs (R61, R151) -/

/-- The bytes of the running instruction (R60). -/
def Cursor.size (c : Cursor) : DWord := if twoWord (opcodeOf c.w0.toNat) then 8 else 4
/-- The running instruction is the last of its clause (R61). -/
def Cursor.isLast (c : Cursor) : Bool := decide (c.npc ≠ c.pc + c.size)

/-- A thread at the next PC; at a clause's first instruction it owes the clause-entry step (R61, R64). -/
def Thread.step (t : Thread) (c : Cursor) : Thread :=
  if c.isLast then { t with pc := c.npc, hdr := c.npc - 4, owes := .entry, hold := .none }
  else { t with pc := c.npc, hold := .none }

/-- A backward-branch count after a taken transfer to `target` (R151): a thread whose count reaches 64 is demoted with
its group. -/
def countBack (t : Thread) (target : DWord) : Thread :=
  if target.toNat ≤ t.pc.toNat then { t with back := t.back + 1 } else { t with back := 0 }

/-- A thread moved by a transfer to a header (R61, R64, R151). -/
def Thread.goto (t : Thread) (target : DWord) : Thread :=
  { countBack t target with pc := target + 4, hdr := target, owes := .entry, hold := .none }

/-- The running group at its next PC, its threads no longer demoted (R150). -/
def advance (s : State) : State :=
  s.setCw (s.cw.mapThreads (fun _ t => t.step s.cur) s.lanes)

/-- The group's threads held at their PC. -/
def holdGroup (h : Hold) (s : State) : State :=
  s.setCw (s.cw.mapThreads (fun _ t => { t with hold := h }) s.lanes)

/-- The group demoted if one of its threads has reached 64 backward branches (R151). -/
def demoteAt64 (s : State) : State :=
  if s.lanes.any fun l => decide (64 ≤ (s.cw.thread l).back) then
    s.setCw (s.cw.mapThreads (fun _ t => { t with back := 0, demoted := true }) s.lanes)
  else s

/-- The outstanding results of some lanes (R69). -/
def Wave.resultIds (w : Wave) (m : Mask) : List Nat := (w.pend.filter fun p => decide (p.mask &&& m ≠ 0)).map (·.id)

/-- The park of a switch marker (R70): until every outstanding result of the group is written. -/
def park (sw : Bool) (s : State) : State :=
  if sw then
    let ids := s.cw.resultIds s.cur.active
    s.setCw (s.cw.mapThreads (fun _ t => { t with wait := ids }) s.lanes)
  else s

/-- The end of an instruction that falls through. -/
def finish (sw : Bool) (s : State) : State := park sw (advance s)

/-- Forward progress: the group's backward-branch counts return to 0 (R151). -/
def progress (s : State) : State := s.setCw (s.cw.mapThreads (fun _ t => { t with back := 0 }) s.lanes)

/-- A write by a unit of the device that names its destination by virtual address in a partition's map; bytes without a
writable translation, and sealed ones, are not written (R38, log 15). -/
def writeVA (s : State) (core : Nat) (part : Option Nat) (va : Nat) (n v : Nat) : State :=
  (List.range n).foldl (fun s i =>
    match translate s core part (va + i) with
    | some l => if l.w && !l.sealed_ && !inAdmission s l.pa then unitWrite s [l.pa] (v / 256 ^ i % 256) else s
    | none => s) s

/-- A read by virtual address; none where a byte has no translation. -/
def readVA (s : State) (core : Nat) (part : Option Nat) (va n : Nat) : Option Nat :=
  let ls := (keysFrom va n).map fun a => translate s core part a
  if ls.all Option.isSome then some (readKeys s (ls.filterMap fun l => l.map (·.pa))) else none

/-! ### The end of waves, teams and grids -/

/-- The core after a wave has left a slot: with the last wave gone, a core whose CORECTL holds NORMAL enters normal
service (R40). -/
def Core.normalise (c : Core) : Core :=
  if c.waves.isEmpty && c.corectl.getLsbD 0 then { c with strict := false } else c

/-- A slot whose tag is unbound returns to the free list once no `acc.rd` of it is outstanding and no operation of the
engine writes it (R211, R214, R374). -/
def Core.sweep (c : Core) : Core :=
  let busy (n : Nat) : Bool := (c.mmas.any fun m => m.slot == n) || c.waves.any fun kw => kw.2.pend.any fun p =>
    match p.src with
    | .slot m _ => m == n
    | _ => false
  { c with acc := c.acc.filter fun a => !(a.2.releasing && !busy a.1) }

/-- The wave in a slot leaves the core: its rows return to the quarter and its marks go (R11, R17). -/
def dropWave (s : State) (core slot : Nat) : State :=
  let c := s.core core
  s.setCore core (Core.sweep <| Core.normalise
    { c with waves := del c.waves slot, marks := c.marks.filter fun m => m.slot ≠ slot
             mismatches := c.mismatches.filter fun m => m.1 ≠ slot })

/-- A team's waves on its core, by slot. -/
def teamSlots (s : State) (team core : Nat) : List Nat :=
  ((s.core core).waves.filter fun kw => kw.2.team == team).map (·.1)

/-- What a core holds for a team besides its waves is freed: slots, reserved lock entries, bins, waiting rendezvous
(R159, R211, R379). -/
def freeTeam (s : State) (team : Nat) : State :=
  let t := s.team team
  match t.core with
  | none => s
  | some k =>
    let c := s.core k
    let slots := t.tags.map (·.2)
    let s := s.setCore k { c with
      acc := mapVals (fun n a => if slots.contains n then { a with releasing := true } else a) c.acc
      locks := mapVals (fun n e => if t.reserved.any fun r => r.2 == n then { e with rsv := false } else e) c.locks
      bins := c.bins.filter fun b => b.2.team ≠ team
      mmaWait := c.mmaWait.filter fun m => m.team ≠ team }
    let s := s.setCore k (s.core k).sweep
    s.setTeam team { t with core := none, tags := [], pools := [], reserved := [] }

/-- A core's cycles since the last time are metered for each partition with a team resident on it (R397). -/
def meterCycles (s : State) (core : Nat) : State :=
  let c := s.core core
  let ps := ((s.teams.filter fun t => t.2.core == some core).filterMap fun t => s.partOf t.2).eraseDups
  let s := s.setCore core { c with cycAt := c.clk.toNat }
  ps.foldl (fun s p => meter s (core / 128) (some p) .cyc (c.clk.toNat - c.cycAt)) s

/-- The local cycles of a team's residency are added to its grid, and its core's are metered (R351, R397). -/
def endResidency (s : State) (team : Nat) : State :=
  let t := s.team team
  match t.core, t.grid with
  | some k, some g =>
    match find? s.grids g with
    | none => s
    | some gr =>
      meterCycles (s.setGrid g { gr with cycles := gr.cycles + ((s.core k).clk.toNat - t.since) }) k
  | _, _ => s

/-- The completion record of R351, STATUS last. -/
def writeCompletion (s : State) (g : Grid) (status : Nat) : State :=
  let part := some g.part
  let w (s : State) (off n v : Nat) : State := writeVA s 0 part (g.cmpl + off) n v
  let (ti, pc, core, wid) := g.trap.getD ({ cause := 0, sub := 0, addr := 0 }, 0, 0, 0)
  let s := w s 0 8 g.id
  let s := w s 12 2 (if status = 2 then ti.cause else 0)
  let s := w s 14 2 (if status = 2 then ti.sub else 0)
  let s := w s 16 8 (if status = 2 then pc else 0)
  let s := w s 24 8 (if status = 2 then ti.addr else if status = 8 then g.copyErr.getD 0 else 0)
  let s := w s 32 2 (if status = 2 then core else 0)
  let s := w s 34 1 (if status = 2 then wid else 0)
  let s := w s 35 1 0
  let s := w s 36 4 g.retiredTeams
  let s := w s 40 8 g.cycles
  let s := w s 48 16 0
  w s 8 4 status

/-- A grid is over: its record is written, its status remembered, its parent's count falls (R13, R350, R351). -/
def closeGrid (s : State) (h : Nat) (status : Nat) : State :=
  match find? s.grids h with
  | none => s
  | some g =>
    if g.st = .ended then s
    else
      let s := writeCompletion s g status
      let p := s.part g.part
      let s := s.setPart g.part { p with ended := ((g.id, status) :: p.ended).take 1024 }
      let s := s.setGrid h { g with st := .ended, status := status, clusAt := [], padAt := [] }
      match g.parent with
      | none => s
      | some ph =>
        match find? s.grids ph with
        | none => s
        | some pg => s.setGrid ph { pg with liveChildren := pg.liveChildren - 1 }

/-- Every team placed and retired, and every child retired (R11, R13). -/
def Grid.complete (g : Grid) : Bool :=
  decide (g.st = .queued) && decide (g.gx * g.gy * g.gz ≤ g.nextTeam) && decide (g.liveTeams = 0) &&
  decide (g.liveChildren = 0)

/-- Close a grid that is complete, and then its parents, at most eleven deep (R13). -/
def closeIfComplete (s : State) : Nat → Nat → State
  | 0, _ => s
  | n + 1, h =>
    match find? s.grids h with
    | none => s
    | some g =>
      if g.complete then
        let s := closeGrid s h (if g.copyErr.isSome then 8 else 1)
        match g.parent with
        | none => s
        | some p => closeIfComplete s n p
      else s

/-- A team has retired when no wave of it is left, no bin holds entries of it (R11) and no copy of it is unfinished
(DEDUCED, R193, R351, log 32). -/
def retireTeam (s : State) (team : Nat) : State :=
  let t := s.team team
  match t.core with
  | none => s
  | some k =>
    if t.live && (teamSlots s team k).isEmpty && !((s.core k).bins.any fun b => b.2.team == team) &&
        !((s.core k).copies.any fun c => c.op.team == team) then
      let s := freeTeam (endResidency s team) team
      let s := s.setTeam team { s.team team with live := false }
      match t.grid with
      | none => s
      | some h =>
        match find? s.grids h with
        | none => s
        | some g =>
          let s := s.setGrid h { g with
            liveTeams := g.liveTeams - 1, retiredTeams := g.retiredTeams + 1,
            triggeredTeams := if t.triggered then g.triggeredTeams else g.triggeredTeams + 1 }
          closeIfComplete s 12 h
    else s

/-- A wave has triggered once every thread of it that has not exited has (R230). -/
def Wave.hasTriggered (w : Wave) : Bool := (lanesOf w.liveMask).all fun l => (w.thread l).triggered

/-- A team has triggered once each of its resident waves has, the others having retired (R230). -/
def checkTriggered (s : State) (team : Nat) : State :=
  let t := s.team team
  match t.core with
  | none => s
  | some k =>
    let ws := (s.core k).waves.filter fun kw => kw.2.team == team
    if !t.triggered && !ws.isEmpty && ws.all (fun kw => kw.2.hasTriggered) then
      let s := s.setTeam team { t with triggered := true }
      match t.grid.bind (find? s.grids), t.grid with
      | some g, some h => s.setGrid h { g with triggeredTeams := g.triggeredTeams + 1 }
      | _, _ => s
    else s

/-! ### The end of a thread (R12, R148, R155, R157, R158, R193, R230) -/

/-- A thread's view of a barrier. -/
def Thread.bar (t : Thread) (id : Nat) : BarView := look {} t.bars id
/-- The thread with its view of a barrier replaced. -/
def Thread.setBar (t : Thread) (id : Nat) (b : BarView) : Thread := { t with bars := put t.bars id b }
/-- A team's barrier. -/
def Team.bar (t : Team) (id : Nat) : Barrier := look {} t.bars id

/-- The barrier that a thread waits at releases it (R157). -/
def barEnds (team : Team) (t : Thread) : Bool :=
  match t.hold with
  | .barOwn id _ _ => !(t.bar id).since && decide ((t.bar id).phase < (team.bar id).phase)
  | .barNext id v _ _ => decide (v < (team.bar id).phase)
  | _ => false

/-- The wave's arrival once every live thread has arrived since its last one (R157). -/
def completeArrival (core slot id : Nat) (s : State) : State :=
  let w := s.wave core slot
  let live := lanesOf w.liveMask
  if !live.isEmpty && live.all fun l => ((w.thread l).bar id).since then
    let t := s.team w.team
    let b := t.bar id
    let c := look 1 w.barCounts id
    let w := { w.mapThreads (fun _ th => th.setBar id { th.bar id with since := false, phase := b.phase }) live with
               phases := put w.phases id b.phase }
    let b' : Barrier := if c ≤ b.count + 1 then { count := 0, phase := b.phase + 1 } else { b with count := b.count + 1 }
    (s.setWave core slot w).setTeam w.team { t with bars := put t.bars id b' }
  else s

/-- `Release(k)`: when every lane of the mask is parked on it or exited, the parked lanes rejoin Run at the next PC and
the mask is cleared (R155). -/
def releaseMask (j : Nat) (s : State) : State :=
  let w := s.cw
  let m := look (0 : Mask) w.rejoin j
  if m ≠ 0 && (lanesOf m).all fun l => !(w.thread l).live || decide ((w.thread l).hold = .parked j) then
    let w := w.mapThreads (fun _ t => if t.hold = .parked j then { t.step s.cur with hold := .none } else t) (lanesOf m)
    s.setCw { w with rejoin := del w.rejoin j }
  else s

/-- The masks that hold an exiting lane lose it, and are released where that completes them (R155). -/
def exitMasks (m : Mask) (s : State) : State :=
  (List.range 8).foldl (fun s j =>
    let r := look (0 : Mask) s.cw.rejoin j
    if r &&& m ≠ 0 then releaseMask j (s.setCw { s.cw with rejoin := put s.cw.rejoin j (r &&& ~~~m) }) else s) s

/-- An error mark left by an exited thread goes to its grid's completion record, the first one it got (R193, R351). -/
def leaveCopyErr (s : State) (team : Nat) (err : Option Nat) : State :=
  match err, (s.team team).grid with
  | some a, some h =>
    match find? s.grids h with
    | some g => s.setGrid h { g with copyErr := if g.copyErr.isSome then g.copyErr else some a }
    | none => s
  | _, _ => s

/-- The first error mark among a thread's batches and its open copies (R193, R194). -/
def Thread.copyMark (t : Thread) : Option Nat :=
  match t.batches.findSome? fun b => b.err with
  | some a => some a
  | none => t.openErr

/-- Lanes of the running wave exit (R12): their copies' errors go to the grid's record, they leave the wave's masks in
strict mode, and what their exit completes, an arrival or a trigger of the wave, follows. -/
def exitLanes (m : Mask) (s : State) : State :=
  let marks := (lanesOf m).map fun l => (s.cw.thread l).copyMark
  let s := marks.foldl (fun s e => leaveCopyErr s s.cw.team e) s
  let s := s.setCw (s.cw.mapThreads (fun _ t => { t with live := false, hold := .none }) (lanesOf m))
  let s := if s.cc.strict then exitMasks m s else s
  let s := (List.range 16).foldl (fun s id => completeArrival s.cur.core s.cur.slot id s) s
  checkTriggered s s.cw.team

/-- With its last wave a quartet retires, and its tags are unbound: its slots return as R214 gives (DEDUCED, R11, R211, R354,
log 54). -/
def retireQuartet (s : State) (team core q : Nat) : State :=
  if (s.core core).waves.any fun kw => kw.2.team == team && kw.2.quartet == some q then s
  else
    let t := s.team team
    let mine := t.tags.filter fun x => x.1 / 8 == q
    let c := s.core core
    let c := { c with acc := mapVals (fun n a => if mine.any fun x => x.2 == n then { a with releasing := true } else a) c.acc }
    (s.setCore core c.sweep).setTeam team { t with tags := t.tags.filter fun x => x.1 / 8 != q }

/-- A wave whose threads have all exited retires, and with it perhaps its quartet and its team (R11, R148). -/
def retireWave (s : State) (core slot : Nat) : State :=
  let w := s.wave core slot
  if s.hasWave core slot && decide (w.liveMask = 0) then
    let s := dropWave s core slot
    retireTeam (match w.quartet with
      | some q => retireQuartet s w.team core q
      | none => s) w.team
  else s

/-! ### What a store-buffer entry writes (R181 to R186) -/

/-- The new value of an `atom` from the old value m and the operand b (R181). -/
def atomVal (op : AtomOp) (wide : Bool) (m b : Nat) : Nat :=
  let bits := if wide then 64 else 32
  let sm := signExt bits m
  let sb := signExt bits b
  match op with
  | .add => (m + b) % 2 ^ bits
  | .and => Nat.land m b
  | .or => Nat.lor m b
  | .xor => Nat.xor m b
  | .min => if sb < sm then b else m
  | .max => if sm < sb then b else m
  | .umin => min m b
  | .umax => max m b
  | .xchg => b
  | .faddF32 => (fpAdd .f32 .rne m b).1

/-- What an entry writes to a lane's word from its old value (R174, R181 to R186); nothing for a `cas` that differs or a lock
that is taken. -/
def SbOp.newValue (op : SbOp) (old : Nat) (x : SbLane) : Option Nat :=
  match op with
  | .store | .frame => some x.data
  | .atom op wide => some (atomVal op wide old x.data)
  | .cas _ => if old = x.data then some x.other else none
  | .acq => some 1
  | .lock => if old = 0 then some 1 else none
  | .rel => some 0

/-! ### The end of teams and grids (R228) -/

/-- A lane writes memory, by an address of a translated window. -/
def SbLane.toMemory (x : SbLane) : Bool := ((windowOf x.acc.va).map (·.translated)) == some true

/-- The lanes of an entry that write on-chip memory perform. -/
def performChip (s : State) (core slot : Nat) (e : SbEntry) : State :=
  (e.lanes.filter fun x => !x.toMemory).foldl (fun s x =>
    match e.op.newValue (readKeys s x.acc.keys) x with
    | some v => performWrite s (some core) (some slot) x.acc.keys v
    | none => s) s

/-- A wave stops (R228): its threads are gone, and so is what has not committed; committed stores to memory stay in its buffer
and perform once they have their tokens, the slot theirs till then; those to on-chip memory, which its grid leaves, perform now
(log 102). -/
def stopWave (s : State) (core slot : Nat) : State :=
  let w := s.wave core slot
  let es := w.sbuf.filter fun e => !e.spec
  let s := es.foldl (fun s e => performChip s core slot e) s
  let left := (es.map fun e => { e with lanes := e.lanes.filter (·.toMemory) }).filter fun e => !e.lanes.isEmpty
  if left.isEmpty then dropWave s core slot
  else
    let c := s.core core
    let s := s.setWave core slot { noWave with serial := w.serial, team := w.team, wid := w.wid, tfb := w.tfb, sbuf := left }
    s.setCore core { s.core core with marks := c.marks.filter fun m => m.slot ≠ slot }

/-- Stop a resident team (R228). -/
def stopTeam (s : State) (team : Nat) : State :=
  let t := s.team team
  match t.core with
  | none => s.setTeam team { t with live := false, launches := [], stale := none, staleRows := [], staleBlocks := [] }
  | some k =>
    let s := (teamSlots s team k).foldl (fun s slot => stopWave s k slot) s
    let c := s.core k
    let gone := (c.mmas.filter fun m => m.team == team).filterMap (·.lock)
    let s := s.setCore k (Core.freed { c with
      mmas := c.mmas.filter fun m => m.team ≠ team
      locks := mapVals (fun n e => if gone.contains n then { e with v := false } else e) c.locks })
    let s := freeTeam (endResidency s team) team
    s.setTeam team { s.team team with live := false, launches := [] }

/-- A field of a record of bytes held as one number. -/
def fieldOf (r off n : Nat) : Nat := r / 256 ^ off % 256 ^ n

/-- A child grid whose record is still in the launch buffer ends with a status before its record is parsed: its completion
record is written and its status remembered (R228, R229, R350). -/
def endLaunch (s : State) (part status : Nat) (tr : Option (TrapInfo × Nat × Nat × Nat)) (r : Nat) : State :=
  let p := s.part part
  let id := if fieldOf r 0 8 = 0 then 2 ^ 63 + (p.assigned + 1) else fieldOf r 0 8
  let g : Grid :=
    { id := id, part := part, kid := 0, depth := 0, parent := none, ctx := 0, prio := 0, early := false, gx := 0, gy := 0
      gz := 0, waves := 0, quota := 0, lpriv := 0, scratch := 0, clus := 0, dpad := 0, timer := 0, deps := []
      cmpl := fieldOf r 0x60 8, thdl := 0, argsAt := 0, regions := [], seq := 0, st := .ended, passed := none
      nextTeam := 0, liveTeams := 0, retiredTeams := 0, triggeredTeams := 0, liveChildren := 0, status := status
      trap := tr, copyErr := none, cycles := 0, clusAt := [], padAt := [], lastDie := none }
  let s := s.setPart part { p with
    assigned := if fieldOf r 0 8 = 0 then p.assigned + 1 else p.assigned, ended := ((id, status) :: p.ended).take 1024 }
  writeCompletion s g status

/-- The child grids in a team's launch buffer end, and the buffer is empty (R228). -/
def endLaunches (s : State) (team status : Nat) (tr : Option (TrapInfo × Nat × Nat × Nat)) : State :=
  let t := s.team team
  match s.partOf t with
  | none => s
  | some n => (t.launches.foldl (fun s r => endLaunch s n status tr r) s).setTeam team { t with launches := [] }

/-- End a grid with a status: its teams stop, and its child grids end the same way (R228). -/
def endGrid (status : Nat) (tr : Option (TrapInfo × Nat × Nat × Nat)) : Nat → State → Nat → State
  | 0, s, _ => s
  | n + 1, s, h =>
    match find? s.grids h with
    | none => s
    | some g =>
      if g.st = .ended then s
      else
        let s := s.setGrid h { g with trap := if g.trap.isNone then tr else g.trap }
        let s := (s.teams.filter fun t => t.2.grid == some h).foldl
          (fun s t => let s := endLaunches s t.1 status tr; if t.2.live then stopTeam s t.1 else s) s
        let s := (s.grids.filter fun c => c.2.parent == some h && c.2.st != .ended).foldl
          (fun s c => endGrid status tr n s c.1) s
        closeGrid s h status

/-- A grid ends with a status, and its parent may be complete with that (R11, R228, R351). -/
def endFamily (status : Nat) (tr : Option (TrapInfo × Nat × Nat × Nat)) (s : State) (h : Nat) : State :=
  let s := endGrid status tr 12 s h
  match (find? s.grids h).bind (·.parent) with
  | some p => closeIfComplete s 12 p
  | none => s

/-- A trap ends the grid of a wave (R228); firmware's team of a core reset, which has no grid, stops. -/
def endByTrap (s : State) (core slot : Nat) (t : TrapInfo) (pc : DWord) : State :=
  let w := s.wave core slot
  match (s.team w.team).grid with
  | some h => endFamily 2 (some (t, pc.toNat, core, w.wid)) s h
  | none => stopTeam s w.team

/-! ### Taking an exception (R72, R114, R225, R226, R228) -/

/-- The trap handler entry of a wave's grid, or of firmware's team (R28 THDL). -/
def thdlOf (s : State) (w : Wave) : DWord :=
  match s.gridOf (s.team w.team) with
  | some g => g.thdl
  | none => (s.team w.team).fwThdl

/-- The words of a trap frame, by byte offset: offset, bytes, value (R226). -/
def frameFields (w : Wave) (t : TrapInfo) (group : Mask) (pc npc : DWord) (w0 w1 header : Nat) : List (Nat × Nat × Nat) :=
  [(0, 4, t.cause), (4, 4, t.sub), (8, 8, pc.toNat), (16, 8, npc.toNat), (24, 4, w0), (28, 4, w1), (32, 4, header),
   (36, 4, w.quota + 64 * 2 ^ 16), (40, 8, t.addr), (48, 8, group.toNat), (56, 8, 0)] ++
  (List.range 64).map (fun l => (0x40 + 4 * l, 4, (w.predWord l).toNat)) ++
  [(0x140, 0x100, 0)] ++
  (List.range (w.quota * 64)).map (fun i => (0x240 + 4 * i, 4, (look (0 : Word) w.regs i).toNat)) ++
  (List.range 64).map (fun n => (0x240 + 256 * w.quota + 4 * n, 4, (w.uni n).toNat))

/-- A number of n bytes at an address in pieces that each lie in one line, at most `k` of them. -/
def linePieces : Nat → Nat → Nat → Nat → List (Nat × Nat × Nat)
  | 0, _, _, _ => []
  | k + 1, va, n, v =>
    let m := 128 - va % 128
    if n ≤ m then [(va, n, v)] else (va, m, v % 256 ^ m) :: linePieces k (va + m) (n - m) (v / 256 ^ m)

/-- Pieces of one line after another together. -/
def sameLine : List (Nat × Nat × Nat) → List (List (Nat × Nat × Nat))
  | [] => []
  | x :: r =>
    match sameLine r with
    | (y :: ys) :: rest => if x.1 / 128 = y.1 / 128 then (x :: y :: ys) :: rest else [x] :: (y :: ys) :: rest
    | l => [x] :: l

/-- Fields of a frame at an address as stores of the wave, in order, an entry of the store buffer for each line (R225, R294).
Their keys are those of the bytes as the entry performs. -/
def pushFrame (s : State) (core slot lane at_ : Nat) (pc hdr : DWord) (group : Mask) (fs : List (Nat × Nat × Nat)) : State :=
  let lines := sameLine (fs.flatMap fun f => linePieces 4 (at_ + f.1) f.2.1 f.2.2)
  let lane (x : Nat × Nat × Nat) : SbLane :=
    { acc := { lane := lane, va := x.1, keys := List.replicate x.2.1 0 }, data := x.2.2, other := 0 }
  let es : List SbEntry := lines.zipIdx.map fun l =>
    { id := s.fresh + l.2, pc := pc, hdr := hdr, mask := group, op := .frame, lanes := l.1.map lane, spec := false }
  let w := s.wave core slot
  { s.setWave core slot { w with sbuf := w.sbuf ++ es } with fresh := s.fresh + es.length }

/-- The bits of an instruction's second word, 0 for a one-word instruction (R226). -/
def secondWord (w0 w1 : Word) : Nat := if twoWord (opcodeOf w0.toNat) then w1.toNat else 0

/-- Entry into a handler whose address is not 0 (R225): every other thread of the wave held, the group's threads at THDL, a PC
whose low two bits are 0 (R16), until the frame's stores have performed. -/
def enterHandler (s : State) (core slot : Nat) (group : Mask) (pc npc hdr nhdr : DWord) : State :=
  let w := s.wave core slot
  let target := thdlOf s w &&& ~~~3#64
  let w := w.mapThreads (fun l th =>
    if group.getLsbD l then { th with hold := .frame, pc := target + 4, hdr := target, owes := .entry }
    else if th.live then { th with trapHeld := true } else th) (List.range 64)
  s.setWave core slot { w with
    trapReq := none, pass := 0
    handler := some { frame := w.tfb.toNat, quota := w.quota, group := group, pc := pc, hdr := hdr, npc := npc, nhdr := nhdr } }

/-- The values that the default handler delivers for `idiv` and `irem` (R118). -/
def divResult (rem u : Bool) (a b : Word) : Word :=
  if b = 0 then (if rem then a else 0xFFFFFFFF)
  else if u then (if rem then BitVec.ofNat 32 (a.toNat % b.toNat) else BitVec.ofNat 32 (a.toNat / b.toNat))
  else if rem then BitVec.ofInt 32 (Int.tmod a.toInt b.toInt) else BitVec.ofInt 32 (Int.tdiv a.toInt b.toInt)

/-- The place in a frame of a register that the default handler writes (R118, R226). -/
def frameSlot (quota : Nat) : Write → Option (Nat × Word)
  | .reg r l v => if r < quota then some (0x240 + 4 * (r * 64 + l), v) else none
  | .unif n v => if n < 64 then some (0x240 + 256 * quota + 4 * n, v) else none
  | _ => none

/-- The default handler emulates cause 0x02 (R118): each result goes to its register's place in the frame, the resume PC
becomes the next PC, and its `eret` gives the registers what the frame then holds. -/
def emulate (s : State) (core slot : Nat) (group : Mask) (pc npc hdr nhdr : DWord) (emu : List Write) : State :=
  let w := s.wave core slot
  let lane := (lanesOf group).headD 0
  let fs := (emu.filterMap (frameSlot w.quota)).map fun x => (x.1, 4, x.2.toNat)
  let s := pushFrame s core slot lane w.tfb.toNat pc hdr group (fs ++ [(8, 8, npc.toNat)])
  let w := Wave.writes emu { s.wave core slot with trapReq := none, pass := 0 }
  s.setWave core slot (w.mapThreads (fun _ th =>
    { th with pc := npc, hdr := nhdr, hold := .frame, owes := .resume }) (lanesOf group))

/-- A trap that may be delivered (R225): the stores of the frame at TFB, after those that the wave has buffered (R288), then
the grid's handler, or, with no handler address, the default handler, which emulates cause 0x02 (its writes are `emu`) and
otherwise ends the grid (R118, R228). The trap's group, PC, words and header come as arguments; a trap of an instruction
fetch passes zeros (R226). -/
def deliverTrap (s : State) (core slot : Nat) (t : TrapInfo) (group : Mask) (pc npc hdr nhdr : DWord) (w0 w1 header : Nat)
    (emu : List Write) : State :=
  let w := s.wave core slot
  let s := pushFrame s core slot ((lanesOf group).headD 0) w.tfb.toNat pc hdr group (frameFields w t group pc npc w0 w1 header)
  if thdlOf s w = 0 then
    if t.cause = 2 then emulate s core slot group pc npc hdr nhdr emu else endByTrap s core slot t pc
  else enterHandler s core slot group pc npc hdr nhdr

/-- The word at an address of the running wave's code, without a check: 0 where it has no translation. -/
def codeWord (s : State) (core slot : Nat) (va : Nat) : Nat :=
  let c := s.core core
  let base := (look (BitVec.ofNat 64 Config.fwBase) c.fw 4).toNat
  let len := (look (BitVec.ofNat 64 Config.fwLen) c.fw 5).toNat
  if c.strict && decide (base ≤ va) && decide (va < base + len) then readPA s va 4
  else
    match translate s core (s.partOf (s.team (s.wave core slot).team)) va with
    | some l => readPA s l.pa 4
    | none => 0

/-- The sealed library whose code the running group executes, with the address of its entry (R256, R390). -/
def runningLib (s : State) : Option (Nat × Kernel) :=
  match s.partOf s.ct with
  | none => none
  | some n =>
    let base := (16 * n + 15) * 2 ^ 48 + 2 ^ 33
    s.device.libraries.findSome? fun (l : Nat × Nat) =>
      match find? s.kernels l.2 with
      | some k => if base + l.1 ≤ s.cur.pc.toNat ∧ s.cur.pc.toNat < base + l.1 + k.codeBytes then some (base + l.1, k) else none
      | none => none

/-- The number of regions that the running code declares. -/
def regionCount (s : State) : Nat :=
  match runningLib s with
  | some (_, k) => k.regions.length
  | none => s.ct.numRegions

/-- A region of the running code: a library's own images and tables, its implicit `frame`, `args`, or the grid's granted
regions; a `.region` that a library declares has no grant, so no bytes (R171, R240, R257, log 30). -/
def regionAt (s : State) (n : Nat) : Option Region :=
  if n = 1023 then find? s.ct.regions n
  else match runningLib s with
    | some (at_, k) =>
      if n = 1022 then s.cw.handler.map fun h => { base := h.frame, len := 0x340 + 256 * h.quota, ro := false }
      else (k.regions[n]?).map fun g =>
        if g.kind = 1 ∨ g.kind = 2 then { base := at_ + k.codeBytes + g.dataOff, len := g.dataLen, ro := true }
        else { base := 0, len := 0, ro := true }
    | none => if n < s.ct.numRegions then find? s.ct.regions n else none

/-- A jump table of the running code and the entry header that its offsets count from (R146). -/
def tableAt (s : State) (n : Nat) : Option (DWord × List Int) :=
  match runningLib s with
  | some (at_, k) => (k.tables[n]?).map fun es => (BitVec.ofNat 64 at_, es)
  | none => (find? s.ct.tables n).map fun es => (s.ct.entry, es)

/-- The context of a team that is rolled back when a wave of it consumes poison: it has a closed interval and has not
rolled back in its current one (R408). -/
def poisonRollsBack (s : State) (team : Nat) : Option Nat :=
  match (s.gridOf (s.team team)).map (·.ctx) with
  | some k => if (s.context k).frames.isSome && !(s.context k).rolledBack then some k else none
  | none => none

/-- The running group waits with its trap, and will issue again: a checkpoint is live, or another trap of the wave waits
for its results (R72, R114). -/
def trapMustWait (s : State) : Bool := s.cw.ckpt.isSome || s.cw.trapReq.isSome

/-- A trap of the running group (R45, R72, R114, R228). Poison whose context is to be rolled back holds the group, with no
trap, until that rollback (R408). With a checkpoint live the group waits for the commit and issues
the instruction again; in a handler the grid ends; with results outstanding the trap waits for them. -/
def raiseTrapWith (t : TrapInfo) (fetched : Bool) (emu : List Write) (s : State) : State :=
  let w := s.cw
  let c := s.cur
  if trapMustWait s then holdGroup .commit s
  else if t.cause = 0x0D && (poisonRollsBack s w.team).isSome then holdGroup .trapWait s
  else if w.handler.isSome then endByTrap s c.core c.slot t c.pc
  else if w.outstanding c.active then
    let s := holdGroup .trapWait s
    s.setCw { s.cw with trapReq := some { info := t, group := c.active, cur := c, fetched := fetched, emu := emu } }
  else
    let npc := if fetched then c.npc else c.pc
    let nhdr := if c.isLast && fetched then c.npc - 4 else c.hdr
    deliverTrap s c.core c.slot t c.active c.pc npc c.hdr nhdr (if fetched then c.w0.toNat else 0)
      (if fetched then secondWord c.w0 c.w1 else 0) (if fetched then codeWord s c.core c.slot c.hdr.toNat else 0) emu

/-- `Trap(cause, sub)` of R45 with a fault address. -/
def trapAt (cause sub addr : Nat) (s : State) : State :=
  raiseTrapWith { cause := cause, sub := sub, addr := addr } true [] s
/-- `Trap(cause, sub)` of R45. -/
def trap (cause sub : Nat) (s : State) : State := trapAt cause sub 0 s

/-! ### The return from an exception (R227) -/

/-- The headers of the clause that an address lies in, nearest first: a legal header at most 31 words back whose
instructions reach the address (R60, R62, log 16). -/
def clauseReaches (word : Nat → Nat) (pc : Nat) : Nat → Nat → Bool
  | 0, _ => false
  | n + 1, a => if a = pc then true else clauseReaches word pc n (a + (if twoWord (opcodeOf (word a)) then 8 else 4))

/-- The header of the clause that holds an instruction address, searched backward. -/
def headerOf (word : Nat → Nat) (pc : Nat) : Nat → Option Nat
  | 0 => none
  | k + 1 =>
    match headerOf word pc k with
    | some h => some h
    | none =>
      let h := pc - 4 * (k + 1)
      match decodeHeader (word h) with
      | some hd => if clauseReaches word pc hd.n (h + 4) then some h else none
      | none => none

/-- A lane's registers and predicates taken from a frame (R227). -/
def restoreLane (rd : Nat → Word) (quota l : Nat) (w : Wave) : Wave :=
  let w := (List.range quota).foldl (fun w i => w.setReg i l (rd (0x240 + 4 * (i * 64 + l)))) w
  w.setPredWord l ((rd (0x40 + 4 * l)).setWidth 24)

/-- The bytes of a frame as the wave would read them (R227): their addresses and keys, a missing translation, or a trap: of the
check, or of poison (R223, R270). -/
def frameFate (s : State) (core slot lane at_ n : Nat) : Fate :=
  let w := s.wave core slot
  match checkRange s { core := core, lane := lane, wave := w, team := s.team w.team } none false at_ n with
  | .ok keys c =>
    match keys.findIdx? fun k => s.poison.contains (poisonUnit k) with
    | some i => .trap { cause := 0x0D, sub := 0, addr := at_ + i }
    | none => .ok keys c
  | f => f

/-- Lanes that waited at a mask and do not any more stand where the resumed lanes do: the wave has one PC (R154, R155). -/
def followRun (before : Wave) (pc hdr : DWord) (w : Wave) : Wave :=
  w.mapThreads (fun l t => match (before.thread l).hold, t.hold with
    | .parked _, .parked _ => t
    | .parked _, _ => if t.live then { t with pc := pc, hdr := hdr, owes := .resume } else t
    | _, _ => t) (List.range 64)

/-- The effect of `eret` once for the wave (R227): lanes whose bit of the mask is set resume at the frame's PC with the
frame's registers, those below Q at entry that the wave still holds (log 37), lanes whose bit the handler cleared exit (R12),
the uniform registers are the frame's and every held thread is released. -/
def returnFromTrap (frame : Nat) (s : State) : State :=
  let core := s.cur.core
  let slot := s.cur.slot
  let w := s.cw
  match w.handler with
  | none => s
  | some h =>
    let rd (off : Nat) : Word := BitVec.ofNat 32 (frame / 256 ^ off)
    let mask : Mask := BitVec.ofNat 64 (frame / 256 ^ 0x30)
    let pc : DWord := BitVec.ofNat 64 (frame / 256 ^ 8) &&& ~~~3#64
    let hdr : DWord :=
      if pc = h.pc then h.hdr
      else if pc = h.npc then h.nhdr
      else BitVec.ofNat 64 ((headerOf (codeWord s core slot) pc.toNat 31).getD (pc.toNat - 4))
    let back := (lanesOf (h.group &&& mask)).filter fun l => (w.thread l).live
    let w := back.foldl (fun w l =>
      let w := restoreLane rd (min h.quota w.quota) l w
      w.setThread l { w.thread l with pc := pc, hdr := hdr, hold := .none, owes := .resume }) w
    let w := (List.range 64).foldl (fun w n => w.setUni n (rd (0x240 + 256 * h.quota + 4 * n))) w
    let w := w.mapThreads (fun _ t => { t with trapHeld := false }) (List.range 64)
    let s := exitLanes (h.group &&& ~~~mask &&& w.liveMask) (s.setCw { w with handler := none })
    retireWave (s.setCw (followRun w pc hdr s.cw)) core slot

/-- The return takes effect once every handler thread that has not exited stands at an `eret` (R227), and the frame can be
read: its threads wait there for its pages (R172, R276) and its tokens (R289, R318), and then issue the `eret` again; a frame
that cannot be read gives its trap, which ends the grid. Where no handler thread is left, no `eret` comes, and the threads held
at entry stay held (log 36). -/
def returnIfReady (s : State) : State :=
  let core := s.cur.core
  let slot := s.cur.slot
  let w := s.cw
  match w.handler with
  | none => s
  | some h =>
    let left := (lanesOf h.group).filter fun l => (w.thread l).live
    if left.isEmpty || !left.all fun l => decide ((w.thread l).hold = .eret) then s
    else
      let waits (k : Hold) (s : State) : State := s.setCw (s.cw.mapThreads (fun _ t => { t with hold := k }) left)
      let fails (t : TrapInfo) : State := raiseTrapWith t true [] { s with cur := { s.cur with active := maskOf left } }
      let n := 0x340 + 256 * h.quota
      let low := (lanesOf h.group).headD 0
      match frameFate s core slot low h.frame n with
      | .trap t => fails t
      | .miss va =>
        if (s.partOf s.ct).isNone || s.ct.faulted.contains (va / 65536) then fails { cause := 8, sub := 3, addr := va }
        else waits (.fault va 0) s
      | .ok keys _ =>
        let need := tokenKeys s core slot [{ lane := low, va := h.frame, keys := keys }]
        if (missingKey s.cc false need).isSome then waits (.tokens false need) (requestTokens s core slot false need)
        else returnFromTrap (readKeys s keys) s

end Sys2Proof.Machine
end

