-- ==== Sys2Proof/Machine/Effects.lean ====
section
/-!
DEFINITION. Buffered effects and the copy engine: what a `cpy`, `cseal`, `spawn`, `trig` or `launch` does at its release
(R160, R188 to R196, R229, R230, R301, R356), and how copies are held, complete and abort (R191 to R193, R375 to R381).
-/
namespace Sys2Proof.Machine

/-! ### The undo log of a context (R405, R406) -/

/-- Entries of a partition's contexts in a stack's log. -/
def logUse (s : State) (part stack : Nat) : Nat :=
  s.contexts.foldl (fun n c =>
    if ((find? s.grids c.1).map (·.part)) = some part then
      n + (c.2.log.filter fun e => stackOf (128 * e.line) == stack).length
    else n) 0

/-- Exclusive ownership of a line taken by a context (R405, R406): its old value is logged, once in an interval; other
contexts' entries for it are marked shared; a log with fewer than 4096 free entries asks its contexts to close. A line that the
die, or the core, has owned since before the interval counts as taken when the slice gives it to a core, or the write performs
(DEDUCED from R410, log 99). -/
def logAppend (s : State) (ctx : Option Nat) (line : Nat) : State :=
  match ctx with
  | none => s
  | some k =>
    match find? s.grids k with
    | none => s
    | some g =>
      if !(decide (128 * line < onChip) && ownDram (128 * line)) then s
      else
        let mark (j : Nat) (c : Context) : Context :=
          if j ≠ k && ((find? s.grids j).map (·.part)) = some g.part then
            { c with log := c.log.map fun e => if e.line = line then { e with shared := true } else e }
          else c
        let s := { s with contexts := mapVals mark s.contexts }
        let c := s.context k
        if c.log.any fun e => e.line == line then s
        else
          let s := { s.setContext k { c with log := c.log ++
            [{ line := line, interval := c.rivl, old := readBytes s (128 * line) 128, shared := false, seq := s.nextSeq }] }
            with nextSeq := s.nextSeq + 1 }
          let stack := stackOf (128 * line)
          if logUse s g.part stack + 4096 ≤ Config.logEntries then s
          else
            let close (j : Nat) (c : Context) : Context :=
              if ((find? s.grids j).map (·.part)) = some g.part &&
                (c.log.any fun e => stackOf (128 * e.line) == stack) then { c with closing := true } else c
            { s with contexts := mapVals close s.contexts }

/-! ### Copies: ranges and checks -/

/-- A range of a copy: first byte, length, written or read (R188). -/
structure Range where
  at_ : Nat
  len : Nat
  write : Bool
  deriving DecidableEq, Repr

/-- The ranges of a copy, the source first (R188); none for len = 0. -/
def copyRanges (c : CopyOp) : List Range :=
  if c.len = 0 then []
  else match c.xf with
    | 0 => [⟨c.src, c.len, false⟩, ⟨c.dst, c.len, true⟩]
    | 1 => [⟨c.src, c.len / 2, false⟩, ⟨c.dst, c.len, true⟩, ⟨c.metaAddr, c.len / 16, false⟩]
    | _ => [⟨c.src, c.len, false⟩, ⟨c.dst, c.len / 2, true⟩, ⟨c.metaAddr, c.len / 16, true⟩]

/-- The alignment of source and destination, and the multiple len is of (R188). -/
def copyAlign (xf : Nat) : Nat × Nat × Nat :=
  match xf with
  | 0 => (4, 4, 4) | 1 => (4, 8, 16) | _ => (8, 4, 16)

/-- The window of one range, the lane-private one refused: R172 step 2 (R188, R189). -/
def windowTrap (r : Range) : Option TrapInfo :=
  match windowOf r.at_ with
  | none => some { cause := 8, sub := 1, addr := r.at_ }
  | some .lane => some { cause := 8, sub := 1, addr := r.at_ }
  | some win => if win.last < r.at_ + r.len - 1 then some { cause := 6, sub := 0, addr := win.last + 1 } else none

/-- The allotment of one range that lies in a window: R172 step 3. -/
def allotmentTrap (s : State) (w : Who) (r : Range) : Option TrapInfo :=
  match windowOf r.at_ with
  | none => none
  | some win =>
    let o := r.at_ - win.first
    let lim := allotment s w win
    if !win.translated && decide (lim < o + r.len) then some { cause := 8, sub := 2, addr := win.first + max o lim } else none

/-- R172 steps 2 and 3 for some ranges, one step after the other. -/
def checkWindows (s : State) (w : Who) (rs : List Range) : Option TrapInfo :=
  (rs.findSome? windowTrap).orElse fun _ => rs.findSome? (allotmentTrap s w)

/-- The checks of a `cpy` at issue: alignment, then the windows of its ranges (R172, R188, R189). -/
def checkCopy (s : State) (w : Who) (c : CopyOp) : Option TrapInfo :=
  let (sa, da, la) := copyAlign c.xf
  if c.len = 0 then none
  else if c.src % sa ≠ 0 then some { cause := 7, sub := 8, addr := c.src }
  else if c.dst % da ≠ 0 then some { cause := 7, sub := 8, addr := c.dst }
  else if c.len % la ≠ 0 then some { cause := 7, sub := 8, addr := c.dst }
  else checkWindows s w (copyRanges c)

/-- Two ranges overlap and one of them is written (R191). -/
def Range.conflicts (a b : Range) : Bool :=
  (a.write || b.write) && decide (a.at_ < b.at_ + b.len) && decide (b.at_ < a.at_ + a.len)

/-- Who accesses for a copy: its team on its core. -/
def copyWho (s : State) (core : Nat) (c : CopyOp) : Who :=
  { core := core, lane := c.lane, wave := noWave, team := s.team c.team }

/-! ### The range-lock table (R378 to R381) -/

/-- Entries that a copy may take: neither locked nor reserved. -/
def freeEntries (c : Core) : List Nat := (List.range 64).filter fun n => !(c.lock n).v && !(c.lock n).rsv
/-- The core with a lock written into an entry, its reservation kept. -/
def setLock (c : Core) (n : Nat) (dst eng : Bool) (wave seq start len : Nat) : Core :=
  { c with locks := put c.locks n { v := true, dst := dst, eng := eng, rsv := (c.lock n).rsv, wave := wave,
                                    seq := seq % 64, len := len, start := start, from_ := c.clk.toNat + 1 } }
/-- The core with entries' locks removed (R381). -/
def clearLocks (c : Core) (ns : List Nat) : Core :=
  { c with locks := ns.foldl (fun m n => put m n { look {} m n with v := false }) c.locks }
/-- The core with a lock for each range, in the given entries. -/
def setLocks (eng : Bool) (wave seq : Nat) : List Nat → List Range → Core → Core
  | n :: ns, r :: rs, c => setLocks eng wave seq ns rs (setLock c n r.write eng wave seq r.at_ r.len)
  | _, _, c => c

/-! ### Order among engine operations (R191, R375, R380) -/

/-- Earlier registered operations of the core whose ranges conflict with some ranges of a team (R191, R380). -/
def blockedBy (s : State) (c : Core) (team reg : Nat) (rs : List Range) : Bool :=
  let meets (other : Nat) (a : Range) : Bool := rs.any fun r => a.conflicts r && sameSpace s a.at_ team other
  (c.copies.any fun x => decide (x.reg < reg) && (copyRanges x.op).any (meets x.op.team)) ||
  (c.mmas.any fun m => decide (m.reg < reg) && (match m.lock with
    | some n => meets m.team ⟨(c.lock n).start, (c.lock n).len, false⟩
    | none => false))

/-- The dense bytes that a copy moves (R375, R377): of an expansion its destination's, else its source's. -/
def CopyOp.dense (c : CopyOp) : Nat := c.len

/-- The bytes of a copy's next chunk, which stays within one destination line (R375). -/
def Copy.chunk (x : Copy) : Nat :=
  let at_ := x.op.dst + (x.op.dense - x.left)
  min x.left (128 - at_ % 128)

/-- The active copy that moves next: the first with bytes left from a place in rotating order on (R375). -/
def nextMove (cs : List Copy) (turn : Nat) : Option Nat :=
  ((List.range cs.length).map fun i => (turn + i) % cs.length).find? fun i =>
    (cs[i]?).any fun x => x.active && decide (0 < x.left)

/-- `n` bytes moved by the active copies in rotating order, in at most so many chunks (R375). -/
def moveBytes : Nat → Nat → List Copy × Nat → List Copy × Nat
  | 0, _, x => x
  | fuel + 1, n, (cs, turn) =>
    match nextMove cs turn with
    | none => (cs, turn)
    | some i =>
      match cs[i]? with
      | none => (cs, turn)
      | some x =>
        let k := min n x.chunk
        if k = 0 then (cs, turn)
        else moveBytes fuel (n - k) (cs.set i { x with left := x.left - k }, (i + 1) % cs.length)

/-- The copy engine's moves up to a clock: 256 dense bytes each clock (R375). -/
def moveTo (c : Core) (t : Nat) : Core :=
  let n := 256 * (t - c.copyAt)
  let todo := (c.copies.map (·.left)).foldl (· + ·) 0
  let (cs, turn) := moveBytes (min n todo) n (c.copies, c.copyTurn)
  { c with copies := cs, copyTurn := turn, copyAt := max c.copyAt t }

/-- At most four copies are active, taken in release order; one that waits for an earlier operation is passed over
(R375). -/
def activateCopies (s : State) (c : Core) : Core :=
  { c with copies := c.copies.foldl (fun done x =>
      let room := decide ((done.filter (·.active)).length + (c.copies.filter fun y => y.active && decide (x.reg < y.reg)).length < 4)
      done ++ [{ x with active := x.active || (room && !blockedBy s c x.op.team x.reg (copyRanges x.op)) }]) [] }

/-- The copy engine up to the core's clock: what it has moved, and the copies that became active in the clock after locks went
(R375, R381). -/
def moveCopies (s : State) (c : Core) : Core :=
  match c.wake with
  | some t =>
    if t ≤ c.clk.toNat then moveTo { activateCopies s (moveTo c t) with wake := none } c.clk.toNat else moveTo c c.clk.toNat
  | none => moveTo c c.clk.toNat

/-! ### Releases -/

/-- Release of a copy to the engine (R189, R375); none where the queue or the table has no room. A copy of no bytes
completes at its release (R188). -/
def releaseCopy (s : State) (core : Nat) (c : CopyOp) : Option State :=
  let k := s.core core
  let w := s.wave core c.slot
  let rs := copyRanges c
  let entries := (freeEntries k).take rs.length
  if rs.isEmpty then some s
  else if 32 ≤ (k.copies.filter fun x => !x.active).length || decide (entries.length < rs.length) then none
  else
    let k := moveCopies s k
    let k := setLocks false c.slot k.seq entries rs
      { k with seq := k.seq + 1
               copies := k.copies ++
                 [{ op := c, reg := k.regOrder false c.slot, seq := k.seq % 64, entries := entries, active := false, left := c.dense
                    faulted := [] }] }
    let s := s.setCore core (activateCopies s k)
    let t := w.thread c.lane
    some (s.setWave core c.slot ((s.wave core c.slot).setThread c.lane { t with open_ := t.open_ ++ [c.id] }))

/-- Batches of a thread that are not finished: some copy is outstanding in them or in an earlier one (R194). -/
def unfinished (t : Thread) : Nat :=
  match t.batches.findIdx? (fun b => !b.copies.isEmpty) with
  | some i => t.batches.length - i
  | none => 0

/-- Finished batches without an error mark are forgotten (R193, R194). -/
def tidyBatches : List Batch → List Batch
  | [] => []
  | b :: r => if b.copies.isEmpty then (if b.err.isSome then b :: tidyBatches r else tidyBatches r) else b :: r

/-- Release of a `cseal`: each thread's open copies form its next batch (R194); none where a thread holds 15. -/
def releaseSeal (s : State) (core slot : Nat) (lanes : Mask) : Option State :=
  let w := s.wave core slot
  let live (ids : List Nat) : List Nat := ids.filter fun id => (s.core core).copies.any fun c => c.op.id == id
  if (lanesOf lanes).any fun l => decide (15 ≤ unfinished (w.thread l)) then none
  else some (s.setWave core slot (w.mapThreads (fun _ t =>
    { t with batches := tidyBatches (t.batches ++ [{ copies := live t.open_, err := t.openErr }]), open_ := [],
             openErr := none }) (lanesOf lanes)))

/-- The bin of a team's entry address, or an empty one (R160, R356); none where all 16 are taken. -/
def binFor (c : Core) (team : Nat) (entry : DWord) : Option Nat :=
  match c.bins.find? fun b => b.2.team == team && b.2.entry == entry with
  | some b => some b.1
  | none => let n := freeKey c.bins 0 16; if n < 16 then some n else none

/-- The spawn-bin timer of a team's grid (R347); its longest for firmware's team, which has no record (log 17). -/
def timerOf (s : State) (t : Team) : Nat := ((s.gridOf t).map (·.timer)).getD 65535

/-- Release of a `spawn`: entries placed in the bin in ascending lane order (R160); none where no bin is free. -/
def releaseSpawn (s : State) (core team : Nat) (entry : DWord) (args : List Word) : Option State :=
  let c := s.core core
  match binFor c team entry with
  | none => none
  | some n =>
    let b := look { team := team, entry := entry, args := [], expires := none, dueWave := false } c.bins n
    let expires := if b.args.isEmpty || b.expires.isNone then some (c.clk.toNat + timerOf s (s.team team)) else b.expires
    some (s.setCore core { c with bins := put c.bins n { b with args := b.args ++ args, expires := expires } })

/-- The 128 bytes of a launch record as one event (R229); unreadable bytes give a record of zeros, which is malformed. -/
def readRecord (s : State) (core team addr : Nat) : Nat :=
  match checkRange s { core := core, lane := 0, wave := noWave, team := s.team team } none false addr 128 with
  | .ok keys _ => readKeys s keys
  | _ => 0

/-- Release of a `launch`: its record is read and waits in the team's launch buffer for the dispatcher (R229, R301);
none where the buffer holds 8. A record of firmware's team, which has no partition, is never parsed (DESIGN CHOICE, log 106). -/
def releaseLaunch (s : State) (core team addr : Nat) : Option State :=
  let t := s.team team
  if 8 ≤ t.launches.length then none
  else
    let s' := s.setTeam team { t with launches := t.launches ++ [readRecord s core team addr] }
    match t.grid.bind (find? s.grids), t.grid with
    | some g, some h => some (s'.setGrid h { g with liveChildren := g.liveChildren + 1 })
    | _, _ => some s'

/-- Release of one buffered effect (R301); none where it must wait. -/
def releaseEffect (s : State) (core slot : Nat) (e : Effect) : Option State :=
  let w := s.wave core slot
  match e with
  | .copy c => releaseCopy s core c
  | .seal lanes => releaseSeal s core slot lanes
  | .spawn entry args => releaseSpawn s core w.team entry args
  | .trig lanes =>
    some (checkTriggered (s.setWave core slot
      (w.mapThreads (fun _ t => { t with triggered := true }) (lanesOf lanes))) w.team)
  | .launch addr => releaseLaunch s core w.team addr

/-- Release of effects in order; none where one must wait (R296, R301). -/
def releaseAll (core slot : Nat) : List Effect → State → Option State
  | [], s => some s
  | e :: r, s =>
    match releaseEffect s core slot e with
    | some s' => releaseAll core slot r s'
    | none => none

/-- A buffered effect issued: held for the commit of its region, or, in a wave with nothing older to perform, released
at once where it can be (R301). -/
def issueEffect (e : Effect) (s : State) : State :=
  let w := s.cw
  let (id, s') := s.draw
  let held := s'.setCw { w with effects := w.effects ++ [{ id := id, mask := s.cur.active, spec := w.ckpt.isSome, eff := e }] }
  if w.quiet && w.effects.isEmpty then (releaseEffect s s.cur.core s.cur.slot e).getD held else held

/-! ### Completion and abort of a copy (R191 to R193, R375 to R377) -/

/-- The keys of a range as the engine meets it, or the first byte that fails (R193). -/
def rangeKeys (s : State) (w : Who) (r : Range) : Except Nat (List Nat) :=
  match checkRange s w none r.write r.at_ r.len with
  | .ok keys _ => .ok keys
  | _ => .error r.at_

/-- The parts of a copy's ranges that the engine has reached (R192). -/
def Copy.reached (x : Copy) : List Range :=
  if x.active then (copyRanges x.op).map fun r => { r with len := (r.len * (x.op.dense - x.left) + x.op.dense - 1) / x.op.dense }
  else []

/-- An engine of another core than `core` keeps a reader or a writer off one of some words, by key ÷ 4: a fetcher or a copy that
has read it, in memory, a writer; a copy that has reached it as a destination, both (R192, R209, R376). -/
def engineHolds (s : State) (core : Option Nat) (write : Bool) (words : List Nat) : Bool :=
  (write && fetcherHolds s core words) ||
  s.cores.any fun c => decide (some c.1 ≠ core) && !c.2.copies.isEmpty && (moveCopies s c.2).copies.any fun x =>
    x.reached.any fun r => match rangeKeys s (copyWho s c.1 x.op) r with
      | .ok keys => keys.any fun k => (r.write || write && decide (k < onChip)) && words.contains (k / 4)
      | .error _ => false

/-- The 16-bit elements of a byte list. -/
def halves : List Byte → List Nat
  | a :: b :: r => (a.toNat + 256 * b.toNat) :: halves r
  | _ => []
/-- The bytes of 16-bit elements. -/
def unhalves (xs : List Nat) : List Byte := xs.flatMap (bytesOf 2)

/-- Dense bytes from compressed data and metadata (R106). -/
def expandBytes : List Nat → Nat → Nat → List Nat
  | a :: b :: r, md, g => expandGroup a b (md / 16 ^ g % 16) ++ expandBytes r md (g + 1)
  | _, _, _ => []
/-- Kept elements, metadata and whether a group lost a nonzero, from dense elements (R105). -/
def compactElems : List Nat → Nat → List Nat × Nat × Bool
  | a :: b :: c :: d :: r, g =>
    let (kept, nib, lost) := compactGroup [a, b, c, d]
    let (ks, md, l) := compactElems r (g + 1)
    (kept.1 :: kept.2 :: ks, nib * 16 ^ g + md, lost || l)
  | _, _ => ([], 0, false)

/-- The written bytes of a copy, destination then metadata, and SL, from the bytes of its source and metadata (R104 to
R106, R188). -/
def copyBytes (xf : Nat) (src md : List Byte) : List Byte × List Byte × Bool :=
  match xf with
  | 0 => (src, [], false)
  | 1 => (unhalves (expandBytes (halves src) (ofBytes md) 0), [], false)
  | _ =>
    let (ks, m, l) := compactElems (halves src) 0
    (unhalves ks, bytesOf (src.length / 8 / 2) m, l)

/-- The bytes at keys written as one event; a line of a lost chip refuses them (R339, log 100). -/
def performBytes (s : State) (keys : List Nat) (bs : List Byte) : State :=
  let ok := (keys.zip bs).filter fun x => !lostPA s x.1
  performWrite s none none (ok.map (·.1)) (ofBytes (ok.map (·.2)))

/-- A copy leaves the engine: its locks go, and its batch counts it out, with an error mark for an abort (R193, R194,
R381). A copy of an exited thread leaves its error to the grid's record (R193, R351), and its team may retire with it
(log 32). -/
def retireCopy (s : State) (core : Nat) (c : Copy) (err : Option Nat) : State :=
  let k := moveCopies s (s.core core)
  let s := s.setCore core (Core.freed
    { clearLocks k c.entries with copies := k.copies.filter fun x => x.op.id ≠ c.op.id
                                  mismatches := k.mismatches.filter (· ≠ (c.op.slot, c.op.pc.toNat)) })
  let w := s.wave core c.op.slot
  let t := w.thread c.op.lane
  if s.hasWave core c.op.slot && decide (w.serial = c.op.wave) && t.live then
    let fixB (b : Batch) : Batch :=
      if b.copies.contains c.op.id then
        { copies := b.copies.filter (· ≠ c.op.id), err := if b.err.isSome then b.err else err } else b
    let open_ := t.open_.contains c.op.id
    s.setWave core c.op.slot (w.setThread c.op.lane
      { t with batches := tidyBatches (t.batches.map fixB), open_ := t.open_.filter (· ≠ c.op.id)
               openErr := if open_ && t.openErr.isNone then err else t.openErr })
  else retireTeam (leaveCopyErr s c.op.team err) c.op.team

/-- SL set at completion in the issuing thread's FPST and in its checkpoint image (R377). -/
def setSL (s : State) (core : Nat) (c : CopyOp) : State :=
  let w := s.wave core c.slot
  if s.hasWave core c.slot && decide (w.serial = c.wave) && (w.thread c.lane).live then
    let w := w.stick c.lane flagSL
    s.setWave core c.slot { w with ckpt := w.ckpt.map fun k =>
      let t := look k.base k.threads c.lane
      { k with threads := put k.threads c.lane { t with fpst := t.fpst ||| flagSL } } }
  else s

/-- The copy completes as one event (R192, R270, R377); none where it must wait or fails. -/
def completeCopy (s : State) (core : Nat) (c : Copy) : Option State :=
  let rs := copyRanges c.op
  let w := copyWho s core c.op
  if !c.active || decide (c.left ≠ 0) || blockedBy s (s.core core) c.op.team c.reg rs then none
  else
    match rs.mapM (rangeKeys s w) with
    | .error _ => none
    | .ok keys =>
      let written := (keys.zip rs).flatMap fun x => if x.2.write then x.1 else []
      if fetcherHolds s (some core) (written.map (· / 4)) then none
      else match engineGather s (s.partOf (s.team c.op.team)) keys.flatten with
      | none => none
      | some s =>
        let src := keys.getD 0 []
        let dst := keys.getD 1 []
        let md := keys.getD 2 []
        let mdIn := if c.op.xf = 1 then md else []
        let (out, mdOut, lost) := copyBytes c.op.xf (src.map (readByte s)) (mdIn.map (readByte s))
        let bad := (firstPoison s (src ++ mdIn)).isSome
        let ctx := ctxOf s (s.team c.op.team)
        let s := ((dst ++ if c.op.xf = 2 then md else []).map lineOf).eraseDups.foldl (fun s l => logAppend s ctx l) s
        let s := performBytes s dst out
        let s := if c.op.xf = 2 then performBytes s md mdOut else s
        let s := engineDirty s (s.partOf (s.team c.op.team)) (dst ++ if c.op.xf = 2 then md else [])
        let s := if bad then addPoison s (dst ++ if c.op.xf = 2 then md else []) else s
        let s := if lost then setSL s core c.op else s
        some (retireCopy s core c none)

/-- The first failing range of a copy that the engine meets (R193). -/
def copyFailure (s : State) (core : Nat) (c : Copy) : Option Nat :=
  (copyRanges c.op).findSome? fun r =>
    match rangeKeys s (copyWho s core c.op) r with
    | .error a => some a
    | .ok _ => none

/-- The effects held that do not belong to the live region (R297). -/
def dropSpec (es : List Held) : List Held := es.filter fun e => !e.spec

end Sys2Proof.Machine
end

