-- ==== Sys2Proof/Machine/Operands.lean ====
section
/-!
DEFINITION. Operand values (R25, R26, R41, R111), the writing of results (R20, R31, R42, R112), variable-latency results
(R69), and the shapes that the lane instructions share.
-/
namespace Sys2Proof.Machine

/-- Coordinates and numbers of a wave's team (R25): team x, y, z, grid ID, depth. For firmware's team, which has no grid, they
read 0 (log 43). -/
def specialTeam (s : State) (k : Special) : Nat :=
  let t := s.ct
  match k with
  | .teamX => t.x | .teamY => t.y | .teamZ => t.z
  | .grid => ((s.gridOf t).map (·.id)).getD 0
  | .depth => ((s.gridOf t).map (·.depth)).getD 0
  | _ => 0

/-- The value of a special for a lane, 32 bits (R25, R26). -/
def specialVal (s : State) (k : Special) (l : Nat) : Word :=
  let w := s.cw
  match k with
  | .lid => BitVec.ofNat 32 l
  | .tid => BitVec.ofNat 32 (w.wid * 64 + l)
  | .wid => BitVec.ofNat 32 w.wid
  | .w => 64
  | .core => BitVec.ofNat 32 s.cur.core
  | .clkLo => BitVec.ofNat 32 s.cc.clk.toNat
  | .clkHi => BitVec.ofNat 32 (s.cc.clk.toNat / 2 ^ 32)
  | .qtr => BitVec.ofNat 32 s.cq
  | .spawnArg => (w.thread l).arg
  | .slot => match w.quartet with
    | some q => BitVec.ofNat 32 q
    | none => 0xFFFFFFFF
  | k => BitVec.ofNat 32 (specialTeam s k)

/-- A pair's 64-bit value: the low word in the even register (R19). -/
def joinWords (lo hi : Word) : DWord := hi ++ lo

/-- A 32-bit operand; an FP constant reads its encoding in format `f` (R41). -/
def opndIn (f : Fmt) (s : State) (o : Opnd) (l : Nat) : Word :=
  match o with
  | .lane r => s.cw.reg r.toNat l
  | .unif r => s.cw.uni r.toNat
  | .pos k => k.setWidth 32
  | .neg k => BitVec.ofInt 32 (-((k.toNat : Int) + 1))
  | .fp k => match f with
    | .f32 | .f64 => BitVec.ofNat 32 (fpConst .f32 k.toNat)
    | f => BitVec.ofNat 32 (fpConst f k.toNat * 65537)
  | .special k => specialVal s k l

/-- A 32-bit operand without a packed type (R41). -/
def opnd (s : State) (o : Opnd) (l : Nat) : Word := opndIn .f32 s o l

/-- A 64-bit operand (R19, R41, R111). -/
def opnd64 (s : State) (o : Opnd) (l : Nat) : DWord :=
  match o with
  | .lane r => joinWords (s.cw.reg r.toNat l) (s.cw.reg (r.toNat + 1) l)
  | .unif r => joinWords (s.cw.uni r.toNat) (s.cw.uni (r.toNat + 1))
  | .pos k => k.setWidth 64
  | .neg k => BitVec.ofInt 64 (-((k.toNat : Int) + 1))
  | .fp k => BitVec.ofNat 64 (fpConst .f64 k.toNat)
  | .special k => (specialVal s k l).setWidth 64

/-- The operand of a format's instruction as a number: a pair for f64, a packed register for the 16-bit formats (R83,
R111). -/
def opndF (f : Fmt) (s : State) (o : Opnd) (l : Nat) : Nat :=
  match f with
  | .f64 => (opnd64 s o l).toNat
  | f => (opndIn f s o l).toNat

/-- A pair's value (R19). -/
def pairVal (s : State) (p : Pair) (l : Nat) : DWord :=
  match p with
  | .lane k => joinWords (s.cw.reg (2 * k.toNat) l) (s.cw.reg (2 * k.toNat + 1) l)
  | .unif k => joinWords (s.cw.uni (2 * k.toNat)) (s.cw.uni (2 * k.toNat + 1))

/-- A data operand of a store or atomic as a number of up to 128 bits; constants extend as R41 gives. -/
def opndWide (n : Nat) (s : State) (o : Opnd) (l : Nat) : Nat :=
  if n ≤ 4 then (opnd s o l).toNat % 256 ^ n
  else if n = 8 then (opnd64 s o l).toNat
  else match o with
    | .lane r => (opnd64 s o l).toNat +
        2 ^ 64 * (joinWords (s.cw.reg (r.toNat + 2) l) (s.cw.reg (r.toNat + 3) l)).toNat
    | .unif r => (opnd64 s o l).toNat + 2 ^ 64 * (joinWords (s.cw.uni (r.toNat + 2)) (s.cw.uni (r.toNat + 3))).toNat
    | .neg k => 2 ^ 128 - (k.toNat + 1)
    | o => (opnd64 s o l).toNat

/-- The value D holds, in 32 bits or as a pair; in a UNI clause the uniform register's (R42). -/
def destVal (s : State) (wide : Bool) (d : BitVec 7) (l : Nat) : Nat :=
  let rd (r : Nat) : Word := if s.cur.uni then s.cw.uni r else s.cw.reg r l
  if wide then (joinWords (rd d.toNat) (rd (d.toNat + 1))).toNat else (rd d.toNat).toNat

/-- The rounding mode of a lane's thread (R30). -/
def rmOf (s : State) (l : Nat) : RMode := RMode.ofBits (s.cw.thread l).rm

/-! ### Results -/

/-- The lanes an instruction computes for: Active, or once for its lowest lane in a UNI clause (R20, R112). -/
def resultLanes (s : State) : List Nat := if s.cur.uni then [s.lowLane] else s.lanes

/-- `Wr` of one 32-bit result (R42). -/
def wr (s : State) (d l v : Nat) : Write :=
  if s.cur.uni then .unif d (BitVec.ofNat 32 v) else .reg d l (BitVec.ofNat 32 v)
/-- `Wr` of a result of one register or of a pair, low word first (R19, R42). -/
def wrN (s : State) (wide : Bool) (d l v : Nat) : List Write :=
  if wide then [wr s d l v, wr s (d + 1) l (v / 2 ^ 32)] else [wr s d l v]
/-- The flags a result raises: in its own thread, or in every thread of the group in a UNI clause (R20, R31). -/
def wrFlags (s : State) (l : Nat) (f : Flags) : List Write :=
  if f = 0 then [] else if s.cur.uni then s.lanes.map fun k => .flags k f else [.flags l f]

/-- The running wave after a list of writes. -/
def applyWrites (ws : List Write) (s : State) : State := s.setCw (Wave.writes ws s.cw)

/-- A fixed-latency instruction: every lane's writes computed from the state before it, then made (R69, R112). -/
def fixedOp (sw : Bool) (f : Nat → List Write) (s : State) : State :=
  finish sw (applyWrites ((resultLanes s).flatMap f) s)

/-- A result outstanding for the group under a number, of an uncached access or not: its registers are pending until it is
written (R69, R282). -/
def addPendAs (unc : Bool) (id d n : Nat) (src : Source) (s : State) : State :=
  let w := s.cw
  s.setCw { w with pend := w.pend ++
    [{ id := id, pc := s.cur.pc, hdr := s.cur.hdr, mask := s.cur.active, d := d, n := n, src := src,
       spec := w.ckpt.isSome, unc := unc, at_ := s.cc.clk.toNat }] }
/-- A result outstanding for the group under a number (R69). -/
def addPendId (id d n : Nat) (src : Source) (s : State) : State := addPendAs false id d n src s
/-- A result outstanding for the group under a new number. -/
def addPend (d n : Nat) (src : Source) (s : State) : State := addPendId s.draw.1 d n src s.draw.2

/-- A variable-latency instruction whose values are computed at issue (R69). -/
def variableOp (sw : Bool) (d n : Nat) (f : Nat → List Write) (s : State) : State :=
  finish sw (addPend d n (.value ((resultLanes s).flatMap f)) s)

/-- A 32-bit two-operand instruction. -/
def int2 (sw : Bool) (d : BitVec 7) (a b : Opnd) (f : Word → Word → Word) (s : State) : State :=
  fixedOp sw (fun l => [wr s d.toNat l (f (opnd s a l) (opnd s b l)).toNat]) s
/-- A 32-bit instruction of two operands and of what D holds. -/
def int3 (sw : Bool) (d : BitVec 7) (a b : Opnd) (f : Word → Word → Word → Word) (s : State) : State :=
  fixedOp sw (fun l => [wr s d.toNat l
    (f (opnd s a l) (opnd s b l) (BitVec.ofNat 32 (destVal s false d l))).toNat]) s
/-- A 32-bit one-operand instruction. -/
def int1 (sw : Bool) (d : BitVec 7) (a : Opnd) (f : Word → Word) (s : State) : State :=
  fixedOp sw (fun l => [wr s d.toNat l (f (opnd s a l)).toNat]) s
/-- A pair result of two operands read by `f`. -/
def pair2 (sw : Bool) (d : BitVec 7) (f : Nat → DWord) (s : State) : State :=
  fixedOp sw (fun l => wrN s true d.toNat l (f l).toNat) s

/-- A floating-point instruction's writes: the encoding and its flags. -/
def fpWrites (s : State) (wide : Bool) (d l : Nat) (r : Nat × Flags) : List Write :=
  wrN s wide d l r.1 ++ wrFlags s l r.2
/-- f32 or f64 by M (R119). -/
def fmtOf (wide : Bool) : Fmt := if wide then .f64 else .f32

/-- A predicate result per lane, with flags (R123). -/
def predOp (sw : Bool) (pd : Fin 24) (f : Nat → Bool × Flags) (s : State) : State :=
  finish sw (applyWrites (s.lanes.flatMap fun l => .pred l pd.val (f l).1 :: wrFlags s l (f l).2) s)

end Sys2Proof.Machine
end

