-- ==== Sys2Proof/Machine/Control.lean ====
section
/-!
DEFINITION. Control transfers, strict mode's rejoin masks and team coordination (R68, R141 to R160).
-/
namespace Sys2Proof.Machine

/-- The running core is in strict mode (R40). -/
def State.strict (s : State) : Bool := s.cc.strict
/-- Run: the threads neither exited nor parked on a mask (R154). -/
def runMask (w : Wave) : Mask :=
  maskOf ((List.range 64).filter fun l => (w.thread l).live && (match (w.thread l).hold with
    | .parked _ => false
    | _ => true))

/-- The thread is parked at an `acq`, where it stays until it issues it again (R185). -/
def Thread.atAcq (t : Thread) : Bool :=
  match t.hold with
  | .acq _ => true
  | _ => false

/-- A target word that is a header with BS = 1 (R68). -/
def goodTarget (s : State) (target : DWord) : Bool :=
  match decodeHeader (codeWord s s.cur.core s.cur.slot target.toNat) with
  | some h => h.bs
  | none => false

/-- Active moved: each lane to its target header, or on to the next PC where it has none. In strict mode the wave has one
PC, so the other threads of Run go where Active goes, but those parked at an `acq` (R150, R151, R154, R185). -/
def transfer (target : Nat → Option DWord) (s : State) : State :=
  let act := s.lanes
  let w := s.cw.mapThreads (fun l t => match target l with
    | some a => t.goto a
    | none => t.step s.cur) act
  let s' := s.setCw w
  let s' :=
    if s.strict then
      match target s.lowLane with
      | some a => s'.setCw (s'.cw.mapThreads (fun _ t => { t with pc := a + 4, hdr := a, owes := .entry })
          ((lanesOf (runMask w &&& ~~~s.cur.active)).filter fun l => !(w.thread l).atAcq))
      | none => s'
    else s'
  demoteAt64 s'

/-- The targets of Active differ. -/
def diverges (s : State) (target : Nat → Option DWord) : Bool := s.lanes.any fun l => target l != target s.lowLane

/-- A transfer with the uniformity checks: subcode 3 in strict mode whatever U holds (R154), `sub` for U = 1; then the
target check of R68; `before` is done where the transfer takes place. -/
def transferOp (sw u : Bool) (sub : Nat) (target : Nat → Option DWord) (before : State → State) (s : State) : State :=
  if s.strict && diverges s target then trap 3 3 s
  else if u && diverges s target then trap 3 sub s
  else if s.lanes.any fun l => (match target l with
      | some a => !goodTarget s a
      | none => false) then trap 1 7 s
  else park sw (transfer target (before s))

/-- The threads that take a branch (R142). -/
def takes (w : Wave) (c : BrCond) (l : Nat) : Bool :=
  match c with
  | none => true
  | some (p, sense) => w.pred l p.val != sense

/-- The target of BR: PC + 4 × the signed offset (R73, R141). -/
def brTarget (s : State) (off : BitVec 17) : DWord := s.cur.pc + (off.signExtend 64 <<< 2)

/-- `bra` (R142). -/
def execBra (sw : Bool) (u : Bool) (c : BrCond) (off : BitVec 17) (s : State) : Host.Outcome State Fault Refusal :=
  .next (transferOp sw u 0 (fun l => if takes s.cw c l then some (brTarget s off) else none) id s)
/-- `call` (R143): %lr of each thread that takes it is the header after the call's clause. -/
def execCall (sw : Bool) (u : Bool) (c : BrCond) (off : BitVec 17) (s : State) : Host.Outcome State Fault Refusal :=
  .next (transferOp sw u 1 (fun l => if takes s.cw c l then some (brTarget s off) else none)
    (fun s => s.setCw (s.cw.mapThreads (fun _ t => { t with lr := s.cur.npc - 4 }) (s.lanes.filter (takes s.cw c)))) s)
/-- `ret` (R144). -/
def execRet (sw : Bool) (u : Bool) (s : State) : Host.Outcome State Fault Refusal :=
  .next (transferOp sw u 2 (fun l => some (s.cw.thread l).lr) id s)
/-- `bri` (R146): a table not declared is a reserved value, an index past its table the bounds trap. -/
def execBri (sw : Bool) (idx : Opnd) (table : BitVec 10) (s : State) : Host.Outcome State Fault Refusal :=
  match tableAt s table.toNat with
  | none => .next (trap 1 2 s)
  | some (entry, es) =>
    if s.lanes.any fun l => decide (es.length ≤ (opnd s idx l).toNat) then .next (trap 5 1 s)
    else .next (transferOp sw false 3
      (fun l => some (entry + BitVec.ofInt 64 (es.getD (opnd s idx l).toNat 0))) id s)
/-- `nap` (R149): the group is demoted. -/
def execNap (sw : Bool) (s : State) : Host.Outcome State Fault Refusal :=
  let s := finish sw s
  .next (s.setCw (s.cw.mapThreads (fun _ t => { t with back := 0, demoted := true }) s.lanes))

/-! ### Rejoin masks (R22, R155) -/

/-- Run left empty without a release: the illegal-convergence trap with the parked lanes as its group (R155). -/
def checkRun (s : State) : State :=
  let w := s.cw
  if s.hasWave s.cur.core s.cur.slot && s.strict && decide (runMask w = 0) && decide (w.liveMask ≠ 0) then
    raiseTrapWith { cause := 4, sub := 1, addr := 0 } true []
      { s with cur := { s.cur with active := w.liveMask } }
  else s

/-- `join.enrol` (R155). -/
def execJoinEnrol (sw : Bool) (j : BitVec 3) (s : State) : Host.Outcome State Fault Refusal :=
  .next (finish sw (s.setCw { s.cw with rejoin := put s.cw.rejoin j.toNat (look 0 s.cw.rejoin j.toNat ||| s.cur.active) }))
/-- `join.wait` (R155). -/
def execJoinWait (sw : Bool) (j : BitVec 3) (s : State) : Host.Outcome State Fault Refusal :=
  let m := look (0 : Mask) s.cw.rejoin j.toNat
  let s := finish sw s
  let s := s.setCw (s.cw.mapThreads (fun l t => if m.getLsbD l then { t with hold := .parked j.toNat } else t) s.lanes)
  .next (checkRun (releaseMask j.toNat s))
/-- `join.strike` (R155). -/
def execJoinStrike (sw : Bool) (j : BitVec 3) (s : State) : Host.Outcome State Fault Refusal :=
  let s := finish sw s
  let s := s.setCw { s.cw with
    rejoin := put s.cw.rejoin j.toNat (look 0 s.cw.rejoin j.toNat &&& ~~~s.cur.active) }
  .next (checkRun (releaseMask j.toNat s))

/-! ### Barriers (R156 to R158) -/

/-- The count as R157 reads it: 0 is 1, above 64 is 64. -/
def barCount (n : Nat) : Nat := if n = 0 then 1 else min n 64

/-- An arrival of Active at a barrier (R157); a thread that a restore has put back to its `bar` has arrived already (R363). -/
def arrive (id c : Nat) (s : State) : State :=
  let new := s.lanes.filter fun l => !(s.cw.thread l).again
  if new.isEmpty then s
  else
    let w := s.cw.mapThreads (fun _ t => t.setBar id { t.bar id with flag := true, since := true }) new
    completeArrival s.cur.core s.cur.slot id (s.setCw { w with barCounts := put w.barCounts id (barCount c) })

/-- A wait of Active at a barrier: for the phase of its own arrival where the flag is set, else for the next completion;
the flag is cleared (R157). -/
def awaitBar (id : Nat) (s : State) : State :=
  let phase := (s.ct.bar id).phase
  s.setCw (s.cw.mapThreads (fun _ t =>
    if (t.bar id).flag then
      { t.setBar id { t.bar id with flag := false } with hold := .barOwn id s.cur.pc s.cur.hdr, again := false }
    else { t with hold := .barNext id phase s.cur.pc s.cur.hdr, again := false }) s.lanes)

/-- `bar.arrive` (R157). -/
def execBarArrive (sw : Bool) (id : BitVec 4) (count : Opnd) (s : State) : Host.Outcome State Fault Refusal :=
  .next (finish sw (arrive id.toNat (opnd s count s.lowLane).toNat (progress s)))
/-- `bar.wait` (R157): the thread stands at the next PC and waits there. -/
def execBarWait (sw : Bool) (id : BitVec 4) (_count : Opnd) (s : State) : Host.Outcome State Fault Refusal :=
  .next (awaitBar id.toNat (finish sw (progress s)))
/-- `bar.both`: arrives and then waits (R157). -/
def execBarBoth (sw : Bool) (id : BitVec 4) (count : Opnd) (s : State) : Host.Outcome State Fault Refusal :=
  .next (awaitBar id.toNat (finish sw (arrive id.toNat (opnd s count s.lowLane).toNat (progress s))))

/-! ### `exit` (R12, R148, R155, R158) -/

/-- `exit`: Active leaves the active set, which may complete a return from a trap that waited for it, and the wave. -/
def execExit (_sw : Bool) (s : State) : Host.Outcome State Fault Refusal :=
  let s' := returnIfReady (exitLanes s.cur.active s)
  .next (checkRun (retireWave s' s.cur.core s.cur.slot))

/-! ### `rq` and `spawn` (R159, R160) -/

/-- Rows of the team in a quarter: its pool and the quotas of its other waves there (R159). -/
def teamRows (s : State) (core slot : Nat) (team : Nat) : Nat :=
  let q := slot / 16
  (s.core core).waves.foldl (fun n kw =>
    if kw.2.team == team && kw.1 / 16 == q && kw.1 != slot then n + kw.2.quota else n)
    (look 0 (s.team team).pools q)

/-- The wave's rows from `n` on given up: their contents are lost, and no outstanding result writes them (R17, R159). -/
def Wave.cut (w : Wave) (n : Nat) : Wave :=
  { w with
    quota := n, regs := w.regs.filter fun r => r.1 < 64 * n, pend := w.pend.map fun p => { p with cap := min p.cap n }
    bad := w.bad.filter fun b => decide (b < 64 * n) || decide (8192 ≤ b) }

/-- The new quota that a wave waits for at an `rq`. -/
def Wave.rqWait (w : Wave) : Option Nat :=
  w.threads.findSome? fun t => match t.2.hold with
    | .rq n => some n
    | _ => none

/-- The rows of a team's pool that are left for the wave in a slot, once the waiting waves of lower slots of its quarter
have been served, in ascending slot order (R159); one whose need does not fit is passed over (DESIGN CHOICE, log 103). -/
def rqPool (s : State) (core slot : Nat) : Nat :=
  let team := (s.wave core slot).team
  (s.core core).waves.foldl (fun n kw =>
    if kw.2.team == team && decide (kw.1 / 16 = slot / 16) && decide (kw.1 < slot) then
      match kw.2.rqWait with
      | some q => if q - kw.2.quota ≤ n then n - (q - kw.2.quota) else n
      | none => n
    else n) (look 0 (s.team team).pools (slot / 16))

/-- `rq` (R159): rows given up lose their contents, and rows taken read 0. -/
def execRq (sw : Bool) (q : Fin 16) (s : State) : Host.Outcome State Fault Refusal :=
  let n := 8 * (q.val + 1)
  let w := s.cw
  let t := s.ct
  let pool := look 0 t.pools s.cq
  if n ≤ w.quota then
    let s' := s.setCw (w.cut n)
    .next (finish sw (s'.setTeam w.team { t with pools := put t.pools s.cq (pool + (w.quota - n)) }))
  else if teamRows s s.cur.core s.cur.slot w.team < n - w.quota then .next (trap 0x10 1 s)
  else if n - w.quota ≤ rqPool s s.cur.core s.cur.slot then
    let s' := s.setCw { w.cut w.quota with quota := n }
    .next (finish sw (s'.setTeam w.team { t with pools := put t.pools s.cq (pool - (n - w.quota)) }))
  else .next (holdGroup (.rq n) s)

/-- `spawn` (R160): PC + 4 × the signed offset names the entry header. Outside a region a group that finds no bin
parks. -/
def execSpawn (sw : Bool) (arg : Opnd) (off : BitVec 16) (s : State) : Host.Outcome State Fault Refusal :=
  let entry := s.cur.pc + (off.signExtend 64 <<< 2)
  if !goodTarget s entry then .next (trap 1 7 s)
  else if s.cw.ckpt.isNone && (binFor s.cc s.cw.team entry).isNone then .next (holdGroup (.spawn entry) s)
  else .next (finish sw (issueEffect (.spawn entry (s.lanes.map fun l => opnd s arg l)) (progress s)))

end Sys2Proof.Machine
end

