-- ==== Sys2Proof/Machine/Faults.lean ====
section
/-!
DEFINITION. The control area and the fault queue (R384, R395), and what is done about a translation that an engine or an
access issued earlier does not find (R172, R210, R278, R362).
-/
namespace Sys2Proof.Machine

/-- The physical address of a byte of a partition's control area (R384). -/
def controlPA (s : State) (part off : Nat) : Nat := partPage (s.part part) 0 + off
/-- A write by a unit of the device into a control area. -/
def controlWrite (s : State) (part off n v : Nat) : State :=
  unitWrite s (keysFrom (controlPA s part off) n) v
/-- A read of a control area. -/
def controlRead (s : State) (part off n : Nat) : Nat := readPA s (controlPA s part off) n

/-- The address-space number of a fault entry: 0xFFFF for the global window (R395). -/
def faultAsid (s : State) (part va : Nat) : Nat := if va < Win.host.first then 0xFFFF else asidOf (s.part part)
/-- The fault queue holds an entry that no FQACK has freed for a page. -/
def faultOpen (s : State) (part va : Nat) : Bool := (s.part part).fqOpen.contains (va / 65536, faultAsid s part va)

/-- A fault posted at the next slot of the ring (R395): kinds 0 read, 1 write, 2 fetch, 3 engine; none while 256 entries
are unfreed. -/
def postFault (s : State) (part va grid kind core : Nat) : Option State :=
  let p := s.part part
  if 256 ≤ p.fqOpen.length then none
  else
    let asid := faultAsid s part va
    let at_ := 0x3000 + 32 * p.fqNext
    let v := va + grid * 2 ^ 64 + asid * 2 ^ 128 + kind * 2 ^ 144 + p.fqPhase.toNat * 2 ^ 152 + core * 2 ^ 160
    let s := controlWrite s part at_ 32 v
    some (s.setPart part { s.part part with
      fqNext := (p.fqNext + 1) % 256
      fqPhase := if p.fqNext = 255 then !p.fqPhase else p.fqPhase
      fqOpen := p.fqOpen ++ [(va / 65536, asid)] })

/-- A fault posted, or kept until the queue has an entry free (R395). -/
def postOrKeep (s : State) (part va grid kind core : Nat) : State :=
  match postFault s part va grid kind core with
  | some s => s
  | none =>
    let p := s.part part
    s.setPart part { p with unposted := p.unposted ++ [(va, grid, kind, core)] }

/-- A translation that an engine misses (R210, R362): the fault is posted once, the engine waits for its FQACK, and after
that the miss stands. -/
inductive Miss
  | post (s : State)
  | wait
  | stands

/-- What an engine of a team does about a miss. -/
def engineMiss (s : State) (core team va : Nat) (faulted : List Nat) : Miss :=
  match s.gridOf (s.team team) with
  | none => .stands
  | some g =>
    if faulted.contains (va / 65536) then (if faultOpen s g.part va then .wait else .stands)
    else match postFault s g.part va g.id 3 core with
      | some s => .post s
      | none => .wait

/-- What an access that issued earlier does about a translation that has gone since (R172, R278, R362, log 38). -/
def lateMiss (s : State) (core slot : Nat) (va kind : Nat) : Miss :=
  let team := (s.wave core slot).team
  let t := s.team team
  match s.gridOf t with
  | none => .stands
  | some g =>
    if t.waiting.contains (va / 65536) then .wait
    else if t.faulted.contains (va / 65536) then .stands
    else
      let s := s.setTeam team { t with faulted := va / 65536 :: t.faulted, waiting := t.waiting ++ [va / 65536] }
      .post (postOrKeep s g.part va g.id kind core)

end Sys2Proof.Machine
end

