-- ==== Sys2Proof/Machine/Speculation.lean ====
section
/-!
DEFINITION. Branle: checkpoints, the store buffer, marks, the commit instant and rollback (R291 to R304), the reading of
loads through the store buffer (R176 to R178, R294) and what an atomic or lock event does (R181 to R186).
-/
namespace Sys2Proof.Machine

/-! ### The instruction of an access that issued earlier (R61) -/

/-- The address after n instructions from an address on: the header of the clause that follows (R61). -/
def clauseEnd (word : Nat → Nat) : Nat → Nat → Nat
  | 0, a => a
  | n + 1, a => clauseEnd word n (a + if twoWord (opcodeOf (word a)) then 8 else 4)

/-- The cursor of an instruction that issued earlier (R61). -/
def cursorAt (s : State) (core slot : Nat) (pc hdr : DWord) (mask : Mask) : Cursor :=
  let word := codeWord s core slot
  let w0 := word pc.toNat
  let two := twoWord (opcodeOf w0)
  let next := pc.toNat + if two then 8 else 4
  let last := match decodeHeader (word hdr.toNat) with
    | some h => decide (clauseEnd word h.n (hdr.toNat + 4) = next)
    | none => false
  { core := core, slot := slot, active := mask, pc := pc, npc := BitVec.ofNat 64 (if last then next + 4 else next)
    hdr := hdr, w0 := BitVec.ofNat 32 w0, w1 := if two then BitVec.ofNat 32 (word (next - 4)) else 0, uni := false }

/-! ### Checkpoints -/

/-- The wave with a checkpoint opened, resuming at `at_` (R291, R292). -/
def Wave.checkpoint (w : Wave) (at_ : DWord) : Wave :=
  { w with ckpt := some { threads := w.threads, base := w.base, preds := w.preds, unif := w.unif, rows := w.regs,
                          shadows := [], bad := w.bad, at_ := at_ }, region := 0 }

/-- What a thread that waited when the checkpoint was taken still waits for after a rollback: what its instruction, which
issued before the region, waits for; other threads issue again. -/
def heldOver (h : Hold) : Hold :=
  match h with
  | .barOwn .. | .barNext .. | .rmark | .ldw _ | .event _ | .parked _ | .quartet | .trapWait | .frame | .exchange _ => h
  | _ => .none

/-- A rollback (R297): the checkpoint's state is restored, the region's store-buffer entries, effects and results are
discarded, CKST.RB adds 1; rollbacks at one checkpoint PC are counted (R302). -/
def Wave.rollBack (w : Wave) : Wave :=
  match w.ckpt with
  | none => { w with lost := false }
  | some k =>
    let n := if k.at_ = w.lastAt then w.rollbacks + 1 else 1
    let restore (l : Nat) (t : Thread) : Thread :=
      let now := w.thread l
      { t with owes := .resume, hold := heldOver t.hold, batches := now.batches
               open_ := now.open_, openErr := now.openErr, triggered := now.triggered }
    { w with
      threads := (List.range 64).map (fun l => (l, restore l (look k.base k.threads l)))
      preds := k.preds, unif := k.unif, regs := k.rows, bad := (k.bad ++ w.bad).eraseDups
      pend := w.pend.filter fun p => !p.spec
      sbuf := w.sbuf.filter fun e => !e.spec
      effects := dropSpec w.effects
      rb := w.rb + 1, ckpt := none, lost := false, region := 0
      rollbacks := n, lastAt := k.at_, cautious := w.cautious || decide (4 ≤ n) }

/-- A rollback of a wave on its core: its marks go with its region (R297). -/
def rollBackWave (s : State) (core slot : Nat) : State :=
  let s := s.setWave core slot (s.wave core slot).rollBack
  let c := s.core core
  s.setCore core { c with marks := c.marks.filter fun m => m.slot ≠ slot }

/-! ### Reading through the store buffer -/

/-- The bytes that buffered writes give, by key, newest first. -/
abbrev Overlay := List (Nat × Byte)

/-- A number at some keys as the overlay has it, else memory. -/
def Overlay.read (s : State) (o : Overlay) (keys : List Nat) : Nat :=
  ofBytes (keys.map fun k => (find? o k).getD (readByte s k))

/-- The overlay with a number written at some keys. -/
def Overlay.write : Overlay → List Nat → Nat → Overlay
  | o, [], _ => o
  | o, k :: r, v => Overlay.write ((k, BitVec.ofNat 8 v) :: o) r (v / 256)

/-- The overlay after one lane of a buffered entry (R181 to R186). -/
def Overlay.lane (s : State) (op : SbOp) (o : Overlay) (x : SbLane) : Overlay :=
  match op.newValue (o.read s x.acc.keys) x with
  | some v => o.write x.acc.keys v
  | none => o

/-- What the entries of a wave's store buffer that are older than an access would have written (R288, R294). -/
def overlay (s : State) (w : Wave) (id : Nat) : Overlay :=
  (w.sbuf.filter fun e => decide (e.id < id)).foldl (fun o e => e.lanes.foldl (Overlay.lane s e.op) o) []

/-- A number as an access of the wave with the serial number `id` reads it: the newest older buffered bytes, else memory
(R288, R294). -/
def readThrough (s : State) (w : Wave) (id : Nat) (keys : List Nat) : Nat := (overlay s w id).read s keys

/-- Marks for the words of some keys, one for each line (R293). -/
def marksFor (slot : Nat) (keys : List Nat) : List Mark :=
  ((keys.map lineOf).eraseDups).map fun l =>
    let (f, n) := spanOf l keys
    { slot := slot, line := l, f := f, n := n }

/-! ### What an access meets when it performs -/

/-- What keeps a buffered access from performing: a trap, a translation that has gone, or a wait. -/
inductive Block
  | trap (t : TrapInfo)
  | miss (va : Nat)
  | wait
  deriving DecidableEq, Repr

/-- A lane's access checked again when it performs: permission and the range-lock table as they stand then (R190, R278,
R298). -/
def recheck (s : State) (core slot : Nat) (x : Access) : Except Block Access :=
  let w := s.wave core slot
  match checkAccess s { core := core, lane := x.lane, wave := w, team := s.team w.team } none true 1 0 x.va
      x.keys.length with
  | .ok keys _ => .ok { x with keys := keys }
  | .trap t => .error (.trap t)
  | .miss va => .error (.miss va)

/-- An entry with the keys of its bytes as they stand now, or what its first failing lane meets. -/
def refresh (s : State) (core slot : Nat) (e : SbEntry) : Except Block SbEntry :=
  match e.lanes.mapM fun x => (recheck s core slot x.acc).map fun a => { x with acc := a } with
  | .ok ls => .ok { e with lanes := ls }
  | .error b => .error b

/-- The keys of an entry. -/
def SbEntry.keys (e : SbEntry) : List Nat := e.lanes.flatMap (·.acc.keys)
/-- The accesses of an entry. -/
def SbEntry.accesses (e : SbEntry) : List Access := e.lanes.map (·.acc)

/-- The trap of a store that follows, in its thread's program order, a `cpy` still held, and touches what that copy will
lock (R190). -/
def heldTrap (w : Wave) (id : Nat) (x : Access) : Option TrapInfo :=
  let rs := (w.effects.filter fun h => decide (h.id < id)).flatMap fun h => match h.eff with
    | .copy c => if c.lane = x.lane then copyRanges c else []
    | _ => []
  let hits (dst : Bool) (a : Nat) : Bool := rs.any fun r => r.write == dst && decide (r.at_ ≤ a) && decide (a < r.at_ + r.len)
  let bytes := keysFrom x.va x.keys.length
  match bytes.find? (hits true) with
  | some a => some { cause := 9, sub := 0, addr := a }
  | none => (bytes.find? (hits false)).map fun a => { cause := 9, sub := 1, addr := a }

/-- A byte of an access lies, under another virtual address, in a range that an engine operation of the core has locked:
the access waits for the operation (R190). -/
def synonymLocked (s : State) (core slot : Nat) (write : Bool) (acc : List Access) : Bool :=
  let part := s.partOf (s.team (s.wave core slot).team)
  (s.core core).locks.any fun e =>
    e.2.v && decide (e.2.from_ ≤ (s.core core).clk.toNat) && (e.2.dst || write) &&
    ((windowOf e.2.start).map (·.translated)) == some true &&
    (List.range (e.2.len / 65536 + 2)).any fun i =>
      let page := (e.2.start / 65536 + i) * 65536
      match translate s core part page with
      | none => false
      | some l => acc.any fun x => (List.range x.keys.length).any fun j =>
          let k := x.keys.getD j 0
          let va := page + k % 65536
          decide (k / 65536 * 65536 = l.pa) && decide (e.2.start ≤ va) && decide (va < e.2.start + e.2.len) &&
            decide (va ≠ x.va + j)

/-- Lock misuse of a `rel` entry as its lanes would meet it in order: the first failing lane (R186). -/
def relMisuse (s : State) (lkcnt : Nat) : List SbLane → List Nat → Option TrapInfo
  | [], _ => none
  | x :: r, freed =>
    let k := x.acc.keys.headD 0
    if lkcnt = 0 then some { cause := 0x0A, sub := 0, addr := x.acc.va }
    else if readKeys s x.acc.keys = 0 || freed.contains k then some { cause := 0x0A, sub := 1, addr := x.acc.va }
    else relMisuse s (lkcnt - 1) r (k :: freed)

/-- The virtual address of the first poisoned byte of some accesses (R223, R270). -/
def poisonByte (s : State) (acc : List Access) : Option Nat :=
  acc.findSome? fun x => (x.keys.findIdx? fun k => s.poison.contains (poisonUnit k)).map (x.va + ·)

/-- The virtual address of the first byte of some accesses on a lost chip (R339). -/
def lostByte (s : State) (acc : List Access) : Option Nat :=
  acc.findSome? fun x => (x.keys.findIdx? (lostPA s)).map (x.va + ·)

/-- What keeps an entry from performing, where it would be the next to perform: a refused access, a copy still held that it
follows, an engine's lock under another address or hold on its words, lock misuse, poison that an atomic or lock event reads,
or a line of a lost chip (R186, R190, R270, R278, R298, R339). -/
def entryBlock (s : State) (core slot : Nat) (e : SbEntry) : Option Block :=
  let w := s.wave core slot
  match refresh s core slot e with
  | .error b => some b
  | .ok e =>
    match e.accesses.findSome? (heldTrap w e.id) with
    | some t => some (if e.spec then .trap t else .wait)
    | none =>
      if synonymLocked s core slot true e.accesses || engineHolds s (some core) true (e.keys.map (· / 4)) then some .wait
      else match e.op with
        | .rel =>
          match lostByte s e.accesses with
          | some a => some (.trap { cause := 0x0D, sub := 0, addr := a })
          | none => (relMisuse s (s.team w.team).lkcnt e.lanes []).map .trap
        | .store | .frame => (lostByte s e.accesses).map fun a => .trap { cause := 0x0D, sub := 0, addr := a }
        | _ => ((poisonByte s e.accesses).orElse fun _ => lostByte s e.accesses).map fun a =>
            .trap { cause := 0x0D, sub := 0, addr := a }

/-- The bytes of an entry for which the core needs tokens; none of one that cannot perform. -/
def entryNeed (s : State) (core slot : Nat) (e : SbEntry) : List (Nat × Nat) :=
  match refresh s core slot e with
  | .ok e => tokenKeys s core slot e.accesses
  | .error _ => []

/-! ### The events -/

/-- LKCNT of a wave's team changed; the count is 32 bits and wraps (R33, log 39). -/
def addLkcnt (s : State) (team : Nat) (f : Nat → Nat) : State :=
  let t := s.team team
  s.setTeam team { t with lkcnt := f t.lkcnt % 2 ^ 32 }

/-- One lane's event (R174, R183, R185, R186): the state after it, and the old value it returns. -/
def laneEvent (s : State) (core slot : Nat) (op : SbOp) (x : SbLane) : State × Nat :=
  let old := readKeys s x.acc.keys
  let team := (s.wave core slot).team
  match op.newValue old x with
  | none => (s, old)
  | some v =>
    let s := performWrite s (some core) (some slot) x.acc.keys v
    match op with
    | .acq | .lock => (addLkcnt s team (· + 1), old)
    | .rel => (addLkcnt s team (· + 2 ^ 32 - 1), old)
    | _ => (s, old)

/-- What an entry's lane gives its thread: the old value to an atomic's D (R183); at an `acq` the thread goes on with the
lock or stands at its `acq` again, parked on its word (R185); a thread that waits for its `rel` goes on. -/
def laneResult (s : State) (core slot : Nat) (e : SbEntry) (d : Option Pend) (x : SbLane) (old : Nat) : State :=
  let w := s.wave core slot
  let l := x.acc.lane
  let waiting (f : Thread → Thread) : State :=
    s.setWave core slot (w.mapBoth e.spec (fun _ t => if t.hold = .event e.id then f t else t) [l])
  let go (t : Thread) : Thread := { t with hold := .none, back := 0 }
  match e.op, d with
  | .atom .., some p | .cas _, some p =>
    s.setWave core slot (w.deliver e.spec (p.kept ((List.range p.n).map fun i =>
      Write.reg (p.d + i) l (BitVec.ofNat 32 (old / 2 ^ (32 * i))))))
  | .lock, _ => waiting fun t =>
    if old = 0 then go t else { t with pc := e.pc, hdr := e.hdr, owes := .nothing, hold := .acq x.acc.va, wait := [] }
  | .rel, _ => waiting go
  | _, _ => s

/-- The events of an entry in ascending lane order. -/
def performLanes (core slot : Nat) (e : SbEntry) (d : Option Pend) : List SbLane → State → State
  | [], s => s
  | x :: r, s =>
    let (s, old) := laneEvent s core slot e.op x
    performLanes core slot e d r (laneResult s core slot e d x old)

/-- The outstanding result of an atomic entry. -/
def atomDest (w : Wave) (e : SbEntry) : Option Pend := w.pend.find? fun p => p.id == e.id

/-- The lines that an entry writes through the L1 are logged for the wave's context (R405, log 99). -/
def logEntry (s : State) (core slot : Nat) (e : SbEntry) : State :=
  let cached := e.accesses.filter (needsTokens s core slot)
  (linesOf (cached.flatMap (·.keys))).foldl (fun s l => logAppend s (ctxOf s (s.team (s.wave core slot).team)) l) s

/-- What an entry's bytes on uncached pages have written stays through a rollback (R409). -/
def keepUncached (s : State) (core slot : Nat) (e : SbEntry) : State :=
  let xs := e.accesses.filter fun x => !needsTokens s core slot x
  if xs.all fun x => x.keys.all fun k => decide (onChip ≤ k) then s else patchLogs s (xs.flatMap (·.keys))

/-- The events of an entry, its results and its dirty words (R270, R289, R290, R294); a store clears the poison of what its
lanes cover together. -/
def performLine (s : State) (core slot : Nat) (e : SbEntry) : State :=
  let e := match refresh s core slot e with
    | .ok e' => e'
    | .error _ => e
  let s := logEntry s core slot e
  let s := performLanes core slot e (atomDest (s.wave core slot) e) e.lanes s
  let s := match e.op with
    | .store | .frame => clearPoison s e.keys
    | _ => s
  let s := keepUncached s core slot e
  s.setCore core (markDirty (s.core core) e.keys)

/-- An entry has performed: it and its outstanding result are gone. -/
def leaveBuffer (s : State) (core slot : Nat) (e : SbEntry) : State :=
  let w := s.wave core slot
  s.setWave core slot { w with sbuf := w.sbuf.filter fun x => x.id ≠ e.id, pend := w.pend.filter fun p => p.id ≠ e.id }

/-- A store-buffer entry performs whole (R290, R294). -/
def performEntry (s : State) (core slot : Nat) (e : SbEntry) : State := leaveBuffer (performLine s core slot e) core slot e

/-- The lanes of an entry that write its first line, and the others: the buffer holds an instruction's writes to one line in one
entry, which performs by itself (R294). A `rel` judges all its lanes before any writes, so it stays whole (R186). -/
def SbEntry.firstLine (e : SbEntry) : List SbLane × List SbLane :=
  match e.op, e.lanes with
  | .rel, ls => (ls, [])
  | _, [] => ([], [])
  | _, x :: _ => e.lanes.partition fun y => (y.acc.keys.headD 0) / 128 == (x.acc.keys.headD 0) / 128

/-- An entry's first line performs; the rest stays in the buffer (R294). -/
def performNext (s : State) (core slot : Nat) (e : SbEntry) : State :=
  match e.firstLine with
  | (_, []) => performEntry s core slot e
  | (now, rest) =>
    let s := performLine s core slot { e with lanes := now }
    let w := s.wave core slot
    s.setWave core slot { w with sbuf := w.sbuf.map fun x => if x.id = e.id then { x with lanes := rest } else x }

/-! ### The mark table and the watch lists (R293, R341) -/

/-- The lanes of some accesses. -/
def accMask (acc : List Access) : Mask := maskOf (acc.map (·.lane))

/-- A key of a scratchpad that lies in a grid's cluster memory (R285). -/
def inCluster (s : State) (k : Nat) : Bool :=
  let o := (k - onChip) % 2 ^ 18
  s.grids.any fun g => match find? g.2.clusAt ((k - onChip) / 2 ^ 18) with
    | some a => decide (a ≤ o) && decide (o < a + g.2.clus / 8)
    | none => false

/-- The home bank of a word of cluster memory, a core's scratchpad, or of the pad, a slice (R285, R286, R293). -/
def watchBank (s : State) (k : Nat) : Option Nat :=
  if k < onChip then none
  else if k < 2 ^ 53 then (if inCluster s k then some ((k - onChip) / 2 ^ 18) else none)
  else some (2 ^ 20 + (k - 2 ^ 53) / 131072)

/-- The home banks of an access. -/
def Access.banks (s : State) (x : Access) : List Nat := (x.keys.filterMap (watchBank s)).eraseDups

/-- Parks of the whole part in a home bank's watch list, one for each thread (R341). -/
def parkCount (s : State) (bank : Nat) : Nat :=
  s.cores.foldl (fun n c => c.2.waves.foldl (fun n w => w.2.pend.foldl (fun n p => match p.src with
    | .wait _ acc _ (some _) none => n + (acc.filter fun x => (x.banks s).contains bank).length
    | _ => n) n) n) 0

/-- Entries of a home bank's watch list: the marks and the parks of every core on its words (R293, R341). -/
def watchCount (s : State) (bank : Nat) : Nat :=
  s.cores.foldl (fun n c => n + (c.2.marks.filter fun m => watchBank s (128 * m.line) == some bank).length)
    (parkCount s bank)

/-- The home banks whose watch lists, of 64 entries each, have no room for the marks of some keys (R293). -/
def fullBanks (s : State) (keys : List Nat) : List Nat :=
  let new := (marksFor 0 keys).filterMap fun m => watchBank s (128 * m.line)
  new.eraseDups.filter fun b => decide (64 < watchCount s b + (new.filter (· == b)).length)

/-- The mark table of 256 entries has no room for the marks of some keys (R293). -/
def tableFull (s : State) (core slot : Nat) (keys : List Nat) : Bool :=
  decide (256 < (s.core core).marks.length + (marksFor slot keys).length)

/-- The mark table and the watch lists have room for the marks of some keys (R293). -/
def markRoom (s : State) (core slot : Nat) (keys : List Nat) : Bool :=
  !tableFull s core slot keys && (fullBanks s keys).isEmpty

/-- The accesses that an outstanding result is to read for the first time. -/
def Pend.reads (p : Pend) : Option (List Access) :=
  match p.src with
  | .load _ acc | .block _ acc | .wait _ acc _ none _ => some acc
  | _ => none

/-- The accesses older than a result have performed. -/
def olderPerformed (w : Wave) (id : Nat) : Bool :=
  w.sbuf.all (fun e => decide (id < e.id)) && w.pend.all fun p => match p.src with
    | .load .. | .block .. | .buffered | .wait _ _ _ none _ => decide (id ≤ p.id)
    | _ => true

/-- A speculative load that finds no room for its marks, outside cautious mode (R293). -/
def unmarked (s : State) (core slot : Nat) (p : Pend) (acc : List Access) : Bool :=
  p.spec && !(s.wave core slot).careful && !markRoom s core slot (acc.flatMap (·.keys))

/-! ### The commit instant (R296, R301) -/

/-- The core may read every byte of some accesses (R289, R318). -/
def tokensHeld (s : State) (core slot : Nat) (write : Bool) (acc : List Access) : Bool :=
  (missingKey (s.core core) write (tokenKeys s core slot acc)).isNone

/-- Every load of the wave has returned; a waiting load that reads its expected value commits first (R180, R296). -/
def loadsReturned (s : State) (core slot : Nat) : Bool :=
  let w := s.wave core slot
  w.pend.all fun p => match p.src with
    | .load .. | .block .. => false
    | .wait _ acc expect none _ =>
        (if unmarked s core slot p acc then olderPerformed w p.id else tokensHeld s core slot false acc) &&
        (acc.zip expect).all fun x => decide (readThrough s w p.id x.1.keys = x.2)
    | _ => true

/-- Every load of a region has returned, no mark is lost, everything older has performed, and the core holds the tokens of
what the region writes (R296). -/
def gathered (s : State) (core slot : Nat) : Bool :=
  let w := s.wave core slot
  w.ckpt.isSome && !w.lost && w.sbuf.all (·.spec) && loadsReturned s core slot &&
  (missingKey (s.core core) true (w.sbuf.flatMap (entryNeed s core slot))).isNone

/-- The region's entries perform in program order, each judged by the state that the earlier ones leave; the first that
cannot perform is the error. -/
def performAll (core slot : Nat) : List SbEntry → State → Except (SbEntry × Block) State
  | [], s => .ok s
  | e :: r, s =>
    match entryBlock s core slot e with
    | some b => .error (e, b)
    | none => performAll core slot r (performEntry s core slot e)

/-- The commit instant (R296): writes and events in program order, effects released, marks and shadows dropped, CKST.CM
adds 1; none where a condition does not hold. -/
def commitRegion (s : State) (core slot : Nat) : Option State :=
  if gathered s core slot then
    match performAll core slot (s.wave core slot).sbuf s with
    | .error _ => none
    | .ok s =>
      match releaseAll core slot ((s.wave core slot).effects.map (·.eff)) s with
      | none => none
      | some s =>
        let w := s.wave core slot
        let s := s.setWave core slot { w with
          effects := [], ckpt := none, region := 0, cm := w.cm + 1, rollbacks := 0, cautious := false
          pend := w.pend.map fun p => { p with spec := false } }
        let c := s.core core
        some (s.setCore core { c with marks := c.marks.filter fun m => m.slot ≠ slot })
  else none

end Sys2Proof.Machine
end

