-- ==== Sys2Proof/Machine/LoadStore.lean ====
section
/-!
DEFINITION. The loads and stores, `ldblk`, `cmpst`, `chk`, `ldw`, atomics, locks and the copy instructions (R170 to
R196).
-/
namespace Sys2Proof.Machine

/-! ### The shared course of an access -/

/-- What the check of a group's accesses gives: the accesses with whether one of them goes to an uncached page. -/
inductive Checked
  | ok (acc : List Access) (uncached : Bool)
  | trap (t : TrapInfo)
  | miss (va : Nat) (write : Bool)
  deriving DecidableEq, Repr

/-- The check of R172 for every lane in order; the first check that fails in the lowest failing lane decides. -/
def checkLanes (s : State) (form : Option Win) (write : Bool) (align code n : Nat) (addr : Nat → Nat) :
    List Nat → List Access → Bool → Checked
  | [], acc, u => .ok acc u
  | l :: r, acc, u =>
    match checkAccess s (s.who l) form write align code (addr l) n with
    | .ok keys c =>
      checkLanes s form write align code n addr r (acc ++ [{ lane := l, va := addr l, keys := keys }])
        (u || (!c && keys.any fun k => decide (k < onChip)))
    | .trap t => .trap t
    | .miss va => .miss va write

/-- A translation is missing (R172, R276): the access-violation trap where no service can supply it, that is, for
firmware's team or for a page faulted again after a restore; else the group waits for the page-fault service. `fetched`
is false for a miss of the instruction's own fetch (R226). -/
def pageMiss (va kind : Nat) (fetched : Bool) (s : State) : State :=
  let t := s.ct
  if (s.partOf t).isNone || t.faulted.contains (va / 65536) then
    raiseTrapWith { cause := 8, sub := 3, addr := va } fetched [] s
  else holdGroup (.fault va kind) s

/-- The checkpoint that an access opens as it issues (R291): with an older access unperformed, or for the region of a
cautious wave (R302); none for an access to an uncached page (R300). -/
def openForAccess (unc : Bool) (s : State) : State :=
  let w := s.cw
  if w.ckpt.isNone && !unc && (w.unperformed || w.careful) then s.setCw (w.checkpoint s.cur.pc) else s

/-- The TLB entries that the translation of those of a group's accesses that miss the L1 brings in (R276). -/
def fillTlb (acc : List Access) (s : State) : State :=
  acc.foldl (fun s a =>
    match windowOf a.va with
    | some w =>
      if w.translated && (l1Hit s s.cur.core (s.partOf s.ct) a.va).isNone then tlbFill s s.cur.core (s.partOf s.ct) a.va
      else s
    | none => s) s

/-- The course of an access (R172, R197, R282, R298, R302): a failing check traps; an access to an uncached page or in
cautious mode waits for what is older, and every access for an uncached load; else `k` issues it, told whether a page of
it is uncached. -/
def withChecked (c : Checked) (k : List Access → Bool → State → State) (s : State) : State :=
  match c with
  | .trap t => raiseTrapWith t true [] s
  | .miss va write => pageMiss va write.toNat true s
  | .ok acc u =>
    let s := fillTlb acc s
    if s.cw.uncLoad || ((u || s.cw.careful) && !(s.cw.quiet && s.cw.effects.isEmpty)) then holdGroup .commit s else k acc u s

/-- The effective address of a window form's lane (R170). -/
def formAddr (s : State) (form : Option Win) (a : Pair) (off : Int) (l : Nat) : Nat :=
  let base := match form with
    | some w => w.first
    | none => 0
  base + (pairVal s a l + BitVec.ofInt 64 off).toNat

/-- A load's result made outstanding as the load issues (R176, R291). -/
def issueLoad (u : Bool) (d n : Nat) (src : Source) (s : State) : State :=
  let s := openForAccess u s
  addPendAs u s.draw.1 d n src s.draw.2

/-- Ways of a load: the check of every lane, then a result outstanding (R172, R176). -/
def loadOp (sw : Bool) (form : Option Win) (d : BitVec 7) (a : Pair) (size : LdSize) (off : Int) (s : State) : State :=
  let n := size.bytes
  withChecked (checkLanes s form false n size.code n (formAddr s form a off) s.lanes [] false)
    (fun acc u s => finish sw (issueLoad u d.toNat size.regs (.load size acc) s)) s

/-- Entries of the store buffer in use: one for each line that an instruction's accesses touch (R294). -/
def entryCost (e : SbEntry) : Nat := ((e.keys.map lineOf).eraseDups).length
/-- The store buffer has room for an entry: an instruction that needs more than all 32 waits for an empty buffer. -/
def bufferRoom (w : Wave) (e : SbEntry) : Bool :=
  w.sbuf.isEmpty || decide ((w.sbuf.map entryCost).foldl (· + ·) 0 + entryCost e ≤ 32)

/-- The words of some accesses to uncached pages at the LLC of their stack, or over their link (R282, R337). -/
def uncachedTraffic (s : State) (core slot : Nat) (write : Bool) (acc : List Access) : State :=
  let part := s.partOf (s.team (s.wave core slot).team)
  let keys := (acc.filter fun x => !needsTokens s core slot x).flatMap (·.keys)
  (linesOf keys).foldl (fun s l =>
    let mask := (keys.filter fun k => lineOf k == l).foldl (fun (m : BitVec 32) k => m ||| BitVec.twoPow 32 (k % 128 / 4)) 0
    if write then llcWrite s l mask part else llcFetch s l (sectorsOf mask) part) s

/-- An entry of an uncached page performs at its issue, once, as its unit serves it (R197, R282, R300). -/
def performUncached (s : State) (core slot : Nat) (e : SbEntry) : State :=
  let s := match e.op with
    | .store => s
    | _ => uncachedTraffic s core slot false e.accesses
  uncachedTraffic (performEntry s core slot e) core slot true e.accesses

/-- An entry taken in the store buffer, with requests for its tokens (R294, R295), or the group held until entries free;
`k` follows it with its number. An entry with nothing older performs at once where nothing keeps it from it; one for
uncached pages performs at its issue or waits to issue (R282, R290). -/
def bufferOp (op : SbOp) (u : Bool) (lanes : List SbLane) (k : Nat → State → State) (s : State) : State :=
  let core := s.cur.core
  let slot := s.cur.slot
  let before := s
  let s := openForAccess u s
  let (id, s) := s.draw
  let e : SbEntry := { id := id, pc := s.cur.pc, hdr := s.cur.hdr, mask := s.cur.active, op := op, lanes := lanes
                       spec := s.cw.ckpt.isSome }
  let need := tokenKeys s core slot e.accesses
  let held := (missingKey s.cc true need).isNone
  if !bufferRoom s.cw e then holdGroup .buffer before
  else if u && !held then holdGroup (.tokens true need) (requestTokens before core slot true need)
  else
    let stop := entryBlock s core slot e
    let s := k id (requestTokens (s.setCw { s.cw with sbuf := s.cw.sbuf ++ [e] }) core slot true need)
    if u then
      match stop with
      | none =>
        let s := performUncached s core slot e
        s.setCw { s.cw with sent := some s.cur }
      | some (.trap t) => raiseTrapWith t true [] before
      | some _ => holdGroup .commit before
    else if !e.spec && before.cw.sbuf.isEmpty && before.cw.effects.isEmpty && held && stop.isNone then performEntry s core slot e
    else s

/-- A store of n bytes for each lane (R177). -/
def storeOp (sw : Bool) (form : Option Win) (a : Pair) (data : Opnd) (size : StSize) (off : Int) (s : State) : State :=
  let n := size.bytes
  withChecked (checkLanes s form true n size.code n (formAddr s form a off) s.lanes [] false)
    (fun acc u s => bufferOp .store u (acc.map fun x => { acc := x, data := opndWide n s data x.lane, other := 0 })
      (fun _ s => finish sw (progress s)) s) s

/-- `ld` (R170, R176). -/
def execLd (sw : Bool) (d : BitVec 7) (a : Pair) (size : LdSize) (off : BitVec 6) (s : State) :
    Host.Outcome State Fault Refusal := .next (loadOp sw none d a size (off.toNat * size.bytes : Nat) s)
/-- `ldl` (R170, R176). -/
def execLdl (sw : Bool) (d : BitVec 7) (a : Pair) (size : LdSize) (off : BitVec 6) (s : State) :
    Host.Outcome State Fault Refusal := .next (loadOp sw (some .lane) d a size (off.toNat * size.bytes : Nat) s)
/-- `lds` (R170, R176). -/
def execLds (sw : Bool) (d : BitVec 7) (a : Pair) (size : LdSize) (off : BitVec 6) (s : State) :
    Host.Outcome State Fault Refusal := .next (loadOp sw (some .scratch) d a size (off.toNat * size.bytes : Nat) s)
/-- `ldc` (R170, R176). -/
def execLdc (sw : Bool) (d : BitVec 7) (a : Pair) (size : LdSize) (off : BitVec 6) (s : State) :
    Host.Outcome State Fault Refusal := .next (loadOp sw (some .cluster) d a size (off.toNat * size.bytes : Nat) s)
/-- `ldk` (R170, R176). -/
def execLdk (sw : Bool) (d : BitVec 7) (a : Pair) (size : LdSize) (off : BitVec 6) (s : State) :
    Host.Outcome State Fault Refusal := .next (loadOp sw (some .pad) d a size (off.toNat * size.bytes : Nat) s)
/-- `ldg`: only the global window (R170, R176). -/
def execLdg (sw : Bool) (d : BitVec 7) (a : Pair) (size : LdSize) (off : BitVec 6) (s : State) :
    Host.Outcome State Fault Refusal := .next (loadOp sw (some .global) d a size (off.toNat * size.bytes : Nat) s)
/-- `ldx` (R170, R176). -/
def execLdx (sw : Bool) (d : BitVec 7) (a : Pair) (size : LdSize) (off : Word) (s : State) :
    Host.Outcome State Fault Refusal := .next (loadOp sw none d a size off.toInt s)
/-- `st` (R170, R177). -/
def execSt (sw : Bool) (a : Pair) (data : Opnd) (size : StSize) (off : BitVec 5) (s : State) :
    Host.Outcome State Fault Refusal := .next (storeOp sw none a data size (off.toNat * size.bytes : Nat) s)
/-- `stl` (R170, R177). -/
def execStl (sw : Bool) (a : Pair) (data : Opnd) (size : StSize) (off : BitVec 5) (s : State) :
    Host.Outcome State Fault Refusal := .next (storeOp sw (some .lane) a data size (off.toNat * size.bytes : Nat) s)
/-- `sts` (R170, R177). -/
def execSts (sw : Bool) (a : Pair) (data : Opnd) (size : StSize) (off : BitVec 5) (s : State) :
    Host.Outcome State Fault Refusal := .next (storeOp sw (some .scratch) a data size (off.toNat * size.bytes : Nat) s)
/-- `stc` (R170, R177). -/
def execStc (sw : Bool) (a : Pair) (data : Opnd) (size : StSize) (off : BitVec 5) (s : State) :
    Host.Outcome State Fault Refusal := .next (storeOp sw (some .cluster) a data size (off.toNat * size.bytes : Nat) s)
/-- `stk` (R170, R177). -/
def execStk (sw : Bool) (a : Pair) (data : Opnd) (size : StSize) (off : BitVec 5) (s : State) :
    Host.Outcome State Fault Refusal := .next (storeOp sw (some .pad) a data size (off.toNat * size.bytes : Nat) s)
/-- `stg`: only the global window (R170, R177). -/
def execStg (sw : Bool) (a : Pair) (data : Opnd) (size : StSize) (off : BitVec 5) (s : State) :
    Host.Outcome State Fault Refusal := .next (storeOp sw (some .global) a data size (off.toNat * size.bytes : Nat) s)
/-- `stx` (R170, R177). -/
def execStx (sw : Bool) (a : Pair) (data : Opnd) (size : StSize) (off : Word) (s : State) :
    Host.Outcome State Fault Refusal := .next (storeOp sw none a data size off.toInt s)

/-- The lowest lane in Active of each half that has one (R178). -/
def halfLeads (s : State) : List Nat :=
  [0, 1].filterMap fun h => s.lanes.find? fun l => decide (l / 32 = h)

/-- `ldblk` (R178): one access for each half, at its lowest lane's address, without an alignment rule. -/
def execLdblk (sw : Bool) (d : BitVec 7) (a : Pair) (fmt : DxFmt) (s : State) : Host.Outcome State Fault Refusal :=
  .next (withChecked (checkLanes s none false 1 0 fmt.blockBytes (formAddr s none a 0) (halfLeads s) [] false)
    (fun acc u s => finish sw (issueLoad u d.toNat 1 (.block fmt acc) s)) s)

/-- `cmpst` (R179): the queue pointer is the lowest lane's; the checks cover the whole range. -/
def execCmpst (sw : Bool) (a : Pair) (data : Opnd) (wide : Bool) (s : State) : Host.Outcome State Fault Refusal :=
  let n := 4 * wideRegs wide
  let q := formAddr s none a 0 s.lowLane
  let place (l : Nat) : Nat := (q + (s.lanes.idxOf l) * n) % 2 ^ 64
  let whole := checkAccess s (s.who s.lowLane) none true n (if wide then 5 else 4) q (n * s.lanes.length)
  .next (withChecked
    (match whole with
      | .ok _ _ => checkLanes s none true n (if wide then 5 else 4) n place s.lanes [] false
      | .trap t => .trap t
      | .miss va => .miss va true)
    (fun acc u s => bufferOp .store u (acc.map fun x => { acc := x, data := opndWide n s data x.lane, other := 0 })
      (fun _ s => finish sw (progress s)) s) s)

/-- `chk` (R171). -/
def execChk (sw : Bool) (idx : Opnd) (region : BitVec 10) (sc : Fin 5) (s : State) :
    Host.Outcome State Fault Refusal :=
  match (regionAt s region.toNat).map (·.len) with
  | none => .next (trap 1 2 s)
  | some len =>
    if s.lanes.any fun l => decide (len / 2 ^ sc.val ≤ (opnd s idx l).toNat) then .next (trap 5 0 s)
    else .next (finish sw s)

/-- `ldw` (R180): the expected value is what D holds; the group waits for its read. -/
def execLdw (sw : Bool) (d : BitVec 7) (a : Pair) (wide : Bool) (off : BitVec 6) (s : State) :
    Host.Outcome State Fault Refusal :=
  let n := 4 * wideRegs wide
  .next (withChecked
    (checkLanes s none false n (if wide then 5 else 4) n (formAddr s none a (off.toNat * n : Nat)) s.lanes [] false)
    (fun acc u s =>
      let id := s.fresh
      let s := issueLoad u d.toNat (wideRegs wide)
        (.wait wide acc (acc.map fun x => destVal s wide d x.lane) none none) s
      holdGroup (.ldw id) (finish sw s)) s)

/-- `atom` (R181, R183). -/
def execAtom (sw : Bool) (d : BitVec 7) (a : Pair) (b : Opnd) (wide : Bool) (op : AtomOp) (off : BitVec 24)
    (s : State) : Host.Outcome State Fault Refusal :=
  let n := 4 * wideRegs wide
  .next (withChecked
    (checkLanes s none true n (if wide then 5 else 4) n (formAddr s none a off.toInt) s.lanes [] false)
    (fun acc u s => bufferOp (.atom op wide) u
      (acc.map fun x => { acc := x, data := opndWide n s b x.lane, other := 0 })
      (fun id s => finish sw (addPendAs u id d.toNat (wideRegs wide) .buffered (progress s))) s) s)

/-- `cas` (R182, R183). -/
def execCas (sw : Bool) (d : BitVec 7) (a : Pair) (b c : Opnd) (wide : Bool) (off : BitVec 16) (s : State) :
    Host.Outcome State Fault Refusal :=
  let n := 4 * wideRegs wide
  .next (withChecked
    (checkLanes s none true n (if wide then 5 else 4) n (formAddr s none a off.toInt) s.lanes [] false)
    (fun acc u s => bufferOp (.cas wide) u
      (acc.map fun x => { acc := x, data := opndWide n s b x.lane, other := opndWide n s c x.lane })
      (fun id s => finish sw (addPendAs u id d.toNat (wideRegs wide) .buffered (progress s))) s) s)

/-! ### Locks (R184 to R186) -/

/-- The lanes that take their lock: the word reads 0 and no lower lane of the group names it (R185). -/
def lockWinners (rd : List Nat → Nat) : List Access → List (List Nat) → List Access
  | [], _ => []
  | x :: r, seen =>
    if rd x.keys = 0 && !seen.contains x.keys then x :: lockWinners rd r (x.keys :: seen)
    else lockWinners rd r (x.keys :: seen)

/-- The winners go on as their own group; the others wait at the `acq` for the commit (R185). All have issued it (R151). -/
def splitGroup (sw : Bool) (win lose : List Access) (s : State) : State :=
  let s := progress s
  let s := s.setCw (s.cw.mapThreads (fun _ t => { t with hold := .commit }) (lose.map (·.lane)))
  let all := s.cur
  let s := finish sw { s with cur := { s.cur with active := accMask win } }
  { s with cur := all }

/-- An `acq` inside a region (R185): each lane's word is read and marked as a speculative load's is; the lanes that take
their locks go on, with their writes in the store buffer, and the others wait for the commit. Where the tables have no
room, the group waits for the region's end. -/
def acqInRegion (sw : Bool) (acc : List Access) (s : State) : State :=
  let core := s.cur.core
  let slot := s.cur.slot
  let keys := acc.flatMap (·.keys)
  let need := tokenKeys s core slot acc
  if (missingKey s.cc false need).isSome then holdGroup (.tokens false need) (requestTokens s core slot false need)
  else if synonymLocked s core slot true acc || !markRoom s core slot keys then holdGroup .commit s
  else match poisonByte s acc with
    | some a => trapAt 0x0D 0 a s
    | none =>
      let mark (s : State) : State := s.setCore core { s.cc with marks := s.cc.marks ++ marksFor slot keys }
      let win := lockWinners (readThrough s s.cw s.fresh) acc []
      let lose := acc.filter fun x => !(win.any fun y => y.lane == x.lane)
      if win.isEmpty then holdGroup .commit (mark (openForAccess false (progress s)))
      else bufferOp .acq false (win.map fun x => { acc := x, data := 1, other := 0 })
        (fun _ s => splitGroup sw win lose (mark s)) s

/-- `acq` (R185): outside a region, or in cautious mode, its event decides each lane, and the group waits for it at the next
PC. -/
def execAcq (sw : Bool) (a : Pair) (off : Word) (s : State) : Host.Outcome State Fault Refusal :=
  .next (withChecked (checkLanes s none true 4 4 4 (formAddr s none a off.toInt) s.lanes [] false)
    (fun acc u s =>
      if !s.cw.careful && (openForAccess u s).cw.ckpt.isSome then acqInRegion sw acc s
      else bufferOp .lock u (acc.map fun x => { acc := x, data := 1, other := 0 })
        (fun id s => holdGroup (.event id) (finish sw (progress s))) s) s)

/-- `rel` (R186): its writes perform in order with the wave's stores (R183); outside a region the group waits for its
event, which checks every lane before any writes. -/
def execRel (sw : Bool) (a : Pair) (off : Word) (s : State) : Host.Outcome State Fault Refusal :=
  .next (withChecked (checkLanes s none true 4 4 4 (formAddr s none a off.toInt) s.lanes [] false)
    (fun acc u s =>
      let region := (openForAccess u s).cw.ckpt.isSome
      bufferOp .rel u (acc.map fun x => { acc := x, data := 0, other := 0 })
        (fun id s => if region then finish sw (progress s) else holdGroup (.event id) (finish sw s)) s) s)

/-! ### Copies (R188 to R196) -/

/-- `cpy` (R188, R189): one copy for each lane of Active, checked in lane order at issue, held until its release. -/
def execCpy (sw : Bool) (dst src : Pair) (xf : Xf) (len : Opnd) (s : State) : Host.Outcome State Fault Refusal :=
  let op (id l : Nat) : CopyOp :=
    { id := id, team := s.cw.team, slot := s.cur.slot, lane := l, wave := s.cw.serial, pc := s.cur.pc
      xf := match xf with
        | .none => 0 | .expand _ => 1 | .compact _ => 2
      dst := (pairVal s dst l).toNat, src := (pairVal s src l).toNat, len := (opnd s len l).toNat
      metaAddr := match xf with
        | .none => 0 | .expand m => (pairVal s m l).toNat | .compact m => (pairVal s m l).toNat }
  match s.lanes.findSome? fun l => checkCopy s (s.who l) (op 0 l) with
  | some t => .next (raiseTrapWith t true [] s)
  | none =>
    .next (finish sw (s.lanes.foldl (fun s l => let (id, s) := s.draw; issueEffect (.copy (op id l)) s) (progress s)))

/-- `cseal` (R194). -/
def execCseal (sw : Bool) (s : State) : Host.Outcome State Fault Refusal :=
  .next (finish sw (issueEffect (.seal s.cur.active) s))

/-- The error mark of a thread's oldest finished batch that carries one (R193). -/
def batchError (t : Thread) : Option Nat :=
  ((t.batches.takeWhile fun b => b.copies.isEmpty).find? fun b => b.err.isSome).bind (·.err)
/-- The thread with that mark taken. -/
def clearBatchError (t : Thread) : Thread :=
  { t with batches := match t.batches with
    | b :: r => if b.copies.isEmpty then r else b :: r
    | [] => [] }

/-- The error of a copy reported to a group, in its lowest lane that has one: access violation 7. Its mark goes with the
trap; where the trap must wait, the group meets the mark again (R193). -/
def reportError (k : State → State) (s : State) : State :=
  match s.lanes.find? fun l => (batchError (s.cw.thread l)).isSome with
  | some l =>
    let a := (batchError (s.cw.thread l)).getD 0
    trapAt 8 7 a (if trapMustWait s then s else s.setCw (s.cw.setThread l (clearBatchError (s.cw.thread l))))
  | none => k s

/-- `cwait` (R195). -/
def execCwait (sw : Bool) (n : BitVec 3) (s : State) : Host.Outcome State Fault Refusal :=
  if s.lanes.all fun l => decide (unfinished (s.cw.thread l) ≤ n.toNat) then .next (reportError (finish sw) s)
  else .next (holdGroup (.batches s.cur.active n.toNat) s)

/-- The window of a `drain` path (R196). -/
def drainWin : DrainPath → Win
  | .global => .global | .diePad => .pad | .cluster => .cluster | .scratch => .scratch | .host => .host

/-- The copies that a lane waits for at a `drain`: those it found at its first issue, else those of the core now (R196). -/
def drainIds (s : State) (path : DrainPath) (l : Nat) : List Nat :=
  let ids := (s.cc.copies.filter fun c => windowOf c.op.dst == some (drainWin path)).map (·.op.id)
  match (s.cw.thread l).hold with
  | .drain was => ids.filter was.contains
  | _ => ids

/-- `drain` (R196): each lane waits for the copies of the core that were released before its `drain`, and whose destination
lies in the window. -/
def execDrain (sw : Bool) (path : DrainPath) (s : State) : Host.Outcome State Fault Refusal :=
  if s.lanes.all fun l => (drainIds s path l).isEmpty then .next (reportError (finish sw) s)
  else .next (s.setCw (s.cw.mapThreads (fun l t => { t with hold := .drain (drainIds s path l) }) s.lanes))

end Sys2Proof.Machine
end

