-- ==== Sys2Proof/Machine/Matrix.lean ====
section
/-!
DEFINITION. Tile handles, the quartet rendezvous, the accumulator and the activation tables (R131 to R135, R199 to R215).
-/
namespace Sys2Proof.Machine

/-! ### Tile handles (R200 to R203) -/

/-- Bits [hi:lo] of a handle. -/
def hbits (h : BitVec 128) (hi lo : Nat) : Nat := bitsOf h.toNat hi lo
/-- The FMT field as a format. -/
def handleFmt (h : BitVec 128) : Option MmaFmt := mmaOfCode (hbits h 116 114)
/-- The bytes of one k-block of 32 elements. -/
def mmaBlockLen : MmaFmt → Nat
  | .dx8 => 34 | .dx6 => 26 | .dx4 => 18 | _ => 64
/-- The dx format of an mma format. -/
def mmaDx : MmaFmt → Option DxFmt
  | .dx8 => some .dx8 | .dx6 => some .dx6 | .dx4 => some .dx4 | _ => none
/-- SPAN of R201. -/
def handleSpan (h : BitVec 128) : Nat :=
  let rows := hbits h 101 88
  let kb := hbits h 113 102
  let stride := hbits h 87 64
  match handleFmt h with
  | some f =>
    match mmaDx f with
    | some d => (rows - 1) * stride + 4 * kb * d.blockBytes
    | none =>
      if hbits h 117 117 = 0 then (rows - 1) * stride + 256 * kb else (128 * kb - 1) * stride + 2 * rows
  | none => 0

/-- A reserved field or value of R200 (R202, check 1). -/
def handleReserved (h : BitVec 128) : Bool :=
  let translated := match windowOf (hbits h 56 0) with
    | some w => w.translated
    | none => false
  (handleFmt h).isNone || decide (hbits h 113 102 = 0) || decide (hbits h 101 88 = 0) || decide (hbits h 63 57 ≠ 0) ||
  (decide (hbits h 127 118 ≠ 0) && !translated) ||
  (decide (hbits h 117 117 = 1) && decide (hbits h 116 114 < 3))

/-- The checks of `thset` in order (R202). -/
def checkHandle (s : State) (h : BitVec 128) : Option TrapInfo :=
  let base := hbits h 56 0
  let span := handleSpan h
  if handleReserved h then some { cause := 0x0F, sub := 4, addr := 0 }
  else if 3 ≤ hbits h 116 114 ∧ (base % 2 = 1 ∨ hbits h 87 64 % 2 = 1) then some { cause := 7, sub := 2, addr := base }
  else match windowOf base with
    | some .global | some .host =>
      let n := hbits h 127 118
      match (if n < regionCount s then regionAt s n else none) with
      | some r =>
        if r.base ≤ base ∧ base + span ≤ r.base + r.len then none else some { cause := 5, sub := 2, addr := 0 }
      | none => some { cause := 5, sub := 2, addr := 0 }
    | _ => checkWindows s (s.who s.lowLane) [{ at_ := base, len := span, write := false }]

/-- `thset` (R202): executes once, whatever lanes are active. -/
def execThset (sw : Bool) (h : BitVec 4) (quad : BitVec 4) (s : State) : Host.Outcome State Fault Refusal :=
  let r (i : Nat) : Word := s.cw.uni (4 * quad.toNat + i)
  let v : BitVec 128 := r 3 ++ r 2 ++ r 1 ++ r 0
  match checkHandle s v with
  | some t => .next (raiseTrapWith t true [] s)
  | none => .next (finish sw (s.setCt { s.ct with handles := put s.ct.handles h.toNat v }))

/-! ### Quartets (R15, R204) -/

/-- The slots of a quartet's waves, in quarter order. -/
def quartetSlots (s : State) (core team q : Nat) : List Nat :=
  ((s.core core).waves.filter fun kw => kw.2.team == team && kw.2.quartet == some q).map (·.1)

/-- A trap taken by each of some waves at the quartet instruction where it waits (R204, R207). -/
def trapQuartet (core : Nat) (t : TrapInfo) (slots : List Nat) (s : State) : State :=
  let cur := s.cur
  let s := slots.foldl (fun s k =>
    let w := s.wave core k
    match w.rdv with
    | none => s
    | some c => raiseTrapWith t true [] ({ s with cur := c }.setWave core k { w with rdv := none })) s
  { s with cur := cur }

/-- Each of some waves goes on after the quartet instruction where it waited. -/
def finishQuartet (core : Nat) (slots : List Nat) (s : State) : State :=
  let cur := s.cur
  let s := slots.foldl (fun s k =>
    let w := s.wave core k
    match w.rdv with
    | none => s
    | some c => finish (c.w0.getLsbD 31) ({ s with cur := c }.setWave core k { w with rdv := none })) s
  { s with cur := cur }

/-- Every lane of a quartet's four waves is active, that is, has not exited (R15). -/
def quartetWhole (s : State) (core team q : Nat) : Bool :=
  let ws := (s.core core).waves.filter fun kw => kw.2.team == team && kw.2.quartet == some q
  decide (ws.length = 4) && ws.all fun kw => decide (kw.2.liveMask = BitVec.allOnes 64)

/-- The checks of a matrix instruction at its issue (R15, R204): a quartet, and all its lanes; a lane of another wave of
the quartet that has exited gives the subcode of the issuing wave's own (log 40). -/
def matrixCheck (s : State) : Option TrapInfo :=
  match s.cw.quartet with
  | none => some { cause := 4, sub := 0, addr := 0 }
  | some q =>
    if s.cur.active ≠ BitVec.allOnes 64 || !quartetWhole s s.cur.core s.cw.team q then
      some { cause := 4, sub := 2, addr := 0 }
    else none

/-- An `mma` of the quartet on a tag that is not complete (R215). -/
def mmaPending (c : Core) (team q tag : Nat) : Bool :=
  (c.mmas.any fun m => m.team == team && m.quartet == q && m.tag == tag) ||
  (c.mmaWait.any fun m => m.team == team && m.quartet == q && m.tag == tag && !m.zero)

/-- The checks of an `acc` instruction at its issue: R204's, the abort mark of its tag, then subcodes 2 and 1 of R215
(R210). The Bool says that the trap is the mark's. -/
def accCheck (s : State) (tag : Nat) : Option (TrapInfo × Bool) :=
  match matrixCheck s with
  | some t => some (t, false)
  | none =>
    match find? s.cw.aborts tag with
    | some t => some (t, true)
    | none =>
      if s.ct.slots ≤ tag then some ({ cause := 0x0F, sub := 2, addr := 0 }, false)
      else if mmaPending s.cc s.cw.team (s.cw.quartet.getD 0) tag then some ({ cause := 0x0F, sub := 1, addr := 0 }, false)
      else none

/-- A trap of `accCheck`; taking it clears the wave's abort mark, which a group that must wait with it meets again (R114,
R210). -/
def accTrap (t : TrapInfo) (mark : Bool) (tag : Nat) (s : State) : State :=
  raiseTrapWith t true [] (if mark && !trapMustWait s then s.setCw { s.cw with aborts := del s.cw.aborts tag } else s)

/-- A quartet instruction at its issue: the wave parks; with the fourth wave the words are compared and `k` acts once
(R204). -/
def rendezvous (k : List Nat → State → State) (s : State) : State :=
  let core := s.cur.core
  let q := s.cw.quartet.getD 0
  let s := holdGroup .quartet (s.setCw { s.cw with rdv := some s.cur })
  let slots := quartetSlots s core s.cw.team q
  let cs := slots.filterMap fun n => (s.wave core n).rdv
  if cs.length < 4 then s
  else if cs.any fun c => decide (c.w0 ≠ s.cur.w0) || decide (secondWord c.w0 c.w1 ≠ secondWord s.cur.w0 s.cur.w1) then
    trapQuartet core { cause := 4, sub := 3, addr := 0 } slots s
  else k slots s

/-- The lowest-numbered free accumulator slot (R374). -/
def freeSlot (c : Core) : Option Nat := let n := freeKey c.acc 0 16; if n < 16 then some n else none

/-- A tag bound to a new slot of −0.0, if one is free (R211). -/
def bindTag (s : State) (core team q tag : Nat) : Option (Nat × State) :=
  let t := s.team team
  match find? t.tags (8 * q + tag) with
  | some n => some (n, s)
  | none =>
    match freeSlot (s.core core) with
    | none => none
    | some n =>
      let c := s.core core
      some (n, (s.setCore core { c with acc := put c.acc n {} }).setTeam team
        { t with tags := put t.tags (8 * q + tag) n })

/-- A completed rendezvous takes its place among those that wait: those of one clock go in the order of their first waves'
slots (R369). -/
def insertWait (ws : List MmaWait) (w : MmaWait) : List MmaWait :=
  let before (x : MmaWait) : Bool := decide (x.at_ < w.at_) || decide (x.slot0 < w.slot0)
  ws.takeWhile before ++ [w] ++ ws.dropWhile before

/-- An element of a slot: −0.0 where nothing has been written since the binding (R211). -/
def slotElem (c : Core) (n i : Nat) : Word := look 0x80000000 (look ({} : AccSlot) c.acc n).data i

/-- `acc.rd` (R212, R213): 16 registers of the wave from its quarter's rows; a word in error is a data loss (R401). -/
def execAccRd (sw : Bool) (tag : BitVec 3) (d : BitVec 3) (s : State) : Host.Outcome State Fault Refusal :=
  match accCheck s tag.toNat with
  | some (t, mark) => .next (accTrap t mark tag.toNat s)
  | none =>
    match find? s.ct.tags (8 * s.cw.quartet.getD 0 + tag.toNat) with
    | none => .next (trap 0x0F 0 s)
    | some n =>
      let row (l : Nat) : Nat := 16 * s.cq + l / 4
      let bad := (look ({} : AccSlot) s.cc.acc n).bad
      if s.lanes.any fun l => (List.range 16).any fun i => bad.contains (64 * row l + (l % 4) * 16 + i) then
        .next (trap 0x0D 0 s)
      else
      let ws := s.lanes.flatMap fun l => (List.range 16).map fun i =>
        Write.reg (16 * d.toNat + i) l (slotElem s.cc n (64 * row l + (l % 4) * 16 + i))
      .next (finish sw (addPend (16 * d.toNat) 16 (.slot n ws) s))

/-- The binding that became due first (R374). -/
def dueFirst (ws : List MmaWait) : Option MmaWait :=
  ws.foldl (fun (b : Option MmaWait) w =>
    match w.due, b with
    | none, _ => b
    | some n, some x => if n < x.due.getD 0 then some w else b
    | some _, none => some w) none

/-- A slot bound to an `acc.zero`'s tag, or its bound slot, takes −0.0 everywhere, and the quartet goes on; none while no
slot is free (R211, R214). -/
def zeroTag (s : State) (core team q tag : Nat) : Option State :=
  match bindTag s core team q tag with
  | none => none
  | some (n, s) =>
    some (finishQuartet core (quartetSlots s core team q)
      (s.setCore core { s.core core with acc := put (s.core core).acc n {} }))

/-- `acc.zero` (R214): a quartet that finds no free slot, or an earlier binding that waits for one, stays held at it (R211,
R374). -/
def execAccZero (_sw : Bool) (tag : BitVec 3) (s : State) : Host.Outcome State Fault Refusal :=
  match accCheck s tag.toNat with
  | some (t, mark) => .next (accTrap t mark tag.toNat s)
  | none =>
    .next (rendezvous (fun slots s =>
      let core := s.cur.core
      let q := s.cw.quartet.getD 0
      let waits := (find? s.ct.tags (8 * q + tag.toNat)).isNone && (dueFirst s.cc.mmaWait).isSome
      match (if waits then none else zeroTag s core s.cw.team q tag.toNat) with
      | some s => s
      | none =>
        let (n, s) := s.draw
        let c := s.core core
        let w : MmaWait :=
          { team := s.cw.team, quartet := q, tag := tag.toNat, zero := true, at_ := c.clk.toNat, slot0 := slots.headD 0
            due := some n, handle := 0, b := 0, fmt := .dx8, fold := false, row0 := 0, kb := 0 }
        s.setCore core { c with mmaWait := insertWait c.mmaWait w }) s)

/-- `acc.rel` (R214): the tag is unbound at once. -/
def execAccRel (_sw : Bool) (tag : BitVec 3) (s : State) : Host.Outcome State Fault Refusal :=
  match accCheck s tag.toNat with
  | some (t, mark) => .next (accTrap t mark tag.toNat s)
  | none =>
    .next (rendezvous (fun slots s =>
      let core := s.cur.core
      let key := 8 * s.cw.quartet.getD 0 + tag.toNat
      match find? s.ct.tags key with
      | none => trapQuartet core { cause := 0x0F, sub := 0, addr := 0 } slots s
      | some n =>
        let c := s.core core
        let s := s.setCore core (Core.sweep { c with acc := put c.acc n { look {} c.acc n with releasing := true } })
        finishQuartet core slots (s.setCt { s.ct with tags := del s.ct.tags key })) s)

/-- `mma` (R205 to R207): at the fourth issue it goes to the engine, and the four waves stay held until it is accepted
and its B operand read (R204, R370). -/
def execMma (_sw : Bool) (tag : BitVec 3) (h : BitVec 4) (b : BitVec 4) (fmt : MmaFmt) (fold : Bool)
    (row0 kb : BitVec 16) (s : State) : Host.Outcome State Fault Refusal :=
  match matrixCheck s with
  | some t => .next (raiseTrapWith t true [] s)
  | none =>
    if s.ct.slots ≤ tag.toNat then .next (trap 0x0F 2 s)
    else
      .next (rendezvous (fun slots s =>
        let c := s.cc
        let w : MmaWait :=
          { team := s.cw.team, quartet := s.cw.quartet.getD 0, tag := tag.toNat, zero := false, at_ := c.clk.toNat
            slot0 := slots.headD 0, due := none, handle := h.toNat, b := 8 * b.toNat, fmt := fmt, fold := fold
            row0 := row0.toNat, kb := kb.toNat }
        s.setCore s.cur.core { c with mmaWait := insertWait c.mmaWait w }) s)

/-! ### The engine (R206 to R210, R368 to R374) -/

/-- The rows of a tile that are fetched: below ROWS, with kb below KB (R207). -/
def tileRows (h : BitVec 128) (row0 kb : Nat) : List Nat :=
  if kb < hbits h 113 102 then (List.range 64).filter fun i => decide (row0 + i < hbits h 101 88) else []

/-- The address and length of each byte run that holds k-block `b` of tile row i: one run, or 32 elements of 2 bytes for a
transposed matrix (R201). -/
def tileRuns (h : BitVec 128) (fmt : MmaFmt) (row0 kb i b : Nat) : List (Nat × Nat) :=
  let base := hbits h 56 0
  let stride := hbits h 87 64
  let r := row0 + i
  if hbits h 117 117 = 0 then [(base + r * stride + (4 * kb + b) * mmaBlockLen fmt, mmaBlockLen fmt)]
  else (List.range 32).map fun k => (base + (128 * kb + 32 * b + k) * stride + 2 * r, 2)

/-- The bytes of A that the tile reads, from the lowest to the highest (R209); none for an all-zero tile. -/
def tileRange (h : BitVec 128) (fmt : MmaFmt) (row0 kb : Nat) : Option Range :=
  let runs := (tileRows h row0 kb).flatMap fun i => (List.range 4).flatMap fun b => tileRuns h fmt row0 kb i b
  match runs with
  | [] => none
  | r :: rs =>
    let lo := rs.foldl (fun m x => min m x.1) r.1
    let hi := rs.foldl (fun m x => max m (x.1 + x.2)) (r.1 + r.2)
    some { at_ := lo, len := hi - lo, write := false }

/-- The B blocks of a quartet by 4 × column + k-block (R206): lane l of wave s holds column 16s + l ÷ 4, block l mod 4. -/
def readB (s : State) (core : Nat) (slots : List Nat) (b : Nat) (fmt : MmaFmt) : List (Nat × Nat) :=
  let regs := (mmaBlockLen fmt + 3) / 4
  (List.range 256).map fun i =>
    let w := s.wave core (slots.getD (i / 64) 0)
    let l := i % 64
    (4 * (16 * (i / 64) + l / 4) + l % 4,
     (List.range regs).foldl (fun acc j => acc + (w.reg (b + j) l).toNat * 2 ^ (32 * j)) 0)

/-- Element i of a block of 32. -/
def blockElem (fmt : MmaFmt) (block i : Nat) : FVal :=
  match fmt with
  | .dx8 => dxElem .dx8 block i
  | .dx6 => dxElem .dx6 block i
  | .dx4 => dxElem .dx4 block i
  | .bf16 => valueOf .bf16 (block / 2 ^ (16 * i) % 65536)
  | .fp16 => valueOf .f16 (block / 2 ^ (16 * i) % 65536)

/-- The pairs of one k-block of one output element (R103, R207). -/
def blockPairs (fmt : MmaFmt) (a b : Nat) : List (FVal × FVal) :=
  (List.range 32).map fun i => (blockElem fmt a i, blockElem fmt b i)

/-- Output element (i, j) of an operation (R103, R207). -/
def mmaResult (c : Core) (m : MmaOp) (i j : Nat) : Word :=
  let a := m.a.getD []
  let acc := if m.fold then 0x80000000 else (slotElem c m.slot (64 * i + j)).toNat
  BitVec.ofNat 32 (mmaElem acc ((List.range 4).map fun b =>
    blockPairs m.fmt (look 0 a (4 * i + b)) (look 0 m.b (4 * j + b))))

/-- The whole slot after an operation. -/
def mmaSlot (c : Core) (m : MmaOp) : List (Nat × Word) :=
  (List.range 4096).map fun e => (e, mmaResult c m (e / 64) (e % 64))

/-- An operation leaves the engine: its lock goes, its stage is free, and a slot that it alone kept returns (R214, R372,
R381). -/
def retireMma (s : State) (core : Nat) (m : MmaOp) : State :=
  let c := s.core core
  s.setCore core (Core.sweep (Core.freed
    { clearLocks c m.lock.toList with mmas := c.mmas.filter fun x => x.reg ≠ m.reg }))

/-- Abort marks on a tag in each wave of the quartet (R210). -/
def markAborts (s : State) (core : Nat) (m : MmaOp) (t : TrapInfo) : State :=
  (quartetSlots s core m.team m.quartet).foldl (fun s k =>
    let w := s.wave core k
    s.setWave core k { w with aborts := put w.aborts m.tag t }) s

/-! ### Activation tables (R131 to R135, R382) -/

/-- A word of a bank (R131). -/
def Bank.word (b : Bank) (k : Nat) : Word := look 0 b.words k

/-- `atab` of one lane (R133). A NaN argument of the segment choice leaves the segment open: `pick` is it (log 12). -/
def atabVal (b : Bank) (pick : Nat) (x : Word) : Word :=
  if isNaN .f32 x.toNat then BitVec.ofNat 32 (quiet .f32 x.toNat)
  else
    let u := subMulRound x.toNat (b.word 768).toNat (b.word 769).toNat
    let seg := if isNaN .f32 u then pick % 256 else clampFloor255 u
    let t := (fpSub .f32 .rne u (roundVal .f32 .rne (.fin false seg 0)).1).1
    let q := (fpFma .f32 .rne t (b.word (512 + seg)).toNat (b.word (256 + seg)).toNat).1
    BitVec.ofNat 32 (fpFma .f32 .rne t q (b.word seg).toNat).1

/-- The group held at its `atab` or `atsw`, with its place in the order in which the quarter holds them (R134, R382). -/
def holdBank (s : State) : State := holdGroup (.bank s.draw.1) s.draw.2

/-- The quarter holds `atab`: a switch is under way, or the clock after it or a restore's has not come (R134, R382). -/
def bankHeld (s : State) : Bool :=
  let q := s.cc.quarter s.cq
  q.switching.isSome || decide (s.cc.clk.toNat < q.bankFree)

/-- `atab` (R133, R134): held while a switch is under way; evaluates the bank active at issue. -/
def execAtab (sw : Bool) (d : BitVec 7) (a : Opnd) (s : State) : Host.Outcome State Fault Refusal :=
  let q := s.cc.quarter s.cq
  if bankHeld s then .next (holdBank s)
  else if q.active.owner ≠ some s.cw.team then .next (trap 0x11 0 s)
  else .next (finish sw (addPend d.toNat 1 (.table (s.lanes.map fun l =>
    .reg d.toNat l (atabVal q.active (Config.freeNat (64 * s.fresh + l)) (opnd s a l)))) s))

/-- `atld` (R132): where the shadow bank is another team's, it waits 25 clocks for the clearing, then writes (R382). -/
def execAtld (sw : Bool) (a b : Opnd) (s : State) : Host.Outcome State Fault Refusal :=
  let q := s.cc.quarter s.cq
  let clk := s.cc.clk.toNat
  if q.shadow.owner ≠ some s.cw.team then
    .next (holdGroup (.clear (clk + 25)) (s.setCore s.cur.core (s.cc.setQuarter s.cq { q with
      shadow := { owner := some s.cw.team, words := [] }, clearEnd := clk + 25 })))
  else if clk < q.clearEnd then .next (holdGroup (.clear q.clearEnd) s)
  else
  let bank := q.shadow
  let bank := s.lanes.foldl (fun (bk : Bank) l =>
    let k := (opnd s a l).toNat
    if k ≤ 769 then { bk with words := putd 0 bk.words k (opnd s b l) } else bk) bank
  .next (finish sw (s.setCore s.cur.core (s.cc.setQuarter s.cq { q with shadow := bank })))

/-- `atsw` (R134): the group is parked until the exchange. Another one of the quarter, while an exchange waits, is held before
its owner check until that has taken place: DESIGN CHOICE, log 93. -/
def execAtsw (sw : Bool) (s : State) : Host.Outcome State Fault Refusal :=
  let q := s.cc.quarter s.cq
  if q.switching.isSome then .next (holdBank s)
  else if q.shadow.owner ≠ some s.cw.team then .next (trap 0x11 1 s)
  else .next (holdGroup (.exchange q.atgen) (finish sw
    (s.setCore s.cur.core (s.cc.setQuarter s.cq { q with switching := some s.cw.team }))))

/-- An `atab` of the quarter that has issued and is unfinished (R134). -/
def atabInFlight (c : Core) (q : Nat) : Bool :=
  c.waves.any fun kw => kw.1 / 16 == q && kw.2.pend.any fun p => match p.src with
    | .table _ => true
    | _ => false

/-- The exchange of the banks; held `atab` issue from the next clock on (R134, R382). -/
def exchangeBanks (c : Core) (n : Nat) : Core :=
  let q := c.quarter n
  c.setQuarter n { q with
    active := q.shadow, shadow := q.active, atgen := q.atgen + 1, switching := none, bankFree := c.clk.toNat + 1 }

end Sys2Proof.Machine
end

