-- ==== Sys2Proof/Machine/System.lean ====
section
/-!
DEFINITION. The clause-entry step (R62 to R64), traps, the system registers, launch and recovery instructions (R28 to R33,
R40, R220 to R231, R378).
-/
namespace Sys2Proof.Machine

/-! ### Clause entry (R63, R64) -/

/-- A matrix operation of the wave's quartet is not complete (R63 WM, R208). -/
def matrixBusy (s : State) : Bool :=
  match s.cw.quartet with
  | none => false
  | some q =>
    (s.cc.mmas.any fun m => m.team == s.cw.team && m.quartet == q) ||
    (s.cc.mmaWait.any fun m => m.team == s.cw.team && m.quartet == q && !m.zero)

/-- The lanes that pass a header's guard (R62, R63). -/
def guardPass (w : Wave) (h : Header) (l : Nat) : Bool :=
  match h.gp with
  | none => true
  | some p => w.pred l p.val != h.gs

/-- Steps 2 and 3 of R63: the guard is sampled; threads that fail it stand at the next clause and owe its entry. A CK
header opens a checkpoint for the threads that pass, unless every thread of the group resumed (R64); with one live, or an
uncached load outstanding, those threads wait, their sample taken, and then owe only the opening. -/
def enterClause (h : Header) (s : State) : State :=
  let next := BitVec.ofNat 64 (clauseEnd (codeWord s s.cur.core s.cur.slot) h.n (s.cur.hdr.toNat + 4))
  let w := s.cw
  let arriving := s.lanes.any fun l => decide ((w.thread l).owes = .entry) || decide ((w.thread l).owes = .open_)
  let passes (l : Nat) : Bool := decide ((w.thread l).owes = .open_) || guardPass w h l
  let opens := h.ck && arriving && s.lanes.any passes
  let wait := opens && (w.ckpt.isSome || w.uncLoad)
  let w' := w.mapThreads (fun l t =>
    if !passes l then { t with pc := next + 4, hdr := next, owes := .entry, hold := .none, demoted := false }
    else if wait then { t with owes := .open_, hold := .ckpt, demoted := false }
    else { t with owes := .nothing, hold := .none, demoted := false }) s.lanes
  s.setCw (if opens && !wait then w'.checkpoint s.cur.pc else w')

/-- The clause-entry step of the running group (R63): a header that breaks R62 traps (R78 subcode 6), at the thread's own PC,
which follows the header, with the words there and the bad header in its frame (log 41); the WR, WM and WB waits, with the
abort marks and error marks met there (R193, R210); then the sample, and at a CK header the threads that pass wait for a live
checkpoint, and for uncached loads (R197, R291), before they open one. -/
def execClauseEntry (s : State) : Host.Outcome State Fault Refusal :=
  match decodeHeader (codeWord s s.cur.core s.cur.slot s.cur.hdr.toNat) with
  | none => .next (trap 1 6 s)
  | some h =>
    let ids := s.cw.resultIds s.cur.active
    let beyond := s.lanes.any fun l => decide (h.bn < unfinished (s.cw.thread l))
    if h.wr && !ids.isEmpty then
      .next (s.setCw (s.cw.mapThreads (fun _ t => { t with wait := ids }) s.lanes))
    else if (h.wm && matrixBusy s) || (h.wb && beyond) then
      .next (holdGroup (.header s.cur.active h.wm (if h.wb then some h.bn else none)) s)
    else
      match (if h.wm then s.cw.aborts else []) with
      | (tag, t) :: _ => .next (accTrap t true tag s)
      | [] =>
        if h.wb then .next (reportError (enterClause h) s) else .next (enterClause h s)

/-! ### Traps (R224, R227) -/

/-- `trap` (R224). -/
def execTrap (_sw : Bool) (code : BitVec 16) (s : State) : Host.Outcome State Fault Refusal :=
  .next (trap 0x0E code.toNat s)

/-- `eret` (R227, R228): with no trap in progress cause 0x01, subcode 9; else it takes effect once every handler thread
that has not exited stands at one. A switch marker parks the group for its results first (R70). -/
def execEret (sw : Bool) (s : State) : Host.Outcome State Fault Refusal :=
  if s.cw.handler.isNone then .next (trap 1 9 s) else .next (checkRun (returnIfReady (park sw (holdGroup .eret s))))

/-! ### System registers (R28 to R33, R221, R222) -/

/-- A range-lock entry as its 128 bits (R378). -/
def LockEntry.bits (e : LockEntry) : Nat :=
  e.v.toNat * 2 ^ 127 + e.dst.toNat * 2 ^ 126 + e.eng.toNat * 2 ^ 125 + e.rsv.toNat * 2 ^ 124 + e.wave % 64 * 2 ^ 118 +
  e.seq % 64 * 2 ^ 112 + e.len % 2 ^ 48 * 2 ^ 64 + e.start % 2 ^ 57

/-- A firmware register (R28, R40, R378). fw2 and fw6 to fw15, whose reset values the spec does not state, read 0 until they
are written (log 1). -/
def fwRead (c : Core) (n : Nat) : DWord :=
  let entry := (c.lock ((look 0 c.fw 2).toNat % 64)).bits
  match n with
  | 0 => BitVec.ofNat 64 entry
  | 1 => BitVec.ofNat 64 (entry / 2 ^ 64)
  | 3 => c.corectl
  | 4 => look (BitVec.ofNat 64 Config.fwBase) c.fw 4
  | 5 => look (BitVec.ofNat 64 Config.fwLen) c.fw 5
  | n => look 0 c.fw n

/-- A write of a firmware register: CORECTL's bits are set and never cleared (R40), and a NORMAL just set reads 1 though the
core is still in strict mode (log 42); FWBASE and FWLEN keep any value written, whatever its alignment or range (log 42);
fw0 and fw1 are the window on the range-lock table and take no write (log 18). -/
def fwWrite (c : Core) (n : Nat) (v : DWord) : Core :=
  match n with
  | 0 => c
  | 1 => c
  | 3 => { c with corectl := c.corectl ||| (v &&& 3) }
  | n => { c with fw := put c.fw n v }

/-- The value of a system register for a lane (R28, R221). RIVL of firmware's team, which has no context, reads 0 (log 43). -/
def srRead (s : State) (r : SysReg) (l : Nat) : DWord :=
  let w := s.cw
  match r with
  | .wavew => 64
  | .fpmode => (w.thread l).rm.setWidth 64
  | .fpst => (w.thread l).fpst.setWidth 64
  | .tfb => w.tfb
  | .thdl => thdlOf s w
  | .ckst => joinWords w.cm w.rb
  | .clk => s.cc.clk
  | .quota => BitVec.ofNat 64 w.quota
  | .atgen => (s.cc.quarter s.cq).atgen
  | .lkcnt => BitVec.ofNat 64 s.ct.lkcnt
  | .depth => BitVec.ofNat 64 (specialTeam s .depth)
  | .rivl => ((ctxOf s s.ct).map fun k => (s.context k).rivl).getD 0
  | .fw n => fwRead s.cc n.toNat

/-- A write of a system register of wider scope, with the lowest lane's value (R29, R222). A write of RIVL by firmware's
team, which has no context, has no effect (log 43). -/
def srWrite (s : State) (r : SysReg) (v : DWord) : State :=
  let w := s.cw
  match r with
  | .tfb => s.setCw { w with tfb := v }
  | .thdl =>
    match s.ct.grid, s.gridOf s.ct with
    | some h, some g => s.setGrid h { g with thdl := v }
    | _, _ => s.setCt { s.ct with fwThdl := v }
  | .ckst => s.setCw { w with cm := v.setWidth 32, rb := (v >>> 32).setWidth 32 }
  | .clk => s.setCore s.cur.core { s.cc with clk := v }
  | .atgen => s.setCore s.cur.core (s.cc.setQuarter s.cq { s.cc.quarter s.cq with atgen := v })
  | .lkcnt => s.setCt { s.ct with lkcnt := v.toNat % 2 ^ 32 }
  | .rivl =>
    match ctxOf s s.ct with
    | some k => s.setContext k { s.context k with rivl := v }
    | none => s
  | .fw n => s.setCore s.cur.core (fwWrite s.cc n.toNat v)
  | _ => s

/-- `rdsr` (R221): a lane destination in each lane, a uniform one once, in a MIX clause too (log 44). -/
def execRdsr (sw : Bool) (d : Pair) (sr : SysReg) (s : State) : Host.Outcome State Fault Refusal :=
  let ws := match d with
    | .lane k => s.lanes.flatMap fun l =>
        [Write.reg (2 * k.toNat) l ((srRead s sr l).setWidth 32),
         .reg (2 * k.toNat + 1) l ((srRead s sr l >>> 32).setWidth 32)]
    | .unif k =>
      [Write.unif (2 * k.toNat) ((srRead s sr s.lowLane).setWidth 32),
       .unif (2 * k.toNat + 1) ((srRead s sr s.lowLane >>> 32).setWidth 32)]
  .next (finish sw (applyWrites ws s))

/-- `wrsr` (R222): FPMODE and FPST take each lane's value; a register of wider scope takes the lowest lane's; a read-only
one is not changed (R29). -/
def execWrsr (sw : Bool) (sr : SysReg) (a : Opnd) (s : State) : Host.Outcome State Fault Refusal :=
  match sr with
  | .fpmode =>
    .next (finish sw (s.setCw (s.cw.mapThreads (fun l t => { t with rm := (opnd64 s a l).setWidth 2 }) s.lanes)))
  | .fpst =>
    .next (finish sw (s.setCw (s.cw.mapThreads (fun l t => { t with fpst := (opnd64 s a l).setWidth 6 }) s.lanes)))
  | sr => .next (finish sw (srWrite s sr (opnd64 s a s.lowLane)))

/-! ### Launch, early launch and recovery marks (R229 to R231) -/

/-- `launch` (R229): for the team leader, thread 0 of wave 0. The subcode of a record that is not 128-aligned is not
stated, so it is a free value (log 6); the depth is checked before the alignment and the window (DESIGN CHOICE, log 106). -/
def execLaunch (sw : Bool) (a : Pair) (off : Word) (s : State) : Host.Outcome State Fault Refusal :=
  if s.cw.wid ≠ 0 ∨ !s.cur.active.getLsbD 0 then .next (trap 4 5 s)
  else
    let at_ := (pairVal s a 0 + off.signExtend 64).toNat
    if 10 ≤ specialTeam s .depth then .next (trapAt 0x0B 0 at_ s)
    else if at_ % 128 ≠ 0 then
      let (n, s) := s.draw
      .next (trapAt 7 (Config.freeNat n % 9) at_ s)
    else match windowOf at_ with
      | none => .next (trapAt 8 1 at_ s)
      | some w =>
        if w.last < at_ + 127 then .next (trapAt 6 0 (w.last + 1) s)
        else .next (finish sw (issueEffect (.launch at_) (progress s)))

/-- `trig` (R230). -/
def execTrig (sw : Bool) (s : State) : Host.Outcome State Fault Refusal :=
  .next (finish sw (issueEffect (.trig s.cur.active) (progress s)))

/-- `rmark` (R231): the context's interval begins to close, and the group parks until it has; firmware's team has no
context, and nothing to close. -/
def execRmark (sw : Bool) (s : State) : Host.Outcome State Fault Refusal :=
  match ctxOf s s.ct with
  | none => .next (finish sw s)
  | some k =>
    let s := finish sw s
    .next (holdGroup .rmark (s.setContext k { s.context k with closing := true }))

end Sys2Proof.Machine
end

