-- ==== Sys2Proof/Machine/CoreEvents.lean ====
section
/-!
DEFINITION. The events of a core that no selection issues: results written, commits, buffered stores, rollbacks, trap
entries, the exchange of activation banks, spawn bins and `ldw` parks (R69, R134, R160, R180, R225, R294 to R302, R341,
R356). An event that is out of place leaves the state as it is (log 19).
-/
namespace Sys2Proof.Machine

/-- A step by an event: the state it gives, or, where it is out of place, the state as it was (log 19). -/
def byEvent (e : Option State) (s : State) : Host.Outcome State Fault Refusal := .next (e.getD s)

/-! ### Traps met after issue -/

/-- A trap met by an access, numbered `id`, that issued earlier: it is raised at that instruction's PC, and its threads that
still live are its group. Effects that they issued after it go; what else they issued after it is not undone outside a
region (R270, R298, log 20). While a handler runs, it ends the grid as the handler's own trap does, whatever threads it strikes
(R228, log 105). -/
def raiseEarlier (s : State) (core slot : Nat) (t : TrapInfo) (id : Nat) (pc hdr : DWord) (mask : Mask) : State :=
  let w := s.wave core slot
  let m := mask &&& w.liveMask
  if m = 0 then s
  else
    let w := w.mapThreads (fun _ th => { th with pc := pc, hdr := hdr, owes := .nothing, hold := .none }) (lanesOf m)
    let s := s.setWave core slot { w with
      effects := w.effects.filter fun h => !(decide (id < h.id) && decide (h.mask &&& m ≠ 0)) }
    let cur := s.cur
    let s := raiseTrapWith t true [] { s with cur := cursorAt s core slot pc hdr m }
    { s with cur := cur }

/-- A trap met when an access performs (R298): with a region live, the wave rolls back and runs the whole region again in
cautious mode; the one access of a cautious region traps at its PC. -/
def trapLate (s : State) (core slot : Nat) (t : TrapInfo) (id : Nat) (pc hdr : DWord) (mask : Mask) (spec : Bool) : State :=
  let w := s.wave core slot
  let here := w.careful && decide ((w.ckpt.map (·.at_)) = some pc)
  let s := if w.ckpt.isSome then rollBackWave s core slot else s
  if spec && !here then s.setWave core slot { s.wave core slot with pass := max 1 w.region }
  else raiseEarlier s core slot t id pc hdr mask

/-! ### Results (R69, R176, R178, R180) -/

/-- A load's writes in one lane (R176). -/
def loadWrites (size : LdSize) (d l v : Nat) : List Write :=
  match size with
  | .u8 | .u16 | .b32 => [.reg d l (BitVec.ofNat 32 v)]
  | .s8 => [.reg d l (BitVec.ofInt 32 (signExt 8 v))]
  | .s16 => [.reg d l (BitVec.ofInt 32 (signExt 16 v))]
  | _ => (List.range size.regs).map fun i => .reg (d + i) l (BitVec.ofNat 32 (v / 2 ^ (32 * i)))

/-- An `ldblk` half's writes: word j of the block's bytes in lane j of the half, where the block has one (R178). -/
def blockWrites (fmt : DxFmt) (d : Nat) (mask : Mask) (a : Access) (v : Nat) : List Write :=
  ((lanesOf mask).filter fun l => decide (l / 32 = a.lane / 32) && decide (l % 32 < (fmt.blockBytes + 3) / 4)).map
    fun l => .reg d l (BitVec.ofNat 32 (v / 2 ^ (32 * (l % 32))))

/-- The trap that an access of a wave, numbered `id`, meets when it reads: the range-lock table, then poison, of bytes that no
older buffered store gives it (R172, R190, R270, R288). -/
def readTrap (s : State) (core : Nat) (w : Wave) (id : Nat) (acc : List Access) : Option TrapInfo :=
  let o := overlay s w id
  acc.findSome? fun x =>
    match checkLocks s core w.team false x.va x.keys.length with
    | some t => some t
    | none => (x.keys.findIdx? fun k => s.poison.contains (poisonUnit k) && (find? o k).isNone).map fun i =>
        { cause := 0x0D, sub := 0, addr := x.va + i }

/-- What stands in the way of reading some accesses: nothing, a wait, a request to send first, or a trap. -/
inductive ReadState
  | ready (marks : List Mark)
  | wait
  | ask (s : State)
  | trap (t : TrapInfo)
  deriving DecidableEq, Repr

/-- Whether an outstanding load may perform now (R289, R290, R293, R294, R300). A speculative one that finds the mark table
or a watch list full waits until nothing older is unperformed, and then makes no mark and takes no token into the L1; in
cautious mode none makes a mark. -/
def readState (s : State) (core slot : Nat) (p : Pend) (acc : List Access) : ReadState :=
  let w := s.wave core slot
  let keys := acc.flatMap (·.keys)
  let need := tokenKeys s core slot acc
  if synonymLocked s core slot false acc || engineHolds s (some core) false (keys.map (· / 4)) || (p.unc && w.ckpt.isSome) then .wait
  else match readTrap s core w p.id acc with
    | some t => .trap t
    | none =>
      if unmarked s core slot p acc then (if olderPerformed w p.id then .ready [] else .wait)
      else if (missingKey (s.core core) false need).isSome then
        let s' := requestTokens s core slot false need
        if s' = s then .wait else .ask s'
      else .ready (if p.spec && !w.careful then marksFor slot keys else [])

/-- A wave whose speculative load waits for room in the mark table or a watch list behind a write of its own region, which
waits for that load. -/
def stuckOnMarks (s : State) (core slot : Nat) : Bool :=
  let w := s.wave core slot
  w.pend.any fun p => p.spec && !olderPerformed w p.id && (w.sbuf.any fun e => e.spec && decide (e.id < p.id)) &&
    match p.reads with
    | some acc => !markRoom s core slot (acc.flatMap (·.keys))
    | none => false

/-- No room can come: every wave with an entry in what is full is stuck on it, this one among them, and no park of an `ldw`
stands in a full watch list (DEDUCED from R303, log 46). -/
def marksDeadlocked (s : State) (core slot : Nat) : Bool :=
  stuckOnMarks s core slot &&
  (s.wave core slot).pend.any fun p => match p.reads with
    | some acc =>
      let keys := acc.flatMap (·.keys)
      !markRoom s core slot keys &&
      (!tableFull s core slot keys || (s.core core).marks.all fun m => stuckOnMarks s core m.slot) &&
      (fullBanks s keys).all fun b => decide (parkCount s b = 0) &&
        s.cores.all fun c => (c.2.marks.filter fun m => watchBank s (128 * m.line) == some b).all fun m =>
          stuckOnMarks s c.1 m.slot
    | none => false

/-- The wave rolls back and runs its next region in cautious mode (R298, R302). -/
def toCautious (s : State) (core slot : Nat) : State :=
  let s := rollBackWave s core slot
  s.setWave core slot { s.wave core slot with cautious := true }

/-- The lanes whose park ends, or whose first read differs, and those that stay (R180). -/
def waitSplit (rd : List Nat → Nat) (acc : List Access) (expect : List Nat) : List (Access × Nat) × List (Access × Nat) :=
  ((acc.zip expect).filter (fun x => rd x.1.keys != x.2), (acc.zip expect).filter fun x => rd x.1.keys == x.2)

/-- D written in lanes that an `ldw` releases: their hold ends, and after a park their count (R151, R180). -/
def releaseLdw (w : Wave) (p : Pend) (wide parked : Bool) (rd : List Nat → Nat) (acc : List Access) : Wave :=
  let w := Wave.deliver p.spec (p.kept (acc.flatMap fun x =>
    loadWrites (if wide then .b64 else .b32) p.d x.lane (rd x.keys))) w
  w.mapBoth p.spec (fun _ t =>
    { t with hold := if t.hold = .ldw p.id then .none else t.hold, back := if parked then 0 else t.back }) (acc.map (·.lane))

/-- The wave with an outstanding result replaced by others, or gone. -/
def Wave.setPend (w : Wave) (id : Nat) (ps : List Pend) : Wave :=
  { w with pend := w.pend.flatMap fun x => if x.id = id then ps else [x] }

/-- An access lies on a page with C = 0. -/
def onUncached (s : State) (core slot : Nat) (x : Access) : Bool :=
  (windowOf x.va).map (·.translated) == some true && !needsTokens s core slot x

/-- The lanes of a park that are watched, and those that read again by the clock: on a page with C = 0, or finding a home's
watch list full, in lane order (R341). `taken` are the banks that earlier lanes have entered. -/
def watchLanes (s : State) (uncached : Access → Bool) :
    List (Access × Nat) → List Nat → List (Access × Nat) × List (Access × Nat)
  | [], _ => ([], [])
  | x :: r, taken =>
    let banks := x.1.banks s
    if uncached x.1 || banks.any fun b => decide (64 ≤ watchCount s b + (taken.filter (· == b)).length) then
      let (a, b) := watchLanes s uncached r taken
      (a, x :: b)
    else
      let (a, b) := watchLanes s uncached r (banks ++ taken)
      (x :: a, b)

/-- Lanes that wait for one result and now wait for another; who waits for the first for its destination's sake waits for both
(R69). -/
def Wave.splitPend (w : Wave) (id id' : Nat) (ls : List Nat) : Wave :=
  let w := w.mapThreads (fun _ t => { t with wait := if t.wait.contains id then id' :: t.wait else t.wait }) (List.range 64)
  w.mapThreads (fun _ t => if t.hold = .ldw id then { t with hold := .ldw id' } else t) ls

/-- The read of an `ldw` (R180): lanes that differ are released; the others park when the wave holds no checkpoint. Lanes that
nothing watches read again every 1024 cycles, as a result of their own (R341). -/
def readWait (s : State) (core slot : Nat) (p : Pend) (wide : Bool) (acc : List Access) (expect : List Nat)
    (start poll : Option Nat) (marks : List Mark) : Option State :=
  let w := s.wave core slot
  let clk := (s.core core).clk.toNat
  let rd := readThrough s w p.id
  let (go, stay) := waitSplit rd acc expect
  if go.isEmpty && ((start.isNone && w.ckpt.isSome) || (start.isSome && poll.isNone)) then none
  else
    let since := if start.isSome || w.ckpt.isSome then start else some clk
    let (watched, polled) :=
      if poll.isSome then ([], stay)
      else if start.isSome || since.isNone then (stay, [])
      else watchLanes s (onUncached s core slot) stay []
    let part (id : Nat) (xs : List (Access × Nat)) (next : Option Nat) : List Pend :=
      if xs.isEmpty then []
      else [{ p with id := id, mask := accMask (xs.map (·.1)), src := .wait wide (xs.map (·.1)) (xs.map (·.2)) since next }]
    let w := releaseLdw w p wide start.isSome rd (go.map (·.1))
    let both := !watched.isEmpty && !polled.isEmpty
    let id' := if both then s.fresh else p.id
    let w := if both then w.splitPend p.id id' (polled.map (·.1.lane)) else w
    let w := w.setPend p.id (part p.id watched none ++ part id' polled (some (clk + 1024)))
    let s := (if both then { s with fresh := s.fresh + 1 } else s).setWave core slot w
    let c := s.core core
    let kept := marks.filter fun m => go.any fun x => x.1.keys.any fun k => lineOf k == m.line
    some (s.setCore core { c with marks := c.marks ++ kept })

/-- A result is written, in every lane (R69, R176, R178, R290). -/
def performLoad (s : State) (core slot : Nat) (p : Pend) (ws : List Write) (marks : List Mark) : State :=
  let s := s.setWave core slot ((Wave.deliver p.spec (p.kept ws) (s.wave core slot)).setPend p.id [])
  let c := s.core core
  s.setCore core { c with marks := c.marks ++ marks }

/-- What an outstanding load meets is met for good: it is not speculative, or it is the one access of a cautious region
(R298). -/
def consumed (w : Wave) (p : Pend) : Bool := !p.spec || (w.careful && decide ((w.ckpt.map (·.at_)) = some p.pc))

/-- A read at its moment: `k` performs it with the marks it makes, an uncached one at its LLC or over its link. -/
def whenReady (s : State) (core slot : Nat) (p : Pend) (acc : List Access) (k : State → List Mark → Option State) :
    Option State :=
  let s := if p.unc then uncachedTraffic s core slot false acc else s
  match readState s core slot p acc with
  | .wait => none
  | .ask s' => some s'
  | .trap t =>
    if t.cause = 0x0D && consumed (s.wave core slot) p && (poisonRollsBack s (s.wave core slot).team).isSome then none
    else some (trapLate (s.setWave core slot ((s.wave core slot).setPend p.id [])) core slot t p.id p.pc p.hdr p.mask p.spec)
  | .ready ms => k s ms

/-- The accesses of a park with the keys that their addresses have now (R278, R341). -/
def rereadKeys (s : State) (core slot : Nat) (acc : List Access) : Except Block (List Access) :=
  let w := s.wave core slot
  acc.mapM fun x =>
    match checkRange s { core := core, lane := x.lane, wave := w, team := s.team w.team } none false x.va x.keys.length with
    | .ok keys _ => .ok { x with keys := keys }
    | .trap t => .error (.trap t)
    | .miss va => .error (.miss va)

/-- A read whose keys are derived again; where a translation has gone, its lanes wait at the `ldw` for the page-fault service,
and issue it again (R172, R278, R362). -/
def rereadThen (s : State) (core slot : Nat) (p : Pend) (acc : List Access) (k : List Access → Option State) : Option State :=
  let late (t : TrapInfo) : Option State :=
    some (trapLate (s.setWave core slot ((s.wave core slot).setPend p.id [])) core slot t p.id p.pc p.hdr p.mask p.spec)
  match rereadKeys s core slot acc with
  | .ok acc => k acc
  | .error (.trap t) => late t
  | .error (.miss va) =>
    let w := s.wave core slot
    let t := s.team w.team
    if (s.partOf t).isNone || t.faulted.contains (va / 65536) then late { cause := 8, sub := 3, addr := va }
    else
      let mine := (lanesOf p.mask).filter fun l => decide ((w.thread l).hold = .ldw p.id)
      some (s.setWave core slot ((w.setPend p.id []).mapBoth p.spec (fun _ th =>
        { th with pc := p.pc, hdr := p.hdr, owes := .resume, wait := [], hold := .fault va 0 }) mine))
  | .error .wait => none

/-- The read of a load or `ldblk` in every lane (R176, R178). -/
def evLoad (s : State) (core slot : Nat) (p : Pend) (acc : List Access) (f : Access → Nat → List Write) : Option State :=
  whenReady s core slot p acc fun s ms =>
    some (performLoad s core slot p
      (acc.flatMap fun x => f x (readThrough s (s.wave core slot) p.id x.keys)) ms)

/-- The read of an `ldw` (R180, R341). -/
def evWait (s : State) (core slot : Nat) (p : Pend) (wide : Bool) (acc : List Access) (expect : List Nat)
    (start poll : Option Nat) : Option State :=
  rereadThen s core slot p acc fun acc =>
    whenReady s core slot p acc fun s ms => readWait s core slot p wide acc expect start poll ms

/-- `VARIABLE_RESULT_WRITE` of the k-th outstanding result of a wave (R69): a table read 18 clocks after its issue, a slot
read 20 clocks after (R374, R382). A park that nothing watches is read by LDW_REREAD. -/
def evResult (core slot k : Nat) (s : State) : Option State :=
  match (s.wave core slot).pend[k]? with
  | none => none
  | some p =>
    let after (n : Nat) (s' : State) : Option State := if (s.core core).clk.toNat < p.at_ + n then none else some s'
    match p.src with
    | .value ws => some (performLoad s core slot p ws [])
    | .table ws => after 18 (performLoad s core slot p ws [])
    | .slot _ ws =>
      let s' := performLoad s core slot p ws []
      after 20 (s'.setCore core (s'.core core).sweep)
    | .buffered => none
    | .load size acc => evLoad s core slot p acc fun x v => loadWrites size p.d x.lane v
    | .block fmt acc => evLoad s core slot p acc fun x v => blockWrites fmt p.d p.mask x v
    | .wait wide acc expect start none => evWait s core slot p wide acc expect start none
    | .wait _ _ _ _ (some _) => none
/-- `VARIABLE_RESULT_WRITE` (R69). -/
def execVariableResultWrite (core slot k : Nat) (s : State) : Host.Outcome State Fault Refusal :=
  byEvent (evResult core slot k s) s

/-- `LDW_TIMEOUT` (R180): 65,536 local cycles after the park began, D takes the word's current value. -/
def evLdwTimeout (core slot k : Nat) (s : State) : Option State :=
  match (s.wave core slot).pend[k]? with
  | none => none
  | some p =>
    match p.src with
    | .wait wide acc _ (some start) _ =>
      if (s.core core).clk.toNat < start + 65536 then none
      else rereadThen s core slot p acc fun acc => whenReady s core slot p acc fun s _ =>
        let w := s.wave core slot
        some (s.setWave core slot ((releaseLdw w p wide true (readThrough s w p.id) acc).setPend p.id []))
    | _ => none
/-- `LDW_TIMEOUT` (R180). -/
def execLdwTimeout (core slot k : Nat) (s : State) : Host.Outcome State Fault Refusal :=
  byEvent (evLdwTimeout core slot k s) s

/-- `LDW_REREAD` (R341): a park that nothing watches reads its word again, every 1024 local cycles. -/
def evLdwReread (core slot k : Nat) (s : State) : Option State :=
  match (s.wave core slot).pend[k]? with
  | none => none
  | some p =>
    match p.src with
    | .wait wide acc expect start (some t) =>
      if (s.core core).clk.toNat < t then none else evWait s core slot p wide acc expect start (some t)
    | _ => none
/-- `LDW_REREAD` (R341). -/
def execLdwReread (core slot k : Nat) (s : State) : Host.Outcome State Fault Refusal :=
  byEvent (evLdwReread core slot k s) s

/-- The parks of a core on the word at a key: slot and place. -/
def parksOn (c : Core) (key : Nat) : List (Nat × Nat) :=
  c.waves.flatMap fun w => (List.range w.2.pend.length).filterMap fun k =>
    match w.2.pend[k]? with
    | some p =>
      match p.src with
      | .wait _ acc _ (some _) none => if acc.any fun x => x.keys.any fun y => y / 4 == key / 4 then some (w.1, k) else none
      | _ => none
    | none => none

/-- `WATCH_NOTIFY` (R293, R341): the home of an on-chip word at key `onChip + place` tells each watching core, whose
parks then read it again; speculative marks on it went when the write performed. -/
def evWatch (place : Nat) (s : State) : Option State :=
  s.cores.foldl (fun r c =>
    (parksOn c.2 (onChip + place)).reverse.foldl (fun r x =>
      match evResult c.1 x.1 x.2 (r.getD s) with
      | some s' => some s'
      | none => r) r) none
/-- `WATCH_NOTIFY` (R293). -/
def execWatchNotify (place : Nat) (s : State) : Host.Outcome State Fault Refusal := byEvent (evWatch place s) s

/-! ### Commit, buffered stores, rollback (R294, R296, R297) -/

/-- Tokens that a wave's buffered writes still lack are asked for (R295). -/
def askForWrites (s : State) (core slot : Nat) (es : List SbEntry) : Option State :=
  let s' := requestTokens s core slot true (es.flatMap (entryNeed s core slot))
  if s' = s then none else some s'

/-- The oldest effect held, issued outside a region, of a wave with nothing older to perform is released (R301). -/
def releaseOldest (s : State) (core slot : Nat) : Option State :=
  let w := s.wave core slot
  match w.effects with
  | [] => none
  | h :: _ =>
    if h.spec || !olderPerformed w h.id then none
    else (releaseEffect s core slot h.eff).map fun s =>
      s.setWave core slot { s.wave core slot with effects := (s.wave core slot).effects.filter fun x => x.id ≠ h.id }

/-- `COMMIT_INSTANT` (R296): the region commits; or effects issued with nothing older unperformed are released (R301); or
the tokens still missing are asked for. -/
def evCommit (core slot : Nat) (s : State) : Option State :=
  let w := s.wave core slot
  match releaseOldest s core slot with
  | some s' => some s'
  | none =>
    if w.ckpt.isNone then none
    else match commitRegion s core slot with
      | some s' => some s'
      | none => if w.lost then none else askForWrites s core slot w.sbuf
/-- `COMMIT_INSTANT` (R296). -/
def execCommitInstant (core slot : Nat) (s : State) : Host.Outcome State Fault Refusal := byEvent (evCommit core slot s) s

/-- The trap of a committed entry, which goes with what it would have delivered (R278, R298). -/
def trapStore (s : State) (core slot : Nat) (e : SbEntry) (t : TrapInfo) : State :=
  let w := s.wave core slot
  let s := s.setWave core slot { w with
    sbuf := w.sbuf.filter fun x => x.id ≠ e.id, pend := w.pend.filter fun p => p.id ≠ e.id }
  trapLate s core slot t e.id e.pc e.hdr e.mask false

/-- A wave whose team has stopped leaves its slot with its last committed store (R228). -/
def leaveStopped (s : State) (core slot : Nat) : State :=
  let w := s.wave core slot
  if s.hasWave core slot && w.sbuf.isEmpty && decide (w.liveMask = 0) then dropWave s core slot else s

/-- The lanes of a line of a trap frame that the wave may store; a refused one is not written (R225, R339, log 15). -/
def frameLanes (s : State) (core slot : Nat) (e : SbEntry) : List SbLane :=
  e.lanes.filter fun x => match recheck s core slot x.acc with
    | .ok a => !a.keys.any (lostPA s)
    | .error _ => false

/-- A line of a trap frame is stored once the core holds the tokens of its words (R225, R294); its page is served first where
its translation is missing (R172, R276). -/
def evFrame (core slot : Nat) (e : SbEntry) (s : State) : Option State :=
  let now := { e with lanes := frameLanes s core slot e }
  let rest : Option State :=
    match refresh s core slot now with
    | .error _ => none
    | .ok x =>
      if now.lanes.isEmpty then some (leaveBuffer s core slot e)
      else if (missingKey (s.core core) true (entryNeed s core slot now)).isSome then askForWrites s core slot [now]
      else if synonymLocked s core slot true x.accesses || engineHolds s (some core) true (x.keys.map (· / 4)) then none
      else some (uncachedTraffic (leaveBuffer (performLine s core slot now) core slot e) core slot true x.accesses)
  match e.lanes.findSome? fun x => match recheck s core slot x.acc with
      | .error (.miss va) => some va
      | _ => none with
  | some va =>
    match lateMiss s core slot va 1 with
    | .post s => some s
    | .wait => none
    | .stands => rest
  | none => rest

/-- The oldest entry of a store buffer performs, older than any checkpoint, line by line, once the core holds the tokens of a
line's words; not before a `cpy` or `cseal` older than it has been released (R189, R194). A translation that has gone since its
issue is served first (R172, R278). -/
def performOldest (core slot : Nat) (s : State) : Option State :=
  match (s.wave core slot).sbuf with
  | [] => none
  | e :: _ =>
    if e.spec || (s.wave core slot).effects.any fun h => decide (h.id < e.id) then none
    else if e.op = .frame then evFrame core slot e s
    else
      let now := { e with lanes := e.firstLine.1 }
      let stop := match entryBlock s core slot e with
        | some .wait => entryBlock s core slot now
        | b => b
      if (missingKey (s.core core) true (entryNeed s core slot now)).isSome then askForWrites s core slot [e]
      else match stop with
      | none => some (performNext s core slot e)
      | some .wait => none
      | some (.miss va) =>
        match lateMiss s core slot va 1 with
        | .post s => some s
        | .wait => none
        | .stands => some (trapStore s core slot e { cause := 8, sub := 3, addr := va })
      | some (.trap t) =>
        if t.cause = 0x0D && (poisonRollsBack s (s.wave core slot).team).isSome && decide ((s.wave core slot).liveMask ≠ 0) then none
        else some (trapStore s core slot e t)
/-- `COMMITTED_STORE_PERFORM` (R294), the last of a wave whose team has stopped among them. -/
def evStore (core slot : Nat) (s : State) : Option State :=
  (performOldest core slot s).map fun s => leaveStopped s core slot
/-- `COMMITTED_STORE_PERFORM` (R294). -/
def execCommittedStorePerform (core slot : Nat) (s : State) : Host.Outcome State Fault Refusal :=
  byEvent (evStore core slot s) s

/-- `ROLLBACK` (R297, R298): a mark is lost; or an entry would trap at the commit, or finds its translation gone and issues
again; or the wave and the others wait for room that cannot come (log 46). -/
def evRollback (core slot : Nat) (s : State) : Option State :=
  let w := s.wave core slot
  if w.ckpt.isNone then none
  else if w.lost then some (rollBackWave s core slot)
  else if gathered s core slot then
    match performAll core slot w.sbuf s with
    | .error (e, .trap t) =>
      if t.cause = 0x0D && (poisonRollsBack s w.team).isSome then none
      else some (trapLate s core slot t e.id e.pc e.hdr e.mask true)
    | .error (_, .miss _) => some (rollBackWave s core slot)
    | _ => none
  else if marksDeadlocked s core slot then some (toCautious s core slot)
  else none
/-- `ROLLBACK` (R297). -/
def execRollback (core slot : Nat) (s : State) : Host.Outcome State Fault Refusal := byEvent (evRollback core slot s) s

/-! ### Trap entry (R72, R225) -/

/-- `TRAP_ENTRY` (R225): a trap that waited for its group's results is delivered once they are written. -/
def evTrapEntry (core slot : Nat) (s : State) : Option State :=
  let w := s.wave core slot
  match w.trapReq with
  | none => none
  | some r =>
    if w.ckpt.isSome || w.outstanding r.group then none
    else
      let cur := s.cur
      let s := s.setWave core slot { w with trapReq := none }
      let s := raiseTrapWith r.info r.fetched r.emu { s with cur := r.cur }
      some { s with cur := cur }
/-- `TRAP_ENTRY` (R225). -/
def execTrapEntry (core slot : Nat) (s : State) : Host.Outcome State Fault Refusal := byEvent (evTrapEntry core slot s) s

/-! ### The activation banks (R134) -/

/-- `ATSW_EXCHANGE` (R134): no `atab` of the quarter that has issued is unfinished. -/
def evAtsw (core q : Nat) (s : State) : Option State :=
  let c := s.core core
  if (c.quarter q).switching.isSome && !atabInFlight c q then some (s.setCore core (exchangeBanks c q)) else none
/-- `ATSW_EXCHANGE` (R134). -/
def execAtswExchange (core quarter : Nat) (s : State) : Host.Outcome State Fault Refusal :=
  byEvent (evAtsw core quarter s) s

/-! ### Spawn bins (R14, R160, R356) -/

/-- The teams resident on a core, those with no wave left among them (R11, R356). -/
def coreTeams (s : State) (core : Nat) : List Nat :=
  ((s.core core).waves.map (·.2.team) ++ (s.teams.filter fun t => t.2.core == some core).map (·.1)).eraseDups

/-- Rows of a quarter that no resident wave and no pool of a resident team holds (R17, R357). -/
def freeRows (s : State) (core q : Nat) : Nat :=
  let held := (s.core core).waves.foldl (fun n kw => if kw.1 / 16 == q then n + kw.2.quota else n) 0
  Config.rowsPerQuarter - (held + (coreTeams s core).foldl (fun n t => n + look 0 (s.team t).pools q) 0)

/-! ### Stale rows and blocks (R361) -/

/-- The bytes of a run of a core's scratchpad that are not 0, numbered from `base` on. -/
def runBytes (s : State) (core base at_ n : Nat) : List (Nat × Byte) :=
  (s.mem.filter fun c => decide (scratchKey core at_ ≤ c.1) && decide (c.1 < scratchKey core at_ + n)).map fun c =>
    (base + (c.1 - scratchKey core at_), c.2)

/-- Two runs share a byte. -/
def runsMeet (a b : Nat × Nat) : Bool := decide (a.1 < b.1 + b.2) && decide (b.1 < a.1 + a.2)

/-- A team with those of its stale blocks for which `hit` holds, and the stale rows of the quarters for which `rows` holds,
written to its frame. -/
def Team.writeStale (s : State) (hit : Nat × Nat → Bool) (rows : Nat → Bool) (t : Team) : Team :=
  match t.stale with
  | none => t
  | some k =>
    let gone := t.staleBlocks.filter fun b => hit b.2
    let blocks := t.staleBlocks.filter fun b => !hit b.2
    let quarters := t.staleRows.filter fun q => !rows q
    { t with
      savedBytes := t.savedBytes ++ gone.flatMap fun b => runBytes s k b.1 b.2.1 b.2.2
      stale := if blocks.isEmpty && quarters.isEmpty then none else some k
      staleRows := quarters, staleBlocks := blocks }

/-- What stands stale of a team is written to its frame. -/
def flushStale (s : State) (team : Nat) : State :=
  s.setTeam team (Team.writeStale s (fun _ => true) (fun _ => true) (s.team team))

/-- What stands stale of a team is discarded, its blocks written 0 (R364). -/
def scrubStale (s : State) (team : Nat) : State :=
  let t := s.team team
  let s := match t.stale with
    | some k => t.staleBlocks.foldl (fun (s : State) (b : Nat × Nat × Nat) => zeroRange s (scratchKey k b.2.1) b.2.2) s
    | none => s
  s.setTeam team { t with stale := none, staleRows := [], staleBlocks := [] }

/-- Rows of a quarter of a core on which stale ones stand, of teams but `but`. -/
def rowsStale (s : State) (core q : Nat) (but : Option Nat) : Nat :=
  s.teams.foldl (fun n t =>
    if t.2.stale = some core && t.2.staleRows.contains q && decide (some t.1 ≠ but) then
      t.2.saved.foldl (fun n w => if w.1 % 4 = q then n + w.2.quota else n) n
    else n) 0

/-- An allocation of runs of a core's scratchpad, and of rows by quarter, first writes the stale blocks and rows that it covers
to their owners' frames, but those of the team `but` (R361). Rows have no places: one that takes more than the free rows with
nothing stale covers every stale row of its quarter (log 58). -/
def coverStale (s : State) (core : Nat) (runs : List (Nat × Nat)) (rows : List (Nat × Nat)) (but : Option Nat) : State :=
  if s.teams.any fun t => t.2.stale == some core then
    let covered (q : Nat) : Bool := rows.any fun r => r.1 == q && decide (freeRows s core q < r.2 + rowsStale s core q but)
    { s with teams := mapVals (fun k t =>
        if t.stale = some core && decide (some k ≠ but) then Team.writeStale s (fun b => runs.any (runsMeet b)) covered t
        else t) s.teams }
  else s

/-- The lowest free wave slot of a quarter (R354). -/
def freeWaveSlot (c : Core) (q : Nat) : Option Nat :=
  (List.range 16).findSome? fun i => if (find? c.waves (16 * q + i)).isNone then some (16 * q + i) else none

/-- The slot for a spawned wave: in the quarter with the most free rows among those with a free slot, if they cover the
team's quota (R356). -/
def spawnSlot (s : State) (core quota : Nat) : Option Nat :=
  let c := s.core core
  let best := (List.range 4).foldl (fun (b : Option (Nat × Nat)) q =>
    match freeWaveSlot c q with
    | none => b
    | some k =>
      let r := freeRows s core q
      match b with
      | some (r', _) => if r' < r then some (r, k) else b
      | none => some (r, k)) none
  match best with
  | some (r, k) => if quota ≤ r then some k else none
  | none => none

/-- The lowest free index from 16 to 63 among a team's waves (R14). -/
def spawnWid (s : State) (core team : Nat) : Nat :=
  let used := ((s.core core).waves.filter fun kw => kw.2.team == team).map fun kw => kw.2.wid
  ((List.range 48).map (· + 16)).find? (fun n => !used.contains n) |>.getD 64

/-! ### The scratchpad of a core (R283, R284) -/

/-- Runs of a core's scratchpad in use: the lane-private blocks of resident waves and of declared waves of resident teams,
team scratch, and cluster shares (R283, R285). -/
def scratchUsed (s : State) (core : Nat) : List (Nat × Nat) :=
  (s.teams.flatMap fun kt =>
    let t := kt.2
    if t.core = some core then
      (t.scratchAt, t.scratch) :: (t.blocks.filter fun b =>
        decide (b.1 < 16) || (s.core core).waves.any fun w => w.2.team == kt.1 && w.2.wid == b.1).map
          fun b => (b.2, 64 * t.lpriv)
    else []) ++
  s.grids.flatMap fun g => match find? g.2.clusAt core with
    | some o => [(o, g.2.clus / 8)]
    | none => []

/-- The lowest place for n bytes among runs in use, within a bound (R283). -/
def firstFit (used : List (Nat × Nat)) (bound n : Nat) : Option Nat :=
  let ok (o : Nat) : Bool := decide (o + n ≤ bound) &&
    used.all fun u => decide (u.2 = 0) || decide (o + n ≤ u.1) || decide (u.1 + u.2 ≤ o)
  if n = 0 then some 0
  else
    (0 :: used.map fun u => u.1 + u.2).foldl (fun (b : Option Nat) o =>
      if ok o then (match b with
        | some o' => some (min o o')
        | none => some o)
      else b) none

/-- The bytes of a scratchpad that teams may hold (R283). -/
def scratchBytes : Nat := 229376

/-- A new wave of a team in a slot, at an entry header (R16, R146, R355); its number is the part's next one. -/
def newWave (s : State) (core slot team wid : Nat) (quartet : Option Nat) (entry : DWord) : Wave :=
  let t := s.team team
  let args := ((s.gridOf t).map (·.argsAt)).getD 0
  { serial := s.nextSeq, team := team, wid := wid, quartet := quartet, quota := t.quota
    base := { pc := entry + 4, hdr := entry }
    unif := putd 0 (putd 0 [] 0 (BitVec.ofNat 32 args)) 1 (BitVec.ofNat 32 (args / 2 ^ 32))
    tfb := BitVec.ofNat 64 (trapFrame ((s.partOf t).getD 0) core slot) }

/-- A bin forms a wave from its oldest 64 entries (R14, R160), with a lane-private block of its own, written 0 (R284,
log 21). Younger entries stay, and the timer keeps its expiry (DESIGN CHOICE, log 103). -/
def formWave (s : State) (core n : Nat) (b : Bin) : Option State :=
  let t := s.team b.team
  match spawnSlot s core t.quota with
  | none => none
  | some slot =>
    let wid := spawnWid s core b.team
    match (if wid < 64 then firstFit (scratchUsed s core) scratchBytes (64 * t.lpriv) else none) with
    | none => none
    | some at_ =>
      let s := coverStale s core [(at_, 64 * t.lpriv)] [(slot / 16, t.quota)] none
      let s := s.setTeam b.team { t with blocks := put t.blocks wid at_ }
      let s := zeroRange s (scratchKey core at_) (64 * t.lpriv)
      let w := newWave s core slot b.team wid none b.entry
      let now := b.args.take 64
      let w := w.mapThreads (fun l th =>
        if l < now.length then { th with arg := now.getD l 0 } else { th with live := false }) (List.range 64)
      let rest := b.args.drop 64
      let s := { s.setWave core slot w with nextSeq := s.nextSeq + 1 }
      let c := s.core core
      some (s.setCore core { c with bins :=
        (match rest with
        | [] => del c.bins n
        | _ => put c.bins n { b with args := rest, dueWave := false, expires := b.expires }) })

/-- `SPAWN_BIN_TIMER_EXPIRY` (R160, R356): the bin forms its wave, or, with no slot or rows, keeps its entries until both
are free. -/
def evBinTimer (core n : Nat) (s : State) : Option State :=
  match find? (s.core core).bins n with
  | none => none
  | some b =>
    match b.expires with
    | none => none
    | some t =>
      if (s.core core).clk.toNat < t then none
      else
        let b := { b with expires := none }
        match formWave s core n b with
        | some s' => some s'
        | none =>
          let c := s.core core
          some (s.setCore core { c with bins := put c.bins n { b with dueWave := true } })
/-- `SPAWN_BIN_TIMER_EXPIRY` (R160). -/
def execSpawnBinTimerExpiry (core bin : Nat) (s : State) : Host.Outcome State Fault Refusal :=
  byEvent (evBinTimer core bin s) s

/-- `SPAWN_WAVE_FORMATION` (R160, R356): a bin that holds 64 entries, or whose expiry found no room. -/
def evFormWave (core n : Nat) (s : State) : Option State :=
  match find? (s.core core).bins n with
  | none => none
  | some b => if b.dueWave || decide (64 ≤ b.args.length) then formWave s core n b else none
/-- `SPAWN_WAVE_FORMATION` (R356). -/
def execSpawnWaveFormation (core bin : Nat) (s : State) : Host.Outcome State Fault Refusal :=
  byEvent (evFormWave core bin s) s

end Sys2Proof.Machine
end

