-- ==== Sys2Proof/Machine/Engines.lean ====
section
/-!
DEFINITION. The events of the copy and matrix engines (R192, R193, R206 to R210, R369 to R381).
-/
namespace Sys2Proof.Machine

/-! ### The copy engine -/

/-- The first miss of a copy's ranges. -/
def copyMiss (s : State) (core : Nat) (c : Copy) : Option Nat :=
  (copyRanges c.op).findSome? fun r =>
    match checkRange s (copyWho s core c.op) none r.write r.at_ r.len with
    | .miss va => some va
    | _ => none

/-- The core with copies changed. -/
def mapCopies (s : State) (core : Nat) (f : Copy → Copy) : State :=
  let c := s.core core
  s.setCore core { c with copies := c.copies.map f }

/-- The copy engine of a core brought up to the core's clock (R375). -/
def syncCopies (s : State) (core : Nat) : State := s.setCore core (moveCopies s (s.core core))

/-- `COPY_COMPLETION` of the k-th copy of a core (R192, R377); a miss is posted as an engine fault first. -/
def evCopy (core k : Nat) (s : State) : Option State :=
  let s := syncCopies s core
  match (s.core core).copies[k]? with
  | none => none
  | some c =>
    match (if c.active then copyMiss s core c else none) with
    | none => completeCopy s core c
    | some va =>
      match engineMiss s core c.op.team va c.faulted with
      | .post s => some (mapCopies s core fun x =>
          if x.op.id = c.op.id then { x with faulted := va / 65536 :: x.faulted } else x)
      | _ => none
/-- `COPY_COMPLETION` (R192). -/
def execCopyCompletion (core k : Nat) (s : State) : Host.Outcome State Fault Refusal := byEvent (evCopy core k s) s

/-- `COPY_ABORT` (R193): the engine meets a failure in the range that starts at `addr`, after service of a miss. -/
def evCopyAbort (core k addr : Nat) (s : State) : Option State :=
  let s := syncCopies s core
  match (s.core core).copies[k]? with
  | none => none
  | some c =>
    if !c.active || copyFailure s core c ≠ some addr then none
    else match copyMiss s core c with
      | none => some (retireCopy s core c (some addr))
      | some va =>
        match engineMiss s core c.op.team va c.faulted with
        | .stands => some (retireCopy s core c (some addr))
        | _ => none
/-- `COPY_ABORT` (R193). -/
def execCopyAbort (core k addr : Nat) (s : State) : Host.Outcome State Fault Refusal :=
  byEvent (evCopyAbort core k addr s) s

/-! ### The matrix engine -/

/-- The stage that no operation holds, if there is one (R369). -/
def freeStage (c : Core) : Option Nat := [0, 1].find? fun n => c.mmas.all fun m => m.stage != n

/-- The entry for the A lock of a quartet (R379): its reserved one if free, else an unreserved free one. -/
def lockEntryFor (c : Core) (t : Team) (q : Nat) : Option Nat :=
  let own := (find? t.reserved q).filter fun n => !(c.lock n).v
  match own with
  | some n => some n
  | none => (freeEntries c).head?

/-- The tag of a waiting rendezvous is unbound, so it needs a slot (R211). -/
def MmaWait.unbound (s : State) (m : MmaWait) : Bool := (find? (s.team m.team).tags (8 * m.quartet + m.tag)).isNone

/-- The rendezvous that wait without one of them. -/
def dropWait (s : State) (core : Nat) (m : MmaWait) : State :=
  let c := s.core core
  s.setCore core { c with mmaWait := c.mmaWait.filter (· ≠ m) }

/-- An `mma` accepted into a stage (R207, R369): the handle is checked, the slot bound, the A lock registered; none where
the table has no entry for the lock, though the binding may be done. -/
def acceptMma (s : State) (core : Nat) (m : MmaWait) : Option State :=
  let c := s.core core
  let t := s.team m.team
  let slots := quartetSlots s core m.team m.quartet
  match freeStage c with
  | none => none
  | some stage =>
    match find? t.handles m.handle with
    | none => some (trapQuartet core { cause := 0x0F, sub := 3, addr := 0 } slots (dropWait s core m))
    | some h =>
      if handleFmt h ≠ some m.fmt then
        some (trapQuartet core { cause := 0x0F, sub := 5, addr := 0 } slots (dropWait s core m))
      else match bindTag s core m.team m.quartet m.tag with
        | none => none
        | some (slot, s') =>
          let range := tileRange h m.fmt m.row0 m.kb
          let entry := if range.isSome then lockEntryFor (s'.core core) t m.quartet else none
          if range.isSome && entry.isNone then (if m.unbound s then some s' else none)
          else
            let s := s'
            let c := (dropWait s core m).core core
            let reg := c.regOrder true (slots.headD 0)
            let c := match range, entry with
              | some r, some n => setLock c n false true (slots.headD 0) c.seq r.at_ r.len
              | _, _ => c
            let op : MmaOp :=
              { reg := reg, team := m.team, quartet := m.quartet, tag := m.tag, slot := slot, stage := stage,
                fmt := m.fmt, fold := m.fold, handle := h, row0 := m.row0, kb := m.kb,
                b := readB s core slots m.b m.fmt, bRead := false, a := none, held := [], started := false
                acceptAt := c.clk.toNat, startAt := 0, replays := [], lock := entry, faulted := [] }
            some (s.setCore core { c with mmas := c.mmas ++ [op], seq := c.seq + 1 })

/-- A waiting rendezvous with its binding due or, with none, done (R374). -/
def setDue (s : State) (core : Nat) (m : MmaWait) (n : Option Nat) : State :=
  let c := s.core core
  s.setCore core { c with mmaWait := c.mmaWait.map fun x => if x = m then { x with due := n } else x }

/-- A free slot goes to the binding that became due first (R211, R374); an `mma` then waits with its tag bound. -/
def bindDue (s : State) (core : Nat) (m : MmaWait) : Option State :=
  if m.zero then zeroTag (dropWait s core m) core m.team m.quartet m.tag
  else (bindTag s core m.team m.quartet m.tag).map fun x => setDue x.2 core m none

/-- A waiting `mma` with a stage free (R369): its binding becomes due, where it has to wait for a slot or behind another; or it
is accepted, once the table has an entry for its lock, which freed entries give it a clock later (R381). -/
def tryAccept (core : Nat) (s : State) (m : MmaWait) : Option State :=
  let c := s.core core
  let clk := c.clk.toNat
  let late := decide (m.at_ < clk) && c.wake.any fun t => decide (clk < t)
  if m.zero || (freeStage c).isNone then none
  else if m.unbound s && ((freeSlot c).isNone || (dueFirst c.mmaWait).any (· ≠ m)) then
    if m.due.isSome then none
    else
      let (n, s) := s.draw
      some (setDue s core m (some n))
  else if late && (find? (s.team m.team).handles m.handle).any fun h => (tileRange h m.fmt m.row0 m.kb).isSome then none
  else acceptMma s core m

/-- `MMA_ACCEPT` (R211, R369, R374): a free slot goes to the binding that became due first; else the oldest `mma` that can go on
does. -/
def evMmaAccept (core : Nat) (s : State) : Option State :=
  let c := s.core core
  match dueFirst c.mmaWait, freeSlot c with
  | some w, some _ => bindDue s core w
  | _, _ => c.mmaWait.findSome? (tryAccept core s)
/-- `MMA_ACCEPT` (R369). -/
def execMmaAccept (core : Nat) (s : State) : Host.Outcome State Fault Refusal := byEvent (evMmaAccept core s) s

/-- The core with one operation replaced. -/
def setMma (s : State) (core : Nat) (m : MmaOp) : State :=
  let c := s.core core
  s.setCore core { c with mmas := c.mmas.map fun x => if x.reg = m.reg then m else x }

/-- `MMA_B_READ_END` (R370): R clocks after the acceptance the four waves go on. -/
def evBRead (core stage : Nat) (s : State) : Option State :=
  match (s.core core).mmas.find? fun m => m.stage == stage && !m.bRead with
  | none => none
  | some m =>
    if (s.core core).clk.toNat < m.acceptAt + (mmaBlockLen m.fmt + 3) / 4 then none
    else some (setMma (finishQuartet core (quartetSlots s core m.team m.quartet) s) core { m with bRead := true })
/-- `MMA_B_READ_END` (R370). -/
def execMmaBReadEnd (core stage : Nat) (s : State) : Host.Outcome State Fault Refusal := byEvent (evBRead core stage s) s

/-- The keys of the runs of a k-block of a tile row, or what the fetcher meets. -/
def runKeys (s : State) (core : Nat) (team : Nat) : List (Nat × Nat) → List Nat → Fate
  | [], acc => .ok acc true
  | r :: rs, acc =>
    match checkRange s { core := core, lane := 0, wave := noWave, team := s.team team } none false r.1 r.2 with
    | .ok keys _ => runKeys s core team rs (acc ++ keys)
    | f => f

/-- The tile's blocks by 4 × row + k-block with their keys, or what the fetcher meets first (R201, R371). -/
def tileKeys (s : State) (core : Nat) (m : MmaOp) : Except Fate (List (Nat × List Nat)) :=
  ((tileRows m.handle m.row0 m.kb).flatMap fun i => (List.range 4).map fun b => (i, b)).mapM fun ib =>
    match runKeys s core m.team (tileRuns m.handle m.fmt m.row0 m.kb ib.1 ib.2) [] with
    | .ok keys _ => .ok (4 * ib.1 + ib.2, keys)
    | f => .error f

/-- The runs of a tile as accesses, in order. -/
def tileAccesses (s : State) (core : Nat) (m : MmaOp) : List Access :=
  ((tileRows m.handle m.row0 m.kb).flatMap fun i =>
    (List.range 4).flatMap fun b => tileRuns m.handle m.fmt m.row0 m.kb i b).filterMap fun r =>
      match runKeys s core m.team [r] [] with
      | .ok keys _ => some { lane := 0, va := r.1, keys := keys }
      | _ => none

/-- The operation that the fetcher fills next: the earliest without its tile (R371). -/
def fetching (c : Core) : Option MmaOp := c.mmas.find? fun m => m.a.isNone

/-- An earlier copy that writes into an operation's range holds its fetch back (R191, R209). -/
def fetchBlocked (s : State) (core : Nat) (m : MmaOp) : Bool :=
  match tileRange m.handle m.fmt m.row0 m.kb with
  | some r => blockedBy s (s.core core) m.team m.reg [r]
  | none => false

/-- The clocks that a tile's fetch takes (R371): 256 bytes of the core scratchpad a clock, of any other window one line. -/
def fetchClocks (m : MmaOp) : Nat :=
  let runs := (tileRows m.handle m.row0 m.kb).flatMap fun i =>
    (List.range 4).flatMap fun b => tileRuns m.handle m.fmt m.row0 m.kb i b
  if windowOf (hbits m.handle 56 0) = some .scratch then ((runs.map (·.2)).foldl (· + ·) 0 + 255) / 256
  else ((runs.flatMap fun r => (List.range ((r.1 + r.2 - 1) / 128 - r.1 / 128 + 1)).map (r.1 / 128 + ·)).eraseDups).length

/-- CLK at which an operation's fetch can be done: the fetcher fills one stage after another (R371). -/
def fetchEnd (c : Core) (m : MmaOp) : Nat := max m.acceptAt c.fetchFree + fetchClocks m

/-- `MMA_A_FETCH_DONE` (R209, R371): the tile read performs as one event when its last byte is due, and from it on the
fetcher holds a token of each word; a miss is posted as an engine fault first. -/
def evFetch (core stage : Nat) (s : State) : Option State :=
  match fetching (s.core core) with
  | none => none
  | some m =>
    if m.stage ≠ stage || fetchBlocked s core m then none
    else match tileKeys s core m with
      | .error (.miss va) =>
        match engineMiss s core m.team va m.faulted with
        | .post s => some (setMma s core { m with faulted := va / 65536 :: m.faulted })
        | _ => none
      | .error _ => none
      | .ok blocks =>
        let keys := blocks.flatMap (·.2)
        let done := fetchEnd (s.core core) m
        if (s.core core).clk.toNat < done || (firstPoison s keys).isSome then none
        else
          match engineGather s (s.partOf (s.team m.team)) keys with
          | none => none
          | some s =>
            if (firstPoison s keys).isSome then some s
            else
              let s := setMma s core { m with
                a := some (blocks.map fun b => (b.1, readKeys s b.2))
                held := ((keys.filter fun k => decide (k < onChip)).map (· / 4)).eraseDups }
              some (s.setCore core { s.core core with fetchFree := done })
/-- `MMA_A_FETCH_DONE` (R371). -/
def execMmaAFetchDone (core stage : Nat) (s : State) : Host.Outcome State Fault Refusal := byEvent (evFetch core stage s) s

/-- `MMA_COMPUTE_START` (R372): the earliest operation, its tile whole and its B operand read. -/
def evCompute (core : Nat) (s : State) : Option State :=
  match (s.core core).mmas with
  | m :: _ =>
    if m.a.isSome && m.bRead && !m.started then
      some (setMma s core { m with started := true, startAt := (s.core core).clk.toNat })
    else none
  | [] => none
/-- `MMA_COMPUTE_START` (R372). -/
def execMmaComputeStart (core : Nat) (s : State) : Host.Outcome State Fault Refusal := byEvent (evCompute core s) s

/-- The counter that an operation's format adds to (R397). -/
def mmaMeter : MmaFmt → Meter
  | .dx8 | .dx6 => .kdx8 | .dx4 => .kdx4 | _ => .kh16

/-- The groups with at least so many mismatches in one operation (R373). -/
def MmaOp.failed (m : MmaOp) (n : Nat) : List Nat := (List.range 4).filter fun q => decide (n ≤ (m.replays.filter (· == q)).length)

/-- Firmware fences a quarter: the core takes no placement until the next start, and its team is to be saved (R373,
R402). -/
def fenceQuarter (s : State) (core q team : Nat) : State :=
  let c := s.core core
  let t := s.team team
  let s := s.setCore core { c with
    fenced := if c.fenced.contains q then c.fenced else q :: c.fenced, corectl := c.corectl ||| 2 }
  if t.grid.isNone then s else s.setTeam team { t with due := some 0, forced := true, fencedOff := true }

/-- The clocks that an operation holds the arrays (R208, R368). -/
def computeClocks : MmaFmt → Nat
  | .dx8 | .dx6 => 64 | .dx4 => 32 | _ => 128

/-- CLK at which an operation's last slot write is due: a neighbour computes a group's rows after its own (R372, R373). -/
def computeEnd (m : MmaOp) : Nat :=
  m.startAt + computeClocks m.fmt * (1 + (m.failed 2).length)

/-- `MMA_REPLAY` (R373): a mismatch in a group's array. The first makes the operation fetch A again and start again; the
second leaves that group's rows to its neighbour. -/
def evReplay (core group : Nat) (s : State) : Option State :=
  match (s.core core).mmas with
  | m :: _ =>
    let n := (m.replays.filter (· == group)).length
    if !m.started || !decide (group < 4) || decide (3 ≤ n) then none
    else if n = 0 then some (setMma s core { m with
      replays := group :: m.replays, a := none, started := false, acceptAt := (s.core core).clk.toNat })
    else some (setMma s core { m with replays := group :: m.replays })
  | [] => none
/-- `MMA_REPLAY` (R373). -/
def execMmaReplay (core group : Nat) (s : State) : Host.Outcome State Fault Refusal := byEvent (evReplay core group s) s

/-- An operation in accumulate mode reads a word of its slot that is in error (R401). -/
def slotBad (c : Core) (m : MmaOp) : Bool := m.started && !m.fold && (find? c.acc m.slot).any fun a => !a.bad.isEmpty

/-- Why an operation must abort (R210, R270, R373, R401): the cause and the fault address. -/
def abortCause (s : State) (core : Nat) (m : MmaOp) : Option (Nat × Nat) :=
  if !(m.failed 3).isEmpty then some (0x0C, 0)
  else if slotBad (s.core core) m then some (0x0D, 0)
  else if m.a.isSome || (fetching (s.core core)).map (·.reg) ≠ some m.reg || fetchBlocked s core m then none
  else match tileKeys s core m with
    | .error (.miss va) =>
      match engineMiss s core m.team va m.faulted with
      | .stands => some (8, va)
      | _ => none
    | .error (.trap t) => some (8, t.addr)
    | .error _ => none
    | .ok _ => (poisonByte s (tileAccesses s core m)).map fun a => (0x0D, a)

/-- `MMA_COMPLETE` (R207, R372): the slot is written, if its team still has it, the lock and the stage go; 128 k-steps are
metered, and the quarters whose groups failed twice are fenced (R373). An operation that must abort does not complete. -/
def evMmaComplete (core : Nat) (s : State) : Option State :=
  match (s.core core).mmas with
  | m :: _ =>
    let c := s.core core
    if !m.started || decide (c.clk.toNat < computeEnd m) || (abortCause s core m).isSome then none
    else
      let c' := match find? c.acc m.slot with
        | some a => { c with acc := put c.acc m.slot { a with data := mmaSlot c m, bad := [] } }
        | none => c
      let s := meter (retireMma (s.setCore core c') core m) (core / 128) (s.partOf (s.team m.team)) (mmaMeter m.fmt) 128
      some ((m.failed 2).foldl (fun s q => fenceQuarter s core q m.team) s)
  | [] => none
/-- `MMA_COMPLETE` (R372). -/
def execMmaComplete (core : Nat) (s : State) : Host.Outcome State Fault Refusal := byEvent (evMmaComplete core s) s

/-- `MMA_ABORT` (R210): the slot keeps its contents, the tag stays bound, and each wave of the quartet holds an abort
mark. -/
def evMmaAbort (core stage cause addr : Nat) (s : State) : Option State :=
  match (s.core core).mmas.find? fun m => m.stage == stage with
  | none => none
  | some m =>
    if !m.bRead || abortCause s core m ≠ some (cause, addr) then none
    else
      let s := markAborts (retireMma s core m) core m
        { cause := cause, sub := if cause = 8 then 7 else 0, addr := if cause = 0x0C then 0 else addr }
      if cause = 0x0C then
        some ((m.failed 2).foldl (fun s q => fenceQuarter s core q m.team) s)
      else some s
/-- `MMA_ABORT` (R210). -/
def execMmaAbort (core stage cause addr : Nat) (s : State) : Host.Outcome State Fault Refusal :=
  byEvent (evMmaAbort core stage cause addr s) s

end Sys2Proof.Machine
end

