-- ==== Sys2Proof/Machine/Coherence.lean ====
section
/-!
DEFINITION. The messages of coherence (R266, R272, R280, R287, R318 to R340, R342): tokens inside a die, the arbiter of
persistent requests, the directory between dies, and a lost chip.
-/
namespace Sys2Proof.Machine

/-! ### Messages -/

/-- A message put in flight. -/
def send (s : State) (x : Msg) : State := { s with msgs := s.msgs ++ [x] }
/-- The state without the m-th message in flight. -/
def dropMsg (s : State) (m : Nat) : State := { s with msgs := s.msgs.eraseIdx m }
/-- Tokens of a line in flight on a die's mesh. -/
def inFlight (s : State) (die line : Nat) : Bool := s.msgs.any fun m => (m.tokens line).any fun x => x.1 == die
/-- The records that a responder sends of some words, one for each run of words that share a (TK, O) pair in its frame
(R326). -/
def sentRecords (frame out : List WordTok) : List Span :=
  (gather false 0 (frame.map fun t => { t with dirty := false })).flatMap fun r =>
    gather false r.f ((out.drop r.f).take r.n)
/-- Tokens sent to a core by another, or by the slice (none), out of the words of its frame, if there are any. -/
def sendTok (s : State) (die : Nat) (src : Option Nat) (core line : Nat) (frame out : List WordTok) : State :=
  let sp := sentRecords frame out
  if sp.isEmpty then s else send s (.tok die src (some core) line sp)

/-! ### Words of an L1 line (R321, R327) -/

/-- Two spans of words share one. -/
def spansMeet (f n g k : Nat) : Bool := decide (f < g + k) && decide (g < f + n)
/-- A word lies in a span. -/
def inSpan (f n w : Nat) : Bool := decide (f ≤ w) && decide (w < f + n)
/-- Some words taken out: those for which `out` holds, and the rest. -/
def takeOut (out : Nat → Bool) (ws : List WordTok) : List WordTok × List WordTok :=
  splitBy (fun w t => if out w then (t, noTok t.oc) else (noTok t.oc, t)) ws

/-- A core's records of a line after some words change: records keep their age, the oldest first, new ones last
(R321). -/
def reform (old : List Span) (ws : List WordTok) (fresh : Nat → Bool) : List Span :=
  let new := gather false 0 ws
  let age (r : Span) : Nat :=
    if (List.range r.n).any fun i => fresh (r.f + i) then old.length
    else (old.findIdx? (·.covers r.f)).getD old.length
  (List.range (old.length + 1)).flatMap fun a => new.filter fun r => age r == a

/-- The words of a line in a core replaced: marks on words left without a token are lost, and parks on them watch again
(R293, R341). -/
def setWords (s : State) (core line : Nat) (ws : List WordTok) (fresh : Nat → Bool) : State :=
  let c := s.core core
  let old := spread (c.line line)
  let gone (w : Nat) : Bool := decide (0 < (old.getD w (noTok 0)).tk) && decide ((ws.getD w (noTok 0)).tk = 0)
  let s := s.setCore core (loseLineMarks (c.setLine line (reform (c.line line) ws fresh)) line gone)
  if (List.range 32).any gone then rewatch s core line else s

/-- Tokens leave a core for its home slice in a notice (R327). -/
def notify (s : State) (core line : Nat) (out : List WordTok) : State :=
  let sp := gather false 0 out
  if sp.isEmpty then s else send s (.notice (dieOf core) core line sp)

/-- The words of a line that a core keeps for its active persistent request (R321, R328). -/
def keptWord (s : State) (core line w : Nat) : Bool :=
  (s.die (dieOf core)).arbiter.any fun p => p.active && p.core == core && p.line == line && inSpan p.f p.n w

/-- The oldest records without a word to keep leave until the frame holds at most two (R321). -/
def trimRecords (core line : Nat) (keep : Nat → Bool) : Nat → State → State
  | 0, s => s
  | k + 1, s =>
    let rs := (s.core core).line line
    if rs.length ≤ 2 then s
    else match rs.find? fun r => !((List.range r.n).any fun i => keep (r.f + i)) with
      | none => s
      | some r =>
        let (out, rest) := takeOut r.covers (spread rs)
        trimRecords core line keep k (notify (setWords s core line rest fun _ => false) core line out)

/-- Tokens leave a core: its words become `rest`, and where that splits records the frame keeps two (R321, log 47). -/
def leaveWords (s : State) (core line : Nat) (rest : List WordTok) : State :=
  let s := setWords s core line rest fun _ => false
  trimRecords core line (keptWord s core line) 32 s

/-- What a read's normalisation sends home of a word of its span (R321). -/
def normalPart (f n w : Nat) (t : WordTok) : WordTok × WordTok :=
  if inSpan f n w && decide (1 < t.tk) then
    ({ t with tk := t.tk - 1 }, { tk := 1, o := false, dirty := false, oc := 0 })
  else (noTok 0, t)

/-- A frame with more than two records normalises the words of a request's span, and then the oldest records outside it
leave (R321). -/
def normalise (s : State) (core line f n : Nat) (write : Bool) : State :=
  if ((s.core core).line line).length ≤ 2 then s
  else
    let s := if write then s
      else
        let (out, rest) := splitBy (normalPart f n) (spread ((s.core core).line line))
        notify (setWords s core line rest (inSpan f n)) core line out
    trimRecords core line (fun w => inSpan f n w || keptWord s core line w) 32 s

/-- A whole line leaves a core in a notice (R327). -/
def evictLine (s : State) (core line : Nat) : State :=
  notify (setWords s core line ((List.range 32).map fun _ => noTok 0) fun _ => false) core line (spread ((s.core core).line line))

/-- A region of the core gathers tokens of a line for its commit, in a wave that is to have them all (R295, R302). -/
def gathering (c : Core) (line : Nat) : Bool :=
  c.waves.any fun w => w.2.careful && w.2.sbuf.any fun e => e.keys.any fun k => lineOf k == line

/-- The L1 keeps 8 lines in a set of VA[13:7]; which one leaves is a free choice among those that no persistent request of the
core holds and that no cautious region gathers: one that writes more than 8 lines of a set commits all the same (R279, R303,
R328, logs 6 and 46). -/
def trimL1 (s : State) (core line : Nat) : State :=
  let c := s.core core
  let set (l : Nat) : Nat := ((find? c.l1 l).map (·.va)).getD l % 128
  let peers := (c.l1.filter fun e => e.1 != line && set e.1 == set line).map (·.1)
  let free := peers.filter fun l => !gathering c l &&
    !((s.die (dieOf core)).arbiter.any fun p => p.active && p.core == core && p.line == l)
  if peers.length < 8 || free.isEmpty then s
  else
    let (n, s) := s.draw
    evictLine s core (free.getD (Config.freeNat n % free.length) 0)

/-! ### A slice serves requests (R319, R322 to R326, R342) -/

/-- Two local requests are one: a failed request issued again has its number (R323, R328). -/
def LocalReq.same (a b : LocalReq) : Bool := a.core == b.core && a.num == b.num
/-- The request is still outstanding in its core. -/
def alive (s : State) (line : Nat) (r : LocalReq) : Bool :=
  (s.core r.core).reqs.any fun q => q.num == r.num && q.line == line && q.write == r.write

/-- An active persistent entry of another core over words of a line on a die (R328). -/
def setAside (s : State) (die core line f n : Nat) : Bool :=
  (s.die die).arbiter.any fun p => p.active && p.core != core && p.line == line && spansMeet p.f p.n f n
/-- An active persistent entry of this core over words of a line (R328). -/
def starved (s : State) (core line : Nat) (f n : Nat) : Bool :=
  (s.die (dieOf core)).arbiter.any fun p => p.active && p.core == core && p.line == line && spansMeet p.f p.n f n
/-- The words of a span of a line. -/
def spanWords (line f n : Nat) : List Nat := (List.range n).map fun i => 32 * line + f + i

/-- The die state lets a slice serve a request (R319). -/
def servable (st : Moesi) (r : LocalReq) : Bool :=
  if r.write then st == .m || st == .e else st != .i

/-- What a slice sends of a word for a read, and keeps (R324): it serves the words whose owner token it holds. In S and O
it keeps that token (R319). A starved core is sent every token (R328). -/
def readPart (owners all : Bool) (core f n w : Nat) (t : WordTok) : WordTok × WordTok :=
  let one : WordTok := { tk := 1, o := false, dirty := false, oc := 0 }
  if !(inSpan f n w) then (noTok 0, t)
  else if t.o && !owners then
    if t.tk ≤ 1 then (noTok 0, t)
    else if all then ({ one with tk := t.tk - 1 }, { t with tk := 1 })
    else (one, { t with tk := t.tk - 1 })
  else if all then (t, noTok (if t.o then core else t.oc))
  else if !t.o then (noTok 0, t)
  else if 2 ≤ t.tk then (one, { t with tk := t.tk - 1 })
  else (t, noTok core)

/-- What a slice sends of a word for a write, and keeps (R325). -/
def writePart (core f n w : Nat) (t : WordTok) : WordTok × WordTok :=
  if inSpan f n w && decide (0 < t.tk) then (t, noTok (if t.o then core else t.oc)) else (noTok 0, t)

/-- Maximal runs of the words f to f + n − 1 that go to one core: the core, first word, count (R324). -/
def forwardRuns (dest : Nat → Option Nat) (f : Nat) : Nat → List (Nat × Nat × Nat)
  | 0 => []
  | n + 1 =>
    let w := f + n
    let runs := forwardRuns dest f n
    match dest w with
    | none => runs
    | some k =>
      match runs with
      | (c, g, m) :: r => if c = k && g + m = w then (c, g, m + 1) :: r else (k, w, 1) :: runs
      | [] => [(k, w, 1)]

/-- The core numbered `k` within a die. -/
def coreOf (die k : Nat) : Nat := 128 * die + k % 128

/-- A core that can spare a token of a word that its slice owns alone (log 48). -/
def spareHolder (s : State) (die line w : Nat) : Option Nat :=
  ((s.frame die line).holders.find? fun h => decide (2 ≤ (tokensOf ((s.core h.1).line line) w).1)).map (·.1)

/-- The reverse map with a core's virtual line for the frame (R280). -/
def Frame.hold (fr : Frame) (r : LocalReq) : Frame :=
  { fr with holders := (fr.holders.filter fun h => h.1 != r.core) ++ [(r.core, r.va)] }

/-- A slice serves a read (R324). -/
def serveRead (s : State) (die line : Nat) (r : LocalReq) : State :=
  let fr := s.frame die line
  let owners := fr.st == .m || fr.st == .e
  let ws := spread fr.recs
  let (out, keep) := splitBy (readPart owners (starved s r.core line r.f r.n) (r.core % 128) r.f r.n) ws
  let dest (w : Nat) : Option Nat :=
    let t := ws.getD w (noTok 0)
    if !t.o then some (coreOf die t.oc)
    else if (out.getD w (noTok 0)).tk = 0 then spareHolder s die line w else none
  let s := sendTok (s.setFrame die line ((fr.withWords keep).hold r)) die none r.core line ws out
  (forwardRuns dest r.f r.n).foldl (fun s x =>
    if x.1 = r.core then s else send s (.fwd x.1 r.core line x.2.1 x.2.2 r.num false)) s

/-- A slice serves a write: every token it holds of the span, and the request to every holder of a word of it (R325). A
die in E passes to M (R330). -/
def serveWrite (s : State) (die line : Nat) (r : LocalReq) : State :=
  let fr := s.frame die line
  let ws := spread fr.recs
  let (out, keep) := splitBy (writePart (r.core % 128) r.f r.n) ws
  let hs := fr.holders.filter fun h => h.1 != r.core && ((s.core h.1).line line).any fun x => spansMeet x.f x.n r.f r.n
  let fr' := (fr.withWords keep).hold r
  let s := s.setFrame die line { fr' with
    st := if fr.st = .e then .m else fr.st
    serving := (fr.serving.filter fun x => !x.same r) ++ [r] }
  hs.foldl (fun s h => send s (.fwd h.1 r.core line r.f r.n r.num true)) (sendTok s die none r.core line ws out)

/-- The sectors that a request's words touch (R266). -/
def LocalReq.sectors (r : LocalReq) : BitVec 4 := sectorsOf (BitVec.ofNat 32 ((2 ^ r.n - 1) * 2 ^ r.f))

/-- A request served; sectors that the frame lacks are filled first (R266, log 49). -/
def serveOne (s : State) (die line : Nat) (r : LocalReq) : State :=
  let fr := s.frame die line
  let lack := r.sectors &&& ~~~fr.valid
  let s := if lack = 0 then s
    else
      let got := if ownDram (128 * line) then (granuleSectors (s.granule (128 * line)) lack).1 else 15
      llcFetch (s.setFrame die line { fr with valid := fr.valid ||| got }) line lack (partOfCtx s r.ctx)
  if r.write then serveWrite s die line r else serveRead s die line r

/-- The die's own request for what its held requests need (R342). -/
def askHome (s : State) (die line : Nat) : State :=
  let fr := s.frame die line
  match fr.waiting with
  | [] => s
  | r :: _ =>
    match fr.waiting.find? (·.write) with
    | some w =>
      send (s.setFrame die line { fr with asked := some .m }) (if fr.st = .i then .rdx die line w.ctx else .upg die line w.ctx)
    | none => send (s.setFrame die line { fr with asked := some .s }) (.rds die line r.ctx)

/-- A local request must wait before the slice may look at it: for a starved core, or for an engine (R209, R328). -/
def mustWait (s : State) (die line : Nat) (r : LocalReq) : Bool :=
  setAside s die r.core line r.f r.n || engineHolds s (some r.core) r.write (spanWords line r.f r.n)

/-- A request at its home slice (R319, R322, R328, R342). One that has ended, or that is there already, is dropped. During a
recall, while a starved core has its words or while a fetcher keeps a token that it needs (R209), it waits. While the die's own
request is outstanding it joins those that the request's grant will serve, or waits for its end. Else the slice serves it, or
asks the home. -/
def accept (die line : Nat) (s : State) (r : LocalReq) : State :=
  let fr := s.frame die line
  let part := partOfCtx s r.ctx
  if !alive s line r || (fr.waiting ++ fr.later).any r.same then s
  else if fr.recalled || mustWait s die line r then
    s.setFrame die line { fr with later := fr.later ++ [r] }
  else match fr.asked with
    | some a =>
      if a = .m || !r.write then s.setFrame die line { fr with waiting := fr.waiting ++ [r] }
      else s.setFrame die line { fr with later := fr.later ++ [r] }
    | none =>
      let fr := { fr with part := part }
      if servable fr.st r then serveOne (s.setFrame die line fr) die line r
      else askHome (s.setFrame die line { fr with waiting := [r] }) die line

/-- Requests that waited are taken up again, in arrival order, after some that the line had been serving (R322). Where the die
holds no copy, one request of the die stands for all of them (R342). -/
def resume (s : State) (die line : Nat) (first : List LocalReq) : State :=
  let fr := s.frame die line
  if fr.recalled then s.setFrame die line { fr with later := first ++ fr.later }
  else
    let (held, kept) := if fr.asked.isNone then (fr.waiting, []) else ([], fr.waiting)
    let rs := first ++ held ++ fr.later
    let (aside, ready) := (rs.filter (alive s line)).partition (mustWait s die line)
    if fr.st = .i && fr.asked.isNone && ready.any (·.write) then
      askHome (s.setFrame die line { fr with waiting := ready, later := aside }) die line
    else rs.foldl (accept die line) (s.setFrame die line { fr with waiting := kept, later := [] })

/-- A request reaches its home slice, after those that wait there. -/
def takeRequest (s : State) (r : LocalReq) (line : Nat) : State :=
  accept (dieOf r.core) line (resume s (dieOf r.core) line []) r

/-- A request message: the slice serves its core's request of that number, if it is still outstanding. -/
def localReq (s : State) (core line num : Nat) : Option LocalReq :=
  ((s.core core).reqs.find? fun q => q.num == num && q.line == line).map fun q =>
    { core := core, num := num, va := q.va, f := q.f, n := q.n, write := q.write, ctx := q.ctx }

/-- A GETS or GETX reaches its home slice. -/
def takeMsg (m core line num : Nat) (s : State) : State :=
  let s := dropMsg s m
  match localReq s core line num with
  | some r => takeRequest s r line
  | none => s

/-- `GETS` (R324). -/
def evGets (m : Nat) (s : State) : Option State :=
  match s.msgs[m]? with
  | some (.gets core line _ _ num _) => some (takeMsg m core line num s)
  | _ => none
/-- `GETS` (R324). -/
def execGets (m : Nat) (s : State) : Host.Outcome State Fault Refusal := byEvent (evGets m s) s

/-- `GETX` (R325). -/
def evGetx (m : Nat) (s : State) : Option State :=
  match s.msgs[m]? with
  | some (.getx core line _ _ num _) => some (takeMsg m core line num s)
  | _ => none
/-- `GETX` (R325). -/
def execGetx (m : Nat) (s : State) : Host.Outcome State Fault Refusal := byEvent (evGetx m s) s

/-! ### Tokens arrive (R321, R324 to R328) -/

/-- A request of a core has what it asked for (R324, R325). -/
def satisfied (c : Core) (r : TokenReq) : Bool :=
  (List.range r.n).all fun i => c.mayAccess r.write (128 * r.va + 4 * (r.f + i)) (128 * r.line + 4 * (r.f + i))

/-- Requests of a core on a line that are satisfied end, each with a DONE that carries the core's records. -/
def finishReqs (s : State) (core line : Nat) : State :=
  let c := s.core core
  let done := c.reqs.filter fun r => r.line == line && satisfied c r
  let s := s.setCore core { c with reqs := c.reqs.filter fun r => !(r.line == line && satisfied c r) }
  done.foldl (fun s r => send s (.done core line r.f r.n r.num ((s.core core).line line))) s

/-- The tokens of a word that a starved core lacks still (R328). -/
def lacks (s : State) (p : Persistent) (w : Nat) : Bool :=
  let tk := (tokensOf ((s.core p.core).line p.line) w).1
  inSpan p.f p.n w && (if p.write then decide (tk < 128) else decide (tk = 0))

/-- The core that a word's tokens go on to: the starved core of an active entry over it, but for the core `but` (R328). -/
def starvedFor (s : State) (die line : Nat) (but : Option Nat) (w : Nat) : Option Nat :=
  ((s.die die).arbiter.find? fun p => p.active && p.line == line && decide (some p.core ≠ but) && lacks s p w).map (·.core)

/-- Words sent on to the cores that `dest` names, and the words that stay. -/
def passOn (s : State) (die : Nat) (src : Option Nat) (line : Nat) (dest : Nat → Option Nat) (ws : List WordTok) :
    State × List WordTok :=
  let cores := ((List.range 32).filterMap fun w => if (ws.getD w (noTok 0)).tk = 0 then none else dest w).eraseDups
  cores.foldl (fun (x : State × List WordTok) k =>
    let (out, rest) := takeOut (fun w => dest w == some k) x.2
    (sendTok x.1 die src k line x.2 out, rest)) (s, ws)

/-- Tokens reach a slice (R327, R328): a starved core has them first, then a pending GETX that lacks them; under recall the
slice keeps them (R322). -/
def sliceTake (s : State) (die line : Nat) (sp : List Span) : State :=
  let fr := s.frame die line
  let pending (w : Nat) : Option Nat :=
    (fr.serving.find? fun r => inSpan r.f r.n w && alive s line r &&
      decide ((tokensOf ((s.core r.core).line line) w).1 < 128)).map (·.core)
  let dest (w : Nat) : Option Nat := (starvedFor s die line none w).orElse fun _ => pending w
  if fr.recalled then slicePut s die line sp
  else
    let (s, rest) := passOn s die none line dest (spread sp)
    slicePut s die line (gather false 0 rest)

/-- The leaf under which a request fills its line, if its address still maps there cacheably (R276, R279). -/
def fillLeaf (s : State) (core : Nat) (r : TokenReq) : Option Leaf :=
  (translate s core (partOfCtx s r.ctx) (128 * r.va)).filter fun l => l.pa / 128 == r.line && l.c

/-- Tokens that no request of the core awaits: they join a line that it holds, or go home in a notice. -/
def strayTok (s : State) (core line : Nat) (ws : List WordTok) : State :=
  if ((s.core core).line line).isEmpty then notify s core line ws
  else
    let s := setWords s core line (addWords (spread ((s.core core).line line)) ws) fun w => decide (0 < (ws.getD w (noTok 0)).tk)
    trimRecords core line (keptWord s core line) 32 s

/-- Tokens that a request awaits reach the core's L1 (R321, R326): a line held under another virtual address leaves first
(R280), one of a full set makes room, and a request that is satisfied ends. -/
def fillTok (s : State) (core : Nat) (r : TokenReq) (l : Leaf) (ws : List WordTok) : State :=
  let line := r.line
  let other := (find? (s.core core).l1 line).any fun e => e.va != r.va
  let s := if other then evictLine s core line else s
  let c := s.core core
  let tag : L1Line := { va := r.va, asid := tlbTag s (partOfCtx s r.ctx) (128 * r.va), w := l.w, sealed_ := l.sealed_,
                        spans := c.line line }
  let s := s.setCore core { c with l1 := put c.l1 line tag }
  let new := addWords (spread (c.line line)) ws
  let s := setWords s core line new fun w => decide (0 < (ws.getD w (noTok 0)).tk)
  let s := normalise (trimL1 s core line) core line r.f r.n r.write
  let s := finishReqs s core line
  trimRecords core line (fun w => inSpan r.f r.n w || keptWord s core line w) 32 s

/-- Tokens reach a core. A request whose address no longer maps the line is given up, and its tokens go home. -/
def coreTake (s : State) (core line : Nat) (ws : List WordTok) : State :=
  if (gather false 0 ws).isEmpty then s
  else
    let c := s.core core
    match c.reqs.find? fun r => r.line == line && (List.range r.n).any fun i => decide (0 < (ws.getD (r.f + i) (noTok 0)).tk) with
    | none => strayTok s core line ws
    | some r =>
      match fillLeaf s core r with
      | some l => fillTok s core r l ws
      | none => strayTok (s.setCore core { c with reqs := c.reqs.filter fun q => q.num != r.num }) core line ws

/-- `TOK` (R321, R326): tokens reach a requester, or a slice. Words that another core is starved of go on to it (R328). -/
def evTok (m : Nat) (s : State) : Option State :=
  match s.msgs[m]? with
  | some (.tok die _ none line sp) => some (sliceTake (dropMsg s m) die line sp)
  | some (.tok die _ (some core) line sp) =>
    let s := dropMsg s m
    let (s, rest) := passOn s die (some core) line (starvedFor s die line (some core)) (spread sp)
    some (coreTake s core line rest)
  | _ => none
/-- `TOK` (R326). -/
def execTok (m : Nat) (s : State) : Host.Outcome State Fault Refusal := byEvent (evTok m s) s

/-- `FWD` (R324, R325, R327): the holder answers with the tokens it holds at this moment. -/
def evFwd (m : Nat) (s : State) : Option State :=
  match s.msgs[m]? with
  | some (.fwd dest core line f n _ write) =>
    if setAside s (dieOf core) core line f n then none
    else
      let s := dropMsg s m
      let ws := spread ((s.core dest).line line)
      let (out, keep) := splitWords write f n ws
      if (gather false 0 out).isEmpty then some s
      else some (leaveWords (sendTok s (dieOf core) (some dest) core line ws out) dest line keep)
  | _ => none
/-- `FWD` (R324). -/
def execFwd (m : Nat) (s : State) : Host.Outcome State Fault Refusal := byEvent (evFwd m s) s

/-- The reverse map without the cores that hold nothing of the line and await nothing of it (R325, R337). -/
def liveHolders (s : State) (line : Nat) (fr : Frame) : Frame :=
  { fr with holders := fr.holders.filter fun h =>
      !((s.core h.1).line line).isEmpty || (s.core h.1).reqs.any fun r => r.line == line }

/-- The reverse map with a core under the virtual line that its L1 has, where it holds a record (R280, R325). -/
def enterHolder (s : State) (line core : Nat) (fr : Frame) : Frame :=
  match find? (s.core core).l1 line with
  | some e => { fr with holders := (fr.holders.filter fun h => h.1 != core) ++ [(core, e.va)] }
  | none => fr

/-- `DONE` (R325): the slice takes the requester as owner of the words of its span whose owner token the requester now holds,
and updates its records and its holders, the requester among them. -/
def evDone (m : Nat) (s : State) : Option State :=
  match s.msgs[m]? with
  | some (.done core line f n num sp) =>
    let s := dropMsg s m
    let die := dieOf core
    let fr := s.frame die line
    let ws := (spread fr.recs).zipIdx.map fun (t, w) =>
      if inSpan f n w && !t.o && (tokensOf sp w).2 then { t with oc := core % 128 } else t
    let fr := enterHolder s line core (liveHolders s line (fr.withWords ws))
    some (s.setFrame die line { fr with serving := fr.serving.filter fun r => !(r.core == core && r.num == num) })
  | _ => none
/-- `DONE` (R325). -/
def execDone (m : Nat) (s : State) : Host.Outcome State Fault Refusal := byEvent (evDone m s) s

/-- `NOTICE` (R327): tokens that a pending GETX lacks go on to its core; the rest enter the slice's records. -/
def evNotice (m : Nat) (s : State) : Option State :=
  match s.msgs[m]? with
  | some (.notice die _ line sp) =>
    let s := sliceTake (dropMsg s m) die line sp
    some (s.setFrame die line (liveHolders s line (s.frame die line)))
  | _ => none
/-- `NOTICE` (R327). -/
def execNotice (m : Nat) (s : State) : Host.Outcome State Fault Refusal := byEvent (evNotice m s) s

/-- The first RECALL of a line in flight on a die: its place and its core. -/
def recallMsg (s : State) (die line : Nat) : Option (Nat × Nat) :=
  (List.range s.msgs.length).findSome? fun m => match s.msgs[m]? with
    | some (Msg.recall core l) => if dieOf core = die && l = line then some (m, core) else none
    | _ => none

/-- The cores of a die that hold words of a line. -/
def holdersOf (s : State) (die line : Nat) : List Nat :=
  (s.cores.filter fun c => dieOf c.1 == die && !(c.2.line line).isEmpty).map (·.1)

/-- A RECALL reaches a core: it returns every token and dirty word of the line that it holds (R322, R327). -/
def returnLine (s : State) (core line : Nat) : State :=
  let sp := gather false 0 (spread ((s.core core).line line))
  let s := setWords s core line ((List.range 32).map fun _ => noTok 0) fun _ => false
  if sp.isEmpty then s else send s (.tok (dieOf core) (some core) none line sp)

/-- A die has every token of a line in its slice, with none in flight (R322). -/
def recallDone (s : State) (die line : Nat) : Bool :=
  (holdersOf s die line).isEmpty && !inFlight s die line && (recallMsg s die line).isNone

/-- The recall is over: the slice holds all 128 tokens of every word as one record, and requests held during it, and those it
cut short, are served (R322). -/
def endRecall (s : State) (die line : Nat) : State :=
  let fr := s.frame die line
  let s := recallLine s die line
  resume (s.setFrame die line { s.frame die line with recalled := false, serving := [] }) die line fr.serving

/-- `RECALL` (R322): a holder that the demand has reached answers it; else the slice demands the line's tokens of every holder;
or, with all of them back, the recall is over, but for a probe's, which that probe ends (R333). -/
def evRecall (die line : Nat) (s : State) : Option State :=
  match recallMsg s die line with
  | some (m, core) => some (returnLine (dropMsg s m) core line)
  | none =>
    let fr := s.frame die line
    if !fr.recalled then none
    else match holdersOf s die line with
      | [] => if fr.probed || inFlight s die line then none else some (endRecall s die line)
      | hs => some (hs.foldl (fun s h => send s (.recall h line)) s)
/-- `RECALL` (R322). -/
def execRecall (die line : Nat) (s : State) : Host.Outcome State Fault Refusal := byEvent (evRecall die line s) s

/-! ### Starvation (R328, R329) -/

/-- `TRANSIENT_REQUEST_FAILURE` (R328): 512 local cycles without satisfaction; issued again, but for the third time. A
persistent request that the arbiter has no place for, since it serves another of its core, is issued as a transient one,
too (log 50). -/
def evFailure (core line f n : Nat) (write : Bool) (s : State) : Option State :=
  let c := s.core core
  let hit (r : TokenReq) : Bool := r.line == line && r.f == f && r.n == n && r.write == write
  match c.reqs.find? hit with
  | none => none
  | some r =>
    let shut := (s.die (dieOf core)).arbiter.any fun p => p.core == core && (p.line != line || p.f != f)
    if (r.persistent && !shut) || decide (c.clk.toNat < r.at_ + 512) then none
    else
      let r' := { r with fails := r.fails + 1, at_ := c.clk.toNat, persistent := r.persistent || decide (3 ≤ r.fails + 1) }
      let s := s.setCore core { c with reqs := c.reqs.map fun x => if x.num == r.num then r' else x }
      if r'.persistent && !shut then some s
      else some (send s (if write then .getx core line f n r.num r.ctx else .gets core line f n r.num r.ctx))
/-- `TRANSIENT_REQUEST_FAILURE` (R328). -/
def execTransientRequestFailure (core line first words : Nat) (write : Bool) (s : State) :
    Host.Outcome State Fault Refusal := byEvent (evFailure core line first words write s) s

/-- `PREQ` (R302, R328): a request that has failed three times, or of a wave after 16 rollbacks, waits at the arbiter,
which holds one entry for each core. -/
def evPreq (core line f n : Nat) (write : Bool) (s : State) : Option State :=
  let die := dieOf core
  let d := s.die die
  let asks := (s.core core).reqs.any fun r => r.line == line && r.f == f && r.n == n && r.write == write && r.persistent
  if !asks || d.arbiter.any (fun p => p.core == core) then none
  else some (s.setDie die { d with arbiter := d.arbiter ++
    [{ core := core, line := line, f := f, n := n, write := write, active := false }] })
/-- `PREQ` (R328). -/
def execPreq (core line first words : Nat) (write : Bool) (s : State) : Host.Outcome State Fault Refusal :=
  byEvent (evPreq core line first words write s) s

/-- Two entries over words of one line (R328). -/
def Persistent.overlaps (a b : Persistent) : Bool := a.line == b.line && spansMeet a.f a.n b.f b.n

/-- The distance of a core after the one served last (R329). -/
def turnOf (d : Die) (core : Nat) : Nat := (core % 128 + 128 - (d.lastServed + 1) % 128) % 128

/-- The outstanding request behind an arbiter entry. -/
def Persistent.req (s : State) (p : Persistent) : Option TokenReq :=
  (s.core p.core).reqs.find? fun r => r.line == p.line && r.f == p.f && r.n == p.n && r.write == p.write && r.persistent

/-- Every L1 that holds words which a starved core lacks sends their tokens to it (R328). -/
def surrender (s : State) (die : Nat) (p : Persistent) : State :=
  let holders := (s.cores.filter fun c => dieOf c.1 == die && c.1 != p.core && !(c.2.line p.line).isEmpty).map (·.1)
  holders.foldl (fun s h =>
    let (out, keep) := takeOut (lacks s p) (spread ((s.core h).line p.line))
    if (gather false 0 out).isEmpty then s
    else leaveWords (sendTok s die (some h) p.core p.line (spread ((s.core h).line p.line)) out) h p.line keep) s

/-- `PACT` (R328, R329): the first waiting core in turn over these words; every holder sends its tokens of the span, and
the slice serves the request or asks for what the die lacks. A writer waits for a fetcher that reads the words (R209). -/
def evPact (die core : Nat) (s : State) : Option State :=
  let d := s.die die
  match d.arbiter.find? fun p => p.core == core with
  | none => none
  | some p =>
    if p.active || d.arbiter.any (fun q => q.active && q.overlaps p) ||
      d.arbiter.any (fun q => !q.active && q.overlaps p && decide (turnOf d q.core < turnOf d core)) ||
      engineHolds s (some core) p.write (spanWords p.line p.f p.n) then none
    else
      let s := s.setDie die { d with arbiter := d.arbiter.map fun q => if q.core == core then { q with active := true } else q }
      let s := surrender s die p
      some (match p.req s with
        | some r => takeRequest s { core := core, num := r.num, va := r.va, f := r.f, n := r.n, write := r.write, ctx := r.ctx } p.line
        | none => s)
/-- `PACT` (R328). -/
def execPact (die core : Nat) (s : State) : Host.Outcome State Fault Refusal := byEvent (evPact die core s) s

/-- An access of the core to words of a line has not performed, or its region has not committed: a mark on them stands
(R328). -/
def stillNeeds (c : Core) (p : Persistent) : Bool :=
  let hit (keys : List Nat) : Bool := keys.any fun k => lineOf k == p.line && inSpan p.f p.n (k % 128 / 4)
  (c.marks.any fun m => m.line == p.line && spansMeet m.f m.n p.f p.n) ||
  c.waves.any fun w => (w.2.sbuf.any fun e => hit e.keys) || w.2.pend.any fun q => match q.src with
    | .load _ acc | .block _ acc | .wait _ acc _ none _ => hit (acc.flatMap (·.keys))
    | _ => false

/-- `PDONE` (R328): the starved core has its tokens and its access has performed; requests set aside are served. -/
def evPdone (die core : Nat) (s : State) : Option State :=
  let d := s.die die
  match d.arbiter.find? fun p => p.core == core && p.active with
  | none => none
  | some p =>
    if (p.req s).isSome || stillNeeds (s.core core) p then none
    else some (resume (s.setDie die { d with
      arbiter := d.arbiter.filter fun q => !(q.core == core && q.active), lastServed := core % 128 }) die p.line [])
/-- `PDONE` (R328). -/
def execPdone (die core : Nat) (s : State) : Host.Outcome State Fault Refusal := byEvent (evPdone die core s) s

/-! ### Between dies (R330 to R335) -/

/-- The sharer vector of some dies. -/
def dieBit (d : Nat) : BitVec 8 := BitVec.twoPow 8 d
/-- The dies of a sharer vector. -/
def diesOf (v : BitVec 8) : List Nat := (List.range 8).filter v.getLsbD
/-- The dies that an entry lists (R330). -/
def Dir.listed (d : Dir) : List Nat :=
  match d.st with
  | .i => []
  | .s => diesOf d.sharers
  | .o => (d.owner :: diesOf d.sharers).eraseDups
  | _ => [d.owner]

/-- The sectors that a transfer for a die's held requests brings of a line (R266, R267). -/
def broughtSectors (s : State) (die line : Nat) : BitVec 4 :=
  let need := (s.frame die line).waiting.foldl (fun m r => m ||| r.sectors) 0
  if ownDram (128 * line) then (granuleSectors (s.granule (128 * line)) need).1 else 15

/-- Data from memory for a die (R332): through the LLC. -/
def memData (s : State) (die line : Nat) (grant : Moesi) (ctx : Option Nat) : State :=
  let got := broughtSectors s die line
  send (llcFetch s line got (partOfCtx s ctx)) (.data die line 0 grant got)

/-- The entry of a line as a request leaves it. -/
def useDir (s : State) (line : Nat) (d : Dir) : State :=
  { s.setDir line { d with used := s.nextSeq } with nextSeq := s.nextSeq + 1 }

/-- Probes to some dies. -/
def probes (s : State) (f : Nat → Msg) (ds : List Nat) : State := ds.foldl (fun s d => send s (f d)) s

/-- The home serves a request of a die: an eviction of the line that the die has under way is older, and will be discarded
(R334). -/
def newerRequest (s : State) (die line : Nat) : State :=
  let d := s.die die
  s.setDie die { d with noticeBuf := d.noticeBuf.map fun e => if e.line = line then { e with stale := true } else e }

/-- RdS from a die (R332). -/
def homeRds (s : State) (die line : Nat) (ctx : Option Nat) : State :=
  let d := s.dir line
  match d.st with
  | .i =>
    let s := logAppend s ctx line
    memData (useDir s line { d with st := .e, owner := die, busy := some ⟨die, [], .data, ctx⟩ }) die line .e ctx
  | .s =>
    memData (useDir s line { d with sharers := d.sharers ||| dieBit die, busy := some ⟨die, [], .data, ctx⟩ }) die line .s ctx
  | _ => send (useDir s line { d with busy := some ⟨die, [], .owner, ctx⟩ }) (.fwds d.owner die line)

/-- The entry of a line that a die will hold in M, while the home waits for some Acks. -/
def Dir.toM (d : Dir) (die : Nat) (acks : List Nat) (after : After) (ctx : Option Nat) : Dir :=
  { d with st := .m, owner := die, sharers := 0, busy := some ⟨die, acks, after, ctx⟩ }

/-- RdX from a die, or an Upg from a die that the entry does not list (R332). -/
def homeRdx (s : State) (die line : Nat) (ctx : Option Nat) : State :=
  let s := logAppend s ctx line
  let d := s.dir line
  match d.st with
  | .i => memData (useDir s line (d.toM die [] .data ctx)) die line .m ctx
  | .s =>
    let ds := diesOf d.sharers
    probes (useDir s line (d.toM die ds .data ctx)) (fun x => .inv x line) ds
  | .o =>
    let ds := (diesOf d.sharers).filter (· ≠ d.owner)
    probes (send (useDir s line (d.toM die ds .owner ctx)) (.fwdx d.owner die line)) (fun x => .inv x line) ds
  | _ => send (useDir s line (d.toM die [] .owner ctx)) (.fwdx d.owner die line)

/-- An Upg from a sharer, or from the owner: Inv to the other sharers, then the Ack (R332). -/
def upgradeBy (s : State) (die line : Nat) (d : Dir) (others : List Nat) (ctx : Option Nat) : State :=
  let s := probes (useDir (logAppend s ctx line) line (d.toM die others .ack ctx)) (fun x => .inv x line) others
  if others.isEmpty then send s (.ack die line false false 0) else s

/-- Upg from a die (R332). -/
def homeUpg (s : State) (die line : Nat) (ctx : Option Nat) : State :=
  let d := s.dir line
  let others := (diesOf d.sharers).filter (· ≠ die)
  match d.st with
  | .s => if d.sharers.getLsbD die then upgradeBy s die line d others ctx else homeRdx s die line ctx
  | .o =>
    if d.owner = die then upgradeBy s die line d others ctx
    else if d.sharers.getLsbD die then
      let ds := others.filter (· ≠ d.owner)
      probes (send (useDir (logAppend s ctx line) line (d.toM die ds .owner ctx)) (.fwdx d.owner die line))
        (fun x => .inv x line) ds
    else homeRdx s die line ctx
  | _ => homeRdx s die line ctx

/-- With the last copy of a line on the device, the host's grant of it ends (R287). -/
def dropGrant (s : State) (line : Nat) : State :=
  if (s.dir line).st = .i then { s with hostGrants := del s.hostGrants line } else s

/-- An eviction that reaches the home (R332, R334): from an unlisted die, or from one that is listed for a newer request,
its data is discarded; dirty words of an owner go to the LLC; then the Ack. -/
def homeEvict (s : State) (die line : Nat) (mask : BitVec 32) : State :=
  let d := s.dir line
  let old := (s.die die).noticeBuf.any fun e => e.line == line && e.stale
  let s :=
    if old || !d.listed.contains die then s
    else
      let s := if d.st != .s && d.owner = die then llcWrite s line mask (s.frame die line).part else s
      let left := (diesOf d.sharers).filter (· ≠ die)
      let v := left.foldl (fun v x => v ||| dieBit x) (0 : BitVec 8)
      if d.st = .o && d.owner ≠ die then useDir s line { d with sharers := v }
      else dropGrant (useDir s line { d with st := if left.isEmpty then .i else .s, sharers := v }) line
  send s (.ack die line false true 0)

/-- The home serves one message about a line. -/
def homeServe (s : State) (x : Msg) : State :=
  match x with
  | .rds die line ctx => newerRequest (homeRds s die line ctx) die line
  | .rdx die line ctx => newerRequest (homeRdx s die line ctx) die line
  | .upg die line ctx => newerRequest (homeUpg s die line ctx) die line
  | .evs die line => homeEvict s die line 0
  | .eve die line => homeEvict s die line 0
  | .wbm die line mask => homeEvict s die line mask
  | .wbo die line mask => homeEvict s die line mask
  | _ => s

/-- The home's next queued request of a line, once it is free (R333). -/
def homeNext (s : State) (line : Nat) : Nat → State
  | 0 => s
  | n + 1 =>
    let d := s.dir line
    match d.busy, d.queue with
    | none, x :: r => homeNext (homeServe (s.setDir line { d with queue := r }) x) line n
    | _, _ => s

/-- The request that a home serves for a line is complete: its entry is free, and the next in the queue is served. -/
def homeFree (s : State) (line : Nat) : State := homeNext (s.setDir line { s.dir line with busy := none }) line 33

/-- Two lines have one home slice, on one home die. -/
def sameSlice (s : State) (a b : Nat) : Bool := homeDie a == homeDie b && sliceAt s (homeDie a) a == sliceAt s (homeDie b) b

/-- Entries of a line's directory set that are in use, oldest first. -/
def dirPeers (s : State) (line : Nat) : List (Nat × Dir) :=
  s.dirs.filter fun e => sameSlice s e.1 line && dirSet e.1 == dirSet line && e.1 != line && e.2.st != .i

/-- The requests that wait in the line queue of a line's home slice (R333). -/
def sliceQueue (s : State) (line : Nat) : Nat :=
  (s.dirs.filter fun e => sameSlice s e.1 line).foldl (fun n e => n + e.2.queue.length) 0

/-- The least recently used entry of a full set (R330). -/
def dirVictim (s : State) (line : Nat) : Option (Nat × Dir) :=
  let ps := dirPeers s line
  if ps.length < 16 then none
  else (ps.filter fun e => e.2.busy.isNone).foldl (fun b e =>
    match b with
    | none => some e
    | some x => if e.2.used < x.2.used then some e else b) none

/-- A capacity eviction of a directory entry begins: BInv to every listed die (R332, R335). -/
def evictDir (s : State) (line : Nat) (d : Dir) : State :=
  probes (s.setDir line { d with busy := some ⟨8, d.listed, .free, none⟩ }) (fun x => .binv x line) d.listed

/-- A message of a die reaches a line's home (R333): it waits in the slice's queue of 32 while the entry is busy; one that
needs a new entry in a full set waits for a capacity eviction. -/
def homeMsg (m : Nat) (line : Nat) (x : Msg) (s : State) : Option State :=
  let d := s.dir line
  if d.busy.isSome then
    if 32 ≤ sliceQueue s line then none else some ((dropMsg s m).setDir line { d with queue := d.queue ++ [x] })
  else
    let fresh := d.st == .i && (match x with
      | .rds .. | .rdx .. | .upg .. => true
      | _ => false)
    if fresh && decide (16 ≤ (dirPeers s line).length) then
      match dirVictim s line with
      | some (l, v) => if (dirPeers s line).any (fun e => e.2.busy.any fun b => b.after == .free) then none else some (evictDir s l v)
      | none => none
    else some (homeServe (dropMsg s m) x)

/-- `RDS` (R332). -/
def evRds (m : Nat) (s : State) : Option State :=
  match s.msgs[m]? with
  | some (.rds die line ctx) => homeMsg m line (.rds die line ctx) s
  | _ => none
/-- `RDS` (R332). -/
def execRds (m : Nat) (s : State) : Host.Outcome State Fault Refusal := byEvent (evRds m s) s
/-- `RDX` (R332). -/
def evRdx (m : Nat) (s : State) : Option State :=
  match s.msgs[m]? with
  | some (.rdx die line ctx) => homeMsg m line (.rdx die line ctx) s
  | _ => none
/-- `RDX` (R332). -/
def execRdx (m : Nat) (s : State) : Host.Outcome State Fault Refusal := byEvent (evRdx m s) s
/-- `UPG` (R332). -/
def evUpg (m : Nat) (s : State) : Option State :=
  match s.msgs[m]? with
  | some (.upg die line ctx) => homeMsg m line (.upg die line ctx) s
  | _ => none
/-- `UPG` (R332). -/
def execUpg (m : Nat) (s : State) : Host.Outcome State Fault Refusal := byEvent (evUpg m s) s
/-- `EVS` (R332). -/
def evEvs (m : Nat) (s : State) : Option State :=
  match s.msgs[m]? with
  | some (.evs die line) => homeMsg m line (.evs die line) s
  | _ => none
/-- `EVS` (R332). -/
def execEvs (m : Nat) (s : State) : Host.Outcome State Fault Refusal := byEvent (evEvs m s) s
/-- `EVE` (R332). -/
def evEve (m : Nat) (s : State) : Option State :=
  match s.msgs[m]? with
  | some (.eve die line) => homeMsg m line (.eve die line) s
  | _ => none
/-- `EVE` (R332). -/
def execEve (m : Nat) (s : State) : Host.Outcome State Fault Refusal := byEvent (evEve m s) s
/-- `WBM` (R332). -/
def evWbm (m : Nat) (s : State) : Option State :=
  match s.msgs[m]? with
  | some (.wbm die line mask) => homeMsg m line (.wbm die line mask) s
  | _ => none
/-- `WBM` (R332). -/
def execWbm (m : Nat) (s : State) : Host.Outcome State Fault Refusal := byEvent (evWbm m s) s
/-- `WBO` (R332). -/
def evWbo (m : Nat) (s : State) : Option State :=
  match s.msgs[m]? with
  | some (.wbo die line mask) => homeMsg m line (.wbo die line mask) s
  | _ => none
/-- `WBO` (R332). -/
def execWbo (m : Nat) (s : State) : Host.Outcome State Fault Refusal := byEvent (evWbo m s) s

/-- The owner tokens and dirty words of a line that a die's L1s hold go back to its slice (R319). -/
def takeOwners (s : State) (die line : Nat) : State :=
  let hs := (s.cores.filter fun c => dieOf c.1 == die && (c.2.line line).any (·.o)).map (·.1)
  hs.foldl (fun s h =>
    let (out, keep) := splitBy (fun _ t =>
      if t.o then ({ t with tk := 1 }, { t with tk := t.tk - 1, o := false, dirty := false }) else (noTok 0, t))
      (spread ((s.core h).line line))
    leaveWords (slicePut s die line (gather false 0 out)) h line keep) s

/-- What a die answers a probe with: the dirty words and the sectors of its frame, or, where it has evicted the line, what
its notice buffer holds (R334). -/
def dieCopy (s : State) (die line : Nat) : BitVec 32 × BitVec 4 × Bool :=
  let fr := s.frame die line
  if fr.st ≠ .i then (fr.dm ||| dirtyOf fr.recs, fr.valid, true)
  else match (s.die die).noticeBuf.find? fun e => e.line == line with
    | some e => (e.mask, e.valid, false)
    | none => (0, 15, false)

/-- A die gives up its copy of a line (R334): its own pending request stays, and the requests that the slice was serving
are taken up again. -/
def giveUp (s : State) (die line : Nat) : State :=
  let fr := s.frame die line
  let empty := { fr with
    st := .i, recs := [], holders := [], serving := [], dm := 0, valid := 0, recalled := false, probed := false }
  resume (s.setFrame die line empty) die line fr.serving

/-- `FWDS` (R319, R332, R333): the owner takes back owner tokens and dirty words, keeps its copy and supplies the
requester; the entry becomes S or O. An owner that asks for the line it is evicting answers for its dirty words still
(log 51). -/
def evFwds (m : Nat) (s : State) : Option State :=
  match s.msgs[m]? with
  | some (.fwds owner die line) =>
    if inFlight s owner line then none
    else
      let s := takeOwners (dropMsg s m) owner line
      let (mask, got, here) := dieCopy s owner line
      let fr := s.frame owner line
      let s := if here then s.setFrame owner line { fr with st := if mask = 0 then .s else .o, dm := mask } else s
      let d := s.dir line
      let s := s.setDir line (
        if mask = 0 && d.st ≠ .o then { d with st := .s, sharers := dieBit owner ||| dieBit die }
        else { d with st := .o, sharers := (if d.st = .o then d.sharers else 0) ||| dieBit die })
      some (send s (.data die line mask (if owner = die && mask ≠ 0 then .o else .s) got))
  | _ => none
/-- `FWDS` (R333). -/
def execFwds (m : Nat) (s : State) : Host.Outcome State Fault Refusal := byEvent (evFwds m s) s

/-- A die recalls a line for a probe, if it holds it (R322, R333). -/
def recallHere (s : State) (die line : Nat) : State :=
  if (s.frame die line).st = .i then s else recallLine s die line

/-- What a probe that takes a die's copy does: `k` once the line is recalled; else the recall begins, or is waited for (R333).
-/
def afterRecall (s : State) (die line : Nat) (k : Option State) : Option State :=
  let fr := s.frame die line
  if fr.st = .i && !inFlight s die line || recallDone s die line then k
  else if fr.probed then none
  else some (s.setFrame die line { fr with recalled := true, probed := true })

/-- `FWDX` (R333): the owner recalls the line, supplies the requester and gives up its copy. -/
def evFwdx (m : Nat) (s : State) : Option State :=
  match s.msgs[m]? with
  | some (.fwdx owner die line) =>
    afterRecall s owner line (
      let s := recallHere (dropMsg s m) owner line
      let (mask, got, here) := dieCopy s owner line
      some (send (if here then giveUp s owner line else s) (.data die line mask .m got)))
  | _ => none
/-- `FWDX` (R333). -/
def execFwdx (m : Nat) (s : State) : Host.Outcome State Fault Refusal := byEvent (evFwdx m s) s

/-- `INV` (R333): a sharer recalls the line and gives up its copy. -/
def evInv (m : Nat) (s : State) : Option State :=
  match s.msgs[m]? with
  | some (.inv die line) =>
    afterRecall s die line (
      let s := dropMsg s m
      let s := if (s.frame die line).st = .i then s else giveUp (recallLine s die line) die line
      some (send s (.ack die line true false 0)))
  | _ => none
/-- `INV` (R333). -/
def execInv (m : Nat) (s : State) : Host.Outcome State Fault Refusal := byEvent (evInv m s) s

/-- `BINV` (R335): a die gives up the line and writes its dirty words back. -/
def evBinv (m : Nat) (s : State) : Option State :=
  match s.msgs[m]? with
  | some (.binv die line) =>
    afterRecall s die line (
      let s := recallHere (dropMsg s m) die line
      let (mask, _, here) := dieCopy s die line
      some (send (if here then giveUp s die line else s) (.ack die line true false mask)))
  | _ => none
/-- `BINV` (R335). -/
def execBinv (m : Nat) (s : State) : Host.Outcome State Fault Refusal := byEvent (evBinv m s) s

/-! ### Frames of an L2 set (R281, R332, R334) -/

/-- The lines of a die's slice in the set of a line. -/
def setPeers (s : State) (die line : Nat) : List Nat :=
  (s.frames.filter fun e => e.1 % 8 == die && e.1 / 8 != line && e.2.st != .i &&
    sliceAt s die (e.1 / 8) == sliceAt s die line && colourOf (e.1 / 8) == colourOf line).map (·.1 / 8)

/-- A frame can leave its slice: nothing of the line is under way on the die. -/
def frameIdle (s : State) (die line : Nat) : Bool :=
  let fr := s.frame die line
  !inFlight s die line && fr.asked.isNone && fr.serving.isEmpty && fr.waiting.isEmpty && fr.later.isEmpty && !fr.recalled &&
  !((s.die die).arbiter.any fun p => p.active && p.line == line)

/-- A die evicts a line: it recalls it, keeps it in the notice buffer and tells the home (R332, R334). None while the line
is in use, the buffer is full, or an earlier eviction of the line has no Ack yet (log 52). -/
def evictFrame (s : State) (die line : Nat) : Option State :=
  let buf := (s.die die).noticeBuf
  if !frameIdle s die line || decide (16 ≤ buf.length) || buf.any (fun e => e.line == line) then none
  else
    let s := recallLine s die line
    let fr := s.frame die line
    let s := giveUp s die line
    let d := s.die die
    let n : Notice := { line := line, st := fr.st, mask := fr.dm, valid := fr.valid, stale := false }
    let s := s.setDie die { d with noticeBuf := d.noticeBuf ++ [n] }
    some (send s (match fr.st with
      | .m => .wbm die line fr.dm
      | .o => .wbo die line fr.dm
      | .e => if fr.dm = 0 then .eve die line else .wbm die line fr.dm
      | _ => .evs die line))

/-- The first of some lines, from a place on, that can leave. -/
def evictOne (s : State) (die : Nat) (ls : List Nat) (k : Nat) : Option State :=
  (List.range ls.length).findSome? fun i => evictFrame s die (ls.getD ((k + i) % ls.length) 0)

/-- Room for a line in its set, which keeps its ways, less those of the die pad; which line leaves is a free choice among those
that can (R281, log 6). None while none can. -/
def makeRoom (s : State) (die line : Nat) : Option State :=
  let ps := setPeers s die line
  if ps.length < 16 - (s.die die).padWays then some s
  else
    let (n, s) := s.draw
    evictOne s die ps (Config.freeNat n)

/-- A line that the device caches only once the host has granted it by CXL.cache: host memory, and device DRAM in host bias
(R287). -/
def hostGrants (s : State) (line : Nat) : Bool :=
  let pa := 128 * line
  decide (2 ^ 51 ≤ pa) || (ownDram pa && !s.devBias pa)

/-- The host has granted the device a line, for ownership where that is asked (R287). -/
def granted (s : State) (line : Nat) (own : Bool) : Bool := (find? s.hostGrants line).any fun g => g.given && (g.own || !own)

/-- A line that the host grants, still without its grant: the device asks by CXL.cache; what it has asked for comes at any later
moment, while the link is in CXL mode (R287, log 91). -/
def askHost (s : State) (line : Nat) (own : Bool) : Option State :=
  if !s.device.cxl then none
  else
    let g := (find? s.hostGrants line).getD { own := false, given := false }
    let asked := (find? s.hostGrants line).isSome && !g.given && (g.own || !own)
    some { s with hostGrants := put s.hostGrants line { own := own || g.own, given := asked } }

/-- What a message that gives a die a line, or the right to write it, does once the host has granted it to the device (R287). -/
def whenGranted (s : State) (line : Nat) (own : Bool) (k : Option State) : Option State :=
  if hostGrants s line && !granted s line own then askHost s line own else k

/-- A line installed in a die's frame from Data, and the requests that waited for it. -/
def install (s : State) (die line : Nat) (mask : BitVec 32) (grant : Moesi) (got : BitVec 4) : State :=
  let fr := s.frame die line
  let keeps := grant = .m || grant = .o
  let dm : BitVec 32 := if keeps then mask ||| fr.dm else 0
  let recs : List Span := if fr.st = .i then [{ f := 0, n := 32, tk := 128, o := true, dm := dm, oc := 0 }] else fr.recs
  resume (s.setFrame die line { fr with
    st := grant, recs := recs, dm := dm, asked := none, valid := if fr.st = .i then got else fr.valid ||| got }) die line []

/-- `DATA` (R287, R331, R342): a die installs the line with its mask and state once every probe of its request is answered
and, where the host grants the line, it has; its held requests are served in order, and the home goes on. -/
def evData (m : Nat) (s : State) : Option State :=
  match s.msgs[m]? with
  | some (.data die line mask grant got) =>
    match (s.dir line).busy with
    | some b =>
      if b.die ≠ die || !b.acks.isEmpty then none
      else whenGranted s line (grant ≠ .s) (match makeRoom s die line with
        | some s => some (homeFree (install (dropMsg s m) die line mask grant got) line)
        | none => none)
    | none => none
  | _ => none
/-- `DATA` (R331). -/
def execData (m : Nat) (s : State) : Host.Outcome State Fault Refusal := byEvent (evData m s) s

/-- The home has every acknowledgement of the request it serves (R332). -/
def homeAcked (s : State) (line : Nat) (b : Busy) : State :=
  match b.after with
  | .data => memData s b.die line .m b.ctx
  | .ack => send s (.ack b.die line false false 0)
  | .owner => s
  | .free => homeFree (dropGrant (s.setDir line { s.dir line with st := .i, sharers := 0 }) line) line

/-- `ACK` (R331): a probed die's acknowledgement reaches the home, with the dirty words of a back-invalidation; or a die
hears the end of its Upg or of its eviction. -/
def evAck (m : Nat) (s : State) : Option State :=
  match s.msgs[m]? with
  | some (.ack die line true _ mask) =>
    let s := llcWrite (dropMsg s m) line mask (s.frame die line).part
    let d := s.dir line
    match d.busy with
    | none => some s
    | some b =>
      let b := { b with acks := b.acks.filter (· ≠ die) }
      let s := s.setDir line { d with busy := some b }
      some (if b.acks.isEmpty then homeAcked s line b else s)
  | some (.ack die line false true _) =>
    let s := dropMsg s m
    let d := s.die die
    some (s.setDie die { d with noticeBuf := d.noticeBuf.filter fun e => e.line != line })
  | some (.ack die line false false _) =>
    whenGranted s line true (
      let s := dropMsg s m
      let fr := s.frame die line
      some (homeFree (resume (s.setFrame die line { fr with st := .m, asked := none }) die line []) line))
  | _ => none
/-- `ACK` (R331). -/
def execAck (m : Nat) (s : State) : Host.Outcome State Fault Refusal := byEvent (evAck m s) s

/-! ### A lost chip (R336, R338) -/

/-- What the loss of a chip does to a directory entry (R338). An entry that the lost chip owns goes to I; its lines in M or O
are lost.
Where the entry lists no other chip of the group, its group bit goes: a sole owner's, and once the group's four chips are
lost (log 53). -/
def chipGone (chip : Nat) (lost : List Nat) (d : Dir) : Dir :=
  let group := chip / 4
  let owned := decide (d.ownerChip = some chip)
  let alone := owned && (d.st == .m || d.st == .e)
  let empty := alone || (List.range 4).all fun i => lost.contains (4 * group + i)
  { d with
    st := if owned then .i else d.st
    ownerChip := if owned then none else d.ownerChip
    groups := if empty then d.groups &&& ~~~(BitVec.twoPow 16 group) else d.groups }

/-- `CHIP_LOSS` (R338): lines that the lost chip owns in M or O become poison. -/
def evChipLoss (chip : Nat) (s : State) : Option State :=
  if Config.domain ≤ chip || decide (chip = Config.deviceNumber) || s.device.lostChips.contains chip then none
  else
    let lost := chip :: s.device.lostChips
    let s := { s with device := { s.device with lostChips := lost } }
    some (s.dirs.foldl (fun s e =>
      let d := s.dir e.1
      let s := if d.ownerChip = some chip && (d.st == .m || d.st == .o) then addPoison s (keysFrom (128 * e.1) 128) else s
      s.setDir e.1 (chipGone chip lost d)) s)
/-- `CHIP_LOSS` (R338). -/
def execChipLoss (chip : Nat) (s : State) : Host.Outcome State Fault Refusal := byEvent (evChipLoss chip s) s

end Sys2Proof.Machine
end

