-- ==== Sys2Proof/Machine/HostMemory.lean ====
section
/-!
DEFINITION. Shootdowns and address-translation invalidations, and the host's accesses to the device's memory (R277, R278,
R287, R344, R346, R383, R384, R392, R393).
-/
namespace Sys2Proof.Machine

/-! ### Shootdown (R278) -/

/-- A TLB entry of a page range under a tag. -/
def TlbEntry.hit (t : TlbEntry) (va bytes : Nat) (tag : Option Nat) : Bool :=
  decide (t.base < va + bytes) && decide (va < t.base + t.size) && t.asid == tag

/-- A load that is not speculative and has not performed uses the range on a core: the shootdown waits for it. -/
def rangeInUse (s : State) (core va bytes : Nat) (tag : Option Nat) : Bool :=
  (s.core core).waves.any fun w => w.2.pend.any fun p =>
    let hit (acc : List Access) : Bool := acc.any fun x =>
      decide (va ≤ x.va) && decide (x.va < va + bytes) && tlbTag s (s.partOf (s.team w.2.team)) x.va == tag
    !p.spec && (match p.src with
      | .load _ acc | .block _ acc | .wait _ acc _ none _ => hit acc
      | _ => false)

/-- The waves of a core with a speculative load or mark in the range roll back (R278 step 3). -/
def loseRange (c : Core) (va bytes : Nat) : Core :=
  { c with waves := mapVals (fun _ w =>
      if w.pend.any fun p => p.spec && (match p.src with
        | .load _ acc | .block _ acc | .wait _ acc _ _ _ => acc.any fun x => decide (va ≤ x.va) && decide (x.va < va + bytes)
        | _ => false)
      then w.lose else w) c.waves }

/-- One core's part of a shootdown: its TLB drops the entries, its L1 the lines tagged with their addresses (R278). -/
def shootCore (s : State) (core va bytes : Nat) (tag : Option Nat) : State :=
  let c := s.core core
  let lines := (c.l1.filter fun e => decide (va ≤ 128 * e.2.va) && decide (128 * e.2.va < va + bytes) && e.2.asid == tag).map (·.1)
  let s := s.setCore core (loseRange { c with tlb := c.tlb.filter fun t => !t.hit va bytes tag } va bytes)
  lines.foldl (fun s l => evictLine s core l) s

/-- A shootdown of a range on every core and in every die TLB (R278); none while a load that must perform first uses
it. -/
def shootPages (s : State) (va bytes : Nat) (tag : Option Nat) : Option State :=
  if s.cores.any fun c => rangeInUse s c.1 va bytes tag then none
  else
    let drop (_ : Nat) (d : Die) : Die := { d with tlb := d.tlb.filter fun t => !t.hit va bytes tag }
    some (s.cores.foldl (fun s c => shootCore s c.1 va bytes tag) { s with dies := mapVals drop s.dies })

/-- `SHOOTDOWN` of the pages of a range, under an ASID, or under none in the global window (R278). -/
def evShootdown (va bytes asid : Nat) (s : State) : Option State :=
  let lo := va / 65536 * 65536
  let hi := (va + bytes + 65535) / 65536 * 65536
  shootPages s lo (hi - lo) (if va < Win.host.first then none else some asid)
/-- `SHOOTDOWN` (R278). -/
def execShootdown (va bytes asid : Nat) (s : State) : Host.Outcome State Fault Refusal :=
  byEvent (evShootdown va bytes asid s) s

/-! ### Invalidations from the host (R277, R392, R393) -/

/-- ASID table entry i of a partition as the host wrote it: V, root, PASID (R392). -/
def asidEntry (s : State) (part i : Nat) : Bool × Nat × Nat :=
  let lo := controlRead s part (0x5000 + 16 * i) 8
  let pasid := controlRead s part (0x5008 + 16 * i) 4
  (decide (bitsOf lo 0 0 = 1), bitsOf lo 51 12 * 4096, bitsOf pasid 19 0)

/-- The indexes whose entry, in use or as written, has a PASID (R393). -/
def pasidIndexes (s : State) (part pasid : Nat) : List Nat :=
  (List.range (s.part part).asidCount).filter fun i =>
    ((find? (s.part part).asids i).map (·.2)) == some pasid ||
    (let e := asidEntry s part i; e.1 && e.2.2 == pasid)

/-- `ATS_INVALIDATION` (R393): the range is shot down under each ASID of the PASID; after one of every address, which the
host-unified window gives, the new entries are used (R392). -/
def evAts (part pasid va bytes : Nat) (s : State) : Option State :=
  if !(s.part part).created then none
  else
    let lo := va / 65536 * 65536
    let hi := (va + bytes + 65535) / 65536 * 65536
    let every := decide (lo ≤ Win.host.first) && decide (Win.host.last < hi)
    (pasidIndexes s part pasid).foldl (fun (r : Option State) i =>
      match r with
      | none => none
      | some s =>
        match shootPages s lo (hi - lo) (some ((s.part part).asidBase + i)) with
        | none => none
        | some s =>
          let (v, root, pid) := asidEntry s part i
          let p := s.part part
          some (if !every then s else s.setPart part { p with asids := if v then put p.asids i (root, pid) else del p.asids i })) (some s)
/-- `ATS_INVALIDATION` (R393). -/
def execAtsInvalidation (part pasid va bytes : Nat) (s : State) : Host.Outcome State Fault Refusal :=
  byEvent (evAts part pasid va bytes s) s

/-! ### The host's accesses (R287, R314, R344, R383, R384) -/

/-- Every copy of a line on the device is taken back, dirty words to memory, and the entry freed (R287, R335); none while
its home, its tokens or an eviction of it are under way. -/
def recallEverywhere (s : State) (line : Nat) : Option State :=
  if (s.dir line).busy.isSome || tokensInFlight s line || (s.dies.any fun d => d.2.noticeBuf.any fun e => e.line == line) then none
  else
    let s := (List.range 8).foldl (fun s d =>
      if (s.frame d line).st = .i then s
      else
        let s := recallLine s d line
        giveUp (llcWrite s line (s.frame d line).dm (s.frame d line).part) d line) s
    some { s.setDir line { s.dir line with st := .i, sharers := 0 } with hostGrants := del s.hostGrants line }

/-- Some die holds a line. -/
def lineHeld (s : State) (line : Nat) : Bool := (List.range 8).any fun d => (s.frame d line).st != .i

/-- Slots of the launch window whose slot byte a write of n bytes at an offset leaves nonzero (R344, R346). -/
def slotsWritten (s : State) (part off n : Nat) : List Nat :=
  (List.range 64).filter fun i =>
    decide (off ≤ 128 * i + 127) && decide (128 * i + 127 < off + n) &&
    decide (controlRead s part (128 * i + 127) 1 ≠ 0) && !(s.part part).slotsSeen.contains i

/-- The dispatcher sees the slot bytes that a write made nonzero, in the order in which they perform (R346). -/
def seeSlots (s : State) (part off n : Nat) : State :=
  let p := s.part part
  s.setPart part { p with slotsSeen := p.slotsSeen ++ slotsWritten s part off n }

/-- A physical page that a sealed kernel or library occupies, or that is in admission: no party writes it (R38, R235, R239). -/
def sealedPA (s : State) (pa : Nat) : Bool :=
  (s.kernels.any fun k => k.2.pages.contains (pa / 65536)) || inAdmission s pa

/-- The answer to a host's read: the bytes' current values (R314). -/
def hostAnswer (s : State) (keys : List Nat) : State := { s with device := { s.device with hostData := readKeys s keys } }

/-- `HOST_CXL_MEM_ACCESS` (R287, R314, R384): at most one line, in the partition's grant; in device bias the device's copies
are recalled first; in host bias the line must not be granted to the device. -/
def evHostMem (part off : Nat) (write : Bool) (bytes data : Nat) (s : State) : Option State :=
  let p := s.part part
  let pa := partPA p off
  if !p.created || !s.device.cxl || decide (bytes = 0) || decide (128 < off % 128 + bytes) || decide (p.memBytes < off + bytes) ||
    engineHolds s none write ((keysFrom pa bytes).map (· / 4))
  then none
  else
    match (if s.devBias pa then recallEverywhere s (pa / 128) else if lineHeld s (pa / 128) then none else some s) with
    | none => none
    | some s =>
      let s := meter s (homeDie (pa / 128)) (some part) .hlb bytes
      if !write then some (hostAnswer (llcFetch s (pa / 128) (sectorsOf (wordMask off bytes)) (some part)) (keysFrom pa bytes))
      else if sealedPA s pa then some s
      else
        let s := performWrite s none none (keysFrom pa bytes) data
        let s := llcWrite s (pa / 128) (wordMask off bytes) (some part)
        some (if off < 65536 then seeSlots s part off bytes else s)
/-- `HOST_CXL_MEM_ACCESS` (R287). -/
def execHostCxlMemAccess (part off : Nat) (write : Bool) (bytes data : Nat) (s : State) :
    Host.Outcome State Fault Refusal := byEvent (evHostMem part off write bytes data s) s

/-- `HOST_CXL_CACHE_SNOOP` (R287): the host takes back a line of host memory or of a host-bias page. -/
def evSnoop (line : Nat) (s : State) : Option State :=
  let pa := 128 * line
  if !s.device.cxl || (ownDram pa && s.devBias pa) || !(ownDram pa || decide (2 ^ 51 ≤ pa)) then none
  else (recallEverywhere s line).map fun s => meter s (homeDie line) (partOfPA s pa) .hlb 128
/-- `HOST_CXL_CACHE_SNOOP` (R287). -/
def execHostCxlCacheSnoop (line : Nat) (s : State) : Host.Outcome State Fault Refusal := byEvent (evSnoop line s) s

/-- The key of an offset of die 0's whole pad, laid out over the slices as R286 lays out a partition's part (R415). -/
def minimalPadKey (off : Nat) : Nat := padKey 16 0 (off / 256 % 384) (256 * (off / 98304) + off % 256)

/-- The LLC's part of an uncached access of n bytes (R282, R383): the sectors it reads are fetched, the words it writes become
dirty there. -/
def llcAccess (s : State) (write : Bool) (part : Option Nat) (pa n : Nat) : State :=
  (linesOf (keysFrom pa n)).foldl (fun s l =>
    let lo := max pa (128 * l)
    let m := wordMask lo (min (pa + n) (128 * l + 128) - lo)
    if write then llcWrite s l m part else llcFetch s l (sectorsOf m) part) s

/-- `HOST_MMIO_ACCESS` (R383, R415): through BAR 2, die 0's pad in minimal mode, else partition 0's control area in PCIe
mode. -/
def evHostMmio (off : Nat) (write : Bool) (bytes data : Nat) (s : State) : Option State :=
  if s.device.minimal then
    if 50331648 < off + bytes then none
    else
      let keys := (keysFrom off bytes).map minimalPadKey
      some (if write then performWrite s none none keys data else hostAnswer s keys)
  else if s.device.cxl || !(s.part 0).created || decide (65536 < off + bytes) then none
  else
    let pa := controlPA s 0 off
    let s := meter s 0 (some 0) .hlb bytes
    some (if write then seeSlots (llcAccess (controlWrite s 0 off bytes data) true (some 0) pa bytes) 0 off bytes
      else hostAnswer (llcAccess s false (some 0) pa bytes) (keysFrom pa bytes))
/-- `HOST_MMIO_ACCESS` (R383). -/
def execHostMmioAccess (off : Nat) (write : Bool) (bytes data : Nat) (s : State) : Host.Outcome State Fault Refusal :=
  byEvent (evHostMmio off write bytes data s) s

end Sys2Proof.Machine
end

