-- ==== Sys2Proof/Machine/Sha.lean ====
section
/-!
DEFINITION. SHA-256 and HMAC-SHA-256, which the launch record's tag, the fault record and the usage record name (R253,
R348, R398): FIPS 180-4 and RFC 2104.
-/
namespace Sys2Proof.Machine

namespace Sha

/-- The round constants. -/
def rounds : List Word :=
    [0x428a2f98, 0x71374491, 0xb5c0fbcf, 0xe9b5dba5, 0x3956c25b, 0x59f111f1, 0x923f82a4, 0xab1c5ed5] ++
    [0xd807aa98, 0x12835b01, 0x243185be, 0x550c7dc3, 0x72be5d74, 0x80deb1fe, 0x9bdc06a7, 0xc19bf174] ++
    [0xe49b69c1, 0xefbe4786, 0x0fc19dc6, 0x240ca1cc, 0x2de92c6f, 0x4a7484aa, 0x5cb0a9dc, 0x76f988da] ++
    [0x983e5152, 0xa831c66d, 0xb00327c8, 0xbf597fc7, 0xc6e00bf3, 0xd5a79147, 0x06ca6351, 0x14292967] ++
    [0x27b70a85, 0x2e1b2138, 0x4d2c6dfc, 0x53380d13, 0x650a7354, 0x766a0abb, 0x81c2c92e, 0x92722c85] ++
    [0xa2bfe8a1, 0xa81a664b, 0xc24b8b70, 0xc76c51a3, 0xd192e819, 0xd6990624, 0xf40e3585, 0x106aa070] ++
    [0x19a4c116, 0x1e376c08, 0x2748774c, 0x34b0bcb5, 0x391c0cb3, 0x4ed8aa4a, 0x5b9cca4f, 0x682e6ff3] ++
    [0x748f82ee, 0x78a5636f, 0x84c87814, 0x8cc70208, 0x90befffa, 0xa4506ceb, 0xbef9a3f7, 0xc67178f2]

/-- The initial hash. -/
def start : List Word :=
    [0x6a09e667, 0xbb67ae85, 0x3c6ef372, 0xa54ff53a, 0x510e527f, 0x9b05688c, 0x1f83d9ab, 0x5be0cd19]

/-- A word of four bytes, most significant first. -/
def wordOf (bs : List Byte) : Word := BitVec.ofNat 32 (bs.foldl (fun n b => n * 256 + b.toNat) 0)
/-- The bytes of a word, most significant first. -/
def bytesOf (w : Word) : List Byte := [24, 16, 8, 0].map fun k => BitVec.ofNat 8 (w.toNat / 2 ^ k)

/-- A message padded to blocks of 64 bytes: 0x80, zeros, the bit length. -/
def pad (bs : List Byte) : List Byte :=
  let zeros := (119 - bs.length % 64) % 64
  bs ++ 0x80 :: List.replicate zeros 0 ++ (List.range 8).map fun k => BitVec.ofNat 8 (8 * bs.length / 256 ^ (7 - k))

/-- Rotate right. -/
def rr (w : Word) (n : Nat) : Word := w.rotateRight n

/-- The next word of the schedule from the sixteen before it, newest first. -/
def nextWord (ws : List Word) : Word :=
  let w (k : Nat) : Word := ws.getD (k - 1) 0
  let s0 := rr (w 15) 7 ^^^ rr (w 15) 18 ^^^ (w 15 >>> 3)
  let s1 := rr (w 2) 17 ^^^ rr (w 2) 19 ^^^ (w 2 >>> 10)
  w 16 + s0 + w 7 + s1

/-- The schedule extended by n words, newest first. -/
def extend : Nat → List Word → List Word
  | 0, ws => ws
  | n + 1, ws => extend n (nextWord ws :: ws)

/-- The words of some bytes. -/
def wordsOf : List Byte → List Word
  | a :: b :: c :: d :: r => wordOf [a, b, c, d] :: wordsOf r
  | _ => []

/-- One round on the eight working words. -/
def round (h : List Word) (k w : Word) : List Word :=
  match h with
  | [a, b, c, d, e, f, g, x] =>
    let t1 := x + (rr e 6 ^^^ rr e 11 ^^^ rr e 25) + ((e &&& f) ^^^ (~~~e &&& g)) + k + w
    let t2 := (rr a 2 ^^^ rr a 13 ^^^ rr a 22) + ((a &&& b) ^^^ (a &&& c) ^^^ (b &&& c))
    [t1 + t2, a, b, c, d + t1, e, f, g]
  | h => h

/-- The rounds of one block. -/
def allRounds : List Word → List Word → List Word → List Word
  | k :: ks, w :: ws, h => allRounds ks ws (round h k w)
  | _, _, h => h

/-- The hash after one block of sixteen words. -/
def block (h ws : List Word) : List Word :=
  List.zipWith (· + ·) h (allRounds rounds (extend 48 ws.reverse).reverse h)

/-- The hash after every block of some words; the first argument bounds the number of blocks. -/
def blocks : Nat → List Word → List Word → List Word
  | 0, h, _ => h
  | n + 1, h, ws => if ws.length < 16 then h else blocks n (block h (ws.take 16)) (ws.drop 16)

end Sha

/-- SHA-256. -/
def sha256 (bs : List Byte) : List Byte :=
  let ws := Sha.wordsOf (Sha.pad bs)
  (Sha.blocks (ws.length / 16) Sha.start ws).flatMap Sha.bytesOf

/-- HMAC-SHA-256 under a key of at most 64 bytes. -/
def hmacSha256 (key msg : List Byte) : List Byte :=
  let k := key ++ List.replicate (64 - key.length) 0
  sha256 (k.map (· ^^^ 0x5C) ++ sha256 (k.map (· ^^^ 0x36) ++ msg))

end Sys2Proof.Machine
end

