-- ==== Sys2Proof/Machine/Launch.lean ====
section
/-!
DEFINITION. Launch records: their parsing, their checks, and the entry of a grid's teams into their queue (R344 to R352).
-/
namespace Sys2Proof.Machine

/-- The base of a partition's system range (R390). -/
def systemBase (part : Nat) : Nat := (16 * part + 15) * 2 ^ 48

/-- A range lies wholly inside the global or the host-unified window (R347, R348). -/
def inTranslated (a n : Nat) : Bool :=
  [Win.global, .host].any fun w => decide (w.first ≤ a) && decide (a + n ≤ w.last + 1)

/-- A range reaches into a partition's system range. -/
def inSystem (part a n : Nat) : Bool := decide (a < systemBase part + 2 ^ 48) && decide (systemBase part < a + n)

/-- A grid of a partition with an ID that has not ended (R349). -/
def activeGrid (s : State) (part id : Nat) : Option (Nat × Grid) :=
  s.grids.find? fun g => g.2.part == part && g.2.id == id && g.2.st != .ended

/-- The status of a remembered grid (R350). -/
def rememberedStatus (s : State) (part id : Nat) : Option Nat :=
  ((s.part part).ended.find? fun e => e.1 == id).map (·.2)

/-- The dependences that a record names. -/
def recordDeps (r : Nat) : List Nat := (List.range (fieldOf r 0x36 2)).map fun i => fieldOf r (0x40 + 8 * i) 8

/-- A limit of R347 that does not depend on the descriptor is broken (R349, row 1). -/
def malformed (s : State) (part r : Nat) (child : Bool) : Bool :=
  let f := fieldOf r
  let id := f 0 8
  let bad (n align top : Nat) : Bool := decide (n % align ≠ 0) || decide (top < n)
  decide (2 ^ 63 ≤ id) || (decide (id ≠ 0) && (activeGrid s part id).isSome) || decide (f 8 4 = 0) ||
  decide (16 ≤ f 0xC 4) || decide (f 0x10 2 = 0) || decide (f 0x12 2 = 0) || decide (f 0x14 2 = 0) ||
  decide (16 < f 0x16 1) || decide (16 < f 0x17 1) || bad (f 0x18 4) 16 65536 || bad (f 0x1C 4) 256 262144 ||
  bad (f 0x20 4) 2048 1048576 || bad (f 0x24 4) 256 (s.part part).pad || decide (f 0x28 8 % 64 ≠ 0) ||
  !inTranslated (f 0x28 8) (f 0x30 4) || bad (f 0x30 4) 8 4096 || decide (f 0x30 4 < 8) || decide (f 0x34 2 < 256) ||
  decide (4 < f 0x36 2) ||
  ((List.range 4).any fun i => decide (f 0x36 2 ≤ i) && decide (f (0x40 + 8 * i) 8 ≠ 0)) ||
  decide (f 0x60 8 % 64 ≠ 0) || decide (f 0x78 7 ≠ 0) ||
  (!child && decide (f 0x7F 1 = 0))

/-- The kernel that a record of a partition names, if it may be launched (R349, row 2). -/
def launchKernel (s : State) (part r : Nat) : Option Kernel :=
  match find? s.kernels (fieldOf r 8 4) with
  | some k => if k.part = part && !k.runtime && !k.unloading then some k else none
  | none => none

/-- THDL names no handler, or the entry of an installed library in the partition's own runtime area (R347, R390). -/
def handlerOk (s : State) (part thdl : Nat) : Bool :=
  decide (thdl = 0) || s.device.libraries.any fun l => decide (thdl = systemBase part + 2 ^ 33 + l.1)

/-- A field's value, or the descriptor's where it is 0 (R347). -/
def orDefault (v d : Nat) : Nat := if v = 0 then d else v

/-- A limit that the descriptor sets is broken (R349, row 3). -/
def belowKernel (k : Kernel) (r : Nat) : Bool :=
  let f := fieldOf r
  decide (orDefault (f 0x16 1) k.waves < 4 * k.quartets) || decide (orDefault (f 0x17 1) k.regs < k.regs) ||
  decide (f 0x18 4 < k.lpriv) || decide (f 0x1C 4 < k.scratch) || decide (f 0x20 4 < k.clusMin) ||
  decide (f 0x24 4 < k.padMin)

/-- The argument block as the dispatcher reads it: none without a translation or with poison (R349, row 4). -/
def readArgs (s : State) (part at_ n : Nat) : Option (List Byte) :=
  let keys := (keysFrom at_ n).filterMap fun va => (translate s 0 (some part) va).map (·.pa)
  if keys.length = n && (firstPoison s keys).isNone then some (keys.map (readByte s)) else none

/-- An 8-byte argument at an offset of the block. -/
def argAt (args : List Byte) (off : Nat) : Nat := ofBytes ((args.drop off).take 8)

/-- The tag of a host record (R348). -/
def launchTag (s : State) (part r : Nat) (args : List Byte) : Nat :=
  let key := (bytesOf 32 (Config.launchKey part (s.part part).creations).toNat)
  ofBytes ((hmacSha256 key (bytesOf 4 (fieldOf r 8 4) ++ args)).take 16)

/-- A region as the argument block grants it: kind 0 from the block, kinds 1 and 2 from the sealed image, kind 3 the
team's scratch (R240, R348, R365). -/
def grantedRegion (k : Kernel) (g : KRegion) (args : List Byte) : Region :=
  let w := argAt args g.len
  match g.kind with
  | 0 => { base := argAt args g.base, len := w % 2 ^ 48, ro := decide (2 ^ 63 ≤ w) }
  | 3 => { base := Win.scratch.first, len := w % 2 ^ 48, ro := decide (2 ^ 63 ≤ w) }
  | _ => { base := k.entry + k.codeBytes + g.dataOff, len := g.dataLen, ro := true }

/-- One region's grant is refused (R348, R349 row 4, R365). -/
def grantBad (part : Nat) (parent : Option Grid) (args : List Byte) (scratch : Nat) (k : Kernel) (g : KRegion) :
    Bool :=
  let x := grantedRegion k g args
  let w := argAt args g.len
  if g.kind = 1 || g.kind = 2 then false
  else
    decide (w / 2 ^ 48 % 2 ^ 15 ≠ 0) || decide (x.len < g.minLen) || (g.written && x.ro) ||
    (if g.kind = 3 then decide (scratch < x.len)
    else
      !inTranslated x.base x.len || inSystem part x.base x.len ||
      (match parent with
        | none => false
        | some p => !(p.regions.any fun r => decide (r.2.base ≤ x.base) && decide (x.base + x.len ≤ r.2.base + r.2.len) &&
            (!r.2.ro || x.ro || !g.written))))

/-- The grants of a record are refused (R349, row 4): the block's cover of the declared offsets, its least length, the
tag, which is 0 in a child's record, each region. -/
def grantsBad (s : State) (part r : Nat) (parent : Option Grid) (k : Kernel) (args : List Byte) : Bool :=
  let n := args.length
  (k.regions.any fun g => (g.kind != 3 && decide (n < g.base + 8)) || decide (n < g.len + 8)) || decide (n < k.argsMin) ||
  decide ((if parent.isNone then launchTag s part r args else 0) ≠ fieldOf r 0x68 16) ||
  k.regions.any (grantBad part parent args (fieldOf r 0x1C 4) k)

/-- No core could ever hold one team: its rows, its slots, or its lane-private, scratch and cluster bytes (R283, R349, row
5). -/
def neverFits (k : Kernel) (r : Nat) : Bool :=
  let f := fieldOf r
  let waves := orDefault (f 0x16 1) k.waves
  let quota := 8 * orDefault (f 0x17 1) k.regs
  decide (Config.rowsPerQuarter < quota * ((waves + 3) / 4)) || decide (16 < k.slots * k.quartets) ||
  decide (scratchBytes < 64 * f 0x18 4 * waves + f 0x1C 4 + f 0x20 4 / 8)

/-- A dependence names a remembered grid that ended with another status than 1 or 8 (R350). -/
def depFailed (s : State) (part : Nat) (d : Nat) : Bool :=
  (activeGrid s part d).isNone && (match rememberedStatus s part d with
    | some st => st != 1 && st != 8
    | none => false)

/-- The status with which a record is refused, if it is (R349). -/
def refusal (s : State) (part r : Nat) (parent : Option Grid) : Option Nat :=
  if malformed s part r parent.isSome then some 3
  else match launchKernel s part r with
    | none => some 5
    | some k =>
      if !handlerOk s part (fieldOf r 0x38 8) then some 5
      else if belowKernel k r then some 3
      else match readArgs s part (fieldOf r 0x28 8) (fieldOf r 0x30 4) with
        | none => some 4
        | some args =>
          if grantsBad s part r parent k args then some 4
          else if neverFits k r then some 9
          else if (recordDeps r).any (depFailed s part) then some 6
          else none

/-- The place of a grid's argument block: the lowest free of the 4 KiB places at the base of the partition's context
area (R348, log 23). -/
def argsPlace (s : State) (part : Nat) : Nat :=
  let base := systemBase part + 2 ^ 32
  let used := (s.grids.filter fun g => g.2.part == part && g.2.st != .ended).map (·.2.argsAt)
  base + 4096 * (((List.range (used.length + 1)).find? fun i => !used.contains (base + 4096 * i)).getD 0)

/-- A region of a child, read-only where its parent holds it read-only (R348). -/
def inheritRo (parent : Option Grid) (x : Region) : Region :=
  match parent with
  | none => x
  | some p =>
    if p.regions.any fun r => !r.2.ro && decide (r.2.base ≤ x.base) && decide (x.base + x.len ≤ r.2.base + r.2.len) then x
    else { x with ro := true }

/-- The grid that a record describes. -/
def gridOfRecord (s : State) (part r : Nat) (parent : Option Nat) (handle : Nat) (args : List Byte) : Grid :=
  let f := fieldOf r
  let pg := parent.bind (find? s.grids)
  let k := launchKernel s part r
  let at_ := argsPlace s part
  let regions : List (Nat × Region) := match k with
    | none => []
    | some k =>
      (List.range k.regions.length).filterMap (fun i => (k.regions[i]?).map fun g =>
        let x := grantedRegion k g args
        (i, if g.kind = 0 then inheritRo pg x else x)) ++
      [(1023, { base := at_, len := args.length, ro := false })]
  { id := if f 0 8 = 0 then 2 ^ 63 + ((s.part part).assigned + 1) else f 0 8
    part := part, kid := f 8 4, depth := (pg.map (·.depth + 1)).getD 0, parent := parent
    ctx := (pg.map (·.ctx)).getD handle, prio := f 0xC 4 % 8, early := decide (8 ≤ f 0xC 4 % 16)
    gx := f 0x10 2, gy := f 0x12 2, gz := f 0x14 2
    waves := orDefault (f 0x16 1) ((k.map (·.waves)).getD 1), quota := 8 * orDefault (f 0x17 1) ((k.map (·.regs)).getD 1)
    lpriv := f 0x18 4, scratch := f 0x1C 4, clus := f 0x20 4, dpad := f 0x24 4, timer := f 0x34 2
    deps := recordDeps r, cmpl := f 0x60 8, thdl := BitVec.ofNat 64 (f 0x38 8), argsAt := at_, regions := regions
    seq := s.nextSeq, st := .waiting, passed := none, nextTeam := 0, liveTeams := 0, retiredTeams := 0
    triggeredTeams := 0, liveChildren := 0, status := 0, trap := none, copyErr := none, cycles := 0
    clusAt := [], padAt := [], lastDie := none }

/-- The copy of an argument block, its `.data` and `.jtab` arguments filled in (R240, R348). -/
def filledArgs (k : Kernel) (args : List Byte) : List Byte :=
  k.regions.foldl (fun bs g =>
    if g.kind = 1 || g.kind = 2 then
      let x := grantedRegion k g args
      let put8 (bs : List Byte) (off v : Nat) : List Byte := bs.take off ++ bytesOf 8 v ++ bs.drop (off + 8)
      put8 (put8 bs g.base x.base) g.len (x.len + 2 ^ 63)
    else bs) args

/-- A record parsed for a partition, as a child of a grid where it has a parent (R346, R348, R349): a refused one ends its
grid with its status and places no team. -/
def parseRecord (s : State) (part r : Nat) (parent : Option Nat) : State :=
  let pg := parent.bind (find? s.grids)
  let handle := s.nextHandle
  let args := (readArgs s part (fieldOf r 0x28 8) (fieldOf r 0x30 4)).getD []
  let status := refusal s part r pg
  let g := gridOfRecord s part r parent handle (if status.isSome then [] else args)
  let p := s.part part
  let s := if fieldOf r 0 8 = 0 then s.setPart part { p with assigned := p.assigned + 1 } else s
  let s := { s.setGrid handle g with nextHandle := handle + 1, nextSeq := s.nextSeq + 1 }
  match status, launchKernel s part r with
  | none, some k => writeVA s 0 (some part) g.argsAt args.length (ofBytes (filledArgs k args))
  | st, _ =>
    let s := closeGrid s handle (st.getD 3)
    match parent with
    | some ph => closeIfComplete s 12 ph
    | none => s

/-- `LAUNCH_RECORD_PARSE` (R346): the oldest ready slot of a launch window. Its slot byte is read again: a record that stands
is parsed and its slot byte cleared. A number of 64 or more names the launch buffer of team (number − 64) (R229). -/
def evParse (part slot : Nat) (s : State) : Option State :=
  if slot < 64 then
    let p := s.part part
    match p.slotsSeen with
    | n :: rest =>
      if n ≠ slot || !p.ready then none
      else
        let r := controlRead s part (128 * slot) 128
        let s := s.setPart part { p with slotsSeen := rest }
        some (if fieldOf r 127 1 = 0 then s else parseRecord (controlWrite s part (128 * slot + 127) 1 0) part r none)
    | [] => none
  else
    let h := slot - 64
    let t := s.team h
    match t.launches, t.grid with
    | r :: rest, some g =>
      if s.partOf t ≠ some part || !(s.part part).ready then none
      else some (parseRecord (s.setTeam h { t with launches := rest }) part r (some g))
    | _, _ => none
/-- `LAUNCH_RECORD_PARSE` (R346). -/
def execLaunchRecordParse (part slot : Nat) (s : State) : Host.Outcome State Fault Refusal :=
  byEvent (evParse part slot s) s

/-- Every team of a grid has been placed and has triggered or exited (R230, R350). -/
def Grid.allTriggered (g : Grid) : Bool :=
  decide (g.st = .queued) && decide (g.gx * g.gy * g.gz ≤ g.triggeredTeams)

/-- A dependence is met (R350). -/
def depMet (s : State) (g : Grid) (d : Nat) : Bool :=
  match activeGrid s g.part d with
  | some (_, x) => g.early && x.allTriggered
  | none => !depFailed s g.part d

/-- `GRID_QUEUE_ENTRY` (R350): a grid whose dependences are met enters its class queue; one whose predecessor failed ends
with status 6. -/
def evQueue (grid : Nat) (s : State) : Option State :=
  match find? s.grids grid with
  | none => none
  | some g =>
    if g.st ≠ .waiting then none
    else if g.deps.any (depFailed s g.part) then
      let s := closeGrid s grid 6
      some (match g.parent with
        | some p => closeIfComplete s 12 p
        | none => s)
    else if g.deps.all (depMet s g) then some (s.setGrid grid { g with st := .queued })
    else none
/-- `GRID_QUEUE_ENTRY` (R350). -/
def execGridQueueEntry (grid : Nat) (s : State) : Host.Outcome State Fault Refusal := byEvent (evQueue grid s) s

end Sys2Proof.Machine
end

