-- ==== Sys2Proof/Machine/Placement.lean ====
section
/-!
DEFINITION. Placement of teams on cores, their pre-emption, save and restore, lending and reclaim, and the service of page
faults (R283 to R286, R352 to R364, R379, R402).
-/
namespace Sys2Proof.Machine

/-! ### What a team needs of a core (R354) -/

/-- What a placement asks for: per wave its index, quarter and quota; pools by quarter; the rest by team. -/
structure Demand where
  part : Nat
  waves : List (Nat × Nat × Nat)
  pools : List (Nat × Nat)
  quartets : Nat
  slots : Nat
  lpriv : Nat
  scratch : Nat
  bins : Nat
  /-- The core on which all rows and blocks of a saved team stand still, with the places of its blocks and its scratch (R361).
  -/
  home : Option (Nat × List (Nat × Nat) × Nat) := none

/-- The demand of a grid's next team. -/
def Grid.demand (g : Grid) (k : Kernel) : Demand :=
  { part := g.part, waves := (List.range g.waves).map fun i => (i, i % 4, g.quota), pools := []
    quartets := k.quartets, slots := k.slots, lpriv := g.lpriv, scratch := g.scratch, bins := 0 }

/-- The blocks that a saved team has in a scratchpad, by their number in its frame, offset and length (R363). -/
def Team.blockList (t : Team) : List (Nat × Nat × Nat) :=
  ((0, t.scratchAt, t.scratch) :: t.blocks.map fun b => ((b.1 + 1) * 2 ^ 22, b.2, 64 * t.lpriv)).filter fun b => decide (0 < b.2.2)

/-- The quarters in which a saved team has rows. -/
def Team.rowQuarters (t : Team) : List Nat := ((t.saved.filter fun w => decide (0 < w.2.quota)).map (·.1 % 4)).eraseDups

/-- All rows and blocks of a saved team still stand on a core (R361). -/
def Team.whole (t : Team) (core : Nat) : Bool :=
  decide (t.stale = some core) && t.staleBlocks == t.blockList && t.staleRows == t.rowQuarters

/-- The quartets of a saved team that have not retired (R11). -/
def Team.liveQuartets (t : Team) : List Nat := (t.saved.filterMap (·.2.quartet)).eraseDups

/-- The demand of a saved team (R357, R363). -/
def Team.demand (t : Team) (part : Nat) : Demand :=
  { part := part, waves := t.saved.map fun w => (w.1 / 4, w.1 % 4, w.2.quota), pools := t.pools
    quartets := t.liveQuartets.length, slots := t.slots, lpriv := t.lpriv, scratch := t.scratch, bins := t.savedBins.length
    home := (t.stale.filter t.whole).map fun k => (k, t.blocks, t.scratchAt) }

/-- The partition that owns a core's cluster (R386). -/
def clusterOwner (s : State) (core : Nat) : Option Nat :=
  (s.parts.find? fun p => p.2.created && p.2.clusters.getLsbD (core / 8)).map (·.1)

/-- The partitions of the teams that a core runs. -/
def coreParts (s : State) (core : Nat) : List Nat := ((coreTeams s core).filterMap fun t => s.partOf (s.team t)).eraseDups

/-- Slot demand of the quartets resident on a core (R211, R354). -/
def slotDemand (s : State) (core : Nat) : Nat :=
  let quartets := ((s.core core).waves.filterMap fun w => w.2.quartet.map fun q => (w.2.team, q)).eraseDups
  quartets.foldl (fun n x => n + (s.team x.1).slots) 0

/-- Wave slots for some waves, each the lowest free of its quarter (R354). -/
def pickSlots : List (Nat × Nat × Nat) → Core → Option (List (Nat × Nat))
  | [], _ => some []
  | (wid, q, _) :: r, c =>
    match freeWaveSlot c q with
    | none => none
    | some k => (pickSlots r { c with waves := put c.waves k noWave }).map ((wid, k) :: ·)

/-- Scratchpad places for lane-private blocks and team scratch (R283, R284). -/
def pickBlocks (used : List (Nat × Nat)) (n : Nat) : List Nat → Option (List (Nat × Nat) × List (Nat × Nat))
  | [] => some ([], used)
  | wid :: r =>
    match firstFit used scratchBytes n with
    | none => none
    | some o => (pickBlocks ((o, n) :: used) n r).map fun x => ((wid, o) :: x.1, x.2)

/-- What a placement will take: slots, blocks, the scratch, and cluster shares by core where they are new (R354). -/
structure Plan where
  slots : List (Nat × Nat)
  blocks : List (Nat × Nat)
  scratchAt : Nat
  shares : List (Nat × Nat)
  pad : Option Nat
  /-- A saved team takes its rows and blocks back where they stand (R361). -/
  home : Bool := false

/-- The cluster shares that a grid's first team on a cluster takes from its eight cores (R285). -/
def pickShares (s : State) (core n : Nat) : Option (List (Nat × Nat)) :=
  ((List.range 8).map fun i => core / 8 * 8 + i).mapM fun k =>
    (firstFit (scratchUsed s k) scratchBytes n).map fun o => (k, o)

/-- The place of a grid's pad bytes in the partition's part of every slice of a die (R286). -/
def pickPad (s : State) (part die n : Nat) : Option Nat :=
  let used := s.grids.filterMap fun g =>
    if g.2.part = part && g.2.st != .ended then (find? g.2.padAt die).map fun o => (o, (g.2.dpad + 98303) / 98304 * 256) else none
  firstFit used ((s.part part).pad / 384) ((n + 98303) / 98304 * 256)

/-- A core takes placements at all: in normal service, not fenced or lost (R40, R402, R411). -/
def acceptsTeams (s : State) (core : Nat) : Bool :=
  let c := s.core core
  !c.strict && c.fenced.isEmpty && !c.corectl.getLsbD 1 && !s.device.lostCores.contains core

/-- A core fits a team (R354): what the placement would take. -/
def fits (s : State) (core : Nat) (g : Grid) (d : Demand) : Option Plan :=
  let c := s.core core
  let rowsOk := (List.range 4).all fun q =>
    let need := d.waves.foldl (fun n w => if w.2.1 = q then n + w.2.2 else n) (look 0 d.pools q)
    decide (need = 0) || decide (need ≤ freeRows s core q)
  if !acceptsTeams s core || (coreParts s core).any (· != d.part) || !rowsOk ||
    decide (16 < slotDemand s core + d.slots * d.quartets) || decide ((freeEntries c).length < d.quartets) ||
    decide (16 < c.bins.length + d.bins) then none
  else
    match pickSlots d.waves c with
    | none => none
    | some slots =>
      let newShare := decide (0 < g.clus) && (find? g.clusAt core).isNone
      let newPad := decide (0 < g.dpad) && (find? g.padAt (core / 128)).isNone
      let shares := if newShare then pickShares s core (g.clus / 8) else some []
      let pad := if newPad then (pickPad s g.part (core / 128) g.dpad).map some else some none
      match shares, pad with
      | some shares, some pad =>
        let used := scratchUsed s core ++ shares.filterMap fun x => if x.1 = core then some (x.2, g.clus / 8) else none
        let back := d.home.filter fun h => decide (h.1 = core) &&
          ((h.2.2, d.scratch) :: h.2.1.map fun b => (b.2, 64 * d.lpriv)).all fun x => !(used.any (runsMeet x))
        match back with
        | some (_, blocks, o) => some { slots := slots, blocks := blocks, scratchAt := o, shares := shares, pad := pad, home := true }
        | none =>
          match pickBlocks used (64 * d.lpriv) (d.waves.map (·.1)) with
          | none => none
          | some (blocks, used) =>
            match firstFit used scratchBytes d.scratch with
            | none => none
            | some o => some { slots := slots, blocks := blocks, scratchAt := o, shares := shares, pad := pad }
      | _, _ => none

/-! ### The queues (R352, R353) -/

/-- What stands in a queue: a saved team that is ready to restore, or a grid's next team. -/
inductive Waiting
  | saved (team : Nat)
  | new (grid : Nat)
  deriving DecidableEq, Repr

/-- A team is saved and ready to restore (R352, R362). -/
def Team.ready (t : Team) : Bool := t.live && t.core.isNone && t.waiting.isEmpty

/-- The grid has a team that has not been placed. -/
def Grid.hasNext (g : Grid) : Bool := decide (g.st = .queued) && decide (g.nextTeam < g.gx * g.gy * g.gz)

/-- Grids in the order of parsing, by insertion. -/
def insertSeq (g : Nat × Grid) : List (Nat × Grid) → List (Nat × Grid)
  | [] => [g]
  | x :: r => if g.2.seq < x.2.seq then g :: x :: r else x :: insertSeq g r

/-- Saved teams, the one that became ready last at the head (R352), by insertion. -/
def insertReady (t : Nat × Team) : List (Nat × Team) → List (Nat × Team)
  | [] => [t]
  | x :: r => if x.2.readyAt.getD 0 < t.2.readyAt.getD 0 then t :: x :: r else x :: insertReady t r

/-- A partition's queue of one class, head first (R352). -/
def queueOf (s : State) (part cls : Nat) : List Waiting :=
  let mine := (s.grids.filter fun g => g.2.part == part && g.2.prio == cls && g.2.st == .queued)
  let saved := ((s.teams.filter fun t => t.2.ready && mine.any fun g => t.2.grid == some g.1).foldl
    (fun l t => insertReady t l) []).map fun t => Waiting.saved t.1
  let new := ((mine.filter fun g => g.2.hasNext).foldl (fun l g => insertSeq g l) []).map fun g => Waiting.new g.1
  saved ++ new

/-- A partition's queues, class 7 first. -/
def queuesOf (s : State) (part : Nat) : List Waiting := (List.range 8).flatMap fun i => queueOf s part (7 - i)

/-- The grid and demand of what waits. -/
def Waiting.needs (s : State) (w : Waiting) : Option (Nat × Grid × Demand) :=
  match w with
  | .saved t =>
    match (s.team t).grid with
    | some h => (find? s.grids h).map fun g => (h, g, (s.team t).demand g.part)
    | none => none
  | .new h =>
    match find? s.grids h with
    | some g => (find? s.kernels g.kid).map fun k => (h, g, g.demand k)
    | none => none

/-- Since when, on which die's clock, what waits has been passed over (R353). -/
def Waiting.passed (s : State) (w : Waiting) : Option (Nat × Nat) :=
  match w with
  | .saved t => (s.team t).passed
  | .new h => (find? s.grids h).bind (·.passed)

/-- A cluster is under reclaim: it has begun, and a borrowed team is left on the cluster (R360). -/
def reclaiming (s : State) (cluster : Nat) : Bool :=
  (find? s.device.reclaims cluster).isSome && (List.range 8).any fun i =>
    (coreParts s (8 * cluster + i)).any fun p => decide (some p ≠ clusterOwner s (8 * cluster))

/-- Reclaims that are over are forgotten. -/
def settleReclaims (s : State) : State :=
  { s with device := { s.device with reclaims := s.device.reclaims.filter fun r => reclaiming s r.1 } }

/-- A core is lent by its owner: the owner runs no team there, has no queued team that fits there, and is not reclaiming the
core's cluster (R359, R360). -/
def lent (s : State) (core part : Nat) : Bool :=
  match clusterOwner s core with
  | none => false
  | some o => o ≠ part && !reclaiming s (core / 8) && !(coreParts s core).contains o && (queuesOf s o).all fun w =>
      match w.needs s with
      | some (_, g, d) => (fits s core g d).isNone
      | none => true

/-- The die to which a grid's next team is offered first (R353). -/
def firstDie (s : State) (g : Grid) : Nat :=
  match g.lastDie with
  | some d => (d + 1) % 8
  | none => match (s.part g.part).lastDie with
    | some d => (d + 1) % 8
    | none => 0

/-- The cores offered to a grid's team, in order (R353): the dies in rotation, on each the partition's own cores, then
those it may borrow. -/
def offers (s : State) (g : Grid) : List Nat :=
  let after := firstDie s g
  (List.range 8).flatMap fun i =>
    let cores := (List.range 128).map fun k => (after + i) % 8 * 128 + k
    cores.filter (fun k => (s.part g.part).clusters.getLsbD (k / 8)) ++
    cores.filter fun k => !(s.part g.part).clusters.getLsbD (k / 8) && lent s k g.part

/-- The first offered core that fits. -/
def coreFor (s : State) (g : Grid) (d : Demand) : Option (Nat × Plan) :=
  (offers s g).findSome? fun k => (fits s k g d).map fun p => (k, p)

/-- What a partition places next: the first in its queues that fits, behind no team passed over for a slice; and those
passed over before it (R353). -/
def choose (s : State) (part : Nat) : List Waiting → List Waiting → List Waiting × Option (Waiting × Nat × Nat × Plan)
  | [], skipped => (skipped, none)
  | w :: r, skipped =>
    match w.needs s with
    | none => choose s part r skipped
    | some (h, g, d) =>
      match coreFor s g d with
      | some (k, p) => (skipped, some (w, h, k, p))
      | none =>
        let stuck := match w.passed s with
          | some t => decide (t.2 + (s.part part).slice ≤ (s.die t.1).clk)
          | none => false
        if stuck then (skipped ++ [w], none) else choose s part r (skipped ++ [w])

/-- The clock of being passed over is set where it is not: the dispatcher's of the die that was offered the team first (R6,
log 55). -/
def markPassed (s : State) (w : Waiting) : State :=
  match w with
  | .saved t =>
    let x := s.team t
    let d := ((s.gridOf x).map (firstDie s)).getD 0
    if x.passed.isSome then s else s.setTeam t { x with passed := some (d, (s.die d).clk) }
  | .new h =>
    match find? s.grids h with
    | some g => if g.passed.isSome then s else s.setGrid h { g with passed := some (firstDie s g, (s.die (firstDie s g)).clk) }
    | none => s

/-- The partition served next (R353): the first with a queued team after the one served last. -/
def nextPart (s : State) : Option Nat :=
  (List.range 16).findSome? fun i =>
    let n := (s.device.lastPart + 1 + i) % 16
    if (s.part n).created && !(queuesOf s n).isEmpty then some n else none

/-! ### Placing (R355, R359, R379) -/

/-- Before a team of another partition starts, the core gives back its L1 lines and TLB entries (R359), and awaits no
tokens. -/
def takeCore (s : State) (core part : Nat) : State :=
  let s := meterCycles s core
  let c := s.core core
  if c.tenant = some part then s
  else
    let s := (c.l1.map (·.1)).foldl (fun s l => evictLine s core l) s
    s.setCore core { s.core core with tlb := [], reqs := [], tenant := some part }

/-- Scratch bytes of a core written 0. -/
def zeroScratch (s : State) (core at_ n : Nat) : State := zeroRange s (scratchKey core at_) n

/-- A grid's cluster share and pad taken and written 0 (R355 step 6). -/
def takeShares (s : State) (h core : Nat) (p : Plan) : State :=
  match find? s.grids h with
  | none => s
  | some g =>
    let s := p.shares.foldl (fun s x => zeroScratch s x.1 x.2 (g.clus / 8)) s
    let die := core / 128
    let s := match p.pad with
      | some o => (List.range 384).foldl (fun s i => zeroRange s (padKey g.part die i o) ((g.dpad + 98303) / 98304 * 256)) s
      | none => s
    s.setGrid h { g with
      clusAt := p.shares.foldl (fun m x => put m x.1 x.2) g.clusAt
      padAt := match p.pad with
        | some o => put g.padAt die o
        | none => g.padAt
      lastDie := some die }

/-- Entries of the range-lock table reserved for a team's quartets, one each (R379). -/
def reserve (s : State) (core : Nat) (quartets : List Nat) : List (Nat × Nat) × State :=
  let c := s.core core
  let ns := quartets.zip (freeEntries c)
  (ns, s.setCore core { c with locks := ns.foldl (fun m i => put m i.2 { look {} m i.2 with rsv := true }) c.locks })

/-- What a placement covers is first written to the frames of its stale owners (R361). -/
def coverPlan (s : State) (core : Nat) (g : Grid) (d : Demand) (p : Plan) (but : Option Nat) : State :=
  let rows := (List.range 4).map fun q => (q, d.waves.foldl (fun n w => if w.2.1 = q then n + w.2.2 else n) (look 0 d.pools q))
  let s := coverStale s core ((p.scratchAt, d.scratch) :: p.blocks.map fun b => (b.2, 64 * d.lpriv)) rows but
  p.shares.foldl (fun s x => coverStale s x.1 [(x.2, g.clus / 8)] [] but) s

/-- A grid's next team placed on a core (R355). -/
def placeNew (s : State) (h core : Nat) (g : Grid) (k : Kernel) (p : Plan) : State :=
  let s := takeShares (takeCore (coverPlan (settleReclaims s) core g (g.demand k) p none) core g.part) h core p
  let g := (find? s.grids h).getD g
  let team := s.nextHandle
  let (res, s) := reserve s core (List.range k.quartets)
  let i := g.nextTeam
  let t : Team :=
    { grid := some h, index := i, x := i % g.gx, y := i / g.gx % g.gy, z := i / (g.gx * g.gy), waves := g.waves
      quartets := k.quartets, slots := k.slots, quota := g.quota, core := some core, regions := g.regions
      numRegions := k.regions.length, tables := (List.range k.tables.length).map fun j => (j, k.tables.getD j [])
      entry := BitVec.ofNat 64 k.entry, lpriv := g.lpriv, scratch := g.scratch
      blocks := p.blocks, scratchAt := p.scratchAt, reserved := res, since := (s.core core).clk.toNat }
  let s := { s.setTeam team t with nextHandle := team + 1 }
  let s := p.blocks.foldl (fun s b => zeroScratch s core b.2 (64 * g.lpriv)) s
  let s := zeroScratch s core p.scratchAt g.scratch
  let s := p.slots.foldl (fun s x =>
    { s.setWave core x.2 (newWave s core x.2 team x.1 (if x.1 < 4 * k.quartets then some (x.1 / 4) else none)
        (BitVec.ofNat 64 k.entry)) with nextSeq := s.nextSeq + 1 }) s
  let s := s.setGrid h { g with nextTeam := i + 1, liveTeams := g.liveTeams + 1, passed := none }
  s.setPart g.part { s.part g.part with lastDie := some (core / 128) }

/-- The blocks and the scratch of a saved team written from its frame (R363). -/
def loadBlocks (s : State) (core : Nat) (t : Team) (p : Plan) : State :=
  let blockOf (wid : Nat) : Nat := look 0 p.blocks wid
  let s := p.blocks.foldl (fun s b => zeroScratch s core b.2 (64 * t.lpriv)) s
  let s := zeroScratch s core p.scratchAt t.scratch
  t.savedBytes.foldl (fun s b =>
    let key := if b.1 < 2 ^ 22 then scratchKey core (p.scratchAt + b.1)
      else scratchKey core (blockOf (b.1 / 2 ^ 22 - 1) + b.1 % 2 ^ 22)
    writeByte s key b.2) s

/-- A saved team restored on a core (R135, R218, R357, R361 to R363): where all its rows and blocks still stand it takes them
back without a copy; else what is left of them elsewhere goes to its frame first. -/
def placeSaved (s : State) (team h core : Nat) (g : Grid) (p : Plan) : State :=
  let s := settleReclaims s
  let s := if p.home then s else flushStale s team
  let s := coverPlan s core g ((s.team team).demand g.part) p (if p.home then some team else none)
  let s := takeShares (takeCore s core g.part) h core p
  let t := s.team team
  let (res, s) := reserve s core t.liveQuartets
  let s := if p.home then s else loadBlocks s core t p
  let s := p.slots.foldl (fun s x =>
    match t.saved.find? fun w => w.1 / 4 == x.1 with
    | some w => s.setWave core x.2 w.2
    | none => s) s
  let (tags, s) := t.savedSlots.foldl (fun (a : List (Nat × Nat) × State) x =>
    match freeSlot (a.2.core core) with
    | some n =>
      let c := a.2.core core
      (put a.1 x.1 n, a.2.setCore core { c with acc := put c.acc n { data := x.2 } })
    | none => a) ([], s)
  let c := s.core core
  let c := t.savedBanks.foldl (fun c b =>
    let q := c.quarter b.1
    c.setQuarter b.1 { q with
      active := { owner := some team, words := b.2 }, atgen := q.atgen + 1, bankFree := c.clk.toNat + 25 }) c
  let c := t.savedBins.foldl (fun (c : Core) b =>
    { c with bins := put c.bins (freeKey c.bins 0 16) { b with expires := b.expires.map (c.clk.toNat + ·) } }) c
  let s := s.setCore core c
  s.setTeam team { t with
    core := some core, reserved := res, tags := tags, blocks := p.blocks, scratchAt := p.scratchAt
    since := c.clk.toNat, passed := none, readyAt := none, stale := none, staleRows := [], staleBlocks := []
    due := none, forced := false
    retry := t.fencedOff, fencedOff := false, saved := [], savedBytes := [], savedSlots := [], savedBanks := [], savedBins := [] }

/-- A restore waits for an `atab` in flight on an active bank (R135), and for slots still to be released (R211, R214). -/
def banksFree (s : State) (core : Nat) (t : Team) : Bool :=
  decide (t.savedSlots.length + (s.core core).acc.length ≤ 16) &&
  t.savedBanks.all fun b => !atabInFlight (s.core core) b.1 && ((s.core core).quarter b.1).switching.isNone

/-- Until a restore can write its banks, the quarters hold `atab` issue (R135, R382): long enough for one in flight to
complete. -/
def holdBanks (s : State) (core : Nat) (t : Team) : Option State :=
  let c := s.core core
  let held := t.savedBanks.all fun b => decide (c.clk.toNat < (c.quarter b.1).bankFree)
  if held then none
  else some (s.setCore core (t.savedBanks.foldl (fun c b =>
    c.setQuarter b.1 { c.quarter b.1 with bankFree := c.clk.toNat + 19 }) c))

/-- `TEAM_PLACEMENT` (R353, R355) where the team chosen is a new one; none while a saved one comes first. -/
def evPlace (s : State) : Option State :=
  match nextPart s with
  | none => none
  | some n =>
    match choose s n (queuesOf s n) [] with
    | (skipped, some (.new h, _, core, plan)) =>
      let s := skipped.foldl markPassed s
      let s := { s with device := { s.device with lastPart := n } }
      match find? s.grids h with
      | some g => (find? s.kernels g.kid).map fun k => placeNew s h core g k plan
      | none => none
    | (_, some (.saved _, _)) => none
    | (skipped, none) =>
      let s' := { skipped.foldl markPassed s with device := { s.device with lastPart := n } }
      if s' = s then none else some s'
/-- `TEAM_PLACEMENT` (R355). -/
def execTeamPlacement (s : State) : Host.Outcome State Fault Refusal := byEvent (evPlace s) s

/-- `TEAM_RESTORE` (R352, R362): a saved team that is ready, on a fitting core, in its turn. -/
def evRestore (team : Nat) (s : State) : Option State :=
  let t := s.team team
  match t.grid, s.partOf t with
  | some h, some n =>
    if !t.ready || nextPart s ≠ some n then none
    else match choose s n (queuesOf s n) [] with
      | (skipped, some (.saved k, _, core, plan)) =>
        if k ≠ team then none
        else if !banksFree s core t then holdBanks s core t
        else
          let s := skipped.foldl markPassed s
          let s := { s with device := { s.device with lastPart := n } }
          (find? s.grids h).map fun g =>
            let s := placeSaved s team h core g plan
            s.setPart n { s.part n with lastDie := some (core / 128) }
      | _ => none
  | _, _ => none
/-- `TEAM_RESTORE` (R362). -/
def execTeamRestore (team : Nat) (s : State) : Host.Outcome State Fault Refusal := byEvent (evRestore team s) s

/-! ### Saving (R218, R304, R361 to R363) -/

/-- A thread as a frame holds it: one parked at an instruction stands there, to issue it again (R363); at a barrier that counts
its arrival it has its flag and makes no second arrival (log 10); clauses are re-entered under R64. -/
def savedThread (team : Team) (w : Wave) (l : Nat) (t : Thread) : Thread :=
  let th := { t with owes := .resume, hold := .none, wait := [] }
  match t.hold with
  | .rmark => { th with hold := .rmark }
  | .barOwn id pc hdr =>
    if barEnds team t then th
    else { th.setBar id { t.bar id with flag := true } with pc := pc, hdr := hdr, again := true }
  | .barNext _ _ pc hdr => if barEnds team t then th else { th with pc := pc, hdr := hdr }
  | .ldw id =>
    match w.pend.find? fun p => p.id == id && p.mask.getLsbD l with
    | some p => { th with pc := p.pc, hdr := p.hdr }
    | none => th
  | _ => th

/-- A wave as a frame holds it (R363). -/
def savedWave (team : Team) (w : Wave) : Wave :=
  { w with
    threads := (List.range 64).map fun l => (l, savedThread team w l (w.thread l))
    pend := [], sbuf := [], effects := [], ckpt := none, lost := false, region := 0, sent := none, rdv := none }

/-- A group waits, with no trap, for the rollback that the poison it has met brings (R408). -/
def heldByPoison (w : Wave) : Bool :=
  w.trapReq.isNone && (List.range 64).any fun l => (w.thread l).live && decide ((w.thread l).hold = .trapWait)

/-- A wave stands at a commit point with nothing pending but parks, nothing held, and no poison met (R72, R304, R410). -/
def settled (w : Wave) : Bool :=
  w.ckpt.isNone && w.sbuf.isEmpty && w.effects.isEmpty && w.trapReq.isNone && !heldByPoison w && w.pend.all fun p => match p.src with
    | .wait .. => true
    | _ => false

/-- A team may be written to its frame: its waves are settled, its accepted `mma` are done, its copies too, and no
exchange of banks waits for it (R218, R361, log 24). -/
def saveable (s : State) (team core : Nat) : Bool :=
  let c := s.core core
  (c.waves.all fun w => w.2.team != team || settled w.2) && (c.mmas.all fun m => m.team != team) &&
  (c.copies.all fun x => x.op.team != team) && (List.range 4).all fun q => (c.quarter q).switching ≠ some team

/-- The frame of a resident team (R363). -/
def teamImage (s : State) (team : Nat) : Team :=
  let t := s.team team
  match t.core with
  | none => t
  | some k =>
    let c := s.core k
    let ws := c.waves.filter fun w => w.2.team == team
    let t := { t with blocks := t.blocks.filter fun b => ws.any fun w => w.2.wid == b.1 }
    { t with
      core := none, saving := false, due := none, forced := false, reserved := []
      saved := ws.map fun w => (4 * w.2.wid + w.1 / 16, savedWave t w.2)
      savedBytes := t.blockList.flatMap fun b => runBytes s k b.1 b.2.1 b.2.2
      savedSlots := t.tags.map fun g => (g.1, (look ({} : AccSlot) c.acc g.2).data)
      savedBanks := (List.range 4).filterMap fun q =>
        if (c.quarter q).active.owner = some team then some (q, (c.quarter q).active.words) else none
      savedBins := (c.bins.filter fun b => b.2.team == team).map fun b =>
        { b.2 with expires := b.2.expires.map (· - c.clk.toNat) } }

/-- The bytes of a team's frame (R363); the image of a wave counted as its trap frame (R226, log 25). -/
def frameBytes (t : Team) : Nat :=
  8192 + 16384 * t.savedSlots.length + 3080 * t.savedBanks.length +
    (t.saved.map fun w => 0x340 + 256 * w.2.quota).foldl (· + ·) 0 + 64 * t.lpriv * t.blocks.length + t.scratch

/-- The 64 KiB units that some frames take (R390). -/
def frameUnits (ts : List Team) : Nat := (ts.map fun t => (frameBytes t + 65535) / 65536).foldl (· + ·) 0

/-- The units of a context's current frame set. -/
def Context.units (c : Context) : Nat := frameUnits ((c.frames.getD []).map (·.2))

/-- The units of a partition's context area in use: the frames of saved teams, and the two frame sets of each of its live
contexts (R390). -/
def contextUnits (s : State) (part : Nat) : Nat :=
  frameUnits ((s.teams.map (·.2)).filter fun t => t.live && t.core.isNone && s.partOf t = some part) +
  (s.contexts.map fun c =>
    if (find? s.grids c.1).any fun g => g.part == part && g.st != .ended then c.2.units + c.2.spare else 0).foldl (· + ·) 0

/-- The context area of 1.5 GiB has room for some frames more, so many of its units being free to take (R390). -/
def contextRoom (s : State) (part free : Nat) (ts : List Team) : Bool :=
  decide (contextUnits s part + frameUnits ts ≤ 24576 + free)

/-- The frame of a team of a partition has room. -/
def saveRoom (s : State) (team : Nat) : Bool :=
  match s.partOf (s.team team) with
  | some n => contextRoom s n 0 [teamImage s team]
  | none => true

/-- A saved team that no page keeps back becomes ready to restore, at the head of its queue (R352, R362). -/
def markReady (s : State) (team : Nat) : State :=
  let t := s.team team
  if t.ready && t.readyAt.isNone then
    { s.setTeam team { t with readyAt := some s.nextSeq } with nextSeq := s.nextSeq + 1 }
  else s

/-- A frame from which the rows and blocks are left out: they stand on the core, stale (R361). -/
def Team.leaveStale (t : Team) (core : Nat) : Team :=
  { t with
    savedBytes := [], staleRows := t.rowQuarters, staleBlocks := t.blockList
    stale := if t.rowQuarters.isEmpty && t.blockList.isEmpty then none else some core }

/-- The team leaves its core with its context in its frame, and its marks; its rows and blocks stand there as stale ones until
they are covered, but a page fault's save writes them at once (R361, R362, R364). -/
def saveTeam (s : State) (team : Nat) : State :=
  match (s.team team).core with
  | none => s
  | some k =>
    let t := teamImage s team
    let s := freeTeam (endResidency s team) team
    let s := (teamSlots s team k).foldl (fun s slot => dropWave s k slot) s
    markReady (settleReclaims (s.setTeam team (if t.posting.isEmpty then t.leaveStale k else t))) team

/-- The team's waves roll back to their commit points and issue nothing more (R304, R361). -/
def beginSave (s : State) (team : Nat) : State :=
  let t := s.team team
  match t.core with
  | none => s
  | some k =>
    let s := (teamSlots s team k).foldl (fun s slot =>
      if (s.wave k slot).ckpt.isSome then rollBackWave s k slot else s) s
    s.setTeam team { t with saving := true }

/-- The faults that a team is saved for are posted, and it awaits their pages (R362 step 4, R395). -/
def postFaults (s : State) (team core : Nat) : State :=
  let t := s.team team
  match s.gridOf t with
  | none => s
  | some g =>
    let pages := (t.posting.map fun f => f.1 / 65536).eraseDups
    if pages.isEmpty then s
    else
      let s := s.setTeam team { t with
        faulted := (t.faulted ++ pages).eraseDups, waiting := t.waiting ++ pages, readyAt := none, posting := [] }
      t.posting.foldl (fun s f => postOrKeep s g.part f.1 g.id f.2 core) s

/-- A save begun, or ended once the team is settled and the context area has room; its page faults are then posted. With no room
they are served with the team on its core (R362, R364, R390). -/
def stepSave (s : State) (team : Nat) : Option State :=
  let t := s.team team
  match t.core with
  | none => none
  | some k =>
    let s' := if t.saving then s else beginSave s team
    if saveable s' team k && saveRoom s' team then some (postFaults (saveTeam s' team) team k)
    else if saveable s' team k && !t.posting.isEmpty then
      some (postFaults (s'.setTeam team { s'.team team with saving := false }) team k)
    else if t.saving then none else some s'

/-- The class of a team's grid. -/
def classOf (s : State) (t : Team) : Nat := ((s.gridOf t).map (·.prio)).getD 0

/-- The classes of a partition's waiting teams. -/
def Waiting.cls (s : State) (w : Waiting) : Nat :=
  match w.needs s with
  | some (_, g, _) => g.prio
  | none => 0

/-- A waiting team of a higher class fits the core once a resident team leaves, and that team is the lowest-class one
whose departure gives the fit (R358). -/
def outranked (s : State) (team : Nat) : Bool :=
  let t := s.team team
  match t.core, s.partOf t with
  | some k, some n =>
    let gain (x : Nat) (w : Waiting) : Bool :=
      match w.needs s with
      | some (_, g, d) => (fits s k g d).isNone && (fits (saveTeam s x) k g d).isSome
      | none => false
    (queuesOf s n).any fun w =>
      decide (classOf s t < w.cls s) && gain team w &&
      (coreTeams s k).all fun x =>
        decide (classOf s t ≤ classOf s (s.team x)) || s.partOf (s.team x) ≠ some n || !gain x w
  | _, _ => false

/-- Firmware may have set a partition's slice to another length (R358): nothing in the spec says by which register or when,
so the model lets it happen whenever a slice expiry is tried, to a free value (log 6, log 56). -/
def firmwareSlice (s : State) (part : Nat) : State :=
  let (n, s) := s.draw
  let v := Config.freeNat n
  if 2 ^ 16 ≤ v ∧ v ≤ 2 ^ 24 then s.setPart part { s.part part with slice := v } else s

/-- `SLICE_EXPIRY` (R358): a team that has run one slice, with a team of its class or a higher one passed over, becomes
due. -/
def evSlice (team : Nat) (s : State) : Option State :=
  let t := s.team team
  match t.core, s.partOf t with
  | some k, some n =>
    let s := firmwareSlice s n
    let ran := (s.core k).clk.toNat - t.since
    if t.due.isSome || decide (ran < (s.part n).slice) ||
      !((queuesOf s n).any fun w => decide (classOf s t ≤ w.cls s) && (w.passed s).isSome) then none
    else some (s.setTeam team { t with due := some (s.core k).clk.toNat })
  | _, _ => none
/-- `SLICE_EXPIRY` (R358). -/
def execSliceExpiry (team : Nat) (s : State) : Host.Outcome State Fault Refusal := byEvent (evSlice team s) s

/-- A borrowed team on a cluster under reclaim (R360). -/
def reclaimed (s : State) (t : Team) : Bool :=
  match t.core, s.partOf t with
  | some k, some n => (find? s.device.reclaims (k / 8)).isSome && decide (clusterOwner s k ≠ some n)
  | _, _ => false

/-- `PREEMPTION` (R358, R360, R361): of a team that is due, that a higher class outranks, or that stands on a cluster under
reclaim; with LKCNT above 0 it runs on, unless its grid is pre-empted at a deadline. -/
def evPreempt (team : Nat) (s : State) : Option State :=
  let t := s.team team
  match t.core with
  | none => none
  | some k =>
    if !t.live || t.grid.isNone then none
    else if t.saving then stepSave s team
    else if reclaimed s t && decide (t.lkcnt = 0) then stepSave s team
    else if !t.due.isSome && !outranked s team then none
    else if t.lkcnt = 0 || t.forced then stepSave s team
    else if t.due.isSome then none
    else some (s.setTeam team { t with due := some (s.core k).clk.toNat })
/-- `PREEMPTION` (R361). -/
def execPreemption (team : Nat) (s : State) : Host.Outcome State Fault Refusal := byEvent (evPreempt team s) s

/-- Every team of a grid is to be pre-empted, whatever locks it holds (R358, R360). -/
def forceGrid (s : State) (h : Nat) : State :=
  { s with teams := mapVals (fun _ t =>
      if t.grid = some h && t.core.isSome then { t with due := some (t.due.getD 0), forced := true } else t) s.teams }

/-- `DEFERRAL_DEADLINE` (R358): 2^20 local cycles after the pre-emption fell due, with a lock still held. -/
def evDeferral (team : Nat) (s : State) : Option State :=
  let t := s.team team
  match t.core, t.grid, t.due with
  | some k, some h, some d =>
    if t.forced || decide (t.lkcnt = 0) || decide ((s.core k).clk.toNat < d + 2 ^ 20) then none else some (forceGrid s h)
  | _, _, _ => none
/-- `DEFERRAL_DEADLINE` (R358). -/
def execDeferralDeadline (team : Nat) (s : State) : Host.Outcome State Fault Refusal := byEvent (evDeferral team s) s

/-- The cores of a cluster that run a team of another partition than its owner, with those teams. -/
def borrowed (s : State) (cluster : Nat) : List (Nat × Nat) :=
  (List.range 8).flatMap fun i =>
    let k := 8 * cluster + i
    ((coreTeams s k).filter fun t =>
      (s.partOf (s.team t)).isSome && s.partOf (s.team t) ≠ clusterOwner s k).map fun t => (k, t)

/-- `RECLAIM` (R359, R360): the owner has a team that fits a lent core once the borrowed teams are off it; each borrowed team
of the cluster that holds no lock stops. -/
def evReclaim (cluster : Nat) (s : State) : Option State :=
  match clusterOwner s (8 * cluster) with
  | none => none
  | some o =>
    let s := settleReclaims s
    let bs := borrowed s cluster
    let wanted := (queuesOf s o).any fun w =>
      match w.needs s with
      | some (_, g, d) => bs.any fun b => (fits ((coreTeams s b.1).foldl saveTeam s) b.1 g d).isSome
      | none => false
    if bs.isEmpty || !wanted || (find? s.device.reclaims cluster).isSome then none
    else
      let s := { s with device := { s.device with reclaims := put s.device.reclaims cluster (s.die (cluster / 16)).clk } }
      some (bs.foldl (fun s b => if decide ((s.team b.2).lkcnt = 0) && !(s.team b.2).saving then beginSave s b.2 else s) s)
/-- `RECLAIM` (R360). -/
def execReclaim (cluster : Nat) (s : State) : Host.Outcome State Fault Refusal := byEvent (evReclaim cluster s) s

/-- `RECLAIM_DEADLINE` (R360): 2^20 cycles after the start, the grids of borrowed teams that still hold locks are
pre-empted whole. -/
def evReclaimDeadline (cluster : Nat) (s : State) : Option State :=
  match find? s.device.reclaims cluster with
  | none => none
  | some t =>
    let bs := (borrowed s cluster).filter fun b => decide (0 < (s.team b.2).lkcnt) && !(s.team b.2).forced
    if (s.die (cluster / 16)).clk < t + 2 ^ 20 || bs.isEmpty then none
    else some (bs.foldl (fun s b => match (s.team b.2).grid with
      | some h => forceGrid s h
      | none => s) s)
/-- `RECLAIM_DEADLINE` (R360). -/
def execReclaimDeadline (cluster : Nat) (s : State) : Host.Outcome State Fault Refusal :=
  byEvent (evReclaimDeadline cluster s) s

/-! ### Page faults (R362, R364, R395) -/

/-- The faults that a team's threads wait for: page address and kind. -/
def teamFaults (s : State) (team core : Nat) : List (Nat × Nat) :=
  ((s.core core).waves.flatMap fun w =>
    if w.2.team = team then (List.range 64).filterMap fun l =>
      match (w.2.thread l).hold with
      | .fault va kind => if (w.2.thread l).live then some (va, kind) else none
      | _ => none
    else []).eraseDups

/-- `PAGE_FAULT` (R362): the team of a wave that meets a missing translation is saved whole, and then each fault is posted. -/
def evFault (core slot : Nat) (s : State) : Option State :=
  let team := (s.wave core slot).team
  let t := s.team team
  let new := (teamFaults s team core).filter fun f => !t.waiting.contains (f.1 / 65536) && !t.posting.contains f
  if new.isEmpty || (s.gridOf t).isNone then none
  else
    let s := s.setTeam team { t with posting := t.posting ++ new }
    some ((stepSave s team).getD s)
/-- `PAGE_FAULT` (R362). -/
def execPageFault (core slot : Nat) (s : State) : Host.Outcome State Fault Refusal := byEvent (evFault core slot s) s

end Sys2Proof.Machine
end

