-- ==== Sys2Proof/Machine/Issue.lean ====
section
/-!
DEFINITION. What a quarter's selection finds: which threads are ready, which group issues, the fetch and the decoding of
its instruction, and what an issue counts (R17, R18, R38 to R40, R61 to R72, R78, R150 to R154, R291, R292, R300, R397).
-/
namespace Sys2Proof.Machine

/-! ### Lane registers that an instruction names (R18, R74, R206, R213) -/

/-- The lane registers of an operand of n registers. -/
def opndRegs (x : Nat × Opnd) : List Nat :=
  match x.2 with
  | .lane r => keysFrom r.toNat x.1
  | _ => []
/-- A pair as an operand. -/
def pairOpnd : Pair → Opnd
  | .lane k => .lane (BitVec.ofNat 7 (2 * k.toNat))
  | .unif k => .unif (BitVec.ofNat 6 (2 * k.toNat))
/-- The registers of a D field of n registers. -/
def dRegs (n : Nat) (d : BitVec 7) : List Nat := keysFrom d.toNat n

/-- The D field of an instruction with its registers; none where it has no D field. -/
def destOf : Instr → Option (Nat × BitVec 7)
  | .add _ d .. | .sub _ d .. | .mulLo _ d .. | .mulHi _ d .. | .madLo _ d .. | .min _ d .. | .max _ d .. | .absd _ d ..
  | .and _ d .. | .or _ d .. | .xor _ d .. | .andn _ d .. | .shl _ d .. | .shr _ d .. | .rot _ d .. | .bfe _ d ..
  | .bfi _ d .. | .popc _ d _ | .clz _ d _ | .ctz _ d _ | .brev _ d _ | .perm _ d .. | .idiv _ d .. | .irem _ d ..
  | .hadd _ d .. | .hsub _ d .. | .hmul _ d .. | .hfma _ d .. | .hmin _ d .. | .hmax _ d .. | .hdot2 _ d .. | .fabs _ d _
  | .fneg _ d _ | .dxq _ d .. | .dxqUnpack _ d .. | .sfu _ d .. | .atab _ d _ | .shfl _ d .. | .push _ d .. | .red _ d ..
  | .scan _ d .. | .ldblk _ d .. | .addi _ d .. | .lop3 _ d .. | .shflx _ d .. | .mscl _ d .. => some (1, d)
  | .addI64 _ d .. | .subI64 _ d .. | .mulWide _ d .. | .shlI64 _ d .. | .shrI64 _ d .. | .lea _ d .. => some (2, d)
  | .fadd _ d _ _ w | .fsub _ d _ _ w | .fmul _ d _ _ w | .ffma _ d _ _ w | .fmin _ d _ _ w | .fmax _ d _ _ w
  | .fdiv _ d _ _ w | .fsqrt _ d _ w | .movp _ d _ _ _ w | .mov _ d _ w | .movi _ d w _ | .ffma3 _ d _ _ _ w _
  | .ldw _ d _ w _ | .atom _ d _ _ w _ _ | .cas _ d _ _ _ w _ => some (wideRegs w, d)
  | .cvt _ d _ _ dst _ _ => some (numRegs dst, d)
  | .ld _ d _ z _ | .ldl _ d _ z _ | .lds _ d _ z _ | .ldc _ d _ z _ | .ldk _ d _ z _ | .ldg _ d _ z _
  | .ldx _ d _ z _ => some (z.regs, d)
  | .accRd _ _ d => some (16, BitVec.ofNat 7 (16 * d.toNat))
  | .voteBallot _ d _ => some (2, BitVec.ofNat 7 (2 * d.toNat))
  | .rdsr _ (.lane k) _ => some (2, BitVec.ofNat 7 (2 * k.toNat))
  | _ => none

/-- The source operands of an instruction with their numbers of registers, an address as its pair; D is not among them
(R73, R75). -/
def sources : Instr → List (Nat × Opnd)
  | .add _ _ a b _ | .sub _ _ a b _ | .mulLo _ _ a b | .mulHi _ _ a b _ | .madLo _ _ a b | .min _ _ a b _
  | .max _ _ a b _ | .absd _ _ a b _ | .and _ _ a b | .or _ _ a b | .xor _ _ a b | .andn _ _ a b | .shl _ _ a b
  | .shr _ _ a b _ | .rot _ _ a b | .bfe _ _ a b _ | .bfi _ _ a b | .perm _ _ a b | .mulWide _ _ a b _
  | .idiv _ _ a b _ | .irem _ _ a b _ | .hadd _ _ a b _ | .hsub _ _ a b _ | .hmul _ _ a b _ | .hfma _ _ a b _
  | .hmin _ _ a b _ | .hmax _ _ a b _ | .hdot2 _ _ a b _ | .cmpI32 _ _ _ a b | .cmpN32 _ _ _ a b | .cmpF32 _ _ _ a b
  | .atld _ a b => [(1, a), (1, b)]
  | .popc _ _ a | .clz _ _ a | .ctz _ _ a | .brev _ _ a | .fabs _ _ a | .fneg _ _ a | .dxq _ _ a _ | .dxqUnpack _ _ a _
  | .sfu _ _ a _ | .atab _ _ a | .shfl _ _ a _ _ | .push _ _ a _ _ | .red _ _ a _ | .scan _ _ a _ _ | .barArrive _ _ a
  | .barWait _ _ a | .barBoth _ _ a | .spawn _ a _ | .bri _ a _ | .chk _ a _ _ | .addi _ _ a _ _ => [(1, a)]
  | .addI64 _ _ a b | .subI64 _ _ a b | .cmpF64 _ _ _ a b | .cmpI64 _ _ _ a b => [(2, a), (2, b)]
  | .shlI64 _ _ a b | .shrI64 _ _ a b _ | .lea _ _ a b _ _ _ => [(2, a), (1, b)]
  | .fadd _ _ a b w | .fsub _ _ a b w | .fmul _ _ a b w | .ffma _ _ a b w | .fmin _ _ a b w | .fmax _ _ a b w
  | .fdiv _ _ a b w => [(wideRegs w, a), (wideRegs w, b)]
  | .fsqrt _ _ a w | .movp _ _ a _ _ w | .mov _ _ a w | .fcls _ _ a _ w => [(wideRegs w, a)]
  | .cvt _ _ a src _ _ _ => [(numRegs src, a)]
  | .lop3 _ _ a b c _ | .shflx _ _ a b c | .mscl _ _ a b c _ _ => [(1, a), (1, b), (1, c)]
  | .ffma3 _ _ a b c w _ => [(wideRegs w, a), (wideRegs w, b), (wideRegs w, c)]
  | .ld _ _ a _ _ | .ldl _ _ a _ _ | .lds _ _ a _ _ | .ldc _ _ a _ _ | .ldk _ _ a _ _ | .ldg _ _ a _ _ | .ldx _ _ a _ _
  | .ldblk _ _ a _ | .ldw _ _ a _ _ | .acq _ a _ | .rel _ a _ | .launch _ a _ => [(2, pairOpnd a)]
  | .st _ a x z _ | .stl _ a x z _ | .sts _ a x z _ | .stc _ a x z _ | .stk _ a x z _ | .stg _ a x z _
  | .stx _ a x z _ => [(2, pairOpnd a), (z.regs, x)]
  | .cmpst _ a x w => [(2, pairOpnd a), (wideRegs w, x)]
  | .atom _ _ a b w _ _ => [(2, pairOpnd a), (wideRegs w, b)]
  | .cas _ _ a b c w _ => [(2, pairOpnd a), (wideRegs w, b), (wideRegs w, c)]
  | .mma _ _ _ b f _ _ _ => [((mmaBlockLen f + 3) / 4, .lane (BitVec.ofNat 7 (8 * b.toNat)))]
  | .cpy _ dst src xf len => [(2, pairOpnd dst), (2, pairOpnd src), (1, len)] ++ (match xf with
      | .none => []
      | .expand m => [(2, pairOpnd m)]
      | .compact m => [(2, pairOpnd m)])
  | .wrsr _ _ a => [(2, a)]
  | .thset _ _ q => [(4, .unif (BitVec.ofNat 6 (4 * q.toNat)))]
  | _ => []

/-- The rows that an instruction writes: its D, but for the uniform register of a UNI clause (R20, R65). -/
def destRows (uni : Bool) (i : Instr) : List Nat :=
  if uni then [] else match destOf i with
    | some (n, d) => dRegs n d
    | none => []

/-- The instruction names a lane register at or above the wave's quota (R18). -/
def overQuota (quota : Nat) (uni : Bool) (i : Instr) : Bool :=
  ((sources i).flatMap opndRegs ++ destRows uni i).any fun r => decide (quota ≤ r)

/-- Instructions that read D, too (R117, R119 to R121, R180, R216). -/
def readsDest : Instr → Bool
  | .madLo .. | .bfi .. | .perm .. | .ffma .. | .hfma .. | .hdot2 .. | .mscl .. | .ldw .. => true
  | _ => false

/-- The uniform registers of an operand of n registers. -/
def opndUnis (x : Nat × Opnd) : List Nat :=
  match x.2 with
  | .unif r => keysFrom r.toNat x.1
  | _ => []

/-- A group's instruction reads a register word that its code could not correct (R401). -/
def readsBad (w : Wave) (cur : Cursor) (i : Instr) : Bool :=
  let rows := (sources i).flatMap opndRegs ++ if readsDest i then destRows cur.uni i else []
  let unis := (sources i).flatMap opndUnis ++
    if readsDest i && cur.uni then ((destOf i).map fun x => dRegs x.1 x.2).getD [] else []
  (rows.any fun r => (lanesOf cur.active).any fun l => w.bad.contains (64 * r + l)) ||
  unis.any fun r => w.bad.contains (8192 + r)

/-! ### Ready threads (R63, R70, R150 to R155) -/

/-- A parked `acq` issues again once its lock word reads 0, or once its address maps to no word (R185). -/
def acqEnds (s : State) (core slot l va : Nat) : Bool :=
  let w := s.wave core slot
  match checkRange s { core := core, lane := l, wave := w, team := s.team w.team } none true va 4 with
  | .ok keys _ => decide (readKeys s keys = 0)
  | _ => true

/-- The tokens that a group waits for are there, or an address among them no longer maps to its byte (R276, R289). -/
def tokensEnd (s : State) (core slot : Nat) (write : Bool) (need : List (Nat × Nat)) : Bool :=
  let part := s.partOf (s.team (s.wave core slot).team)
  (missingKey (s.core core) write need).isNone ||
  need.any fun x => ((dataLeaf s core part x.1).map (·.pa)) != some x.2

/-- What holds the thread of a lane has ended. -/
def holdEnds (s : State) (core slot l : Nat) (w : Wave) (t : Thread) : Bool :=
  let c := s.core core
  let q := slot / 16
  let done (m : Mask) (n : Nat) : Bool := (lanesOf (m &&& w.liveMask)).all fun l => decide (unfinished (w.thread l) ≤ n)
  match t.hold with
  | .none => true
  | .header m wm wb =>
    !(wm && matrixBusy { s with cur := { core := core, slot := slot } }) && (match wb with
      | some n => done m n
      | none => true)
  | .commit => w.quiet && w.effects.isEmpty
  | .ckpt => w.ckpt.isNone && !w.uncLoad
  | .buffer => w.sbuf.isEmpty || decide ((w.sbuf.map entryCost).foldl (· + ·) 0 < 32)
  | .barOwn .. | .barNext .. => barEnds (s.team w.team) t
  | .rq n => decide (n ≤ w.quota + rqPool s core slot)
  | .spawn entry => (binFor c w.team entry).isSome
  | .acq va => acqEnds s core slot l va
  | .event id => !(w.sbuf.any fun e => e.id == id)
  | .frame => !(w.sbuf.any fun e => e.op == .frame)
  | .batches m n => done m n
  | .tokens write need => tokensEnd s core slot write need
  | .drain ids => !(c.copies.any fun x => ids.contains x.op.id)
  | .rmark => !(match ctxOf s (s.team w.team) with
      | some k => (s.context k).closing
      | none => false)
  | .bank n =>
    let x := c.quarter q
    let before (u : Thread) : Bool := u.live && !u.trapHeld && (match u.hold with
      | .bank m => decide (m < n)
      | _ => false)
    x.switching.isNone && decide (x.bankFree ≤ c.clk.toNat) && !(c.waves.any fun kw => decide (kw.1 / 16 = q) &&
      !(s.team kw.2.team).saving && (List.range 64).any fun i => before (kw.2.thread i))
  | .exchange g => (c.quarter q).atgen ≠ g
  | .clear t => decide (t ≤ c.clk.toNat)
  | _ => false

/-- A thread is ready (R150). -/
def threadReady (s : State) (core slot : Nat) (w : Wave) (l : Nat) : Bool :=
  let t := w.thread l
  t.live && !t.trapHeld && !(t.wait.any fun id => w.pend.any fun p => p.id == id) && holdEnds s core slot l w t

/-- The wave stands at a commit point for a save or for the close of its context's interval, and issues nothing (R361,
R407). -/
def waveStopped (s : State) (w : Wave) : Bool :=
  let t := s.team w.team
  t.saving || (w.ckpt.isNone && (match ctxOf s t with
    | some k => (s.context k).closing
    | none => false))

/-- The lowest PC of some lanes' threads. -/
def lowestPC (w : Wave) (ls : List Nat) : Nat := ls.foldl (fun n l => min n (w.thread l).pc.toNat) (2 ^ 64)

/-- The threads at the lowest PC of those in `from_`, taken from `ready`. -/
def groupAt (w : Wave) (ready from_ : List Nat) : Mask :=
  let pc := lowestPC w from_
  maskOf (ready.filter fun l => decide ((w.thread l).pc.toNat = pc))

/-- The issue group of a wave, 0 where none is ready or its team is to be restored elsewhere (R402): the ready threads at the
lowest PC among those not demoted (R150);
in strict mode Run, once no thread of it waits but at an `acq` (R154). R152's bound follows from R151 for the loops that R151
speaks of; for a loop that stores or branches forward nothing more is done (log 104). -/
def groupOf (s : State) (core slot : Nat) : Mask :=
  let w := s.wave core slot
  if waveStopped s w || (s.team w.team).fencedOff then 0
  else
    let ready := (List.range 64).filter (threadReady s core slot w)
    if (s.core core).strict then
      let waits := (List.range 64).any fun l =>
        let t := w.thread l
        t.live && !t.trapHeld && !ready.contains l && (match t.hold with
          | .parked _ | .acq _ => false
          | _ => true)
      if waits then 0 else groupAt w ready ready
    else
      let fresh := ready.filter fun l => !(w.thread l).demoted
      groupAt w ready (if fresh.isEmpty then ready else fresh)

/-! ### The fetch (R38, R40, R276) -/

/-- What a fetch of a word meets. -/
inductive Fetch
  | ok
  | trap (t : TrapInfo)
  | miss (va : Nat)
  deriving DecidableEq, Repr

/-- An address in the firmware code region of a core in strict mode, fetched untranslated (R40). -/
def inFirmware (c : Core) (va : Nat) : Bool :=
  let base := (look (BitVec.ofNat 64 Config.fwBase) c.fw 4).toNat
  let len := (look (BitVec.ofNat 64 Config.fwLen) c.fw 5).toNat
  c.strict && decide (base ≤ va) && decide (va < base + len)

/-- The check of a fetch (R38, R40): the firmware's region, or a sealed page. -/
def fetchCheck (s : State) (core slot va : Nat) : Fetch :=
  if inFirmware (s.core core) va then .ok
  else match windowOf va with
    | none => .trap { cause := 8, sub := 1, addr := va }
    | some win =>
      if !win.translated then .trap { cause := 8, sub := 6, addr := va }
      else match translate s core (s.partOf (s.team (s.wave core slot).team)) va with
        | none => .miss va
        | some l => if l.sealed_ then .ok else .trap { cause := 8, sub := 6, addr := va }

/-- The TLB takes an entry for a translated fetch (R276). -/
def fetchFill (s : State) (core slot va : Nat) : State :=
  if inFirmware (s.core core) va then s else tlbFill s core (s.partOf (s.team (s.wave core slot).team)) va

/-! ### The selected group's step -/

/-- What the selected group does: the clause-entry step, an instruction, or something that keeps it from issuing. -/
inductive Pick
  | entry
  | issue (i : Instr)
  | hold (h : Hold)
  | trap (t : TrapInfo) (fetched : Bool)
  | miss (va : Nat)
  deriving DecidableEq, Repr

/-- The pick that a fetch allows. -/
def Fetch.pick (f : Fetch) (k : Pick) : Pick :=
  match f with
  | .ok => k
  | .trap t => .trap t false
  | .miss va => .miss va

/-- Rows that a region must shadow anew before an instruction writes them (R292). -/
def newShadows (w : Wave) (uni : Bool) (i : Instr) : List Nat :=
  match w.ckpt with
  | some k => (destRows uni i).filter fun r => !k.shadows.contains r
  | none => []

/-- Shadow rows in use in a quarter (R292). -/
def shadowsUsed (c : Core) (q : Nat) : Nat :=
  c.waves.foldl (fun n kw => if kw.1 / 16 = q then n + ((kw.2.ckpt.map (·.shadows.length)).getD 0) else n) 0

/-- The rows that a region needs for an instruction: of one that it issues in, or that its access opens (R291, R292). -/
def rowsNeeded (w : Wave) (cur : Cursor) (i : Instr) : List Nat :=
  if w.ckpt.isSome then newShadows w cur.uni i
  else if opClass (opcodeOf cur.w0.toNat) = .mem && (w.unperformed || w.careful) then destRows cur.uni i
  else []

/-- The group waits at the commit-first instruction that it has issued already, a `drain` (R196). -/
def allDraining (w : Wave) (cur : Cursor) : Bool :=
  (lanesOf cur.active).all fun l => match (w.thread l).hold with
    | .drain _ => true
    | _ => false

/-- What keeps a decoded instruction back: the quota (R18), a register word in error (R401), 256 instructions in the region
(R291), a commit-first instruction's conditions (R300), shadow rows (R292). -/
def pickIssue (s : State) (cur : Cursor) (i : Instr) : Pick :=
  let w := s.wave cur.core cur.slot
  let rows := rowsNeeded w cur i
  let held := ((w.ckpt.map (·.shadows.length)).getD 0)
  if overQuota w.quota cur.uni i then .trap { cause := 0x10, sub := 0, addr := 0 } true
  else if !w.bad.isEmpty && readsBad w cur i then .trap { cause := 0x0D, sub := 0, addr := 0 } true
  else if w.ckpt.isSome && decide (256 ≤ w.region) then .hold .ckpt
  else if opCommitFirst (opcodeOf cur.w0.toNat) && !(w.quiet && w.effects.isEmpty) && !allDraining w cur then .hold .commit
  else if !rows.isEmpty && (decide (16 < held + rows.length) ||
      decide (32 < shadowsUsed (s.core cur.core) (cur.slot / 16) + rows.length)) then .hold .ckpt
  else .issue i

/-- The class of a cursor's clause. -/
def clauseClass (s : State) (cur : Cursor) : Option Cls :=
  (decodeHeader (codeWord s cur.core cur.slot cur.hdr.toNat)).map (·.cls)

/-- The cursor of a group that is about to issue (R61, R65). -/
def groupCursor (s : State) (core slot : Nat) (m : Mask) : Cursor :=
  let t := (s.wave core slot).thread ((lanesOf m).headD 0)
  let c := cursorAt s core slot t.pc t.hdr m
  { c with uni := decide (clauseClass s c = some .uni) && opVU (opcodeOf c.w0.toNat) }

/-- What a group with its cursor does. -/
def pick (s : State) (cur : Cursor) : Pick :=
  let w := s.wave cur.core cur.slot
  if (lanesOf cur.active).any fun l => (w.thread l).owes != .nothing then
    (fetchCheck s cur.core cur.slot cur.hdr.toNat).pick .entry
  else
    let second := if twoWord (opcodeOf cur.w0.toNat) then fetchCheck s cur.core cur.slot (cur.pc.toNat + 4) else .ok
    (fetchCheck s cur.core cur.slot cur.pc.toNat).pick (second.pick (
      match clauseClass s cur with
      | none => .trap { cause := 1, sub := 6, addr := 0 } true
      | some cls =>
        match decodeIn cls cur.isLast cur.w0.toNat cur.w1.toNat with
        | .error r => .trap { cause := 1, sub := r.subcode, addr := 0 } true
        | .ok i => pickIssue s cur i))

/-! ### Selection (R150) -/

/-- A core runs: none does once a start has failed, and in minimal mode only those of cluster 0 (R414, R415). -/
def coreRuns (s : State) (core : Nat) : Bool := !s.device.failed && (!s.device.minimal || decide (core < 8))

/-- The first slot of a quarter, after the one selected last, whose wave has a ready thread, with its group. -/
def quarterPick (s : State) (core q : Nat) : Option (Nat × Mask) :=
  let c := s.core core
  (List.range 16).findSome? fun i =>
    let slot := 16 * q + ((c.quarter q).last + 1 + i) % 16
    if (find? c.waves slot).isNone then none
    else
      let m := groupOf s core slot
      if m = 0 then none else some (slot, m)

/-- A core's next selection: of the quarter whose port is free first among those with a ready group, the lowest; with the
clock at which it takes place. -/
def nextSelection (s : State) (core : Nat) : Option (Nat × Nat × Mask) :=
  let c := s.core core
  (List.range (if coreRuns s core then 4 else 0)).foldl (fun (b : Option (Nat × Nat × Mask)) q =>
    match quarterPick s core q with
    | none => b
    | some (slot, m) =>
      let t := max c.clk.toNat (c.quarter q).free
      match b with
      | some (t', _, _) => if t' ≤ t then b else some (t, slot, m)
      | none => some (t, slot, m)) none

/-- Clocks that an issue holds its port for (R150): 2 for the classes VALU, MEM and XSF, else 1. -/
def portClocks (cur : Cursor) : Nat :=
  if cur.uni then 1
  else match opClass (opcodeOf cur.w0.toNat) with
    | .valu | .mem | .xsf => 2
    | _ => 1

/-- The selection made: the clock, the quarter's last slot and its port, and the running step's cursor. -/
def takeSelection (s : State) (core slot t ports : Nat) (cur : Cursor) : State :=
  let q := slot / 16
  let c := { s.core core with clk := BitVec.ofNat 64 t }
  { s.setCore core (c.setQuarter q { c.quarter q with last := slot % 16, free := t + ports }) with cur := cur }

/-- The threads of the running group stop being demoted (R150). -/
def undemote (s : State) : State := s.setCw (s.cw.mapThreads (fun _ t => { t with demoted := false }) s.lanes)

/-- A group held back: lanes that wait at a `drain` already keep their own wait (R196). -/
def holdBack (h : Hold) (s : State) : State :=
  let fresh := s.lanes.filter fun l => match (s.cw.thread l).hold with
    | .drain _ => false
    | _ => true
  s.setCw (s.cw.mapThreads (fun _ t => { t with hold := h }) fresh)

/-- The group, once it has acted, waits at its PC to issue the instruction it was selected for; where some of its lanes have
gone on from an `acq`, it has issued (R185, R291). -/
def waitsToIssue (s : State) : Bool := s.lanes.all fun l =>
  let t := s.cw.thread l
  decide (t.pc = s.cur.pc) && (match t.hold with
    | .commit | .ckpt | .buffer | .rq _ | .spawn _ | .batches .. | .tokens .. | .drain _ | .fault .. | .bank _ | .clear _ => true
    | _ => false)

/-- What an issue adds to its wave's region, the access that opens it among them: an instruction, and the rows it shadows
(R291, R292); of a second pass one issue is gone (R298). -/
def countRegion (i : Instr) (uni : Bool) (w : Wave) : Wave :=
  { w with
    pass := w.pass - 1
    region := if w.ckpt.isSome then w.region + 1 else w.region
    ckpt := w.ckpt.map fun k => { k with shadows := k.shadows ++ newShadows w uni i } }

/-- What an issue counts: the metered selection (R397), the region's instruction, the end of the wait for a mismatch's next
attempt and of a restored team's first issue (R402, R403). `part` is the partition when the group issued. -/
def countIssue (i : Instr) (part : Option Nat) (s : State) : State :=
  let here := s.hasWave s.cur.core s.cur.slot
  if here && waitsToIssue s then s
  else
    let s := meter s (s.cur.core / 128) part .vis 1
    if !here then s
    else
      let c := s.cc
      let s := if c.mismatches.isEmpty then s
        else s.setCore s.cur.core { c with mismatches := c.mismatches.filter (· ≠ (s.cur.slot, s.cur.pc.toNat)) }
      let t := s.ct
      let s := if t.retry then s.setCt { t with retry := false } else s
      s.setCw (countRegion i s.cur.uni s.cw)

end Sys2Proof.Machine
end

