-- ==== Sys2Proof/Machine/Recovery.lean ====
section
/-!
DEFINITION. Recovery intervals of a context, its rollback after poison, and the errors that the units' checks find (R305, R400
to R410).
-/
namespace Sys2Proof.Machine

/-! ### Intervals (R405 to R407) -/

/-- The live teams of a context. -/
def ctxTeams (s : State) (ctx : Nat) : List Nat :=
  (s.teams.filter fun t => t.2.live && ctxOf s t.2 == some ctx).map (·.1)

/-- The grids of a context that have not ended. -/
def ctxGrids (s : State) (ctx : Nat) : List (Nat × Grid) := s.grids.filter fun g => g.2.ctx == ctx && g.2.st != .ended

/-- A team is at a commit point with its effects released, and its copies and accepted `mma` have completed (R407 steps 1
and 2). -/
def teamClosed (s : State) (team : Nat) : Bool :=
  match (s.team team).core with
  | none => true
  | some k =>
    let c := s.core k
    (c.waves.all fun w => w.2.team != team || settled w.2) && (c.mmas.all fun m => m.team != team) &&
    c.copies.all fun x => x.op.team != team

/-- `INTERVAL_CLOSE` (R231, R407): every team of the context is copied into the older frame set, the log's entries are
discarded and RIVL adds 1; groups at `rmark` go on. A close that finds too little space leaves the interval open (R390). -/
def evClose (part ctx : Nat) (s : State) : Option State :=
  let c := s.context ctx
  let ts := ctxTeams s ctx
  let s := ts.foldl flushStale s
  if !c.closing || (find? s.grids ctx).map (·.part) ≠ some part || !ts.all (teamClosed s) then none
  else if !contextRoom s part c.spare (ts.map (teamImage s)) then some (s.setContext ctx { c with closing := false })
  else some (s.setContext ctx { c with
    rivl := c.rivl + 1, log := [], frames := some (ts.map fun t => (t, teamImage s t)), grids := ctxGrids s ctx
    spare := c.units, closing := false, rolledBack := false })
/-- `INTERVAL_CLOSE` (R407). -/
def execIntervalClose (part ctx : Nat) (s : State) : Host.Outcome State Fault Refusal := byEvent (evClose part ctx s) s

/-! ### Rollback (R408 to R410) -/

/-- The copies and `mma` of a team are aborted without writing (R408 step 1). -/
def abortEngines (s : State) (team : Nat) : State :=
  match (s.team team).core with
  | none => s
  | some k =>
    let c := moveCopies s (s.core k)
    let gone := (c.mmas.filter fun m => m.team == team).filterMap (·.lock)
    let copies := c.copies.filter fun x => x.op.team == team
    let c := (clearLocks c (gone ++ copies.flatMap (·.entries))).freed
    s.setCore k { c with
      copies := c.copies.filter fun x => x.op.team != team, mmas := c.mmas.filter fun m => m.team != team
      mmaWait := c.mmaWait.filter fun m => m.team != team }

/-- A team stops with nothing performed (R396, R408): waves, effects, buffered stores and engine operations go. -/
def discardTeam (s : State) (team : Nat) : State :=
  let t := s.team team
  match t.core with
  | none =>
    let s := scrubStale s team
    s.setTeam team { s.team team with
      live := false, saved := [], savedBytes := [], savedSlots := [], savedBanks := [], savedBins := [], launches := [] }
  | some k =>
    let s := abortEngines s team
    let s := (teamSlots s team k).foldl (fun s slot => dropWave s k slot) s
    let s := freeTeam (endResidency s team) team
    s.setTeam team { s.team team with live := false, saving := false, posting := [], launches := [] }

/-- A line is invalidated in every cache, with no write-back, and its messages in flight go; requests that the cores still have
outstanding come again (R408 step 2). The other line of a G256 pair leaves the LLC with it, as any does (R267). -/
def invalidateLine (s : State) (line : Nat) : State :=
  let about (m : Msg) : Bool := match m with
    | .recall _ l | .tok _ _ _ l _ | .notice _ _ l _ | .done _ l .. | .fwd _ _ l .. | .rds _ l _ | .rdx _ l _ | .upg _ l _ | .evs _ l
    | .eve _ l | .wbm _ l _ | .wbo _ l _ | .fwds _ _ l | .fwdx _ _ l | .inv _ l | .binv _ l | .data _ l ..
    | .ack _ l .. => l == line
    | _ => false
  let core (_ : Nat) (c : Core) : Core := loseLineMarks (c.setLine line []) line fun _ => true
  let die (_ : Nat) (d : Die) : Die :=
    { d with noticeBuf := d.noticeBuf.filter (·.line != line)
             arbiter := d.arbiter.map fun p => if p.line = line then { p with active := false } else p }
  let s := { s with
    cores := mapVals core s.cores, dies := mapVals die s.dies, msgs := s.msgs.filter fun m => !about m
    frames := (List.range 8).foldl (fun m d => del m (8 * line + d)) s.frames
    dirs := del s.dirs line, llc := put s.llc line ((look (0, 0) s.llc line).1, 0) }
  llcEvict s line

/-- Logged entries of some contexts, newest first. -/
def insertNewest (e : LogEntry) : List LogEntry → List LogEntry
  | [] => [e]
  | x :: r => if x.seq < e.seq then e :: x :: r else x :: insertNewest e r

/-- The controllers write each logged old value back (R408 step 3). -/
def replayLog (s : State) (ctxs : List Nat) : State :=
  let es := (ctxs.flatMap fun k => (s.context k).log).foldl (fun l e => insertNewest e l) []
  es.foldl (fun s e =>
    let s := invalidateLine s e.line
    let keys := keysFrom (128 * e.line) 128
    clearPoison (writeBytes (writeDram s e.line 15) (128 * e.line) e.old) keys) s

/-- A grid as it stood at the close, with what the interval cannot take back (R408, R409). -/
def restoreGrid (s : State) (h : Nat) (old : Grid) : State :=
  match find? s.grids h with
  | none => s
  | some g => s.setGrid h { g with
      st := old.st, nextTeam := old.nextTeam, liveTeams := old.liveTeams, retiredTeams := old.retiredTeams
      triggeredTeams := old.triggeredTeams, liveChildren := old.liveChildren, status := old.status, trap := old.trap
      copyErr := old.copyErr, passed := none }

/-- The teams of one context restored from its current frame set, and the child grids of the open interval discarded (R408
step 4). -/
def restoreContext (s : State) (ctx : Nat) : State :=
  let c := s.context ctx
  match c.frames with
  | none => s
  | some ts =>
    let s := { s with grids := s.grids.filter fun g => g.2.ctx != ctx || g.2.st == .ended || (find? c.grids g.1).isSome }
    let s := c.grids.foldl (fun s g => restoreGrid s g.1 g.2) s
    let s := ts.foldl (fun s t =>
      markReady (s.setTeam t.1 { t.2 with waiting := [], passed := none, due := none, readyAt := none }) t.1) s
    s.setContext ctx { c with log := [], closing := false, rolledBack := true }

/-- Contexts rolled back together: their teams stop, the log is replayed, the teams are restored; a context without a
closed interval ends its grids with status 2, cause 0x0D (R408, R410). -/
def rollBackContexts (s : State) (ctxs : List Nat) : State :=
  let (closed, open_) := ctxs.partition fun k => (s.context k).frames.isSome
  let s := open_.foldl (fun s k => endGrid 2 (some ({ cause := 0x0D, sub := 0, addr := 0 }, 0, 0, 0)) 12 s k) s
  let s := closed.foldl (fun s k => (ctxTeams s k).foldl discardTeam s) s
  closed.foldl restoreContext (replayLog s closed)

/-- The live contexts of a partition: its job (R405). -/
def jobContexts (s : State) (part : Nat) : List Nat :=
  (s.grids.filter fun g => g.2.part == part && g.2.parent.isNone && g.2.st != .ended).map (·.1)

/-- A wave consumes poison: a group holds for it, or an access that would perform meets it (R270, R401, R408). -/
def consumesPoison (s : State) (core slot : Nat) : Bool :=
  let w := s.wave core slot
  heldByPoison w ||
  (w.pend.any fun p => consumed w p && match p.src with
    | .load _ acc | .block _ acc | .wait _ acc .. => (match readState s core slot p acc with
      | .trap t => t.cause == 0x0D
      | _ => false)
    | _ => false) ||
  (match w.sbuf with
    | [] => false
    | e :: _ =>
      if e.spec then gathered s core slot && (match performAll core slot w.sbuf s with
        | .error (_, .trap t) => t.cause == 0x0D
        | _ => false)
      else match entryBlock s core slot e with
        | some (.trap t) => t.cause == 0x0D
        | _ => false)

/-- The contexts that the rollback of one takes with it: all of the partition if its log holds a shared entry (R408). -/
def rollbackScope (s : State) (part ctx : Nat) : List Nat :=
  if (s.context ctx).log.any (·.shared) then (ctx :: jobContexts s part).eraseDups else [ctx]

/-- `CONTEXT_ROLLBACK` (R408, R410): a wave of the context consumes poison, and the context has a closed interval and has
not rolled back in its current one. -/
def evContextRollback (part ctx : Nat) (s : State) : Option State :=
  let c := s.context ctx
  if (find? s.grids ctx).map (·.part) ≠ some part || c.frames.isNone || c.rolledBack then none
  else if s.cores.any fun k => k.2.waves.any fun w =>
      ctxOf s (s.team w.2.team) == some ctx && consumesPoison s k.1 w.1 then
    some (rollBackContexts s (rollbackScope s part ctx))
  else none
/-- `CONTEXT_ROLLBACK` (R408). -/
def execContextRollback (part ctx : Nat) (s : State) : Host.Outcome State Fault Refusal :=
  byEvent (evContextRollback part ctx s) s

/-- A team handled as a consumption of poison: its context rolls back, or, where R408 cannot, its grid ends with status 2,
cause 0x0D (R411). -/
def poisonTeam (s : State) (team : Nat) : State :=
  let t := s.team team
  if !t.live then s
  else match poisonRollsBack s team, s.partOf t, t.grid with
    | some k, some n, _ => rollBackContexts s (rollbackScope s n k)
    | _, _, some h => endFamily 2 (some ({ cause := 0x0D, sub := 0, addr := 0 }, 0, 0, 0)) s h
    | _, _, none => stopTeam s team

/-! ### Errors that the units' checks find (R305, R400 to R403) -/

/-- A mismatch in an instruction of a wave: remembered, until the attempt that follows is over; a second one in it makes
firmware fence the quarter and save the team, for another core to restore it (R402). -/
def mismatchAt (s : State) (core slot : Nat) (pc : DWord) : State :=
  let k := s.core core
  let id := (slot, pc.toNat)
  let team := (s.wave core slot).team
  let rest := k.mismatches.filter (· ≠ id)
  if k.mismatches.contains id && (s.team team).grid.isSome then
    beginSave (fenceQuarter (s.setCore core { k with mismatches := rest }) core (slot / 16) team) team
  else s.setCore core { k with mismatches := id :: rest }

/-- A mismatch in the instruction that a wave issues next (R305, R402, R403): its result is discarded, and with a live
checkpoint the wave rolls back; after a fence the trap 0x0C is raised. -/
def issueMismatch (core slot : Nat) (s : State) : Option State :=
  let w := s.wave core slot
  let team := s.team w.team
  let m := groupOf s core slot
  if m = 0 then none
  else
    let c := groupCursor s core slot m
    match pick s c with
    | .issue _ =>
      if team.retry then
        let cur := s.cur
        some { raiseTrapWith { cause := 0x0C, sub := 0, addr := 0 } true []
            { s.setTeam w.team { team with retry := false } with cur := c } with cur := cur }
      else some (mismatchAt (if w.ckpt.isSome then rollBackWave s core slot else s) core slot c.pc)
    | _ => none

/-- A mismatch in the chunk that the copy engine has moved last for its k-th copy: it is moved again (R402). -/
def copyMismatch (core k : Nat) (s : State) : Option State :=
  let c := moveCopies s (s.core core)
  match c.copies[k]? with
  | none => none
  | some x =>
    if !x.active || decide (x.left = x.op.dense) || !s.hasWave core x.op.slot then none
    else
      let x' := { x with left := min x.op.dense (x.left + 128) }
      some (mismatchAt (s.setCore core { c with copies := c.copies.set k x' }) core x.op.slot x.op.pc)

/-- The words of a line for which some records hold tokens or dirty bits. -/
def heldKeys (line : Nat) (rs : List Span) : List Nat :=
  rs.flatMap fun r => if r.tk = 0 && !r.o && r.dm = 0 then [] else keysFrom (128 * line + 4 * r.f) (4 * r.n)

/-- A tag in error: the words of the line for which its frame held tokens are poison, and their tokens are reset at the home
(R401). -/
def tagError (s : State) (line : Nat) (rs : List Span) : Option State :=
  match heldKeys line rs with
  | [] => none
  | keys => some (addPoison (claimLine s line) keys)

/-- `PIPELINE_ERROR` (R305, R400 to R403): what the check of a unit finds in a use of it. A word that its code cannot correct
is as poison; one that it corrects changes nothing. -/
def evPipeline (core : Nat) (u : CheckUnit) (s : State) : Option State :=
  let c := s.core core
  let bad (slot n : Nat) : Option State :=
    let w := s.wave core slot
    if w.bad.contains n || !s.hasWave core slot then none else some (s.setWave core slot { w with bad := n :: w.bad })
  let poison (keys : List Nat) : Option State := if (firstPoison s keys).isSome then none else some (addPoison s keys)
  match u with
  | .result slot => if s.hasWave core slot then issueMismatch core slot s else none
  | .sent slot =>
    let w := s.wave core slot
    w.sent.map fun c => raiseEarlier (s.setWave core slot { w with sent := none }) core slot
      { cause := 0x0C, sub := 0, addr := 0 } s.fresh c.pc c.hdr c.active
  | .copy k => copyMismatch core k s
  | .lane slot r l => if r < (s.wave core slot).quota && decide (l < 64) then bad slot (64 * r + l) else none
  | .uniform slot r => if r < 64 then bad slot (8192 + r) else none
  | .acc n i =>
    match find? c.acc n with
    | some a =>
      if a.bad.contains i || decide (4096 ≤ i) then none
      else some (s.setCore core { c with acc := put c.acc n { a with bad := i :: a.bad } })
    | none => none
  | .onChip key => if onChip ≤ key then poison [key] else none
  | .cache pa => if (find? c.l1 (pa / 128)).isSome || (find? s.llc (pa / 128)).isSome || (List.range 8).any (fun d =>
      decide ((s.frame d (pa / 128)).st ≠ .i)) then poison [pa] else none
  | .l1Tag line => tagError s line (c.line line)
  | .sliceTag die line => if die < 8 && decide ((s.frame die line).st ≠ .i) then tagError s line (s.frame die line).recs else none
  | .symbols stack chunk pins =>
    if stack < 16 && pins.all (fun p => decide (p < 4096)) then
      some { s with hbmStacks := modify {} s.hbmStacks stack fun x =>
        { x with wrong := x.wrong ++ (pins.map fun p => (chunk, p)).filter fun y => !x.wrong.contains y } }
    else none
/-- `PIPELINE_ERROR` (R400). -/
def execPipelineError (core : Nat) (u : CheckUnit) (s : State) : Host.Outcome State Fault Refusal :=
  byEvent (evPipeline core u s) s

end Sys2Proof.Machine
end

