-- ==== Sys2Proof/Machine/Reliability.lean ====
section
/-!
DEFINITION. Memory scrub, dead routers, meter reports, start-up and core reset (R40, R264, R265, R397, R404, R411 to
R416).
-/
namespace Sys2Proof.Machine

/-! ### Memory scrub (R264, R265, R404) -/

/-- The physical address of a stack's chunk, numbered by 8 × index + gang (R265). -/
def chunkPA (stack chunk : Nat) : Nat :=
  let hi := chunk / 8 * 32768
  Config.deviceNumber * 2 ^ 40 + hi + Nat.xor (chunk % 8) (bitsOf hi 30 28) * 4096 + Nat.xor stack (bitsOf hi 27 24) * 256

/-- Cycles of a memory controller from one chunk of a scrub pass to the next: 2^45 for the 2^28 chunks (R404, log 57). -/
def scrubStep : Nat := 2 ^ 17

/-- `MEMORY_SCRUB` (R404): the next chunk's codewords, in ascending order, in which the symbols of some pins are wrong, at
its time in the controller's pass: corrections are written back and logged. A pin corrected in 16 codewords of a pass is dead;
what a code cannot correct becomes poison in DRAM (R269, R270). -/
def evScrub (stack chunk : Nat) (pins : List Nat) (s : State) : Option State :=
  let st := look {} s.hbmStacks stack
  if 16 ≤ stack || decide (2 ^ 28 ≤ chunk) || decide (chunk ≠ st.scrubAt) then none
  else
    let pa := chunkPA stack chunk
    let gang := chunk % 8
    let wrong := (pins ++ (st.wrong.filter fun x => x.1 == chunk).map (·.2)).eraseDups
    let fixed := (codesOf (s.granule pa)).filter fun c => !codeFails gang c wrong st.dead
    let failed := (codesOf (s.granule pa)).filter fun c => codeFails gang c wrong st.dead
    let good := wrong.filter fun p => !st.dead.contains p && fixed.any fun c => pinIn gang c p
    let counts := good.foldl (fun m p => put m p (look 0 m p + 1)) st.corrected
    let newDead := good.filter fun p => decide (16 ≤ look 0 counts p)
    let s := failed.foldl (fun s c => poisonDram s (keysFrom (pa + 32 * c.1) (32 * c.2.1))) s
    let logged := (fixed.filter fun c => good.any (pinIn gang c)).length
    let last := decide (chunk + 1 = 2 ^ 28)
    let st' : Stack :=
      { st with
        logged := st.logged + logged, wrong := st.wrong.filter fun x => !(x.1 == chunk && good.contains x.2)
        scrubAt := if last then 0 else chunk + 1, corrected := if last then [] else counts, dead := st.dead ++ newDead
        clk := max st.clk (st.passAt + scrubStep * chunk), passAt := if last then st.passAt + 2 ^ 45 else st.passAt }
    some { s with hbmStacks := put s.hbmStacks stack st' }
/-- `MEMORY_SCRUB` (R404). -/
def execMemoryScrub (stack chunk : Nat) (pins : List Nat) (s : State) : Host.Outcome State Fault Refusal :=
  byEvent (evScrub stack chunk pins s) s

/-! ### Routes around dead routers (R411, R412) -/

/-- The moves between routers: west, east, south, north. -/
inductive Port | west | east | south | north
  deriving DecidableEq, Repr

/-- The router that a port of a router leads to, if there is one and it lives (R411). -/
def Port.next (dead : List Nat) (r : Nat) (p : Port) : Option Nat :=
  let goal := match p with
    | .west => if r % 16 = 0 then none else some (r - 1)
    | .east => if r % 16 = 15 then none else some (r + 1)
    | .south => if 112 ≤ r then none else some (r + 16)
    | .north => if r < 16 then none else some (r - 16)
  goal.filter fun x => !dead.contains x

/-- A place on a west-first route: the router, by 2 × number, plus 1 while the route may still turn west (R412). -/
def stepsBack (dead : List Nat) (x : Nat) : List Nat :=
  let r := x / 2
  if x % 2 = 1 then ((Port.next dead r .east).map (2 * · + 1)).toList
  else ([Port.west, .north, .south].filterMap (Port.next dead r)).flatMap fun y => [2 * y, 2 * y + 1]

/-- Places by their distance from a destination, to a depth: the frontier and what has been reached. -/
def reach (dead : List Nat) : Nat → Nat → List Nat → List (Nat × Nat) → List (Nat × Nat)
  | 0, _, _, seen => seen
  | n + 1, d, front, seen =>
    let next := ((front.flatMap (stepsBack dead)).eraseDups).filter fun x => (find? seen x).isNone
    if next.isEmpty then seen else reach dead n (d + 1) next (next.foldl (fun m x => put m x (d + 1)) seen)

/-- The lengths of the shortest west-first routes to a router, by place (R412). -/
def distances (dead : List Nat) (dst : Nat) : List (Nat × Nat) :=
  reach dead 256 0 [2 * dst, 2 * dst + 1] [(2 * dst, 0), (2 * dst + 1, 0)]

/-- The port by which the shortest route goes on from a place: west, toward the destination's row, east, south, north (log
101). -/
def routePort (dead : List Nat) (ds : List (Nat × Nat)) (dst x : Nat) : Option (Port × Nat) :=
  let r := x / 2
  let toRow : List Port := if dst / 16 < r / 16 then [.north] else if r / 16 < dst / 16 then [.south] else []
  let ports : List Port := (if x % 2 = 1 then [Port.west] else []) ++ toRow ++ [.east, .south, .north]
  ports.findSome? fun p =>
    (p.next dead r).bind fun y =>
      let goal := 2 * y + if p = .west then 1 else 0
      match find? ds x, find? ds goal with
      | some a, some b => if b + 1 = a then some (p, goal) else none
      | _, _ => none

/-- The routers of a shortest west-first route from a place on, without the first (R412). -/
def routeFrom (dead : List Nat) (ds : List (Nat × Nat)) (dst : Nat) : Nat → Nat → List Nat
  | 0, _ => []
  | n + 1, x =>
    match routePort dead ds dst x with
    | none => []
    | some (_, y) => y / 2 :: routeFrom dead ds dst n y

/-- The hops between two routers that no dead one stands in the way of. -/
def hops (a b : Nat) : Nat := (max (a % 16) (b % 16) - min (a % 16) (b % 16)) + (max (a / 16) (b / 16) - min (a / 16) (b / 16))

/-- The via router of the shortest route through one, the lowest of them (R412, log 101). -/
def viaOf (dead : List Nat) (src dst : Nat) : Option Nat :=
  let ds := distances dead dst
  ((List.range 128).foldl (fun (best : Option (Nat × Nat)) v =>
    match find? (distances dead v) (2 * src + 1), find? ds (2 * v + 1) with
    | some a, some b =>
      match best with
      | some (n, _) => if a + b < n then some (a + b, v) else best
      | none => some (a + b, v)
    | _, _ => best) none).map (·.2)

/-- The route that firmware takes (R412): kind 0 minimal, 1 non-minimal, 2 through a via router; none where there is
none. -/
def routeOf (dead : List Nat) (src dst : Nat) : Option (Nat × Nat) :=
  match find? (distances dead dst) (2 * src + 1) with
  | some n => some (if n = hops src dst then 0 else 1, 0)
  | none => (viaOf dead src dst).map fun v => (2, v)

/-- The routers that a message passes from one router to another, both among them: in two parts where it goes through a via
router, each on a virtual network of its own (R412). -/
def routePath (dead : List Nat) (src dst : Nat) : List Nat :=
  let part (a b : Nat) : List Nat := routeFrom dead (distances dead b) b 256 (2 * a + 1)
  match routeOf dead src dst with
  | some (2, v) => src :: part src v ++ part v dst
  | some _ => src :: part src dst
  | none => [src, dst]

/-- The routers that some live router cannot reach. -/
def unreachable (dead : List Nat) : List Nat :=
  let live := (List.range 128).filter fun r => !dead.contains r
  live.filter fun d => live.any fun src => (routeOf dead src d).isNone

/-- The routers' tables (R412): for each source and destination the route's kind, the output port and the via router. -/
def routeTable (dead : List Nat) : List (Nat × List Nat) :=
  let live := (List.range 128).filter fun r => !dead.contains r
  live.flatMap fun src => live.filterMap fun dst =>
    match routeOf dead src dst with
    | none => none
    | some (k, v) =>
      let goal := if k = 2 then v else dst
      let port := match routePort dead (distances dead goal) goal (2 * src + 1) with
        | some (.west, _) => 0
        | some (.east, _) => 1
        | some (.south, _) => 2
        | some (.north, _) => 3
        | none => 4
      some (128 * src + dst, [k, port, v])

/-- The router at which a core injects and receives: that of its spare, where one stands for it (R413). -/
def routerOf (s : State) (core : Nat) : Nat :=
  match find? s.device.spares core with
  | some k => 16 * k + 15
  | none => core % 128

/-- The routers of a die from which a message comes and to which it goes there; none where it leaves or enters the die. -/
def Msg.ends (s : State) (die : Nat) (m : Msg) : Option Nat × Option Nat :=
  let core (k : Nat) : Option Nat := if dieOf k = die then some (routerOf s k) else none
  let slice (d l : Nat) : Option Nat := if d = die then some (sliceAt s d l / 3) else none
  let home (l : Nat) : Option Nat := slice (homeDie l) l
  match m with
  | .gets c l .. | .getx c l .. | .done c l .. => (core c, slice (dieOf c) l)
  | .fwd t _ l .. | .recall t l => (slice (dieOf t) l, core t)
  | .tok d f t l _ => (match f with
      | some c => core c
      | none => slice d l, match t with
      | some c => core c
      | none => slice d l)
  | .notice d c l _ => (core c, slice d l)
  | .rds d l _ | .rdx d l _ | .upg d l _ | .evs d l | .eve d l | .wbm d l _ | .wbo d l _ => (slice d l, home l)
  | .data d l .. => (home l, slice d l)
  | .ack d l toHome .. => if toHome then (slice d l, home l) else (home l, slice d l)
  | .fwds o _ l | .fwdx o _ l => (home l, slice o l)
  | .inv d l | .binv d l => (home l, slice d l)

/-- A message is to a router of a die, or through it and not past it yet: where it is on its way is open (R411, log 6). -/
def msgAt (s : State) (die router n : Nat) (m : Msg) : Bool :=
  match m.ends s die with
  | (a, some b) => b == router || (a.any fun a => (routePath (s.die die).deadRouters a b).contains router) && Config.freeNat n % 2 == 0
  | (some a, none) => a == router && Config.freeNat n % 2 == 0
  | (none, none) => false

/-- The line of a message that carries tokens. -/
def Msg.tokenLine : Msg → Option Nat
  | .tok _ _ _ l _ | .notice _ _ l _ => some l
  | _ => none

/-- The lines of a die with an outstanding request, or held by a lost core (R411 step 3). -/
def fenceLines (s : State) (die : Nat) (lost : List Nat) : List Nat :=
  ((s.frames.filterMap fun (e : Nat × Frame) =>
    if e.1 % 8 = die && (!e.2.waiting.isEmpty || !e.2.serving.isEmpty || e.2.asked.isSome) then some (e.1 / 8) else none) ++
  (s.cores.flatMap fun (c : Nat × Core) =>
    if dieOf c.1 = die then c.2.reqs.map (·.line) ++ (if lost.contains c.1 then c.2.l1.map (·.1) else []) else [])).eraseDups

/-- A line recalled in a fence: a word of fewer than 128 tokens becomes poison, and its tokens are reset (R411 step 3). -/
def fenceLine (s : State) (die : Nat) (lost : List Nat) (line : Nat) : State :=
  let fr := s.frame die line
  if fr.st = .i then s
  else
    let held := (s.cores.filter fun c => dieOf c.1 == die && !lost.contains c.1).map fun c => spread (c.2.line line)
    let moving := s.msgs.filterMap fun m => match m with
      | .tok d _ _ l sp => if d = die && l = line then some (spread sp) else none
      | .notice d _ l sp => if d = die && l = line then some (spread sp) else none
      | _ => none
    let sum := (held ++ moving).foldl addWords (spread fr.recs)
    let short := (List.range 32).filter fun w => decide ((sum.getD w (noTok 0)).tk < 128)
    let s := addPoison s (short.map fun w => 128 * line + 4 * w)
    let s := { s with msgs := s.msgs.filter fun m => match m with
      | .tok d _ _ l _ => !(d == die && l == line)
      | .notice d _ l _ => !(d == die && l == line)
      | _ => true }
    let s := recallLine s die line
    resume (s.setFrame die line { s.frame die line with serving := [], recalled := false }) die line fr.serving

/-- The home of a line takes a die whose slice is lost out of the request that it serves: its Acks count as given, and its own
request is over. -/
def homeForgets (s : State) (die line : Nat) : State :=
  let d := s.dir line
  match d.busy with
  | none => s
  | some b =>
    if b.die = die then homeFree s line
    else if b.acks.contains die then
      let b := { b with acks := b.acks.filter (· ≠ die) }
      let s := s.setDir line { d with busy := some b }
      if b.acks.isEmpty then homeAcked s line b else s
    else s

/-- A line of a lost slice: what the die answered for in M or O, or in its notice buffer, is lost, and the home takes the die
off the line (R338, R411). -/
def loseFrame (s : State) (die line : Nat) : State :=
  let fr := s.frame die line
  let noted := (s.die die).noticeBuf.any fun e => e.line == line && e.mask != 0
  let s := if fr.st == .m || fr.st == .o || noted then addPoison s (keysFrom (128 * line) 128) else s
  let s := recallHere s die line
  let d := s.die die
  let s := { s.setDie die { d with noticeBuf := d.noticeBuf.filter fun e => e.line != line } with
             frames := del s.frames (8 * line + die) }
  homeForgets (homeEvict s die line 0) die line

/-- A probe for an owner at a lost slice is answered by the home, with poison (R338, R411). -/
def answerLost (s : State) (die router : Nat) (m : Msg) : State :=
  let gone (o l : Nat) : Bool := decide (o = die) && decide (sliceAt s die l / 3 = router)
  match m with
  | .fwds o d l => if gone o l && decide (d ≠ o) then send (addPoison s (keysFrom (128 * l) 128)) (.data d l 0 .s 15) else s
  | .fwdx o d l => if gone o l && decide (d ≠ o) then send (addPoison s (keysFrom (128 * l) 128)) (.data d l 0 .m 15) else s
  | _ => s

/-- A line whose directory entry is lost is treated as on a lost chip: poison where it was M or O (R338, R411). -/
def loseEntry (s : State) (line : Nat) : State :=
  let d := s.dir line
  let s := invalidateLine s line
  if d.st = .m || d.st = .o then addPoison s (keysFrom (128 * line) 128) else s

/-- The core numbers whose core sits at a router: its own core, unless a spare stands for it, and the core whose spare the
router hosts (R413). -/
def coresAt (s : State) (die router : Nat) : List Nat :=
  let own := 128 * die + router
  (if (find? s.device.spares own).isSome then [] else [own]) ++
  (s.device.spares.filter fun x => decide (x.1 / 128 = die) && decide (16 * x.2 + 15 = router)).map (·.1)

/-- A core is lost: each of its teams is handled as a consumption of poison, and it runs nothing more (R411). -/
def loseCore (s : State) (core : Nat) : State :=
  let s := (coreTeams s core).foldl poisonTeam s
  let s := s.setCore core { resetCore core with waves := [], strict := false, clk := (s.core core).clk }
  let d := s.die (core / 128)
  let s := s.setDie (core / 128) { d with arbiter := d.arbiter.filter fun p => p.core != core }
  { s with device := { s.device with lostCores := core :: s.device.lostCores } }

/-- `ROUTER_FENCE` (R411, R412): messages at the router are dropped with their tokens, lines with outstanding requests are
recalled, the router's slices and cores are lost, and the routes are computed again. -/
def evFence (die router : Nat) (s : State) : Option State :=
  let d := s.die die
  if 8 ≤ die || decide (128 ≤ router) || d.deadRouters.contains router then none
  else
    let dead := router :: d.deadRouters
    let lost := coresAt s die router ++ (unreachable dead).flatMap fun r => coresAt s die r
    let at_ := s.msgs.zipIdx.filter fun x => msgAt s die router (s.fresh + x.2) x.1
    let dropped := at_.map (·.1)
    let kept := (s.msgs.zipIdx.filter fun x => !at_.contains x).map (·.1)
    let s := { s with fresh := s.fresh + s.msgs.length }
    let here (l : Nat) : Bool := decide (sliceAt s die l / 3 = router)
    let s := dropped.foldl (fun s m => answerLost s die router m) { s with msgs := kept }
    let lines := (fenceLines s die lost ++ dropped.filterMap Msg.tokenLine).eraseDups
    let s := lines.foldl (fun s l => fenceLine s die lost l) s
    let mine := ((s.frames.filterMap fun (e : Nat × Frame) => if e.1 % 8 = die then some (e.1 / 8) else none) ++
      d.noticeBuf.map (·.line)).eraseDups.filter here
    let s := mine.foldl (fun s l => loseFrame s die l) s
    let homes := (s.dirs.filter fun e => homeDie e.1 == die && here e.1 && e.2.st != .i).map (·.1)
    let s := homes.foldl loseEntry s
    let s := s.setDie die { s.die die with deadRouters := dead, routes := routeTable dead }
    some (lost.eraseDups.foldl loseCore s)
/-- `ROUTER_FENCE` (R411). -/
def execRouterFence (die router : Nat) (s : State) : Host.Outcome State Fault Refusal := byEvent (evFence die router s) s

/-! ### Metering (R397) -/

/-- Reported events added to the partitions' counters, modulo 2^64 (R397). -/
def addReported (s : State) (es : List (Nat × Nat)) : State :=
  es.foldl (fun s e =>
    let p := s.part (e.1 / 16)
    s.setPart (e.1 / 16) { p with
      counters := put p.counters (e.1 % 16) ((look 0 p.counters (e.1 % 16) + e.2) % 2 ^ 64) }) s

/-- `DIE_METER_REPORT` (R397): a die's events, the cycles of its cores with resident teams among them, are added to the
partitions' counters. -/
def evMeter (die : Nat) (s : State) : Option State :=
  let s := (s.cores.filter fun c => dieOf c.1 == die).foldl (fun s c => meterCycles s c.1) s
  let d := s.die die
  if d.unreported.isEmpty then none
  else some ((addReported s d.unreported).setDie die { d with unreported := [], meterSince := [] })
/-- `DIE_METER_REPORT` (R397). -/
def execDieMeterReport (die : Nat) (s : State) : Host.Outcome State Fault Refusal := byEvent (evMeter die s) s

/-! ### Start-up (R40, R414 to R416) -/

/-- The end of a start: reason, step, die, detail, and whether it failed (R414, R416). -/
structure StartEnd where
  reason : Nat
  step : Nat
  die : Nat := 0
  detail : Nat := 0
  failed : Bool := false

/-- More pins of a pin's pseudo-channel have died than its two spares replace (R404). -/
def overSpares (st : Stack) (pin : Nat) : Bool :=
  decide (2 < ((st.dead ++ st.spared).filter fun q => q / 64 == pin / 64).length)

/-- A stack with a pseudo-channel of more than two dead pins (R404). -/
def degradedStack (s : State) : Option Nat := (s.hbmStacks.find? fun k => k.2.dead.any (overSpares k.2)).map (·.1)

/-- Spares of a die taken by some cores, in order: the lowest that is left, at a live router (R3, R411, R413, R414 step 6). A
core for which no spare is left is the error. -/
def takeSpares (s : State) : List Nat → List (Nat × Nat) → Except Nat (List (Nat × Nat))
  | [], m => .ok m
  | c :: r, m =>
    let die := c / 128
    match (List.range 8).find? fun k =>
        !(m.any fun x => decide (x.1 / 128 = die) && decide (x.2 = k)) && !(s.die die).deadRouters.contains (16 * k + 15) with
    | some k => takeSpares s r (put m c k)
    | none => .error c

/-- The cores that a start replaces: those that the configuration image does not enable, those at dead routers, and those that
fail the self-test (R411, R413, R414). -/
def replacedCores (s : State) (r : StartReport) : List Nat :=
  (Config.disabledCores ++ (List.range 8).flatMap (fun d => (s.die d).deadRouters.map (128 * d + ·)) ++ r.replaced).eraseDups

/-- The core for which no spare is left, if there is one (R414 step 6). -/
def spareless (s : State) (r : StartReport) : Option Nat :=
  match r.noSpare with
  | some c => some c
  | none => match takeSpares s (replacedCores s r) [] with
    | .error c => some c
    | .ok _ => none

/-- The outcome of the steps of R414. Where several reports that let the start continue apply, that of the latest step is
reported (log 26). -/
def startEnd (s : State) (r : StartReport) : StartEnd :=
  let fail (reason step : Nat) : StartEnd := { reason := reason, step := step, failed := true }
  if !r.copyA && !r.copyB then fail 2 1
  else if !r.identity then fail 3 2
  else if !r.config then fail 4 3
  else if !r.hostLink then fail 5 4
  else match r.fabric, r.dram with
  | some d, _ => { fail 6 4 with die := d, detail := d }
  | none, some k => { fail 7 4 with die := k / 2, detail := k }
  | none, none =>
  if !r.memory then fail 9 5
  else match spareless s r with
    | some c => { fail 0x0A 6 with die := c / 128, detail := c % 128 }
    | none =>
      match (if r.degraded.isSome then r.degraded else degradedStack s) with
      | some k => { reason := 0x0D, step := 7, die := k / 2, detail := k }
      | none => match r.replaced.getLast? with
        | some c => { reason := 0x0C, step := 7, die := c / 128, detail := c % 128 }
        | none => match r.badPorts.getLast? with
          | some p => { reason := 8, step := 7, detail := p }
          | none => { reason := if r.copyA then 0 else 1, step := 7 }

/-- A dead pin mapped onto a spare of its pseudo-channel, where one of the two is free (R404). -/
def mapPin (st : Stack) (p : Nat) : Stack :=
  if (st.spared.filter fun q => q / 64 == p / 64).length < 2 then { st with spared := st.spared ++ [p] }
  else { st with dead := st.dead ++ [p] }

/-- The stack after calibration: its dead pins mapped onto spares while there are any (R404, R414 step 4). -/
def mapSpares (st : Stack) : Stack := st.dead.foldl mapPin { spared := st.spared }

/-- The machine after a device start, but for the management registers: reset, with what no start clears. Host memory stays; so
does the device's where the start ends before step 5, which writes it 0 (R414). -/
def restart (s : State) (d : Device) : State :=
  let keeps := d.minimal || decide (d.step < 5)
  let stays (k : Nat) : Bool := decide (2 ^ 51 ≤ k) && decide (k < onChip) || keeps && decide (k < 2 ^ 51)
  { State.reset with
    device := d, inputs := s.inputs, turn := s.turn, fresh := s.fresh
    mem := s.mem.filter fun c => stays c.1, poison := s.poison.filter stays
    granules := if keeps then s.granules else [], hostBias := if keeps then s.hostBias else []
    hbmStacks := mapVals (fun _ st => if 4 < d.step then mapSpares st else { dead := st.dead, spared := st.spared }) s.hbmStacks
    dies := (List.range 8).map fun i =>
      (i, { padWays := if d.minimal then (if i = 0 then 8 else 0) else if 3 < d.step then (Config.padWays i).getD 0 else 0
            deadRouters := (s.die i).deadRouters, routes := (s.die i).routes }) }

/-- `DEVICE_START` (R414, R415): the steps in order, or minimal mode where the boot ROM finds STARTCNT at 3 or above. -/
def evStart (r : StartReport) (s : State) : Option State :=
  let n := s.device.startCnt
  let counted := min 255 (n + 1)
  if 3 ≤ n then
    some (restart s {
      minimal := true, reason := 0x10, detail := if s.device.minimal then s.device.detail else s.device.reason
      startCnt := counted, cxl := false, downPorts := List.range 18 })
  else
    let e := startEnd s r
    some (restart s {
      ready := !e.failed, failed := e.failed, reason := e.reason, step := e.step, die := e.die, detail := e.detail
      fwb := !r.copyA && r.copyB, startCnt := if e.failed then counted else 0, cxl := e.reason ≠ 2 && !r.pcie
      downPorts := if 4 ≤ e.step then r.badPorts.eraseDups else [], ports := if 4 ≤ e.step then r.ports else []
      spares := match takeSpares s (replacedCores s r) [] with
        | .ok m => if e.failed then [] else m
        | .error _ => [] })
/-- `DEVICE_START` (R414). -/
def execDeviceStart (r : StartReport) (s : State) : Host.Outcome State Fault Refusal := byEvent (evStart r s) s

/-- `START_TIMEOUT` (R414): a start that has not set READY within 2^33 cycles of the management core, which have then gone by;
the step it had begun is any (log 6). -/
def evTimeout (s : State) : Option State :=
  if 3 ≤ s.device.startCnt then none
  else
    let (n, s) := s.draw
    some (restart s { failed := true, reason := 0x0B, step := 1 + Config.freeNat n % 7, clk := 2 ^ 33
                      startCnt := min 255 (s.device.startCnt + 1) })
/-- `START_TIMEOUT` (R414). -/
def execStartTimeout (s : State) : Host.Outcome State Fault Refusal := byEvent (evTimeout s) s

/-- `CORE_RESET` (R40): a core that holds no team returns its lines and enters strict mode with one wave at FWBASE. -/
def evCoreReset (core : Nat) (s : State) : Option State :=
  let c := s.core core
  if Config.cores ≤ core || !(coreTeams s core).isEmpty || s.device.lostCores.contains core then none
  else
    let s := (c.l1.map (·.1)).foldl (fun s l => evictLine s core l) s
    let d := s.die (core / 128)
    let s := s.setDie (core / 128) { d with meterSince := del d.meterSince core }
    some ((s.setCore core (resetCore core)).setTeam core (fwTeam core))
/-- `CORE_RESET` (R40). -/
def execCoreReset (core : Nat) (s : State) : Host.Outcome State Fault Refusal := byEvent (evCoreReset core s) s

/-- `FIRMWARE_UPDATE` (R414, R415): firmware accepted through BAR 2, in recovery or in minimal mode, is installed and
STARTCNT set to 0. -/
def evUpdate (_copyB : Bool) (s : State) : Option State :=
  if s.device.minimal || (s.device.failed && decide (s.device.reason = 2)) then
    some { s with device := { s.device with startCnt := 0 } }
  else none
/-- `FIRMWARE_UPDATE` (R415). -/
def execFirmwareUpdate (copyB : Bool) (s : State) : Host.Outcome State Fault Refusal := byEvent (evUpdate copyB s) s

/-- `NELLYS_PORT_DOWN` (R399): one of the 18 ports goes down and its errors are counted; with the last one every other
device is lost (R338). -/
def evPort (port : Nat) (s : State) : Option State :=
  let d := s.device
  if 18 ≤ port || d.downPorts.contains port then none
  else
    let s := { s with device := { d with
      downPorts := port :: d.downPorts, portErrors := put d.portErrors port (look 0 d.portErrors port + 1) } }
    some (if s.device.downPorts.length < 18 then s
      else (List.range Config.domain).foldl (fun s c => (evChipLoss c s).getD s) s)
/-- `NELLYS_PORT_DOWN` (R399). -/
def execNellysPortDown (port : Nat) (s : State) : Host.Outcome State Fault Refusal := byEvent (evPort port s) s

end Sys2Proof.Machine
end

