-- ==== Sys2Proof/Machine/Management.lean ====
section
/-!
DEFINITION. The management mailbox, the creation, reset and destruction of partitions, page services, fault reports, usage
records and the registers of BAR 0 and of the management page (R385 to R398, R416, R418).
-/
namespace Sys2Proof.Machine

/-! ### Pages of a partition -/

/-- A physical address lies in a partition's memory (R271, R386). -/
def inPart (p : Partition) (pa : Nat) : Bool :=
  ownDram pa && p.colours.getLsbD (bitsOf pa 22 16) &&
  decide (bitsOf pa 39 23 * (colourList p).length + (colourList p).idxOf (bitsOf pa 22 16) < p.memBytes / 65536)

/-- The memory of a partition written 0, every page G128 in device bias and without poison, and every cached copy of its
lines gone (R389 step 3, R391). -/
def scrubPart (s : State) (p : Partition) : State :=
  let mine (pa : Nat) : Bool := decide (pa < onChip) && inPart p pa
  let lines := (((s.llc.map (·.1)) ++ s.dirs.map (·.1)).filter fun l => mine (128 * l)).eraseDups
  let s := lines.foldl invalidateLine s
  { s with
    mem := s.mem.filter fun c => !mine c.1, poison := s.poison.filter fun k => !mine k
    cores := mapVals (fun _ c => loseMarks c none fun w => mine (4 * w)) s.cores
    granules := s.granules.filter fun g => !mine (65536 * g.1), hostBias := s.hostBias.filter fun g => !mine (65536 * g) }

/-- A partition's trap and context areas written 0 (R390, R391). -/
def scrubSystem (s : State) (part : Nat) : State := unitZero s (Config.trapBase part) 0xF000_0000

/-- The partition's share of the global window is shot down (R278, R386, R389 step 5): nothing of the partition runs, so no
load uses it. -/
def shootRoot (s : State) (part : Nat) : State := (shootPages s (part * 2 ^ 52) (2 ^ 52) none).getD s

/-! ### Creation (R386 to R390) -/

/-- A field of the mailbox request. -/
def mbField (s : State) (off n : Nat) : Nat := ofBytes ((keysFrom off n).map (look (0 : Byte) s.device.mbReq))

/-- A creation request (R387). -/
structure Request where
  part : Nat
  asidBase : Nat
  asidCount : Nat
  clusters : BitVec 128
  colours : BitVec 128
  memBytes : Nat
  image : Nat
  imageBytes : Nat
  pad : Nat
  reserved : Nat

/-- The request in the mailbox (R387). -/
def creationRequest (s : State) : Request :=
  let f := mbField s
  { part := f 0 1, reserved := f 1 3, asidBase := f 4 2, asidCount := f 6 2, clusters := BitVec.ofNat 128 (f 8 16)
    colours := BitVec.ofNat 128 (f 0x18 16), memBytes := f 0x28 8, image := f 0x30 8, imageBytes := f 0x38 4
    pad := f 0x3C 4 }

/-- The bytes of a die's pad (R281). -/
def diePadBytes (s : State) (die : Nat) : Nat := (s.die die).padWays * 6291456

/-- Bits set in a mask. -/
def bitCount (n : Nat) (m : BitVec 128) : Nat := ((List.range n).filter m.getLsbD).length

/-- A resource limit is broken or a resource already held (R386, R387, R390): ERR 2. The system memory holds its pages
(log 13). -/
def resourceBad (s : State) (r : Request) : Bool :=
  let others := (s.parts.filter fun p => p.2.created).map (·.2)
  let gib := 2 ^ 30
  let p : Partition := { colours := r.colours, memBytes := r.memBytes }
  decide (16 ≤ r.part) || decide (r.reserved ≠ 0) || (s.part r.part).created || decide (r.clusters = 0) ||
  decide (r.colours = 0) || (others.any fun p => p.clusters &&& r.clusters ≠ 0 || p.colours &&& r.colours ≠ 0) ||
  decide (r.asidCount = 0) || decide (1024 < r.asidBase + r.asidCount) ||
  (others.any fun p => decide (p.asidBase < r.asidBase + r.asidCount) && decide (r.asidBase < p.asidBase + p.asidCount)) ||
  decide (r.memBytes < gib) || decide (r.memBytes % gib ≠ 0) || decide (960 * gib < r.memBytes) ||
  decide (8 * gib * bitCount 128 r.colours < r.memBytes) ||
  decide (960 * gib < (others.map (·.memBytes)).foldl (· + ·) r.memBytes) ||
  decide (Config.sysBase ≤ partPage p (r.memBytes / 65536 - 1) % 2 ^ 40) || decide (r.pad % 98304 ≠ 0) ||
  ((List.range 8).any fun d => decide (diePadBytes s d < (others.map (·.pad)).foldl (· + ·) r.pad)) ||
  decide (r.image % 4096 ≠ 0) || decide (r.imageBytes % 4096 ≠ 0) ||
  decide (r.imageBytes < 4096) || decide (2 ^ 30 < r.imageBytes)

/-- The image cannot be read from the host (R389): beyond the host's addresses, or poisoned: ERR 4. -/
def imageUnreadable (s : State) (r : Request) : Bool :=
  decide (2 ^ 51 < r.image + r.imageBytes) ||
  s.poison.any fun k => decide (2 ^ 51 + r.image < k + 32) && decide (k < 2 ^ 51 + r.image + r.imageBytes)

/-- The entry at an offset of the partition's memory, as the image gives it: 0 outside the image (R389). -/
def imageEntry (s : State) (r : Request) (off : Nat) : Nat :=
  if 0x10000 ≤ off ∧ off + 8 ≤ 0x10000 + r.imageBytes then readPA s (2 ^ 51 + r.image + (off - 0x10000)) 8 else 0

/-- Entries in a table of a level (R274): a level-4 table of the image has the partition's sixteen. -/
def tableEntries (level : Nat) : Nat := if level = 4 then 16 else if level = 0 then 32 else 512

/-- The offset that an image entry's ADDR holds. -/
def entryAddr (e : Nat) : Nat := bitsOf e 51 12 * 4096

/-- The tables that the entries of some tables of a level name, one level down. -/
def childTables (s : State) (r : Request) (level : Nat) (tables : List Nat) : List Nat :=
  (tables.flatMap fun t => (List.range (tableEntries level)).filterMap fun i =>
    let e := imageEntry s r (t + 8 * i)
    if pteValid level e && decide (bitsOf e 2 1 = 0) then some (entryAddr e) else none).eraseDups

/-- The tables of the image by level, from level 4 down. -/
def imageTables (s : State) (r : Request) : Nat → List Nat → List (Nat × List Nat)
  | 0, ts => [(0, ts)]
  | level + 1, ts => (level + 1, ts) :: imageTables s r level (childTables s r (level + 1) ts)

/-- An image entry breaks R268, points past the grant, or covers the control area (R384, R389): ERR 3. -/
def imageEntryBad (r : Request) (level e : Nat) : Bool :=
  let off := entryAddr e
  if !pteValid level e then false
  else if bitsOf e 2 1 = 0 then decide (off < 0x10000) || decide (r.memBytes < off + 8 * tableEntries (level - 1))
  else
    decide (bitsOf e 8 7 ≠ 2) || decide (bitsOf e 6 6 ≠ 1) || decide (off < 0x10000) ||
    decide (r.memBytes < off + levelSize level)

/-- The image is refused (R389, R390): a bad entry, or an entry 16n + 15 that is not 0. -/
def imageBad (s : State) (r : Request) : Bool :=
  decide (imageEntry s r (0x10000 + 8 * 15) ≠ 0) ||
  (imageTables s r 4 [0x10000]).any fun lt => lt.2.any fun t =>
    (List.range (tableEntries lt.1)).any fun i => imageEntryBad r lt.1 (imageEntry s r (t + 8 * i))

/-- An entry with its offset rewritten into the physical address of that offset's page (R389). -/
def rewriteEntry (p : Partition) (level e : Nat) : Nat :=
  if pteValid level e then e - entryAddr e + partPA p (entryAddr e) else e

/-- The image copied to offset 0x1_0000 of the memory, its entries rewritten, and the sixteen root entries installed (R389
steps 4 and 5); the device fills entry 16n + 15 itself (R390). -/
def copyImage (s : State) (r : Request) (p : Partition) : State :=
  let from_ := 2 ^ 51 + r.image
  let cells := s.mem.filter fun c => decide (from_ ≤ c.1) && decide (c.1 < from_ + r.imageBytes)
  let tables := imageTables s r 4 [0x10000]
  let copied := cells.foldl (fun s c => writeByte s (partPA p (0x10000 + (c.1 - from_))) c.2) s
  let fixed := tables.foldl (fun x lt => lt.2.foldl (fun x t => (List.range (tableEntries lt.1)).foldl (fun x i =>
    let e := imageEntry s r (t + 8 * i)
    if pteValid lt.1 e then writePA x (partPA p (t + 8 * i)) 8 (rewriteEntry p lt.1 e) else x) x) x) copied
  (List.range 16).foldl (fun x i =>
    writePA x (Config.globalRoot + 8 * (16 * r.part + i)) 8 (rewriteEntry p 4 (imageEntry s r (0x10000 + 8 * i)))) fixed

/-- A command of the mailbox ends: the result buffer, then the status, as one store (R388). -/
def endCommand (s : State) (status : Nat) (res : List Byte) : State :=
  { s with device := { s.device with
    mbBusy := false, mbStatus := status, mbRes := (List.range 64).map fun i => (i, res.getD i 0) } }

/-- The mailbox runs a command. -/
def mbRuns (s : State) (cmd : Nat) : Bool := s.device.mbBusy && decide (s.device.mbCmd = cmd)

/-- The mode allows a command about a partition (R388). -/
def modeAllows (s : State) (cmd part : Nat) : Bool :=
  if s.device.minimal then decide (cmd = 3) else s.device.cxl || cmd == 3 || cmd == 5 || decide (part = 0)

/-- A creation that ends with an ERR value, in LDST of the partition of its number, too (R389): READY stays as it was. -/
def refuseCreation (s : State) (r : Request) (err : Nat) : State :=
  let s := if r.part < 16 then s.setPart r.part { s.part r.part with err := err } else s
  endCommand s err []

/-- `CREATE` (R386 to R390): the partition that the request describes, with a launch key of its own. -/
def evCreate (s : State) : Option State :=
  let r := creationRequest s
  if !mbRuns s 1 then none
  else if !modeAllows s 1 r.part then some (endCommand s 7 [])
  else if resourceBad s r then some (refuseCreation s r 2)
  else if imageUnreadable s r then some (refuseCreation s r 4)
  else if imageBad s r then some (refuseCreation s r 3)
  else
    let n := (s.part r.part).creations + 1
    let p : Partition := {
      created := true, ready := true, err := 1, clusters := r.clusters, colours := r.colours, asidBase := r.asidBase
      asidCount := r.asidCount, memBytes := r.memBytes, pad := r.pad, creations := n }
    let s := copyImage (scrubSystem (scrubPart s p) r.part) r p
    let s := shootRoot (s.setPart r.part p) r.part
    some (endCommand s 1 (bytesOf 32 (Config.launchKey r.part n).toNat))
/-- `CREATE` (R389). -/
def execCreate (s : State) : Host.Outcome State Fault Refusal := byEvent (evCreate s) s

/-! ### Pages of an admission, and the end of an unload (R235, R237) -/

/-- The leaf of an address with the address of its entry: entry address, level, entry (R274). -/
def leafAddr (s : State) (va : Nat) : Nat → Nat → Option (Nat × Nat × Nat)
  | 0, table =>
    let a := table + 8 * bitsOf va 20 16
    let e := readPA s a 8
    if pteValid 0 e && leafOk s 0 va e then some (a, 0, e) else none
  | level + 1, table =>
    let a := table + 8 * bitsOf va (21 + 9 * level + 8) (21 + 9 * level)
    let e := readPA s a 8
    if pteValid (level + 1) e then
      if bitsOf e 2 1 = 0 then leafAddr s va level (bitsOf e 51 12 * 4096)
      else if leafOk s (level + 1) va e then some (a, level + 1, e) else none
    else none

/-- The leaf of an address of a partition's own share of the global window, the system range left out. -/
def globalLeaf (s : State) (part va : Nat) : Option (Nat × Nat × Nat) :=
  let i4 := va / 2 ^ 48
  if i4 / 16 ≠ part ∨ i4 % 16 = 15 then none
  else
    let e := readPA s (Config.globalRoot + 8 * i4) 8
    if pteValid 4 e then leafAddr s va 3 (bitsOf e 51 12 * 4096) else none

/-- The physical address that a walk finds, past any TLB. -/
def walkPA (s : State) (part : Option Nat) (va : Nat) : Option Nat :=
  (walk s part va).map fun (l, e) => bitsOf e 51 12 * 4096 + va % levelSize l

/-- The pages of a destination. -/
def destPages (dest bytes : Nat) : List Nat := (List.range (bytes / 65536)).map fun i => dest + 65536 * i

/-- A destination page is mapped writable to the partition, not sealed and not in admission (R235 step 2); device memory is the
partition's own (R386, log 29). -/
def destPageOk (s : State) (part va : Nat) : Bool :=
  match globalLeaf s part va with
  | some (_, level, e) =>
    let pa := bitsOf e 51 12 * 4096 + va % levelSize level
    decide (bitsOf e 3 3 = 1) && decide (bitsOf e 5 5 = 0) && !inAdmission s pa && (!ownDram pa || inPart (s.part part) pa)
  | none => false

/-- The physical pages of a destination. -/
def destPAs (s : State) (part dest bytes : Nat) : List Nat := (destPages dest bytes).filterMap fun va => walkPA s (some part) va

/-- The keys of n bytes from the start of a destination whose pages lie at some physical addresses. -/
def destKeys (pas : List Nat) (n : Nat) : List Nat := (pas.flatMap fun pa => keysFrom pa 65536).take n

/-- The sealed-code bit of the pages' entries set or cleared. -/
def setSealed (s : State) (part : Nat) (on : Bool) (pages : List Nat) : State :=
  pages.foldl (fun s va =>
    match globalLeaf s part va with
    | some (a, _, e) => unitWrite s (keysFrom a 8) (e - bitsOf e 5 5 * 32 + if on then 32 else 0)
    | none => s) s

/-- The pages of a destination written 0. -/
def zeroPages (s : State) (pas : List Nat) : State := pas.foldl (fun s pa => unitZero s pa 65536) s

/-- A kernel's pages are unsealed and zeroed, and the kernel is gone (R237 steps 3 and 4). -/
def dropKernel (s : State) (part kid : Nat) : State :=
  match find? s.kernels kid with
  | none => s
  | some k =>
    let s := setSealed s part false (destPages k.dest k.destBytes)
    let s := zeroPages s (k.pages.map (65536 * ·))
    { s with kernels := del s.kernels kid }

/-- A partition's request ends: its status, as one store after every other write (R235, R236). -/
def writeStatus (s : State) (part index status : Nat) : State := controlWrite s part (0x2000 + 64 * index + 0x24) 4 status

/-- An unload that has been taken up ends (R237). -/
def endUnload (s : State) (u : Nat × Nat × Nat) : State :=
  let s := writeStatus (dropKernel s u.1 u.2.2) u.1 u.2.1 1
  { s with device := { s.device with unloads := s.device.unloads.filter (· ≠ u) } }

/-! ### Reset and destruction (R391, R396) -/

/-- The partition of a grid. -/
def gridsOf (s : State) (part : Nat) : List Nat := (s.grids.filter fun g => g.2.part == part && g.2.st != .ended).map (·.1)

/-- Waves of a partition's stopped teams go, with the stores that they still hold. -/
def dropStopped (s : State) (part : Nat) : State :=
  s.cores.foldl (fun s c => c.2.waves.foldl (fun s kw =>
    if kw.2.liveMask = 0 && s.partOf (s.team kw.2.team) == some part then dropWave s c.1 kw.1 else s) s) s

/-- Steps 2 to 4 of R396: teams stop with nothing performed, frames go, grids end with status 7, those in launch buffers
among them, unloads that have begun complete, and the control area is zeroed but for the ASID table. A unit's write that waited
for one of the teams' fetchers performs first (log 90). -/
def resetPart (s : State) (part : Nat) : State :=
  let teams := (s.teams.filter fun t => t.2.live && s.partOf t.2 == some part).map (·.1)
  let grids := gridsOf s part
  let mine := (s.teams.filter fun t => s.partOf t.2 == some part).map (·.1)
  let s := mine.foldl (fun s t => endLaunches s t 7 none) s
  let s := retryUnits (dropStopped (teams.foldl discardTeam s) part)
  let s := { s with contexts := s.contexts.filter fun c => !grids.contains c.1 }
  let s := grids.foldl (fun s h => closeGrid s h 7) s
  let s := (s.device.unloads.filter (·.1 == part)).foldl endUnload s
  let base := controlPA s part 0
  let s := unitZero (unitZero s base 0x5000) (base + 0x9000) 0x7000
  let p := s.part part
  settleReclaims (s.setPart part { p with
    slotsSeen := [], admPending := [], fqNext := 0, fqPhase := true, fqOpen := [], unposted := [] })

/-- An admission of a partition has begun: a reset or destruction comes after it (R391, R396 step 4). -/
def admissionBegun (s : State) (part : Nat) : Bool := s.device.checking.any fun a => a.part == part

/-- `LOGICAL_DEVICE_RESET` (R396). -/
def evReset (part : Nat) (s : State) : Option State :=
  if !(s.part part).created || admissionBegun s part then none
  else
    let s := resetPart s part
    some (s.setPart part { s.part part with rst := false, ready := true })
/-- `LOGICAL_DEVICE_RESET` (R396). -/
def execLogicalDeviceReset (part : Nat) (s : State) : Host.Outcome State Fault Refusal := byEvent (evReset part s) s

/-- The counters of a partition, in offset order (R397). -/
def counterBytes (p : Partition) : List Byte := (List.range 9).flatMap fun i => bytesOf 8 (look 0 p.counters i)

/-- The first 128 bytes of a usage record (R398). -/
def recordHead (part : Nat) (p : Partition) (seq : Nat) : List Byte :=
  bytesOf 1 1 ++ bytesOf 1 part ++ bytesOf 6 seq ++ (if p.prevHash.isEmpty then bytesOf 32 0 else p.prevHash) ++
  bytesOf 8 p.time.toNat ++ bytesOf 8 p.nonce.toNat ++ counterBytes p

/-- A partition's next usage record with its signature, and the partition after it (R398). -/
def usageRecord (part : Nat) (p : Partition) (salt : Nat) : List Byte × Partition :=
  let head := recordHead part p (p.recSeq + 1)
  let sig := Config.recordSignature (BitVec.ofNat 1024 (ofBytes head)) salt
  let rec_ := head ++ bytesOf 384 sig.toNat
  (rec_, { p with recSeq := p.recSeq + 1, prevHash := sha256 rec_ })

/-- `USAGE_RECORD_WRITE` (R398): the oldest request of the device; a record at a sealed page is not written (R38, log 15). One
in the launch window may set slot bytes (R346). -/
def evUsage (part : Nat) (s : State) : Option State :=
  let p := s.part part
  match p.requests with
  | [] => none
  | off :: rest =>
    if !p.created || s.device.usage.head? ≠ some part then none
    else
      let (salt, s) := s.draw
      let (r, p') := usageRecord part p salt
      let pa := partPA p off
      let s := if sealedPA s pa then s
        else
          let s := unitWrite s (keysFrom pa 512) (ofBytes r)
          if off < 65536 then seeSlots s part off 512 else s
      let s := { s with device := { s.device with usage := s.device.usage.drop 1 } }
      some (s.setPart part { p' with requests := rest, slotsSeen := (s.part part).slotsSeen })
/-- `USAGE_RECORD_WRITE` (R398). -/
def execUsageRecordWrite (part : Nat) (s : State) : Host.Outcome State Fault Refusal := byEvent (evUsage part s) s

/-- A partition's events that its dies have not reported yet are added to its counters: the final usage record holds them
(R391, R397). -/
def reportPart (s : State) (part : Nat) : State :=
  (List.range 8).foldl (fun s d =>
    let es := (s.die d).unreported.partition fun e => e.1 / 16 == part
    (addReported s es.1).setDie d { s.die d with unreported := es.2 }) s

/-- `DESTROY` (R388, R391): reset, final usage record, scrub, and every resource freed. -/
def evDestroy (s : State) : Option State :=
  let n := mbField s 0 1
  let p := s.part n
  if !mbRuns s 2 then none
  else if !modeAllows s 2 n then some (endCommand s 7 [])
  else if !p.created then some (endCommand s 5 [])
  else if admissionBegun s n then none
  else
    let (salt, s) := (reportPart (resetPart s n) n).draw
    let (r, q) := usageRecord n (s.part n) salt
    let d := s.device
    let s := { s with device := { d with
      finalRecords := put d.finalRecords n r, usage := d.usage.filter (· ≠ n) } }
    let s := scrubSystem (scrubPart s p) n
    let s := { s with kernels := s.kernels.filter fun k => k.2.part != n || k.2.runtime }
    let s := (List.range 16).foldl (fun s i => writePA s (Config.globalRoot + 8 * (16 * n + i)) 8 0) s
    let s := shootRoot (s.setPart n { creations := p.creations }) n
    some (endCommand s 1 (bytesOf 8 q.recSeq))
/-- `DESTROY` (R391). -/
def execDestroy (s : State) : Host.Outcome State Fault Refusal := byEvent (evDestroy s) s

/-! ### The other commands of the mailbox (R388, R410, R415) -/

/-- `CLEAR_START_COUNTER` (R388). -/
def evClearStart (s : State) : Option State :=
  if !mbRuns s 3 then none else some (endCommand { s with device := { s.device with startCnt := 0 } } 1 [])
/-- `CLEAR_START_COUNTER` (R388). -/
def execClearStartCounter (s : State) : Host.Outcome State Fault Refusal := byEvent (evClearStart s) s

/-- `JOB_ROLLBACK` (R388, R410): every context of the partition at once. -/
def evJob (s : State) : Option State :=
  let n := mbField s 0 1
  if !mbRuns s 4 then none
  else if !modeAllows s 4 n then some (endCommand s 7 [])
  else if !(s.part n).created then some (endCommand s 5 [])
  else
    let ks := jobContexts s n
    let unclosed := ks.any fun k => (s.context k).frames.isNone
    some (endCommand (rollBackContexts s ks) (if unclosed then 6 else 1) [])
/-- `JOB_ROLLBACK` (R410). -/
def execJobRollback (s : State) : Host.Outcome State Fault Refusal := byEvent (evJob s) s

/-- The lowest entry of the firmware admission ring that is not in use. -/
def freeRingEntry (d : Device) : Option Nat := (List.range 64).find? fun i => !d.fwPending.contains i

/-- `MAILBOX_INSTALL` (R237, R388): firmware puts the request into the firmware admission ring; a malformed one ends with
status 3. -/
def evInstall (s : State) : Option State :=
  let image := mbField s 0 8
  let n := mbField s 8 4
  if !mbRuns s 5 then none
  else if s.device.minimal then some (endCommand s 7 [])
  else if n < 64 || decide (8 * 2 ^ 20 < n) || decide (2 ^ 51 < image + n) then some (endCommand s 3 [])
  else
    match freeRingEntry s.device with
    | none => none
    | some i =>
      if !s.device.fwPending.isEmpty then none
      else
        let entry := bytesOf 4 1 ++ bytesOf 4 0 ++ bytesOf 8 image ++ bytesOf 4 n ++ bytesOf 44 0
        let ring := (List.range 64).foldl (fun m j => put m (64 * i + j) (entry.getD j 0)) s.device.fwRing
        some { s with device := { s.device with fwRing := ring, fwPending := [i] } }
/-- `MAILBOX_INSTALL` (R388). -/
def execMailboxInstall (s : State) : Host.Outcome State Fault Refusal := byEvent (evInstall s) s

/-! ### Faults reported resident (R362, R395) -/

/-- Faults that waited for a free entry are posted, oldest first (R395). -/
def postKept (part : Nat) : List (Nat × Nat × Nat × Nat) → State → State
  | [], s => s
  | (va, grid, kind, core) :: r, s =>
    match postFault s part va grid kind core with
    | none => s
    | some s' => postKept part r (s'.setPart part { s'.part part with unposted := (s'.part part).unposted.drop 1 })

/-- The threads of a core's waves of a partition that wait for a page go on (R390). -/
def wakePage (s : State) (part page : Nat) (c : Core) : Core :=
  let waits (t : Thread) : Bool := match t.hold with
    | .fault va _ => va / 65536 == page
    | _ => false
  { c with waves := mapVals (fun _ w =>
      if s.partOf (s.team w.team) = some part && (List.range 64).any (fun l => waits (w.thread l)) &&
        !(s.team w.team).saving && !(s.team w.team).waiting.isEmpty then
        w.mapThreads (fun _ t => if waits t then { t with hold := .none } else t) (List.range 64)
      else w) c.waves }

/-- `FQACK` (R395): every entry for the page is freed, waiting faults are posted, and teams that faulted on it may become
ready. -/
def evFqack (part value : Nat) (s : State) : Option State :=
  let p := s.part part
  let page := value / 65536 % 2 ^ 41
  let asid := value % 65536
  if !p.created then none
  else
    let s := s.setPart part { p with fqOpen := p.fqOpen.filter (· ≠ (page, asid)) }
    let s := postKept part p.unposted s
    if faultAsid s part (65536 * page) ≠ asid then some s
    else
      let s := { s with cores := mapVals (fun _ c => wakePage s part page c) s.cores }
      let mine := s.teams.filter fun t => s.partOf t.2 == some part && t.2.waiting.contains page
      some (mine.foldl (fun s t =>
        markReady (s.setTeam t.1 { s.team t.1 with waiting := (s.team t.1).waiting.filter (· ≠ page) }) t.1) s)
/-- `FQACK` (R395). -/
def execFqack (part value : Nat) (s : State) : Host.Outcome State Fault Refusal := byEvent (evFqack part value s) s

/-! ### Bias and granules (R268, R287, R394, R418) -/

/-- The lines of a page at a physical address. -/
def pageLines (pa : Nat) : List Nat := (List.range 512).map fun i => pa / 128 + i

/-- `BIASCMD` (R394): a write while BUSY sets ERR; a page outside the memory is ignored in the same way (log 27). -/
def evBiasCmd (part value : Nat) (s : State) : Option State :=
  let p := s.part part
  let page := bitsOf value 39 16
  if !p.created then none
  else if p.bias.isSome || decide (p.memBytes ≤ 65536 * page) then some (s.setPart part { p with biasErr := true })
  else some (s.setPart part { p with bias := some { page := page, code := value % 2 }, biasErr := false })
/-- `BIASCMD` (R394). -/
def execBiascmd (part value : Nat) (s : State) : Host.Outcome State Fault Refusal := byEvent (evBiasCmd part value s) s

/-- Every line of a list taken back, dirty words to memory; none while one is busy. -/
def recallLines : List Nat → State → Option State
  | [], s => some s
  | l :: r, s =>
    match recallEverywhere s l with
    | none => none
    | some s => recallLines r (llcEvict s l)

/-- `BIAS_CHANGE_DONE` (R394 steps 3 and 4). -/
def evBiasDone (part : Nat) (s : State) : Option State :=
  let p := s.part part
  match p.bias with
  | none => none
  | some c =>
    let pa := partPA p (65536 * c.page)
    let page := pa / 65536
    let done (s : State) : State := s.setPart part { s.part part with bias := none }
    if c.code = 1 then some (done { s with hostBias := s.hostBias.filter (· ≠ page) })
    else match recallLines (pageLines pa) s with
      | none => none
      | some s => some (done { s with hostBias := if s.hostBias.contains page then s.hostBias else page :: s.hostBias })
/-- `BIAS_CHANGE_DONE` (R394). -/
def execBiasChangeDone (part : Nat) (s : State) : Host.Outcome State Fault Refusal := byEvent (evBiasDone part s) s

/-- `GRCMD` (R418): ignored with ERR while a page service is busy, and for a page outside the memory, of the control area
or in host bias. -/
def evGrCmd (part value : Nat) (s : State) : Option State :=
  let p := s.part part
  let page := bitsOf value 39 16
  if !p.created then none
  else if p.gran.isSome || p.bias.isSome || decide (p.memBytes ≤ 65536 * page) || decide (page = 0) ||
    !s.devBias (partPA p (65536 * page)) then some (s.setPart part { p with granErr := true })
  else some (s.setPart part { p with gran := some { page := page, code := value % 4 }, granErr := false })
/-- `GRCMD` (R418). -/
def execGrcmd (part value : Nat) (s : State) : Host.Outcome State Fault Refusal := byEvent (evGrCmd part value s) s

/-- A table at a level, of 512 entries (level 0: 32), maps a physical page with a leaf that a walk takes. -/
def tableMaps (s : State) (page : Nat) : Nat → Nat → Nat → Bool
  | 0, va, table => (List.range 32).any fun i =>
    let e := readPA s (table + 8 * i) 8
    pteValid 0 e && decide (bitsOf e 51 16 = page) && leafOk s 0 va e
  | level + 1, va, table => (List.range 512).any fun i =>
    let e := readPA s (table + 8 * i) 8
    let size := levelSize (level + 1)
    pteValid (level + 1) e &&
    if bitsOf e 2 1 = 0 then tableMaps s page level va (bitsOf e 51 12 * 4096)
    else bitsOf e 51 12 * 4096 / size == 65536 * page / size && leafOk s (level + 1) va e

/-- A physical page is mapped by some leaf of the global root or of an ASID, or held in a TLB (R268). -/
def pageMapped (s : State) (page : Nat) : Bool :=
  let holds (t : TlbEntry) : Bool :=
    let base := bitsOf t.leaf 51 12 * 4096
    decide (base ≤ 65536 * page) && decide (65536 * page < base + t.size)
  let root (va table n : Nat) : Bool := (List.range n).any fun i =>
    let e := readPA s (table + 8 * i) 8
    pteValid 4 e && tableMaps s page 3 va (bitsOf e 51 12 * 4096)
  s.cores.any (·.2.tlb.any holds) || s.dies.any (·.2.tlb.any holds) || root 0 Config.globalRoot 256 ||
  s.parts.any fun p => p.2.asids.any fun a => root Win.host.first (a.2.1 + 8 * 256) 255

/-- `GRANULE_CHANGE_DONE` (R268, R418 steps 3 and 4): once the page is mapped nowhere and shot down, it reads 0 under its
new granule. -/
def evGrDone (part : Nat) (s : State) : Option State :=
  let p := s.part part
  match p.gran with
  | none => none
  | some c =>
    let pa := partPA p (65536 * c.page)
    if pageMapped s (pa / 65536) then none
    else
      let s := unitZero ((pageLines pa).foldl invalidateLine s) pa 65536
      some ({ s with granules := putd 2 s.granules (pa / 65536) c.code }.setPart part { s.part part with gran := none })
/-- `GRANULE_CHANGE_DONE` (R418). -/
def execGranuleChangeDone (part : Nat) (s : State) : Host.Outcome State Fault Refusal := byEvent (evGrDone part s) s

/-! ### Usage requests and register writes (R385, R388, R398, R416) -/

/-- `UMREQ` (R398): a 17th request is ignored; the offset is taken 512-aligned, and one past the memory is ignored (log
27). -/
def evUmreq (part value : Nat) (s : State) : Option State :=
  let p := s.part part
  let off := value / 512 * 512
  if !p.created then none
  else if 16 ≤ p.requests.length || decide (p.memBytes < off + 512) then some s
  else some ({ s with device := { s.device with usage := s.device.usage ++ [part] } }.setPart part
    { p with requests := p.requests ++ [off] })
/-- `UMREQ` (R398). -/
def execUmreq (part value : Nat) (s : State) : Host.Outcome State Fault Refusal := byEvent (evUmreq part value s) s

/-- A write to the management page (R388, R416): MBCMD starts a command, the request buffer takes bytes, everything else is
ignored. A command that R388 does not list ends at once with status 7 (log 27). -/
def pageWrite (s : State) (off width value : Nat) : State :=
  let d := s.device
  if off = 0x100 && width = 8 then
    let cmd := value % 256
    if d.mbBusy then s
    else if 1 ≤ cmd ∧ cmd ≤ 5 then { s with device := { d with mbCmd := cmd, mbBusy := true } }
    else endCommand { s with device := { d with mbCmd := cmd } } 7 []
  else if 0x140 ≤ off ∧ off + width ≤ 0x180 then
    { s with device := { d with mbReq := (List.range width).foldl (fun m i =>
        putd 0 m (off - 0x140 + i) (BitVec.ofNat 8 (value / 256 ^ i))) d.mbReq } }
  else s

/-- `REGISTER_WRITE` (R385, R388): to a register of BAR 0 of a logical device, or, with `part` 16, of the management page.
Another width, or an offset that no row names, has no effect. -/
def evRegister (part off width value : Nat) (s : State) : Option State :=
  let p := s.part part
  if part = 16 then some (pageWrite s off width value)
  else if !p.created || decide (width ≠ 8) then none
  else match off with
    | 0x018 =>
      let i := value % 64
      some (if p.admPending.contains i then s else s.setPart part { p with admPending := p.admPending ++ [i] })
    | 0x028 => evFqack part value s
    | 0x030 => some (if value % 2 = 1 then s.setPart part { p with rst := true, ready := false } else s)
    | 0x038 => evBiasCmd part value s
    | 0x048 => evGrCmd part value s
    | 0x100 => some (s.setPart part { p with nonce := BitVec.ofNat 64 value })
    | 0x108 => some (s.setPart part { p with time := BitVec.ofNat 64 value })
    | 0x110 => evUmreq part value s
    | _ => none
/-- `REGISTER_WRITE` (R385). -/
def execRegisterWrite (part off width value : Nat) (s : State) : Host.Outcome State Fault Refusal :=
  byEvent (evRegister part off width value s) s

/-- A host read of BAR 0 (R385): 8 bytes at an offset that a readable row names, else 0. -/
def registerRead (s : State) (part off width : Nat) : Nat :=
  let p := s.part part
  if width ≠ 8 then 0
  else if 0x080 ≤ off ∧ off ≤ 0x0C0 ∧ off % 8 = 0 then look 0 p.counters ((off - 0x080) / 8)
  else match off with
    | 0x000 => p.ready.toNat + 2 * p.rst.toNat + 16 * part + 256 * p.err
    | 0x008 => 0
    | 0x010 => 0x2000
    | 0x020 => 0x3000
    | 0x040 => p.bias.isSome.toNat + 2 * p.biasErr.toNat
    | 0x050 => p.gran.isSome.toNat + 2 * p.granErr.toNat
    | 0x118 => p.recSeq % 2 ^ 48 + 2 ^ 48 * p.requests.length
    | _ => 0

/-- A host read of the management page (R388, R416). -/
def pageRead (s : State) (off : Nat) : Nat :=
  let d := s.device
  match off with
  | 0x000 => d.ready.toNat + 2 * d.minimal.toNat + 4 * d.failed.toNat
  | 0x008 => d.reason + 2 ^ 8 * d.step + 2 ^ 16 * d.die + 2 ^ 24 * d.detail + 2 ^ 32 * d.minimal.toNat + 2 ^ 33 * d.fwb.toNat
  | 0x010 => d.startCnt
  | 0x100 => d.mbCmd
  | 0x108 => d.mbBusy.toNat + 256 * d.mbStatus
  | off =>
    if 0x140 ≤ off ∧ off < 0x180 then ofBytes ((keysFrom (off - 0x140) 8).map (look (0 : Byte) d.mbReq))
    else if 0x180 ≤ off ∧ off < 0x1C0 then ofBytes ((keysFrom (off - 0x180) 8).map (look (0 : Byte) d.mbRes))
    else 0

end Sys2Proof.Machine
end

