-- ==== Sys2Proof/Machine/Pavane.lean ====
section
/-!
DEFINITION. Pavane's check of a kernel image: the image and its records, the two passes, the rule catalogue TY-01 to
TY-48, the fault record and the descriptor (R239 to R254, with R54, R68, R80, R113, R145, R147, R168, R171, R187, R198,
R219, R233, R256, R257, R365). What these rules leave to a reader stands in logs 28 and 29.
-/
namespace Sys2Proof.Machine.Pavane

/-! ### Facts (R242, R245) -/

/-- The tag of a register; `high` is the odd register of a pair whose fact its even partner carries. -/
inductive Tag
  | undef | bits | int
  | range (lo hi : Int)
  | flt | pend
  | rel (r i s : Nat) (c : Int)
  | ptr (r : Nat) (lo hi : Int)
  | handle
  | token (r : Nat) (c : Int)
  | high
  deriving DecidableEq, Repr

/-- The tag's code (R242). -/
def Tag.code : Tag → Nat
  | .undef => 0 | .bits => 1 | .int => 2 | .range .. => 3 | .flt => 4 | .pend => 5 | .rel .. => 6 | .ptr .. => 7
  | .handle => 8 | .token .. => 9 | .high => 0
/-- int or an int interval. -/
def Tag.isInt : Tag → Bool | .int | .range .. => true | _ => false
/-- A ptr fact of either form. -/
def Tag.isPtr : Tag → Bool | .rel .. | .ptr .. => true | _ => false
/-- The region that a fact names. -/
def Tag.region : Tag → Nat | .rel r .. | .ptr r .. | .token r _ => r | _ => 0

/-- A register's fact, the eventual fact of its pending result, and its region bound (R245). -/
structure Fact where
  tag : Tag := .undef
  later : Tag := .undef
  bound : Option (Nat × Nat) := none
  deriving DecidableEq, Repr

/-- The state of pass 2 (R245): facts by register code, held locks in ascending order, the quota, and whether an `mma` may
be outstanding (R219). -/
structure PState where
  regs : List (Nat × Fact) := []
  locks : List (Nat × Int) := []
  quota : Nat := 8
  mma : Bool := true
  deriving DecidableEq, Repr

namespace PState
/-- A register's fact. -/
def fact (p : PState) (c : Nat) : Fact := look {} p.regs c
/-- A register's own tag; the odd half of a pair reads `high`. -/
def tag (p : PState) (c : Nat) : Tag := (p.fact c).tag
/-- The tag that a register carries, an odd half that of its pair. -/
def full (p : PState) (c : Nat) : Tag := if p.tag c = .high then p.tag (c - 1) else p.tag c
/-- A register with a fact. -/
def set (p : PState) (c : Nat) (f : Fact) : PState := { p with regs := putd {} p.regs c f }
/-- A pair's partner. -/
def partner (c : Nat) : Nat := if c % 2 = 0 then c + 1 else c - 1
/-- Either half of a pair that carries one fact. -/
def paired (p : PState) (c : Nat) : Bool :=
  if c % 2 = 0 then p.tag (c + 1) == .high else p.tag c == .high
/-- A register loses its fact by an overwrite: its partner in a pair becomes bits, and so does every pair whose relation
names it (R113, R245). -/
def drop (p : PState) (c : Nat) : PState :=
  let p := if p.paired c then p.set (partner c) { tag := .bits } else p
  let named := p.regs.filter fun e => match e.2.tag with
    | .rel _ i _ _ => i == c
    | _ => false
  let p := named.foldl (fun p e => (p.set e.1 { tag := .bits }).set (e.1 + 1) { tag := .bits }) p
  p.set c {}
/-- Every pending fact becomes its eventual fact (R245). -/
def clear (p : PState) : PState :=
  { p with regs := mapVals (fun _ f => if f.tag = .pend then { tag := f.later } else f) p.regs }
/-- A fact on a pair or, where it names no region or handle, on one register. -/
def putTag (p : PState) (pend : Bool) (c : Nat) (t : Tag) : PState :=
  p.set c (if pend then { tag := .pend, later := t } else { tag := t })
end PState

/-! ### The image (R239 to R242) -/

/-- A little-endian number of n bytes at an offset. -/
def num (bs : List Byte) (off n : Nat) : Nat := ofBytes ((bs.drop off).take n)
/-- A signed 32-bit number at an offset. -/
def snum (bs : List Byte) (off : Nat) : Int := signExt 32 (num bs off 4)

/-- The header of an image (R239). -/
structure Head where
  fmt : Nat
  code : Nat
  ann : Nat
  records : Nat
  data : Nat
  regions : Nat
  tables : Nat
  regs8 : Nat
  waves : Nat
  quartets : Nat
  slots : Nat
  lpriv : Nat
  scratch : Nat
  reserved : Nat
  deriving DecidableEq, Repr

/-- The header in the first 64 bytes. -/
def head (bs : List Byte) : Head :=
  let f := num bs
  { fmt := f 0 4, code := f 4 4, ann := f 8 4, records := f 0xC 4, data := f 0x10 4, regions := f 0x14 2
    tables := f 0x16 2, regs8 := f 0x18 1, waves := f 0x19 1, quartets := f 0x1A 1, slots := f 0x1B 1, lpriv := f 0x1C 4
    scratch := f 0x20 4, reserved := f 0x24 28 }

/-- The rule that a header breaks: TY-46 for a count or size above its limit, else TY-47 (R239, R252, R256); a runtime
library's `.regs` is TY-47. `size` is the image's size. -/
def headRule (h : Head) (size : Nat) (runtime : Bool) : Option Nat :=
  if 2 ^ 20 < h.code ∨ 2 ^ 22 < h.ann ∨ 65536 < h.records ∨ 2 ^ 21 < h.data ∨ 1022 < h.regions ∨ 1023 < h.tables ∨
      (runtime = false ∧ 16 < h.regs8) ∨ 65536 < h.lpriv ∨ 262144 < h.scratch then
    some 46
  else if h.fmt ≠ 1 ∨ h.code % 4 ≠ 0 ∨ h.regs8 = 0 ∨ (runtime = true ∧ h.regs8 ≠ 1) ∨ h.waves = 0 ∨
      16 < h.waves ∨ 4 < h.quartets ∨ h.waves < 4 * h.quartets ∨ 8 < h.slots ∨ h.lpriv % 16 ≠ 0 ∨
      h.scratch % 256 ≠ 0 ∨ h.reserved ≠ 0 ∨
      size ≠ 64 + 16 * h.regions + h.code + h.ann + h.data then some 47
  else none

/-- An entry of the region table (R240). -/
structure Entry where
  kind : Nat
  granule : Nat
  b : Nat
  l : Nat
  off : Nat
  deriving DecidableEq, Repr

/-- The region table. -/
def entries (h : Head) (bs : List Byte) : List Entry :=
  (List.range h.regions).map fun i =>
    let f (o n : Nat) : Nat := num bs (64 + 16 * i + o) n
    { kind := f 0 2, granule := f 2 1, b := f 4 4, l := f 8 4, off := f 12 4 }

/-- A `.data` image or a jump table. -/
def Entry.fixed (e : Entry) : Bool := e.kind == 1 || e.kind == 2

/-- Region j of the data section stands after region i (R240): at a higher offset or, where one of them is empty, after it
in the section's order, images before jump tables and each in declaration order. -/
def after (es : List Entry) (i j : Nat) : Bool :=
  match es[i]?, es[j]? with
  | some a, some b =>
    b.fixed && (decide (a.off < b.off) || (a.off == b.off && (decide (a.kind < b.kind) || (a.kind == b.kind && decide (i < j)))))
  | _, _ => false

/-- The bytes from region i of the data section to the one after it, or to the section's end (R240). -/
def gapLen (h : Head) (es : List Entry) (i : Nat) : Nat :=
  let off (k : Nat) : Nat := (es[k]?.map (·.off)).getD 0
  (((List.range es.length).filter (after es i)).map off).foldl min h.data - off i

/-- The region table is inconsistent (R240, R252, R365). -/
def tableBad (h : Head) (es : List Entry) : Bool :=
  ((List.range es.length).any fun i =>
    match es[i]? with
    | none => false
    | some e =>
      let n := gapLen h es i
      decide (3 < e.kind) || decide (3 < e.granule) || ((e.kind == 3) != (e.b == 0xFFFFFFFF)) ||
      (e.fixed && (decide (e.off % 4 ≠ 0) || decide (h.data < e.off))) ||
      (e.kind == 2 && (decide (n % 4 ≠ 0) || decide (n = 0) || decide (4096 < n)))) ||
  decide ((es.filter (·.kind == 2)).length ≠ h.tables) || decide (1 < (es.filter (·.kind == 3)).length)

/-- The zero bytes, at most 3, that may be padding at the end of a `.data` image: the trailing ones of its bytes. -/
def zeroTail (bs : List Byte) : Nat := min 3 (bs.reverse.takeWhile (· == 0)).length

/-- The length of region i in the data section. The image states no length but by its offsets, and zero bytes at the end of a
`.data` image may be directives' bytes or padding: how many of them are padding is left free (R240, log 28). -/
def fixedLen (h : Head) (es : List Entry) (data : List Byte) (i : Nat) : Nat :=
  let n := gapLen h es i
  let bytes := (data.drop ((es[i]?.map (·.off)).getD 0)).take n
  if (es[i]?.map (·.kind)) = some 1 ∧ zeroTail bytes ≠ 0 then n - Config.dataPadding i bytes % (zeroTail bytes + 1) else n

/-- A fact of a record as it stands in the image (R242). -/
structure RawFact where
  code : Nat
  tag : Nat
  region : Nat
  x : Nat
  y : Nat
  z : Nat
  deriving DecidableEq, Repr

/-- A record (R241). -/
structure Record where
  off : Nat
  quota8 : Nat
  flags : Nat
  facts : List RawFact
  /-- Region, reserved field and offset of each lock. -/
  locks : List (Nat × Nat × Int)
  deriving DecidableEq, Repr

/-- The record inherits. -/
def Record.inherit (r : Record) : Bool := decide (r.flags % 2 = 1)

/-- n records from the annotation section; none where they do not fill it exactly. -/
def records : Nat → List Byte → Option (List Record)
  | 0, bs => if bs.isEmpty then some [] else none
  | n + 1, bs =>
    let nf := num bs 6 1
    let nl := num bs 7 1
    let size := 8 + 16 * nf + 8 * nl
    if bs.length < size then none
    else
      let r : Record := {
        off := num bs 0 4, quota8 := num bs 4 1, flags := num bs 5 1
        facts := (List.range nf).map fun i =>
          let f (o n : Nat) : Nat := num bs (8 + 16 * i + o) n
          { code := f 0 1, tag := f 1 1, region := f 2 2, x := f 4 4, y := f 8 4, z := f 12 4 }
        locks := (List.range nl).map fun i =>
          (num bs (8 + 16 * nf + 8 * i) 2, num bs (8 + 16 * nf + 8 * i + 2) 2, snum bs (8 + 16 * nf + 8 * i + 4)) }
      (records n (bs.drop size)).map (r :: ·)

/-- What the check knows of an image. -/
structure Image where
  head : Head
  entries : List Entry
  /-- Code words in order. -/
  code : List Nat
  records : List Record
  /-- Entries of the jump tables in table order, as offsets from the sealed entry (R146). -/
  tables : List (List Int)
  runtime : Bool
  /-- Lengths of the regions of the data section. -/
  lens : List Nat

/-- Words of some bytes. -/
def words (bs : List Byte) : List Nat := (List.range (bs.length / 4)).map fun i => num bs (4 * i) 4

/-- The image read; none where its header or its region table is inconsistent (TY-47). -/
def readImage (bs : List Byte) (runtime : Bool) : Option Image :=
  let h := head bs
  let es := entries h bs
  let body := bs.drop (64 + 16 * h.regions)
  let data := body.drop (h.code + h.ann)
  if tableBad h es then none
  else (records h.records ((body.drop h.code).take h.ann)).map fun rs =>
    { head := h, entries := es, code := words (body.take h.code), records := rs, runtime := runtime
      lens := (List.range es.length).map (fixedLen h es data)
      tables := ((List.range es.length).filter fun i => (es[i]?.map (·.kind)) == some 2).map fun i =>
        (List.range (gapLen h es i / 4)).map fun k => snum data ((es[i]?.map (·.off)).getD 0 + 4 * k) }

namespace Image
variable (m : Image)
/-- A code word by byte offset. -/
def word (off : Nat) : Nat := m.code.getD (off / 4) 0
/-- Bytes of code. -/
def size : Nat := 4 * m.code.length
/-- The record at a block offset. -/
def record (off : Nat) : Option Record := m.records.find? fun r => r.off == off
/-- A region's kind: 4 for `frame`, which counts as a fixed region of 0xB40 bytes; 0 for `args` (R240, R257). -/
def kind (r : Nat) : Nat :=
  if r = 1023 then 0 else if r = 1022 ∧ m.runtime then 4 else (m.entries[r]?.map (·.kind)).getD 0
/-- The length of a region that the image fixes (R248, R257). -/
def fixedLength (r : Nat) : Nat :=
  if m.kind r = 4 then 0xB40 else m.lens.getD r 0
/-- A region number that a `chk` may name (R171). -/
def regionOk (r : Nat) : Bool := decide (r < m.entries.length) || r == 1023 || (r == 1022 && m.runtime)
/-- The region number of jump table t (R147). -/
def tableRegion (t : Nat) : Nat :=
  ((List.range m.entries.length).filter fun i => (m.entries[i]?.map (·.kind)) == some 2).getD t 0
/-- The scratch region's number (R365). -/
def scratchRegion : Option Nat := (List.range m.entries.length).find? fun i => (m.entries[i]?.map (·.kind)) == some 3
end Image

/-! ### Clauses (R60 to R62, R67, R80) -/

/-- A clause of the code: its offset, header, the offsets of its instructions, and where it ends. -/
structure Clause where
  off : Nat
  hdr : Header
  insts : List Nat
  stop : Nat
  deriving DecidableEq, Repr

/-- The offset of a clause's last instruction. -/
def Clause.last (c : Clause) : Nat := c.insts.getLastD c.off

/-- A word moves every thread that issues it: it does not fall through. -/
def moves (w : Nat) : Bool :=
  let op := opcodeOf w
  op == 0x4C || op == 0x7E || op == 0x49 || op == 0x4B || ((op == 0x48 || op == 0x4A) && decide (bitsOf w 22 18 = 31))

/-- Some thread leaves the clause by falling through. -/
def Clause.falls (m : Image) (c : Clause) : Bool := c.hdr.gp.isSome || !moves (m.word c.last)

/-- Fill may stand after the clause (R80). -/
def Clause.fillAfter (m : Image) (c : Clause) : Bool := !c.falls m && opcodeOf (m.word c.last) != 0x4A

/-- The offsets of n instructions, and the offset after them; the failing instruction's offset where the code ends first. -/
def instsFrom (m : Image) : Nat → Nat → Except Nat (List Nat × Nat)
  | 0, at_ => .ok ([], at_)
  | n + 1, at_ =>
    let next := at_ + if twoWord (opcodeOf (m.word at_)) then 8 else 4
    if m.size ≤ at_ then .error (at_ - 4)
    else if m.size < next then .error at_
    else (instsFrom m n next).map fun (l, e) => (at_ :: l, e)

/-- The word of fill (R80). -/
def fill : Nat := 0xFFFFFFFF

/-- The offset after a run of fill; the first argument bounds the run. -/
def fillEnd (m : Image) : Nat → Nat → Nat
  | 0, at_ => at_
  | n + 1, at_ => if at_ < m.size ∧ m.word at_ = fill then fillEnd m n (at_ + 4) else at_

/-- The clauses of the code in order, with the offset and rule at which their reading ends, if they break R62 or R80. -/
def clausesFrom (m : Image) : Nat → Nat → Option Clause → List Clause × Option (Nat × Nat)
  | 0, _, _ => ([], none)
  | n + 1, at_, prev =>
    let falls := (prev.map (·.falls m)).getD true
    if m.size ≤ at_ then ([], if falls then some ((prev.map (·.last)).getD 0, 6) else none)
    else if m.word at_ = fill then
      let e := fillEnd m m.code.length at_
      let ended := decide (e < m.size) && (((decodeHeader (m.word e)).map (·.bs)).getD false)
      if ((prev.map (·.fillAfter m)).getD false) && ended then clausesFrom m n e prev else ([], some (at_, 6))
    else match decodeHeader (m.word at_) with
      | none => ([], some (at_, 5))
      | some h =>
        match instsFrom m h.n (at_ + 4) with
        | .error e => ([], some (e, 6))
        | .ok (l, e) =>
          let c : Clause := { off := at_, hdr := h, insts := l, stop := e }
          let (r, f) := clausesFrom m n e (some c)
          (c :: r, f)

/-- The code's clauses. -/
def clauses (m : Image) : List Clause × Option (Nat × Nat) := clausesFrom m (m.code.length + 1) 0 none

/-! ### Failures (R251, R253) -/

/-- A failure: the block's offset, the word, the rule, the register, the expected and found tags, the region. -/
structure Fail where
  block : Nat := 0
  word : Nat := 0
  rule : Nat
  reg : Nat := 0xFF
  exp : Nat := 0xFF
  found : Nat := 0xFF
  region : Nat := 0
  deriving DecidableEq, Repr

/-- The order of report (R251): block, word, rule, register. -/
def Fail.before (a b : Fail) : Bool :=
  decide (a.block < b.block) || (a.block == b.block && (decide (a.word < b.word) || (a.word == b.word &&
    (decide (a.rule < b.rule) || (a.rule == b.rule && decide (a.reg < b.reg))))))

/-- The first failure of a list. -/
def firstFail : List Fail → Option Fail
  | [] => none
  | a :: r =>
    match firstFail r with
    | none => some a
    | some b => some (if b.before a then b else a)

/-- A register field that names no register: the held-lock set, the quota, none (R253). -/
def noReg (c : Nat) : Bool := c == 0xE0 || c == 0xE1 || c == 0xFF

/-- A failure under a rule on a register, found with the tag it carries. -/
def PState.fail (p : PState) (rule c : Nat) : Fail :=
  { rule := rule, reg := c, found := if noReg c then 0xFF else (p.full c).code }

/-! ### Records (R241 to R243, TY-39 to TY-45) -/

/-- A fact stands over a pair. -/
def RawFact.isPair (f : RawFact) : Bool :=
  f.tag == 6 || f.tag == 7 || f.tag == 9 || (f.tag == 8 && decide (0x80 ≤ f.code) && decide (f.code % 4 = 0))
/-- The signed value of a word. -/
def sword (n : Nat) : Int := signExt 32 n

/-- The fact's fields are as R242 and R243 allow (TY-39). -/
def RawFact.ok (f : RawFact) : Bool :=
  let none_ (l : List Nat) : Bool := l.all (· == 0)
  decide (f.code ≤ 0xD7) && (match f.tag with
    | 0 | 1 | 2 | 4 | 5 => none_ [f.region, f.x, f.y, f.z]
    | 3 => none_ [f.region, f.z] && decide (sword f.x ≤ sword f.y)
    | 6 => decide (f.x < 256) && decide (1 ≤ f.y) && decide (f.y ≤ 2 ^ 20) && decide (f.code < 0xC0)
    | 7 => none_ [f.x] && decide (sword f.y ≤ sword f.z) && decide (f.code < 0xC0)
    | 8 => none_ [f.region, f.x, f.y, f.z] && decide (0x80 ≤ f.code) && decide (f.code < 0xC0) && decide (f.code % 4 ≠ 1)
    | 9 => none_ [f.x, f.y] && decide (f.z % 4 = 0) && decide (f.code < 0xC0)
    | _ => false)

/-- The tag that a fact gives. -/
def RawFact.toTag (f : RawFact) : Tag :=
  match f.tag with
  | 0 => .undef | 1 => .bits | 2 => .int | 3 => .range (sword f.x) (sword f.y) | 4 => .flt | 5 => .pend
  | 6 => .rel f.region f.x f.y (sword f.z) | 7 => .ptr f.region (sword f.y) (sword f.z) | 8 => .handle
  | _ => .token f.region (sword f.z)

/-- The facts of a record that are well formed; the others are reported at the record itself. -/
def Record.good (r : Record) : List RawFact := r.facts.filter fun f => f.ok && !(f.isPair && decide (f.code % 2 = 1))

/-- The state at a block with a record of its own (R245). -/
def Record.state (r : Record) : PState :=
  let p := r.good.foldl (fun (p : PState) f =>
    let p := p.set f.code (if f.tag = 5 then { tag := .pend, later := .bits } else { tag := f.toTag })
    if f.isPair then p.set (f.code + 1) { tag := .high } else p) {}
  let locks := r.locks.foldl (fun l k => insertLock l (k.1, k.2.2)) []
  { p with locks := locks, quota := 8 * r.quota8 }
where
  /-- A lock put in ascending order of region and offset. -/
  insertLock : List (Nat × Int) → Nat × Int → List (Nat × Int)
    | [], k => [k]
    | a :: l, k => if k.1 < a.1 ∨ (k.1 = a.1 ∧ k.2 < a.2) then k :: a :: l else if k = a then a :: l else a :: insertLock l k

/-- A record's own failures: TY-39 to TY-42 and TY-45. A TY-41 failure by an `idx` that is not int names the fact's own region
(DESIGN CHOICE, log 28). -/
def recordFails (m : Image) (r : Record) : List Fail :=
  let at_ (rule reg found region : Nat) : Fail :=
    { block := r.off, rule := rule, reg := reg, found := if noReg reg then 0xFF else found, region := region }
  let n := m.entries.length
  let ints := (r.facts.filter fun f => f.tag == 2 || f.tag == 3).map (·.code)
  let names := r.facts.map (·.code)
  (if decide (r.flags / 2 ≠ 0) || decide (r.quota8 = 0) || decide (16 < r.quota8) || decide (216 < r.facts.length) ||
      decide (32 < r.locks.length) || (r.inherit && (!r.facts.isEmpty || !r.locks.isEmpty)) then [at_ 39 0xFF 0xFF 0]
    else []) ++
  (r.facts.flatMap fun f =>
    (if f.ok then [] else [at_ 39 f.code f.tag 0]) ++
    (if decide (1 < names.count f.code) || (f.isPair && (decide (f.code % 2 = 1) || names.contains (f.code + 1))) then
      [at_ 40 f.code f.tag 0] else []) ++
    (let frame := m.runtime && f.region == 1022
     let bad : Bool := match f.tag with
      | 6 => (decide (n ≤ f.region) && !frame) || !ints.contains f.x
      | 7 => decide (n ≤ f.region) && !frame && f.region != 1023
      | 9 => decide (n ≤ f.region)
      | _ => false
     if bad then [at_ 41 f.code f.tag f.region] else []) ++
    (if decide (f.code < 0x80) && decide (8 * r.quota8 ≤ f.code + if f.isPair then 1 else 0) then
      [at_ 45 f.code f.tag 0] else [])) ++
  (r.locks.flatMap fun k =>
    (if k.2.1 ≠ 0 then [at_ 39 0xE0 0xFF 0] else []) ++
    (if n ≤ k.1 then [at_ 41 0xE0 0xFF k.1] else []) ++
    (if decide (k.2.2 % 4 ≠ 0) || decide (1 < (r.locks.filter fun x => x.1 == k.1 && x.2.2 == k.2.2).length) then
      [at_ 42 0xE0 0xFF 0] else []))

/-! ### Edges (R242, R249) -/

/-- A register's current fact implies a successor's fact on it (R242). -/
def implied (p : PState) (c : Nat) (want : Tag) : Bool :=
  let t := p.tag c
  let pair := p.tag (c + 1) == .high
  match want with
  | .undef => t != .pend
  | .bits => t == .bits || t == .flt || t.isInt
  | .int => t.isInt
  | .range lo hi => (match t with
    | .range a b => decide (lo ≤ a) && decide (b ≤ hi)
    | _ => false)
  | .flt => t == .flt
  | .pend => t == .pend
  | .rel .. => t == want && pair
  | .ptr r lo hi => (match t with
    | .ptr r' a b => pair && r == r' && decide (lo ≤ a) && decide (b ≤ hi)
    | _ => false)
  | .handle => t == .handle || (if c % 4 = 0 then pair && t.isPtr else t.isInt)
  | .token r k => (t == want || t == .ptr r k k) && pair
  | .high => p.tag (c - 1) != .pend && t != .pend

/-- What keeps a state from implying a record, under a rule: registers, then locks, then quota. -/
def edgeFails (p : PState) (r : Record) (rule : Nat) : List Fail :=
  let want := r.state
  ((List.range 0xD8).flatMap fun c =>
    if implied p c (want.tag c) then []
    else [{ p.fail rule c with exp := if rule = 18 then (want.full c).code else 0xFF }]) ++
  (if p.locks = want.locks then [] else [{ rule := rule, reg := 0xE0 }]) ++
  (if p.quota = want.quota then [] else [{ rule := rule, reg := 0xE1 }])

/-! ### Pass 1 (R244, R250) -/

/-- What pass 1 finds: clauses, block offsets, call sites by target with the clause that follows, targets of edges other
than fall-through with every jump-table entry among them, the entries of tables that no `bri` names, and functions as
first and last clause offsets. -/
structure Pass1 where
  clauses : List Clause
  stop : Option (Nat × Nat)
  blocks : List Nat
  calls : List (Nat × Nat)
  targets : List Nat
  loose : List Nat
  functions : List (Nat × Nat)

/-- The target of a branch, call or spawn word at an offset, as an offset (R141, R160). -/
def target (m : Image) (at_ : Nat) : Int :=
  let w := m.word at_
  at_ + 4 * (if opcodeOf w = 0x47 then signExt 16 (bitsOf w 15 0) else signExt 17 (bitsOf w 16 0))

/-- An offset as a number, with one that no block has for those below the code. -/
def offsetOf (x : Int) : Nat := if x < 0 then 1 else x.toNat

/-- The targets that an instruction names, `call` not counted. -/
def targetsAt (m : Image) (at_ : Nat) : List Nat :=
  match opcodeOf (m.word at_) with
  | 0x48 | 0x47 => [offsetOf (target m at_)]
  | 0x49 => (m.tables.getD (bitsOf (m.word at_) 15 6) []).map offsetOf
  | _ => []

/-- Pass 1. -/
def pass1 (m : Image) : Pass1 :=
  let (cs, stop) := clauses m
  let blocks := (cs.filter (·.hdr.bs)).map (·.off)
  let calls := cs.flatMap fun c => c.insts.filterMap fun i =>
    if opcodeOf (m.word i) = 0x4A then some (offsetOf (target m i), c.stop) else none
  let heads := (calls.map (·.1)).eraseDups
  let functions := (heads.filter blocks.contains).filterMap fun t =>
    let run := cs.filter fun c => decide (t ≤ c.off) && (c.off == t || !(heads.any fun h => decide (t < h) && decide (h ≤ c.off)))
    (run.find? fun c => opcodeOf (m.word c.last) == 0x4B).map fun c => (t, c.off)
  let named := cs.flatMap fun c => (c.insts.filter fun i => opcodeOf (m.word i) == 0x49).map fun i => bitsOf (m.word i) 15 6
  let loose := ((List.range m.tables.length).filter fun t => !named.contains t).flatMap fun t =>
    (m.tables.getD t []).map offsetOf
  { clauses := cs, stop := stop, blocks := blocks, calls := calls, functions := functions, loose := loose
    targets := loose ++ calls.map (·.1) ++ calls.map (·.2) ++ cs.flatMap fun c => c.insts.flatMap (targetsAt m) }

namespace Pass1
/-- The function that holds a clause. -/
def functionAt (x : Pass1) (clause : Nat) : Option (Nat × Nat) :=
  x.functions.find? fun f => decide (f.1 ≤ clause) && decide (clause ≤ f.2)
/-- The clauses were read to the offset. -/
def reached (x : Pass1) (off : Nat) : Bool :=
  x.stop.isNone || decide (off < (x.clauses.getLast?.map (·.stop)).getD 0)
/-- An offset is an annotated block; past the point where reading ended, a header with BS = 1 is taken for one. -/
def annotated (x : Pass1) (m : Image) (off : Nat) : Bool :=
  (m.record off).isSome && (if x.reached off then x.blocks.contains off
    else decide (off % 4 = 0) && decide (off < m.size) && ((decodeHeader (m.word off)).map (·.bs)).getD false)
end Pass1

/-! ### Operands -/

/-- The codes of an operand's n registers; none for constants and specials. -/
def codesOf (x : Nat × Opnd) : List Nat :=
  match x.2 with
  | .lane r => keysFrom r.toNat x.1
  | .unif r => keysFrom (0x80 + r.toNat) x.1
  | _ => []

/-- D's registers as codes (R65, R75). -/
def destCodes (uni : Bool) (i : Instr) : List Nat :=
  match i with
  | .rdsr _ d _ => codesOf (2, pairOpnd d)
  | _ => match destOf i with
    | some (n, d) => keysFrom ((if uni then 0x80 else 0) + d.toNat) n
    | none => []

/-- The predicate that an instruction writes. -/
def destPred : Instr → Option Nat
  | .cmpI32 _ p .. | .cmpN32 _ p .. | .cmpF32 _ p .. | .cmpF64 _ p .. | .cmpI64 _ p .. | .fcls _ p .. | .plop _ p .. =>
    some (0xC0 + p.val)
  | .vote _ _ _ p => some (0xC0 + p.val)
  | _ => none

/-- The predicates that an instruction reads (TY-12). -/
def predSources : Instr → List Nat
  | .movp _ _ _ p .. => [0xC0 + p.val]
  | .plop _ _ a b _ => (a.toList ++ b.toList).map fun p => 0xC0 + p.val
  | .vote _ _ a _ | .voteBallot _ _ a => a.toList.map fun p => 0xC0 + p.val
  | .bra _ _ c _ | .call _ _ c _ => c.toList.map fun p => 0xC0 + p.1.val
  | _ => []

/-- D is a further source (R112, R198). -/
def readsD : Instr → Bool
  | .madLo .. | .bfi .. | .perm .. | .ffma .. | .hfma .. | .hdot2 .. | .mscl .. | .ldw .. => true
  | _ => false

/-- The integer that an operand's constant fact gives (R246): an integer constant, or a register holding int[k, k]. -/
def constOf (p : PState) : Opnd → Option Int
  | .pos k => some k.toNat
  | .neg k => some (-1 - k.toNat)
  | .lane r => constTag (p.tag r.toNat)
  | .unif r => constTag (p.tag (0x80 + r.toNat))
  | _ => none
where
  /-- The constant of an interval of one value. -/
  constTag : Tag → Option Int
    | .range a b => if a = b then some a else none
    | _ => none

/-- The fact of a 32-bit operand (R246): one register of a ptr pair gives bits (R113). -/
def opTag (p : PState) : Opnd → Tag
  | .lane r => single (p.full r.toNat)
  | .unif r => single (p.full (0x80 + r.toNat))
  | .pos k => .range k.toNat k.toNat
  | .neg k => .range (-1 - k.toNat) (-1 - k.toNat)
  | .fp _ => .flt
  | .special k => match k with
    | .lid => .range 0 63 | .tid => .range 0 4095 | .wid => .range 0 63 | .w => .range 64 64 | .core => .range 0 1023
    | .qtr => .range 0 3 | .depth => .range 0 10 | _ => .int
where
  /-- A single register's tag. -/
  single (t : Tag) : Tag := if t.isPtr then .bits else t

/-- The facts of a 64-bit operand's two registers: a ptr pair keeps its fact on the even one. -/
def pairTags (p : PState) : Opnd → List Tag
  | .lane r => two (p.tag r.toNat) (p.tag (r.toNat + 1))
  | .unif r => two (p.tag (0x80 + r.toNat)) (p.tag (0x81 + r.toNat))
  | .pos k => [.range k.toNat k.toNat, .range 0 0]
  | .neg k => [.range (-1 - k.toNat) (-1 - k.toNat), .range (-1) (-1)]
  | .fp _ => [.flt, .flt]
  | .special k => [opTag p (.special k), .range 0 0]
where
  /-- The tags of a pair of registers. -/
  two (a b : Tag) : List Tag := [a, b]

/-- The constant of a 64-bit operand: an integer constant, or a pair that holds it sign-extended (R247, log 28). -/
def constPair (p : PState) (o : Opnd) : Option Int :=
  match o, pairTags p o with
  | .pos k, _ => some k.toNat
  | .neg k, _ => some (-1 - k.toNat)
  | _, [.range a b, .range c d] => if a = b ∧ c = d ∧ c = (if a < 0 then -1 else 0) then some a else none
  | _, _ => none

/-! ### Accesses (R198, R248) -/

/-- One access that an instruction asks for: its address pair, a window form's window, offset, bytes (none where a copy's
count has no interval), whether it writes, and the rule for an address that is not ptr. -/
structure Want where
  addr : Pair
  win : Option Win := none
  off : Int := 0
  n : Option Nat
  write : Bool
  rule : Nat := 14

/-- The code of a pair's even register. -/
def evenCode (a : Pair) : Nat := a.code

/-- The accesses of an instruction; each range of a `cpy` counts with the b of its count's int[a, b] (R248). -/
def wants (p : PState) (i : Instr) : List Want :=
  let ld (win : Option Win) (a : Pair) (z : LdSize) (off : Int) : List Want :=
    [{ addr := a, win := win, off := off, n := some z.bytes, write := false }]
  let st (win : Option Win) (a : Pair) (z : StSize) (off : Int) : List Want :=
    [{ addr := a, win := win, off := off, n := some z.bytes, write := true }]
  let w (wide : Bool) : Nat := if wide then 8 else 4
  match i with
  | .ld _ _ a z o | .ldg _ _ a z o => ld none a z (o.toNat * z.bytes)
  | .ldl _ _ a z o => ld (some .lane) a z (o.toNat * z.bytes)
  | .lds _ _ a z o => ld (some .scratch) a z (o.toNat * z.bytes)
  | .ldc _ _ a z o => ld (some .cluster) a z (o.toNat * z.bytes)
  | .ldk _ _ a z o => ld (some .pad) a z (o.toNat * z.bytes)
  | .ldx _ _ a z o => ld none a z o.toInt
  | .st _ a _ z o | .stg _ a _ z o => st none a z (o.toNat * z.bytes)
  | .stl _ a _ z o => st (some .lane) a z (o.toNat * z.bytes)
  | .sts _ a _ z o => st (some .scratch) a z (o.toNat * z.bytes)
  | .stc _ a _ z o => st (some .cluster) a z (o.toNat * z.bytes)
  | .stk _ a _ z o => st (some .pad) a z (o.toNat * z.bytes)
  | .stx _ a _ z o => st none a z o.toInt
  | .ldblk _ _ a f => [{ addr := a, n := some (f.blockBytes), write := false }]
  | .cmpst _ a _ wide => [{ addr := a, n := some (64 * w wide), write := true }]
  | .ldw _ _ a wide o => [{ addr := a, off := o.toNat * w wide, n := some (w wide), write := false }]
  | .atom _ _ a _ wide _ o => [{ addr := a, off := o.toInt, n := some (w wide), write := true }]
  | .cas _ _ a _ _ wide o => [{ addr := a, off := o.toInt, n := some (w wide), write := true }]
  | .acq _ a o | .rel _ a o => [{ addr := a, off := o.toInt, n := some 4, write := true }]
  | .launch _ a o => [{ addr := a, off := o.toInt, n := some 128, write := false, rule := 37 }]
  | .cpy _ dst src xf len =>
    let b := match opTag p len with
      | .range a b => if 0 ≤ a then some b.toNat else none
      | _ => none
    [{ addr := src, n := b, write := false }, { addr := dst, n := b, write := true }] ++
    (match xf with
      | .none => []
      | .expand x => [{ addr := x, n := b, write := false }]
      | .compact x => [{ addr := x, n := b, write := true }])
  | _ => []

/-- The address fact of an access, a lock token of `acq` and `rel` as ptr(R, [c, c]) (R243). -/
def addrTag (p : PState) (i : Instr) (a : Pair) : Tag :=
  match i, p.tag (evenCode a) with
  | .acq .., .token r c | .rel .., .token r c => .ptr r c c
  | _, t => t

/-- What keeps an access from being proven (R198, R248, TY-14 to TY-16, TY-37). -/
def wantFails (m : Image) (p : PState) (i : Instr) (x : Want) : List Fail :=
  let c := evenCode x.addr
  let t := addrTag p i x.addr
  let at_ (rule : Nat) : Fail := { p.fail rule c with region := if rule ≠ 37 then t.region else 0 }
  let unproven := if x.rule = 37 then 37 else 15
  match x.win with
  | some w =>
    let lim := if w = .lane then some m.head.lpriv else if w = .scratch then some m.head.scratch else none
    match t with
    | .int => if p.tag (c + 1) = .range 0 0 then [at_ 15] else [p.fail 14 (c + 1)]
    | .range lo hi =>
      if p.tag (c + 1) ≠ .range 0 0 then [p.fail 14 (c + 1)]
      else
        let top := hi + x.off + (x.n.getD 0 : Nat)
        (if lo + x.off < 0 || (lim.any fun l => decide ((l : Int) < top)) then [at_ 15] else []) ++
        (if 2 ^ 48 - 1 < top then [at_ 48] else [])
    | _ => [at_ 14]
  | none =>
    if !t.isPtr then [at_ x.rule]
    else
      let fixed := m.kind t.region == 1 || m.kind t.region == 2 || m.kind t.region == 4
      let proven : Bool := match x.n, t with
        | some n, .rel _ _ s k => decide (0 ≤ k + x.off) && decide (k + x.off + n ≤ s)
        | some n, .ptr r lo hi =>
          decide (0 ≤ lo + x.off) && (!fixed || decide (hi + x.off + n ≤ (m.fixedLength r : Int)))
        | _, _ => false
      let top : Int := match x.n, t with
        | some n, .ptr _ _ hi => hi + x.off + n
        | _, _ => 0
      (if proven then [] else [at_ unproven]) ++
      (if x.write && (m.kind t.region == 1 || m.kind t.region == 2) then [at_ 16] else []) ++
      (if !fixed && decide (2 ^ 48 - 1 < top) then [at_ 48] else [])

/-! ### What admission gathers (R248, R254) -/

/-- Minimum lengths and written marks by region, window minimums, the largest lock set, and the descriptor's flags. -/
structure Gather where
  mins : List (Nat × Nat) := []
  written : List Nat := []
  clus : Nat := 0
  pad : Nat := 0
  locks : Nat := 0
  spawn : Bool := false
  launch : Bool := false
  acq : Bool := false
  deriving DecidableEq, Repr

/-- An access raises minimums and marks its region written (R248). -/
def gatherWant (p : PState) (i : Instr) (g : Gather) (x : Want) : Gather :=
  let n := x.n.getD 0
  match x.win, addrTag p i x.addr with
  | some w, .range _ hi =>
    let top := (hi + x.off + (n : Nat)).toNat
    if w = .cluster then { g with clus := max g.clus top } else if w = .pad then { g with pad := max g.pad top } else g
  | none, t =>
    let top := match t with
      | .ptr _ _ hi => (hi + x.off + (n : Nat)).toNat
      | _ => 0
    { g with
      mins := putd 0 g.mins t.region (max (look 0 g.mins t.region) top)
      written := if x.write && !g.written.contains t.region then t.region :: g.written else g.written }
  | _, _ => g

/-- What an instruction adds to what is gathered. -/
def gather (p : PState) (i : Instr) (g : Gather) : Gather :=
  let g := (wants p i).foldl (gatherWant p i) g
  match i with
  | .spawn .. => { g with spawn := true }
  | .launch .. => { g with launch := true }
  | .acq .. => { g with acq := true, locks := max g.locks (p.locks.length + 1) }
  | _ => g

/-! ### Results (R113, R168, R198, R219, R233, R246, R247, R257) -/

/-- An interval that stays in 32 bits, else int (R246). -/
def interval (lo hi : Int) : Tag := if -2 ^ 31 ≤ lo ∧ hi ≤ 2 ^ 31 - 1 then .range lo hi else .int

/-- `add` of a fact and a constant (R246). -/
def addTag (t : Tag) (k : Option Int) : Option Tag :=
  match t, k with
  | .range a b, some k => some (interval (a + k) (b + k))
  | _, _ => none

/-- `and` with a constant (R246). -/
def andTag (k : Option Int) : Option Tag :=
  match k with
  | some k => if 0 ≤ k ∧ k ≤ 2 ^ 31 - 1 then some (.range 0 k) else none
  | none => none

/-- The pointer fact of `lea`, by the first row of R247 that covers it. -/
def leaTag (p : PState) (a b : Opnd) (sh : Nat) (sx : Bool) (disp : Int) : Option Tag :=
  let f : Int := 2 ^ sh
  let bound : Option (Nat × Nat) := match b with
    | .lane r => (p.fact r.toNat).bound
    | .unif r => (p.fact (0x80 + r.toNat)).bound
    | _ => none
  let rows : Tag → Option Tag
    | .ptr r lo hi =>
      if lo = hi ∧ sx = false ∧ bound = some (r, sh) then
        some (.rel r (match b with | .lane k => k.toNat | .unif k => 0x80 + k.toNat | _ => 0) (2 ^ sh) (lo + disp))
      else match opTag p b with
        | .range x y => if 0 ≤ x ∨ sx then some (.ptr r (lo + x * f + disp) (hi + y * f + disp)) else none
        | _ => none
    | .rel r i s c => (constOf p b).map fun k =>
        .rel r i s (c + k * f + disp)
    | _ => none
  match pairTags p a with
  | t :: _ => rows t
  | [] => none

/-- A pointer fact shifted by a constant (R247). -/
def shiftTag (t : Tag) (k : Int) : Option Tag :=
  match t with
  | .ptr r lo hi => some (.ptr r (lo + k) (hi + k))
  | .rel r i s c => some (.rel r i s (c + k))
  | _ => none

/-- A pointer fact leaves 32 bits (TY-48). -/
def tooFar : Tag → Bool
  | .ptr _ lo hi => decide (lo < -2 ^ 31) || decide (2 ^ 31 - 1 < hi)
  | .rel _ _ _ c => decide (c < -2 ^ 31) || decide (2 ^ 31 - 1 < c)
  | _ => false

/-- The region whose base or length argument a 64-bit load of the argument block reads (R247). -/
def argFacts (m : Image) (t : Tag) (off : Int) : Option (List Tag) :=
  match t with
  | .ptr 1023 lo hi =>
    if lo ≠ hi then none
    else
      match (List.range m.entries.length).find? fun i => (m.entries[i]?.map fun e => (e.b : Int)) == some (lo + off) with
      | some i => some [.ptr i 0 0, .high]
      | none => if m.entries.any fun e => (e.l : Int) == lo + off then some [.int, .int] else none
  | _ => none

/-- The facts of a load's registers (R198, R247). -/
def loadTags (m : Image) (p : PState) (i : Instr) (a : Pair) (win : Bool) (z : LdSize) (off : Int) : List Tag :=
  let t := addrTag p i a
  let whole := m.kind t.region == 1 || m.kind t.region == 2 || m.kind t.region == 4
  let plain := List.replicate z.regs (if !win && whole && decide (z.bytes ≤ 4) then Tag.int else .bits)
  if z = .b64 && !win then (argFacts m t off).getD plain else plain

/-- A tag without its interval (R246). -/
def widen (t : Tag) : Tag :=
  match t with
  | .range .. => .int
  | t => t

/-- What `movp` leaves in a register: intervals join with the register's own, and without one the result is int (R246). -/
def mergeTag (old new : Tag) : Tag :=
  match new, old with
  | .range x y, .range u v => .range (min x u) (max y v)
  | .range .., _ => .int
  | t, _ => t

/-- The common tag of two sources of `shflx`. -/
def joinTag (a b : Tag) : Tag :=
  if a.isInt && b.isInt then .int else if a = b then a else .bits

/-- A converted value's tag, by its type (R113). -/
def numTag (t : NumTy) : Tag :=
  match t with
  | .f32 | .f64 | .f16 | .bf16 => .flt
  | _ => .int

/-- The facts that an instruction gives its D registers, first register first; a pair's ptr fact is followed by `high`. -/
def resultTags (m : Image) (p : PState) (uni : Bool) (i : Instr) : List Tag :=
  let d := destCodes uni i
  let all (t : Tag) : List Tag := d.map fun _ => t
  let ptrOr (t : Option Tag) : List Tag := match t with
    | some t => [t, .high]
    | none => all .int
  match i with
  | .add _ _ a b _ =>
    all (((addTag (opTag p a) (constOf p b)).or (addTag (opTag p b) (constOf p a))).getD .int)
  | .addi _ _ a _ imm => all ((addTag (opTag p a) (some imm.toInt)).getD .int)
  | .and _ _ a b => all (((andTag (constOf p b)).or (andTag (constOf p a))).getD .int)
  | .shr _ _ a b _ =>
    all (match opTag p a, constOf p b with
      | .range x y, some n => if 0 ≤ x ∧ 0 ≤ n ∧ n < 32 then .range (x / 2 ^ n.toNat) (y / 2 ^ n.toNat) else .int
      | _, _ => .int)
  | .mov _ _ a wide => if wide then pairTags p a else all (opTag p a)
  | .movp _ _ a _ _ wide =>
    List.zipWith (fun c t => mergeTag (p.tag c) t) d (if wide then pairTags p a else [opTag p a])
  | .addI64 _ _ a b => ptrOr ((constPair p b).bind fun k => (pairTags p a).head?.bind (shiftTag · k))
  | .subI64 _ _ a b => ptrOr ((constPair p b).bind fun k => (pairTags p a).head?.bind (shiftTag · (-k)))
  | .lea _ _ a b sh sx disp => ptrOr (leaTag p a b sh.val sx disp.toInt)
  | .fadd .. | .fsub .. | .fmul .. | .ffma .. | .fmin .. | .fmax .. | .fdiv .. | .fsqrt .. | .hadd .. | .hsub ..
  | .hmul .. | .hfma .. | .hmin .. | .hmax .. | .hdot2 .. | .fabs .. | .fneg .. | .ffma3 .. | .dxqUnpack .. | .sfu ..
  | .atab .. | .accRd .. | .mscl .. => all .flt
  | .cvt _ _ _ _ dst _ _ => all (numTag dst)
  | .dxq .. | .atom .. | .cas .. | .ldblk .. => all .bits
  | .shfl _ _ a _ _ | .push _ _ a _ _ => all (widen (opTag p a))
  | .shflx _ _ a _ f => all (joinTag (opTag p a) (opTag p f))
  | .red _ _ _ fn | .scan _ _ _ fn _ => all (if fn = .addF32 ∨ fn = .minF32 ∨ fn = .maxF32 then .flt else .int)
  | .ldw .. => d.map fun c => match p.full c with
    | .range .. => .int
    | .rel .. | .ptr .. => .bits
    | t => t
  | .ld _ _ a z o | .ldg _ _ a z o => loadTags m p i a false z (o.toNat * z.bytes)
  | .ldx _ _ a z o => loadTags m p i a false z o.toInt
  | .ldl _ _ a z _ | .lds _ _ a z _ | .ldc _ _ a z _ | .ldk _ _ a z _ => loadTags m p i a true z 0
  | .rdsr _ _ r => if m.runtime && r = .tfb then [.ptr 1022 0 0, .high] else all .int
  | _ => all .int

/-- A variable-latency opcode (R69, R77). -/
def variable_ (i : Instr) : Bool :=
  match i with
  | .sfu .. | .atab .. | .fdiv .. | .fsqrt .. | .dxq .. | .dxqUnpack .. | .idiv .. | .irem .. | .shfl .. | .shflx ..
  | .push .. | .red .. | .scan .. | .vote .. | .voteBallot .. | .accRd .. | .ld .. | .ldl .. | .lds .. | .ldc .. | .ldk ..
  | .ldg .. | .ldx .. | .ldblk .. | .ldw .. | .atom .. | .cas .. => true
  | _ => false

/-- The pair that a write may have completed as the base of the scratch region (R365). -/
def scratchFact (m : Image) (p : PState) (c : Nat) : PState :=
  let e := c / 2 * 2
  match m.scratchRegion with
  | some r =>
    if p.tag e = .range 0 0 ∧ p.tag (e + 1) = .range 0x1FF0002 0x1FF0002 then
      (p.set e { tag := .ptr r 0 0 }).set (e + 1) { tag := .high }
    else p
  | none => p

/-- The registers written with their facts: relations that named them, and a relation on an index that is itself
overwritten, become bits (R113, R245). -/
def writeTags (m : Image) (p : PState) (pend : Bool) (codes : List Nat) (ts : List Tag) : PState :=
  let selfNamed := ts.any fun t => match t with
    | .rel _ i _ _ => codes.contains i
    | _ => false
  let ts := if selfNamed then ts.map fun _ => .bits else ts
  let p := codes.foldl (·.drop ·) p
  let p := (codes.zip ts).foldl (fun p ct => p.putTag pend ct.1 ct.2) p
  if pend then p else codes.foldl (scratchFact m) p

/-- The lock that an `acq` or `rel` names (R187). -/
def lockOf (p : PState) (i : Instr) : Option (Nat × Int) :=
  match i with
  | .acq _ a o | .rel _ a o =>
    (match addrTag p i a with
    | .ptr r lo hi => if lo = hi then some (r, lo + o.toInt) else none
    | _ => none)
  | _ => none

/-- The instruction's effect on the state (R245). -/
def effect (m : Image) (p : PState) (uni : Bool) (i : Instr) : PState :=
  let p' := writeTags m p (variable_ i) (destCodes uni i) (resultTags m p uni i)
  let p' := match destPred i with
    | some c => (p'.drop c).putTag (variable_ i) c .int
    | none => p'
  match i with
  | .chk _ o region sc =>
    (codesOf (1, o)).foldl (fun p c => p.set c { p.fact c with bound := some (region.toNat, sc.val) }) p'
  | .rq _ q =>
    let n := 8 * (q.val + 1)
    { (List.range 128).foldl (fun p c => if n ≤ c then p.drop c else p) p' with quota := n }
  | .acq .. => { p' with locks := match lockOf p i with
      | some k => Record.state.insertLock p.locks k
      | none => p.locks }
  | .rel .. => { p' with locks := match lockOf p i with
      | some k => p.locks.filter (· ≠ k)
      | none => p.locks }
  | .mma .. => { p' with mma := true }
  | _ => p'

/-! ### The checks of one instruction (R252) -/

/-- Lane registers at or above the quota (TY-07). -/
def quotaFails (p : PState) (uni : Bool) (i : Instr) : List Fail :=
  (((sources i).flatMap opndRegs ++ destRows uni i).filter fun r => decide (p.quota ≤ r)).map (p.fail 7)

/-- The codes of misaligned register fields of an opcode whose fields the decoder has already rounded (TY-08). -/
def oddFields (w w2 : Nat) : List Nat :=
  let op := opcodeOf w
  let odd (k hi lo : Nat) : List Nat := if bitsOf w hi lo % k ≠ 0 then [bitsOf w hi lo] else []
  if (0x50 ≤ op ∧ op ≤ 0x55) ∨ op = 0x5C ∨ op = 0x5F ∨ op = 0x64 ∨ op = 0x66 ∨ op = 0x67 then odd 2 16 9
  else if (0x56 ≤ op ∧ op ≤ 0x5B) ∨ op = 0x5D ∨ op = 0x65 ∨ op = 0x68 ∨ op = 0x69 ∨ op = 0x79 ∨ op = 0x7B then odd 2 23 16
  else if op = 0x74 then odd 2 23 16 ++ odd 2 15 8 ++
    (if bitsOf w 7 6 ≠ 0 ∧ bitsOf w2 23 16 % 2 = 1 then [bitsOf w2 23 16] else [])
  else if op = 0x44 then odd 2 23 17
  else if op = 0x70 then odd 4 19 12
  else if op = 0x71 then odd 8 16 9
  else if op = 0x72 then odd 16 18 12
  else []

/-- Misaligned registers (TY-08). -/
def alignFails (p : PState) (uni : Bool) (i : Instr) (w w2 : Nat) : List Fail :=
  let plain := match i with
    | .mma .. => []
    | _ => (sources i).filterMap fun x => (codesOf (1, x.2)).head?.bind fun c => if c % x.1 ≠ 0 then some c else none
  let d := match destOf i with
    | some (n, d) => if d.toNat % n ≠ 0 then [(if uni then 0x80 else 0) + d.toNat] else []
    | none => []
  (oddFields w w2 ++ plain ++ d).map (p.fail 8)

/-- A source tagged handle or lock-token belongs to the instruction (TY-10). -/
def owns (i : Instr) (t : Tag) : Bool :=
  match i, t with
  | .thset .., .handle | .acq .., .token .. | .rel .., .token .. => true
  | _, _ => false

/-- The checks of registers: TY-09 to TY-12. -/
def registerFails (p : PState) (uni : Bool) (guard : Option Nat) (i : Instr) : List Fail :=
  let d := destCodes uni i
  let src := (sources i).flatMap codesOf ++ if readsD i then d else []
  let special (c : Nat) : Bool := match p.full c with
    | .handle | .token .. => !owns i (p.full c)
    | _ => false
  ((src ++ d ++ (destPred i).toList).filter fun c => p.full c == .pend).map (p.fail 9) ++
  (src.filter special).map (p.fail 10) ++
  (src.filter fun c => p.full c == .undef).map (p.fail 11) ++
  ((guard.toList ++ predSources i).filter fun c => p.tag c == .undef || p.tag c == .pend).map (p.fail 12)

/-- The rights of R28 for sealed code: read, write. -/
def srAllows (runtime write : Bool) : SysReg → Bool
  | .fw _ => false
  | .fpmode | .fpst => true
  | .tfb | .thdl => !write || runtime
  | _ => !write

/-- The rules of single instructions: TY-13, TY-19, TY-21, TY-22, TY-26 to TY-37, TY-48. -/
def ruleFails (m : Image) (p : PState) (uni : Bool) (i : Instr) : List Fail :=
  let when_ (b : Bool) (f : Fail) : List Fail := if b then [f] else []
  let plain (rule : Nat) : Fail := { rule := rule }
  let far := ((destCodes uni i).zip (resultTags m p uni i)).filter fun x => tooFar x.2
  (far.map fun x => { p.fail 48 x.1 with region := x.2.region }) ++
  (match i with
  | .lea _ _ a b sh sx disp =>
    let t := (pairTags p a).headD .undef
    when_ (t.isPtr && (leaTag p a b sh.val sx disp.toInt).isNone)
      { p.fail 13 ((codesOf (2, a)).headD 0xFF) with region := t.region }
  | .bri _ o t =>
    let n := (m.tables.getD t.toNat []).length
    let r := m.tableRegion t.toNat
    let ok : Bool := (match opTag p o with
      | .range a b => decide (0 ≤ a) && decide (b < n)
      | _ => false) || (codesOf (1, o)).any fun c => (p.fact c).bound == some (r, 2)
    when_ (decide (m.tables.length ≤ t.toNat)) (plain 1) ++
    when_ (!ok) (match (codesOf (1, o)).head? with
      | some c => { p.fail 19 c with region := r }
      | none => { rule := 19, region := r })
  | .joinEnrol .. | .joinWait .. | .joinStrike .. => [plain 21]
  | .barArrive _ _ o | .barWait _ _ o | .barBoth _ _ o =>
    (match opTag p o with
    | .range a b => when_ (decide (a < 1) || decide (64 < b)) (at22 p o)
    | _ => [at22 p o])
  | .acq _ a _ | .rel _ a _ =>
    let t := addrTag p i a
    let held := match lockOf p i with
      | some k => p.locks.contains k
      | none => false
    let isAcq : Bool := match i with
      | .acq .. => true
      | _ => false
    when_ (lockOf p i).isNone { p.fail 26 (evenCode a) with region := t.region } ++
    when_ ((lockOf p i).isSome && isAcq && held) { rule := 27, reg := 0xE0, region := t.region } ++
    when_ ((lockOf p i).isSome && !isAcq && !held) { rule := 28, reg := 0xE0, region := t.region }
  | .exit _ => when_ (!p.locks.isEmpty) { rule := 25, reg := 0xE0, region := (p.locks.headD (0, 0)).1 }
  | .chk _ o region _ =>
    when_ (!m.regionOk region.toNat) (plain 1) ++
    when_ (!(opTag p o).isInt) (match (codesOf (1, o)).head? with
      | some c => { p.fail 29 c with exp := 2, region := region.toNat }
      | none => { rule := 29, exp := 2, region := region.toNat })
  | .mma _ tag _ b f _ _ _ =>
    when_ (decide (m.head.slots ≤ tag.toNat)) (plain 30) ++
    ((keysFrom (8 * b.toNat) ((mmaBlockLen f + 3) / 4)).filter fun c => (p.full c).isPtr).map (p.fail 33)
  | .accRd _ tag _ | .accZero _ tag | .accRel _ tag =>
    when_ (decide (m.head.slots ≤ tag.toNat)) (plain 30) ++ when_ p.mma (plain 31)
  | .mscl .. =>
    (((sources i).flatMap codesOf ++ destCodes uni i).filter fun c => (p.full c).isPtr).map (p.fail 33)
  | .thset _ _ q =>
    let c := 0x80 + 4 * q.toNat
    let h (k : Nat) : Bool := p.full k == .handle
    if h c && h (c + 1) && h (c + 2) && h (c + 3) then []
    else (if (p.tag c).isPtr && p.tag (c + 1) == .high then [] else [p.fail 32 c]) ++
      ([c + 2, c + 3].filter fun k => !(p.full k).isInt).map (p.fail 32)
  | .rdsr _ _ r => when_ (!srAllows m.runtime false r) (plain 34)
  | .wrsr _ r o =>
    when_ (!srAllows m.runtime true r) (plain 34) ++
    when_ ((r = .tfb || r = .thdl) && !(codesOf (1, o)).isEmpty && decide ((codesOf (1, o)).headD 0xFF < 0x80))
      (p.fail 37 ((codesOf (1, o)).headD 0xFF))
  | .eret _ => when_ (!m.runtime) (plain 35)
  | .call .. | .rq .. | .launch .. => when_ m.runtime (plain 36)
  | _ => [])
where
  /-- TY-22 on a count's register. -/
  at22 (p : PState) (o : Opnd) : Fail := match (codesOf (1, o)).head? with
    | some c => p.fail 22 c
    | none => { rule := 22 }

/-- The rule of a rejected word (R252). -/
def rejectRule : Reject → Nat
  | .reservedOpcode | .reservedField => 1
  | .operandKind => 2 | .classMismatch => 3 | .notLast => 4 | .alignment => 8 | .badHeader => 5 | .badTarget => 17

/-- A table or region number that the image does not declare: a reserved field value (R146, R171). -/
def undeclared (m : Image) (w : Nat) : Bool :=
  (opcodeOf w == 0x49 && decide (m.tables.length ≤ bitsOf w 15 6)) || (opcodeOf w == 0x5E && !m.regionOk (bitsOf w 15 6))

/-- A system register number outside R29's ranges, which is of the system family, not a reserved field (R29, R252, log
28). -/
def badNumber (w : Nat) : Bool :=
  (opcodeOf w == 0x79 || opcodeOf w == 0x7A) && decide (bitsOf w 15 6 = 0) && (srOfCode (bitsOf w 5 0)).isNone

/-! ### Pass 2 (R244, R245, R249 to R251) -/

/-- The failures of an edge to a block: its target (TY-17), a function entered other than by its `call` (TY-20), the
record (TY-18). `fall` edges to a block without a record are reported there. -/
def edgeTo (m : Image) (x : Pass1) (p : PState) (clause t : Nat) (fall call : Bool) : List Fail :=
  if !x.annotated m t then (if fall then [] else [{ rule := 17 }])
  else
    (match x.functionAt t with
      | some f => if (decide (f.1 ≤ clause) && decide (clause ≤ f.2)) || (call && t == f.1) then [] else [{ rule := 20 }]
      | none => []) ++
    (match m.record t with
      | some r => if r.inherit then [] else edgeFails p r 18
      | none => [])

/-- The failures of a spawn edge: no function is entered by one (TY-20, R250), only undef facts (TY-24), which no pending
register implies, and the locks and quota of any edge (R242, R249, log 28). -/
def spawnFails (m : Image) (x : Pass1) (p : PState) (t : Nat) : List Fail :=
  if !x.annotated m t then [{ rule := 17 }]
  else
    (if (x.functionAt t).isSome then [{ rule := 20 }] else []) ++
    (match m.record t with
      | some r =>
        ((r.facts.filter fun f => f.tag != 0).map fun f => p.fail 24 f.code) ++
        (if r.inherit then [] else edgeFails p { r with facts := [] } 18)
      | none => [])

/-- The failures of the edges that an instruction's transfer makes, in the state after it (R249, R250). -/
def transferFails (m : Image) (x : Pass1) (p : PState) (c : Clause) (at_ : Nat) : List Fail :=
  match opcodeOf (m.word at_) with
  | 0x48 => edgeTo m x p c.off (offsetOf (target m at_)) false false
  | 0x4A =>
    edgeTo m x p c.off (offsetOf (target m at_)) false true ++
    (if x.annotated m c.stop then [] else [{ rule := 17 }]) ++
    (if (x.functionAt c.off).isSome then [{ rule := 20 }] else [])
  | 0x47 => spawnFails m x p (offsetOf (target m at_))
  | 0x49 => (targetsAt m at_).flatMap fun t => edgeTo m x p c.off t false false
  | 0x4B =>
    (match x.functionAt c.off with
    | some f => (x.calls.filter fun k => k.1 == f.1).flatMap fun k =>
        if x.annotated m k.2 then edgeTo m x p c.off k.2 false false else []
    | none => [{ rule := 20 }])
  | _ => []

/-- Where pass 2 stands. -/
structure Walk where
  p : PState := {}
  g : Gather := {}
  block : Nat := 0
  fails : List Fail := []

/-- One instruction of a clause (R245): its checks in the state before it, its effect, and its edges. -/
def walkInst (m : Image) (x : Pass1) (c : Clause) (w : Walk) (at_ : Nat) : Walk :=
  if !w.fails.isEmpty then w
  else
    let last := at_ == c.last
    let bad := badNumber (m.word at_)
    let (w0, w1) := (m.word at_ - (if bad then bitsOf (m.word at_) 5 0 else 0), m.word (at_ + 4))
    let uni := decide (c.hdr.cls = .uni) && opVU (opcodeOf w0)
    let guard := if at_ = c.off + 4 then c.hdr.gp.map fun q => 0xC0 + q.val else none
    let at' (f : Fail) : Fail := { f with block := w.block, word := (at_ - w.block) / 4 }
    match decodeIn c.hdr.cls last w0 w1 with
    | .error r =>
      let early := match r, decodeWords false w0 w1 with
        | .alignment, .ok i => quotaFails w.p uni i ++ alignFails w.p uni i w0 w1
        | _, _ => []
      let early := if undeclared m w0 then [({ rule := 1 } : Fail)] else early
      { w with fails := (if early.isEmpty then [({ rule := rejectRule r } : Fail)] else early).map at' }
    | .ok i =>
      let p1 := effect m w.p uni i
      let p2 := if bitsOf w0 31 31 = 1 then p1.clear else p1
      let fall := if last && c.falls m && x.blocks.contains c.stop then edgeTo m x p2 c.off c.stop true false else []
      let fs := quotaFails w.p uni i ++ registerFails w.p uni guard i ++ (wants w.p i).flatMap (wantFails m w.p i) ++
        ruleFails m w.p uni i ++ (if bad then [({ rule := 34 } : Fail)] else []) ++ transferFails m x p2 c at_ ++ fall
      { w with p := p2, g := gather w.p i w.g, fails := fs.map at' }

/-- One clause: the block's state where it starts one, the header's waits, the instructions. -/
def walkClause (m : Image) (x : Pass1) (w : Walk) (c : Clause) : Walk :=
  if !w.fails.isEmpty then w
  else
    let w := if c.hdr.bs then
        match m.record c.off with
        | some r =>
          if r.inherit then { w with block := c.off, p := { w.p with mma := true } }
          else { w with block := c.off, p := r.state, g := { w.g with locks := max w.g.locks r.state.locks.length } }
        | none => { w with block := c.off }
      else w
    let p := if c.hdr.wr then w.p.clear else w.p
    let p := if c.hdr.wm then { p with mma := false } else p
    c.insts.foldl (walkInst m x c) { w with p := p }

/-- The block that an offset lies in. -/
def blockOf (x : Pass1) (off : Nat) : Nat := (x.blocks.filter fun b => decide (b ≤ off)).foldl max 0

/-- The launch state (R249, R256, TY-44). -/
def launchState (m : Image) : PState :=
  let p : PState := { quota := 8 * m.head.regs8 }
  if m.runtime then p else (p.set 0x80 { tag := .ptr 1023 0 0 }).set 0x81 { tag := .high }

/-- The failures of records and blocks that concern no particular word: TY-17 and TY-20 of the sealed entry, TY-17 of the
entries of jump tables that no `bri` names (log 28), TY-38 to TY-45. -/
def blockFails (m : Image) (x : Pass1) : List Fail :=
  (if (x.clauses.head?.map (·.hdr.bs)) = some false then [{ rule := 17 }] else []) ++
  (if (x.functionAt 0).isSome then [{ rule := 20 }] else []) ++
  (if x.loose.all (x.annotated m) then [] else [{ rule := 17 }]) ++
  ((x.blocks.filter fun b => (m.record b).isNone).map fun b => { block := b, rule := 38 }) ++
  ((List.range m.records.length).flatMap fun i =>
    match m.records[i]? with
    | none => []
    | some r =>
      let late := (m.records.take i).any fun q => decide (r.off ≤ q.off)
      let stray := x.reached r.off && !x.blocks.contains r.off
      (if late || stray then [{ block := r.off, rule := 38 }] else []) ++ recordFails m r ++
      (if r.inherit && (r.off == 0 || x.targets.contains r.off) then [{ block := r.off, rule := 43 }] else [])) ++
  (match m.record 0 with
    | some r => if r.inherit then [] else edgeFails (launchState m) r 44
    | none => [])

/-- The check of an image (R244 to R252): the first failure, or what admission gathers. -/
def check (bs : List Byte) (runtime : Bool) : Except Fail (Image × Gather) :=
  match headRule (head bs) bs.length runtime with
  | some rule => .error { rule := rule }
  | none =>
    match readImage bs runtime with
    | none => .error { rule := 47 }
    | some m =>
      let x := pass1 m
      if 65536 < x.blocks.length then .error { rule := 46 }
      else
        let w := x.clauses.foldl (walkClause m x) {}
        let stop := x.stop.toList.map fun s =>
          ({ block := blockOf x (s.1 - 1), word := (s.1 - blockOf x (s.1 - 1)) / 4, rule := s.2 } : Fail)
        match firstFail (w.fails ++ stop ++ blockFails m x) with
        | some f => .error f
        | none => .ok (m, w.g)

/-! ### What a request writes (R253, R254) -/

/-- The fault record (R253). -/
def faultRecord (f : Fail) (dest : Nat) (sha : List Byte) : List Byte :=
  bytesOf 8 (dest + f.block) ++ bytesOf 4 f.word ++ bytesOf 2 f.rule ++ bytesOf 1 f.reg ++ bytesOf 1 f.exp ++
  bytesOf 1 f.found ++ bytesOf 3 0 ++ bytesOf 4 f.region ++ sha.take 8

/-- The requirement of region r (R254). -/
def requirement (m : Image) (g : Gather) (r : Nat) : Nat :=
  let fixed := decide (r < m.entries.length) && (m.kind r == 1 || m.kind r == 2)
  if fixed then m.fixedLength r + 2 ^ 49
  else look 0 g.mins r + if g.written.contains r then 2 ^ 48 else 0

/-- The region requirement table: one entry a region, then `args` (R254). -/
def requirements (m : Image) (g : Gather) : List Byte :=
  (List.range m.entries.length ++ [1023]).flatMap fun r => bytesOf 8 (requirement m g r)

/-- The descriptor (R254). -/
def descriptor (m : Image) (g : Gather) (entry kid table : Nat) (sha : List Byte) : List Byte :=
  bytesOf 8 entry ++ bytesOf 4 kid ++ bytesOf 4 m.head.code ++ bytesOf 4 m.head.lpriv ++ bytesOf 4 m.head.scratch ++
  bytesOf 4 g.clus ++ bytesOf 4 g.pad ++ bytesOf 1 m.head.regs8 ++ bytesOf 1 m.head.waves ++ bytesOf 1 m.head.quartets ++
  bytesOf 1 m.head.slots ++ bytesOf 2 m.entries.length ++ bytesOf 1 g.locks ++
  bytesOf 1 (g.spawn.toNat + 2 * g.launch.toNat + 4 * g.acq.toNat) ++ bytesOf 8 table ++ sha.take 16

/-- The code and the data section of an image. -/
def sections (bs : List Byte) : List Byte :=
  let h := head bs
  let body := bs.drop (64 + 16 * h.regions)
  body.take h.code ++ (body.drop (h.code + h.ann)).take h.data

/-- A region as the dispatcher uses it. -/
def kernelRegion (m : Image) (g : Gather) (r : Nat) : KRegion :=
  let e := m.entries.getD r { kind := 0, granule := 0, b := 0, l := 0, off := 0 }
  { kind := e.kind, base := e.b, len := e.l, dataOff := e.off, dataLen := if e.fixed then m.fixedLength r else 0
    minLen := look 0 g.mins r, written := g.written.contains r, granule := e.granule }

end Sys2Proof.Machine.Pavane
end

