-- ==== Sys2Proof/Machine/Admission.lean ====
section
/-!
DEFINITION. Admission, installation and unloading by the Pavane units (R234 to R238, R253, R254, R388, R390). A unit takes a
request up in one event; an admission then ends in a second one, its pages in admission between, and an unload once no grid
names its kernel (log 29).
-/
namespace Sys2Proof.Machine

/-! ### The ring (R234, R238) -/

/-- The requests of a partition that Pavane serves next, in ring order after the entry served last. -/
def nextEntry (p : Partition) : Option Nat :=
  ((List.range 64).map fun i => (p.admLast + 1 + i) % 64).find? p.admPending.contains

/-- A field of an admission entry. -/
def ringField (s : State) (part index off n : Nat) : Nat := controlRead s part (0x2000 + 64 * index + off) n

/-- The entry is an unload (R234). -/
def isUnload (s : State) (part index : Nat) : Bool := decide (ringField s part index 0 4 = 2)

/-- A grid that names a kernel has not ended. -/
def kernelBusy (s : State) (part kid : Nat) : Bool :=
  s.grids.any fun g => g.2.part == part && g.2.kid == kid && g.2.st != .ended

/-- One of the eight units is free (R238): a request that has been taken up holds one until it ends. -/
def unitFree (s : State) : Bool := decide (s.device.unloads.length + s.device.checking.length < 8)

/-- A partition has a request that a unit can take up. -/
def hasRequest (s : State) (n : Nat) : Bool := (s.part n).created && (s.part n).ready && !(s.part n).admPending.isEmpty

/-- The partition that Pavane serves next, in rotation after the one served last (R238). -/
def admPart (s : State) : Option Nat :=
  ((List.range 16).map fun i => (s.device.lastAdmit + 1 + i) % 16).find? (hasRequest s)

/-- A reserved field of an entry is not 0. -/
def ringReserved (s : State) (part index : Nat) : Bool :=
  decide (ringField s part index 0x14 4 ≠ 0) || decide (ringField s part index 0x38 8 ≠ 0)

/-- The entry is malformed (R235 step 1); a destination of no whole number of pages counts as such (DESIGN CHOICE, log 29). -/
def ringBad (s : State) (part index : Nat) : Bool :=
  let f := ringField s part index
  ringReserved s part index || decide (f 0 4 ≠ 0) || decide (f 0x18 8 % 65536 ≠ 0) || decide (f 0x28 8 % 32 ≠ 0) ||
  decide (f 0x30 8 % 64 ≠ 0) || decide (f 0x10 4 < 64) || decide (2 ^ 23 < f 0x10 4) || !inTranslated (f 8 8) 1 ||
  decide (f 0x20 4 < 65536) || decide (f 0x20 4 % 65536 ≠ 0) || decide (Win.global.last < f 0x18 8)

/-- A request is served: its partition and entry are the last ones (R238). -/
def serve (s : State) (part index : Nat) : State :=
  let s := s.setPart part { s.part part with admPending := (s.part part).admPending.filter (· ≠ index), admLast := index }
  { s with device := { s.device with lastAdmit := part } }

/-- A request that was taken up and ends in one event: its status (R235, R236, log 29). -/
def endRequest (s : State) (part index status : Nat) : State :=
  writeStatus (serve s part index) part index status

/-! ### Pages (R235 steps 2, 3 and 5) -/

/-- The bytes of an image at some keys; none where one is unreadable (R235 step 3). -/
def imageBytes (s : State) (keys : List Nat) (n : Nat) : Option (List Byte) :=
  if keys.length = n ∧ firstPoison s keys = none then some (keys.map (readByte s)) else none

/-- The keys of a tenant's image; fewer than asked for where a byte has no translation. -/
def imageKeys (s : State) (part va n : Nat) : List Nat :=
  ((keysFrom va n).filter fun a => inTranslated a 1).filterMap (walkPA s (some part))

/-- The bytes that a kernel's sealed pages hold: code, data section, region requirement table (R254). -/
def sealedBytes (h : Pavane.Head) : Nat := h.code + h.data + 8 * (h.regions + 1)

/-- The kernel that an admitted image becomes (R239, R254). -/
def kernelOf (m : Pavane.Image) (g : Pavane.Gather) (part entry dest destBytes : Nat) (pas : List Nat) : Kernel :=
  { part := part, entry := entry, codeBytes := m.head.code, dest := dest, destBytes := destBytes, runtime := m.runtime
    regs := m.head.regs8, waves := m.head.waves, quartets := m.head.quartets, slots := m.head.slots
    lpriv := m.head.lpriv, scratch := m.head.scratch, clusMin := g.clus, padMin := g.pad
    regions := (List.range m.entries.length).map (Pavane.kernelRegion m g), argsMin := look 0 g.mins 1023
    tables := m.tables, pages := pas.map (· / 65536), firstPage := dest / 65536 }

/-- A kernel takes the next kernel ID. -/
def register (s : State) (k : Kernel) : State := { s with kernels := put s.kernels s.nextKid k, nextKid := s.nextKid + 1 }

/-! ### Admission (R235) -/

/-- The Pavane unit that takes up the next admission: of the lowest die whose unit is not checking (R238). -/
def nextUnit (s : State) : Nat := ((List.range 8).find? fun d => s.device.checking.all fun a => a.unit != d).getD 0

/-- What a unit reads once of an admission entry, and of the header of its image (R235 steps 1 and 2). -/
def readEntry (s : State) (part index : Nat) (head : List Byte) (pas : List Nat) : Checking :=
  let f := ringField s part index
  let d := nextUnit s
  { part := part, index := index, unit := d, since := (s.die d).clk, dest := f 0x18 8, bytes := f 0x20 4
    fault := f 0x28 8, desc := f 0x30 8, image := f 8 8, size := f 0x10 4, head := head, pas := pas }

/-- A rejected request writes its fault record, its destination is zeroed, and it ends with status 2 (R235 step 6, R253). -/
def rejectRequest (s : State) (a : Checking) (f : Pavane.Fail) (sha : List Byte) : State :=
  let s := writeVA s 0 (some a.part) a.fault 32 (ofBytes (Pavane.faultRecord f a.dest sha))
  writeStatus (zeroPages s a.pas) a.part a.index 2

/-- An image that passes (R235 step 5): the requirement table after the data, the pages sealed and shot down, the
descriptor, status 1; none while the shootdown waits. -/
def sealKernel (s : State) (a : Checking) (m : Pavane.Image) (g : Pavane.Gather) (sha : List Byte) : Option State :=
  let at_ := m.head.code + m.head.data
  let req := Pavane.requirements m g
  let s := unitWrite s ((destKeys a.pas (at_ + req.length)).drop at_) (ofBytes req)
  match shootPages (setSealed s a.part true (destPages a.dest a.bytes)) a.dest a.bytes none with
  | none => none
  | some s =>
    let d := Pavane.descriptor m g a.dest s.nextKid (a.dest + at_) sha
    let s := writeVA s 0 (some a.part) a.desc 64 (ofBytes d)
    some (writeStatus (register s (kernelOf m g a.part a.dest a.dest a.bytes a.pas)) a.part a.index 1)

/-- Steps 1 and 2 of R235: a partition's next request, when it is no unload, ends at once, or its destination is in admission
from here on. -/
def takeUp (part index : Nat) (s : State) : Option State :=
  if !unitFree s ∨ admPart s ≠ some part ∨ nextEntry (s.part part) ≠ some index ∨ isUnload s part index then none
  else if ringBad s part index then some (endRequest s part index 3)
  else
    let f := ringField s part index
    let n := f 0x10 4
    match imageBytes s (imageKeys s part (f 8 8) 64) 64 with
    | none => some (endRequest s part index 6)
    | some h =>
      match Pavane.headRule (Pavane.head h) n false with
      | some rule =>
        (match imageBytes s (imageKeys s part (f 8 8 + 64) (n - 64)) (n - 64) with
        | none => some (endRequest s part index 6)
        | some bs => some (rejectRequest (serve s part index) (readEntry s part index h []) { rule := rule } (sha256 (h ++ bs))))
      | none =>
        let dest := f 0x18 8
        let bytes := f 0x20 4
        if !(destPages dest bytes).all (destPageOk s part) || decide (bytes < sealedBytes (Pavane.head h)) then
          some (endRequest s part index 4)
        else
          let a := readEntry s part index h (destPAs s part dest bytes)
          let s := serve s part index
          some { s with device := { s.device with checking := s.device.checking ++ [a] } }

/-- Clocks that the check of an image takes at least (R238): pass 1 reads 64 bytes a clock; pass 2 checks two instructions, of
at most 8 bytes each, and reads 16 bytes of records a clock. The copy's own time is not stated. -/
def checkClocks (a : Checking) : Nat :=
  (a.size + 63) / 64 + max ((Pavane.head a.head).code / 16) ((Pavane.head a.head).ann / 16)

/-- Steps 3 to 6 of R235, once the check can be done: the image copied with the header that was read, then checked; its pages are
sealed, or zeroed and released; none while the shootdown waits. -/
def endAdmission (a : Checking) (s : State) : Option State :=
  if (s.die a.unit).clk < a.since + checkClocks a then none
  else
    let s := { s with device := { s.device with checking := s.device.checking.filter (· ≠ a) } }
    match imageBytes s (imageKeys s a.part (a.image + 64) (a.size - 64)) (a.size - 64) with
    | none => some (writeStatus (zeroPages s a.pas) a.part a.index 6)
    | some rest =>
      let bs := a.head ++ rest
      let body := Pavane.sections bs
      match Pavane.check bs false with
      | .error x => some (rejectRequest s a x (sha256 bs))
      | .ok (m, g) => sealKernel (unitWrite s (destKeys a.pas body.length) (ofBytes body)) a m g (sha256 bs)

/-- `ADMIT` (R235): the admission of a ring entry that a unit has taken up ends; or the entry is taken up. -/
def evAdmit (part index : Nat) (s : State) : Option State :=
  match s.device.checking.find? fun a => a.part == part && a.index == index with
  | some a => endAdmission a s
  | none => takeUp part index s
/-- `ADMIT` (R235). -/
def execAdmit (part index : Nat) (s : State) : Host.Outcome State Fault Refusal := byEvent (evAdmit part index s) s

/-! ### Installation (R237, R256, R388, R390) -/

/-- An installation ends: the entry's status, the mailbox's result and status (R388). -/
def endInstall (s : State) (index ringStatus status : Nat) (res : List Byte) : State :=
  let d := s.device
  let ring := (List.range 4).foldl (fun m i => put m (64 * index + 0x24 + i) ((bytesOf 4 ringStatus).getD i 0)) d.fwRing
  endCommand { s with device := { d with fwRing := ring, fwPending := d.fwPending.filter (· ≠ index) } } status res

/-- Bytes of the runtime area (R390). -/
def runtimeArea : Nat := 2 ^ 28

/-- `INSTALL_RUNTIME_LIBRARY` (R237): firmware's request, with the runtime rules, into the runtime area; its descriptor
names the sealed entry by its offset there (R254). -/
def evInstallLibrary (index : Nat) (s : State) : Option State :=
  if !unitFree s ∨ s.device.fwPending.head? ≠ some index then none
  else
    let f (off n : Nat) : Nat := ofBytes ((keysFrom (64 * index + off) n).map (look (0 : Byte) s.device.fwRing))
    let n := f 0x10 4
    let top := s.device.runtimeTop
    match imageBytes s (keysFrom (2 ^ 51 + f 8 8) n) n with
    | none => some (endInstall s index 6 3 [])
    | some bs =>
      let size := (sealedBytes (Pavane.head bs) + 65535) / 65536 * 65536
      let refuse (e : Pavane.Fail) : State :=
        endInstall s index 2 2 (bytesOf 12 0 ++ Pavane.faultRecord e top (sha256 bs))
      match Pavane.headRule (Pavane.head bs) n true with
      | some rule => some (refuse { rule := rule })
      | none =>
        if runtimeArea < top + size then some (endInstall s index 4 4 [])
        else match Pavane.check bs true with
          | .error e => some (refuse e)
          | .ok (m, g) =>
            let base := Config.runtimeBase + top
            let body := Pavane.sections bs ++ Pavane.requirements m g
            let pas := (List.range (size / 65536)).map fun i => base + 65536 * i
            let s := unitWrite s (keysFrom base body.length) (ofBytes body)
            let kid := s.nextKid
            let at_ := m.head.code + m.head.data
            let desc := Pavane.descriptor m g top kid (top + at_) (sha256 bs)
            let s := register s (kernelOf m g 16 top top size pas)
            let d := s.device
            let s := { s with device := { d with
              libraries := put d.libraries top kid, libDescs := put d.libDescs top desc, runtimeTop := top + size } }
            some (endInstall s index 1 1 (bytesOf 8 top ++ bytesOf 4 kid))
/-- `INSTALL_RUNTIME_LIBRARY` (R237). -/
def execInstallRuntimeLibrary (index : Nat) (s : State) : Host.Outcome State Fault Refusal :=
  byEvent (evInstallLibrary index s) s

/-! ### Unloading (R237) -/

/-- `UNLOAD` (R237): a unit takes the request up, and launches of the kernel are refused from then on; once no grid names
it, the unload ends. -/
def evUnload (part index : Nat) (s : State) : Option State :=
  match s.device.unloads.find? fun u => u.1 == part && u.2.1 == index with
  | some u => if kernelBusy s part u.2.2 then none else some (endUnload s u)
  | none =>
    let kid := ringField s part index 4 4
    if !unitFree s ∨ admPart s ≠ some part ∨ nextEntry (s.part part) ≠ some index ∨ !isUnload s part index then none
    else if ringReserved s part index then some (endRequest s part index 3)
    else match (find? s.kernels kid).filter (·.part == part) with
      | none => some (endRequest s part index 5)
      | some k =>
        let s := serve { s with kernels := put s.kernels kid { k with unloading := true } } part index
        some { s with device := { s.device with unloads := s.device.unloads ++ [(part, index, kid)] } }
/-- `UNLOAD` (R237). -/
def execUnload (part index : Nat) (s : State) : Host.Outcome State Fault Refusal := byEvent (evUnload part index s) s

end Sys2Proof.Machine
end

