-- ==== Sys2Proof/Machine/FloatOps.lean ====
section
/-!
DEFINITION. The floating-point, conversion, block-quantisation, special-function and matrix-scale instructions (R119 to
R122, R128 to R130, R140, R102, R216).
-/
namespace Sys2Proof.Machine

/-- An f32 or f64 instruction of two operands. -/
def fp2 (sw : Bool) (d : BitVec 7) (a b : Opnd) (wide : Bool) (op : RMode → Nat → Nat → Nat × Flags) (s : State) :
    State :=
  fixedOp sw (fun l => fpWrites s wide d.toNat l
    (op (rmOf s l) (opndF (fmtOf wide) s a l) (opndF (fmtOf wide) s b l))) s
/-- A packed instruction of two operands and of what D holds (R83, R120). -/
def packedOp (sw : Bool) (d : BitVec 7) (a b : Opnd) (bf : Bool) (op : RMode → Nat → Nat → Nat → Nat × Flags)
    (s : State) : State :=
  fixedOp sw (fun l => fpWrites s false d.toNat l
    (packed2 (op (rmOf s l)) (opndF (packedFmt bf) s a l) (opndF (packedFmt bf) s b l) (destVal s false d l))) s

/-- `fadd` (R119). -/
def execFadd (sw : Bool) (d : BitVec 7) (a b : Opnd) (wide : Bool) (s : State) : Host.Outcome State Fault Refusal :=
  .next (fp2 sw d a b wide (fpAdd (fmtOf wide)) s)
/-- `fsub` (R119). -/
def execFsub (sw : Bool) (d : BitVec 7) (a b : Opnd) (wide : Bool) (s : State) : Host.Outcome State Fault Refusal :=
  .next (fp2 sw d a b wide (fpSub (fmtOf wide)) s)
/-- `fmul` (R119). -/
def execFmul (sw : Bool) (d : BitVec 7) (a b : Opnd) (wide : Bool) (s : State) : Host.Outcome State Fault Refusal :=
  .next (fp2 sw d a b wide (fpMul (fmtOf wide)) s)
/-- `ffma` (R119). -/
def execFfma (sw : Bool) (d : BitVec 7) (a b : Opnd) (wide : Bool) (s : State) : Host.Outcome State Fault Refusal :=
  .next (fixedOp sw (fun l => fpWrites s wide d.toNat l
    (fpFma (fmtOf wide) (rmOf s l) (opndF (fmtOf wide) s a l) (opndF (fmtOf wide) s b l) (destVal s wide d l))) s)
/-- `fmin` (R90, R119). -/
def execFmin (sw : Bool) (d : BitVec 7) (a b : Opnd) (wide : Bool) (s : State) : Host.Outcome State Fault Refusal :=
  .next (fp2 sw d a b wide (fun _ => fpMinMax (fmtOf wide) false) s)
/-- `fmax` (R90, R119). -/
def execFmax (sw : Bool) (d : BitVec 7) (a b : Opnd) (wide : Bool) (s : State) : Host.Outcome State Fault Refusal :=
  .next (fp2 sw d a b wide (fun _ => fpMinMax (fmtOf wide) true) s)
/-- `fdiv`, variable latency (R119). -/
def execFdiv (sw : Bool) (d : BitVec 7) (a b : Opnd) (wide : Bool) (s : State) : Host.Outcome State Fault Refusal :=
  .next (variableOp sw d.toNat (wideRegs wide) (fun l => fpWrites s wide d.toNat l
    (fpDiv (fmtOf wide) (rmOf s l) (opndF (fmtOf wide) s a l) (opndF (fmtOf wide) s b l))) s)
/-- `fsqrt`, variable latency (R119). -/
def execFsqrt (sw : Bool) (d : BitVec 7) (a : Opnd) (wide : Bool) (s : State) : Host.Outcome State Fault Refusal :=
  .next (variableOp sw d.toNat (wideRegs wide) (fun l => fpWrites s wide d.toNat l
    (fpSqrt (fmtOf wide) (rmOf s l) (opndF (fmtOf wide) s a l))) s)
/-- `hadd` (R120). -/
def execHadd (sw : Bool) (d : BitVec 7) (a b : Opnd) (bf : Bool) (s : State) : Host.Outcome State Fault Refusal :=
  .next (packedOp sw d a b bf (fun m x y _ => fpAdd (packedFmt bf) m x y) s)
/-- `hsub` (R120). -/
def execHsub (sw : Bool) (d : BitVec 7) (a b : Opnd) (bf : Bool) (s : State) : Host.Outcome State Fault Refusal :=
  .next (packedOp sw d a b bf (fun m x y _ => fpSub (packedFmt bf) m x y) s)
/-- `hmul` (R120). -/
def execHmul (sw : Bool) (d : BitVec 7) (a b : Opnd) (bf : Bool) (s : State) : Host.Outcome State Fault Refusal :=
  .next (packedOp sw d a b bf (fun m x y _ => fpMul (packedFmt bf) m x y) s)
/-- `hfma` (R120). -/
def execHfma (sw : Bool) (d : BitVec 7) (a b : Opnd) (bf : Bool) (s : State) : Host.Outcome State Fault Refusal :=
  .next (packedOp sw d a b bf (fpFma (packedFmt bf)) s)
/-- `hmin` (R120). -/
def execHmin (sw : Bool) (d : BitVec 7) (a b : Opnd) (bf : Bool) (s : State) : Host.Outcome State Fault Refusal :=
  .next (packedOp sw d a b bf (fun _ x y _ => fpMinMax (packedFmt bf) false x y) s)
/-- `hmax` (R120). -/
def execHmax (sw : Bool) (d : BitVec 7) (a b : Opnd) (bf : Bool) (s : State) : Host.Outcome State Fault Refusal :=
  .next (packedOp sw d a b bf (fun _ x y _ => fpMinMax (packedFmt bf) true x y) s)
/-- `hdot2` (R121). -/
def execHdot2 (sw : Bool) (d : BitVec 7) (a b : Opnd) (bf : Bool) (s : State) : Host.Outcome State Fault Refusal :=
  .next (fixedOp sw (fun l => fpWrites s false d.toNat l
    (fpDot2 (packedFmt bf) (rmOf s l) (opndF (packedFmt bf) s a l) (opndF (packedFmt bf) s b l)
      (destVal s false d l))) s)
/-- `fabs` (R122). -/
def execFabs (sw : Bool) (d : BitVec 7) (a : Opnd) (s : State) : Host.Outcome State Fault Refusal :=
  .next (int1 sw d a (fun x => x &&& 0x7FFFFFFF) s)
/-- `fneg` (R122). -/
def execFneg (sw : Bool) (d : BitVec 7) (a : Opnd) (s : State) : Host.Outcome State Fault Refusal :=
  .next (int1 sw d a (fun x => x ^^^ 0x80000000) s)
/-- `ffma3`: its own rounding mode (R140). -/
def execFfma3 (sw : Bool) (d : BitVec 7) (a b c : Opnd) (wide : Bool) (rnd : RMode) (s : State) :
    Host.Outcome State Fault Refusal :=
  .next (fixedOp sw (fun l => fpWrites s wide d.toNat l
    (fpFma (fmtOf wide) rnd (opndF (fmtOf wide) s a l) (opndF (fmtOf wide) s b l) (opndF (fmtOf wide) s c l))) s)

/-- The source of a conversion: an FP constant takes the from type (R41, R92, R128). -/
def cvtSource (s : State) (src : NumTy) (a : Opnd) (l : Nat) : Nat :=
  if src.isWide then (opnd64 s a l).toNat
  else match src.fmt? with
    | some f => (opndIn f s a l).toNat % 2 ^ src.width
    | none => (opnd s a l).toNat
/-- `cvt` (R92 to R96, R128). -/
def execCvt (sw : Bool) (d : BitVec 7) (a : Opnd) (src dst : NumTy) (rnd : RMode) (sat : Bool) (s : State) :
    Host.Outcome State Fault Refusal :=
  .next (fixedOp sw (fun l =>
    fpWrites s dst.isWide d.toNat l (cvtBits src dst rnd sat (cvtSource s src a l))) s)

/-- Lanes 32h to 32h + 31. -/
def halfLanes (h : Nat) : List Nat := (List.range 32).map (32 * h + ·)
/-- A half's block as R129 deals it: word j of the block to lane 32h + j. -/
def blockWord (block j : Nat) : Nat := block / 2 ^ (32 * j) % 2 ^ 32
/-- The writes of a pack in one half (R100, R129). -/
def packHalf (s : State) (d : Nat) (a : Opnd) (fmt : DxFmt) (h : Nat) : List Write :=
  let act := (halfLanes h).filter fun l => s.cur.active.getLsbD l
  if act.isEmpty then []
  else
    let r := dxPack fmt ((halfLanes h).map fun l => if s.cur.active.getLsbD l then (opnd s a l).toNat else 0)
    act.flatMap fun l => wr s d l (blockWord r.1 (l % 32)) :: (if r.2 = 0 then [] else [.flags l r.2])
/-- The writes of an unpack in one half (R99, R129). -/
def unpackHalf (s : State) (d : Nat) (a : Opnd) (fmt : DxFmt) (h : Nat) : List Write :=
  let block := (List.range fmt.words).foldl (fun acc j => acc + (opnd s a (32 * h + j)).toNat * 2 ^ (32 * j)) 0
  ((halfLanes h).filter fun l => s.cur.active.getLsbD l).map fun l => wr s d l (dxElemF32 fmt block (l % 32))
/-- `dxq`, pack; variable latency (R129). -/
def execDxq (sw : Bool) (d : BitVec 7) (a : Opnd) (fmt : DxFmt) (s : State) : Host.Outcome State Fault Refusal :=
  .next (finish sw (addPend d.toNat 1 (.value (packHalf s d.toNat a fmt 0 ++ packHalf s d.toNat a fmt 1)) s))
/-- `dxq`, unpack; variable latency (R129). -/
def execDxqUnpack (sw : Bool) (d : BitVec 7) (a : Opnd) (fmt : DxFmt) (s : State) :
    Host.Outcome State Fault Refusal :=
  .next (finish sw (addPend d.toNat 1 (.value (unpackHalf s d.toNat a fmt 0 ++ unpackHalf s d.toNat a fmt 1)) s))
/-- `sfu`, variable latency (R130). -/
def execSfu (sw : Bool) (d : BitVec 7) (a : Opnd) (fn : SfuFn) (s : State) : Host.Outcome State Fault Refusal :=
  .next (variableOp sw d.toNat 1 (fun l =>
    let r := sfuResult fn (opnd s a l)
    fpWrites s false d.toNat l (r.1.toNat, r.2)) s)
/-- `mscl` (R102, R216). -/
def execMscl (sw : Bool) (d : BitVec 7) (a b c : Opnd) (br bc : BitVec 2) (s : State) :
    Host.Outcome State Fault Refusal :=
  .next (fixedOp sw (fun l => fpWrites s false d.toNat l
    (fpScaleFold (rmOf s l) (destVal s false d l) (opnd s a l).toNat
      ((opnd s b l).toNat / 256 ^ br.toNat % 256) ((opnd s c l).toNat / 256 ^ bc.toNat % 256))) s)

end Sys2Proof.Machine
end

