-- ==== Sys2Proof/Machine/Integer.lean ====
section
/-!
DEFINITION. The integer, address, bit, move and long-form instructions (R116 to R118, R124, R127, R136 to R139).
-/
namespace Sys2Proof.Machine

/-- Sat32 of R44. -/
def sat32 (x : Int) : Word := BitVec.ofInt 32 (max (-2 ^ 31) (min (2 ^ 31 - 1) x))

/-- pos of R117. -/
def fieldPos (b : Word) : Nat := b.toNat % 32
/-- len of R117. -/
def fieldLen (b : Word) : Nat := min (b.toNat / 256 % 64) (32 - fieldPos b)
/-- `bfe` of R117. -/
def bfeVal (signed : Bool) (a b : Word) : Word :=
  let len := fieldLen b
  let f := a.toNat / 2 ^ fieldPos b % 2 ^ len
  if signed && decide (0 < len) && decide (2 ^ (len - 1) ≤ f) then BitVec.ofInt 32 ((f : Int) - 2 ^ len)
  else BitVec.ofNat 32 f
/-- `bfi` of R117. -/
def bfiVal (a b d : Word) : Word :=
  let mk := BitVec.ofNat 32 ((2 ^ fieldLen b - 1) * 2 ^ fieldPos b)
  (d &&& ~~~mk) ||| (BitVec.ofNat 32 (a.toNat * 2 ^ fieldPos b) &&& mk)
/-- Byte i of the eight bytes of a and d (R117). -/
def permByte (a d : Word) (n : Nat) : Nat :=
  let y := (a.toNat + 2 ^ 32 * d.toNat) / 256 ^ (n % 8) % 256
  if 8 ≤ n then (if 128 ≤ y then 255 else 0) else y
/-- `perm` of R117. -/
def permVal (a b d : Word) : Word :=
  BitVec.ofNat 32 (permByte a d (b.toNat % 16) + 256 * permByte a d (b.toNat / 16 % 16) +
    65536 * permByte a d (b.toNat / 256 % 16) + 16777216 * permByte a d (b.toNat / 4096 % 16))
/-- The number of 1 bits (R116). -/
def popCount (a : Word) : Nat := ((List.range 32).filter fun i => a.getLsbD i).length
/-- 0 bits above the highest 1 bit; 32 for 0 (R116). -/
def leadZeros (a : Word) : Nat := if a = 0 then 32 else 31 - Nat.log2 a.toNat
/-- 0 bits below the lowest 1 bit; 32 for 0 (R116). -/
def trailZeros (a : Word) : Nat := ((List.range 32).find? fun i => a.getLsbD i).getD 32
/-- `lop3` of R138, bit by bit. -/
def lop3Val (f : BitVec 8) (a b c : Word) : Word :=
  BitVec.ofNat 32 ((List.range 32).foldl (fun acc i =>
    let k := (a.getLsbD i).toNat + 2 * (b.getLsbD i).toNat + 4 * (c.getLsbD i).toNat
    if f.getLsbD k then acc + 2 ^ i else acc) 0)

/-- `add` (R116). -/
def execAdd (sw : Bool) (d : BitVec 7) (a b : Opnd) (sat : Bool) (s : State) : Host.Outcome State Fault Refusal :=
  .next (int2 sw d a b (fun x y => if sat then sat32 (x.toInt + y.toInt) else x + y) s)
/-- `sub` (R116). -/
def execSub (sw : Bool) (d : BitVec 7) (a b : Opnd) (sat : Bool) (s : State) : Host.Outcome State Fault Refusal :=
  .next (int2 sw d a b (fun x y => if sat then sat32 (x.toInt - y.toInt) else x - y) s)
/-- `mul.lo` (R116). -/
def execMulLo (sw : Bool) (d : BitVec 7) (a b : Opnd) (s : State) : Host.Outcome State Fault Refusal :=
  .next (int2 sw d a b (fun x y => x * y) s)
/-- `mul.hi` (R116). -/
def execMulHi (sw : Bool) (d : BitVec 7) (a b : Opnd) (u : Bool) (s : State) : Host.Outcome State Fault Refusal :=
  .next (int2 sw d a b (fun x y =>
    if u then BitVec.ofNat 32 (x.toNat * y.toNat / 2 ^ 32) else BitVec.ofInt 32 (Int.fdiv (x.toInt * y.toInt) (2 ^ 32))) s)
/-- `mad.lo` (R116). -/
def execMadLo (sw : Bool) (d : BitVec 7) (a b : Opnd) (s : State) : Host.Outcome State Fault Refusal :=
  .next (int3 sw d a b (fun x y z => x * y + z) s)
/-- `min` (R116). -/
def execMin (sw : Bool) (d : BitVec 7) (a b : Opnd) (u : Bool) (s : State) : Host.Outcome State Fault Refusal :=
  .next (int2 sw d a b (fun x y => if (if u then x.ult y else x.slt y) then x else y) s)
/-- `max` (R116). -/
def execMax (sw : Bool) (d : BitVec 7) (a b : Opnd) (u : Bool) (s : State) : Host.Outcome State Fault Refusal :=
  .next (int2 sw d a b (fun x y => if (if u then x.ult y else x.slt y) then y else x) s)
/-- `absd` (R116). -/
def execAbsd (sw : Bool) (d : BitVec 7) (a b : Opnd) (u : Bool) (s : State) : Host.Outcome State Fault Refusal :=
  .next (int2 sw d a b (fun x y =>
    BitVec.ofNat 32 (if u then ((x.toNat : Int) - y.toNat).natAbs else (x.toInt - y.toInt).natAbs)) s)
/-- `and` (R116). -/
def execAnd (sw : Bool) (d : BitVec 7) (a b : Opnd) (s : State) : Host.Outcome State Fault Refusal :=
  .next (int2 sw d a b (fun x y => x &&& y) s)
/-- `or` (R116). -/
def execOr (sw : Bool) (d : BitVec 7) (a b : Opnd) (s : State) : Host.Outcome State Fault Refusal :=
  .next (int2 sw d a b (fun x y => x ||| y) s)
/-- `xor` (R116). -/
def execXor (sw : Bool) (d : BitVec 7) (a b : Opnd) (s : State) : Host.Outcome State Fault Refusal :=
  .next (int2 sw d a b (fun x y => x ^^^ y) s)
/-- `andn` (R116). -/
def execAndn (sw : Bool) (d : BitVec 7) (a b : Opnd) (s : State) : Host.Outcome State Fault Refusal :=
  .next (int2 sw d a b (fun x y => x &&& ~~~y) s)
/-- `shl` (R116). -/
def execShl (sw : Bool) (d : BitVec 7) (a b : Opnd) (s : State) : Host.Outcome State Fault Refusal :=
  .next (int2 sw d a b (fun x y => if y.toNat < 32 then x <<< y.toNat else 0) s)
/-- `shr` (R116). -/
def execShr (sw : Bool) (d : BitVec 7) (a b : Opnd) (arith : Bool) (s : State) : Host.Outcome State Fault Refusal :=
  .next (int2 sw d a b (fun x y =>
    if arith then BitVec.ofInt 32 (Int.fdiv x.toInt (2 ^ min y.toNat 31))
    else if y.toNat < 32 then x >>> y.toNat else 0) s)
/-- `rot` (R116). -/
def execRot (sw : Bool) (d : BitVec 7) (a b : Opnd) (s : State) : Host.Outcome State Fault Refusal :=
  .next (int2 sw d a b (fun x y => x.rotateLeft (y.toNat % 32)) s)
/-- `bfe` (R117). -/
def execBfe (sw : Bool) (d : BitVec 7) (a b : Opnd) (signed : Bool) (s : State) : Host.Outcome State Fault Refusal :=
  .next (int2 sw d a b (bfeVal signed) s)
/-- `bfi` (R117). -/
def execBfi (sw : Bool) (d : BitVec 7) (a b : Opnd) (s : State) : Host.Outcome State Fault Refusal :=
  .next (int3 sw d a b bfiVal s)
/-- `popc` (R116). -/
def execPopc (sw : Bool) (d : BitVec 7) (a : Opnd) (s : State) : Host.Outcome State Fault Refusal :=
  .next (int1 sw d a (fun x => BitVec.ofNat 32 (popCount x)) s)
/-- `clz` (R116). -/
def execClz (sw : Bool) (d : BitVec 7) (a : Opnd) (s : State) : Host.Outcome State Fault Refusal :=
  .next (int1 sw d a (fun x => BitVec.ofNat 32 (leadZeros x)) s)
/-- `ctz` (R116). -/
def execCtz (sw : Bool) (d : BitVec 7) (a : Opnd) (s : State) : Host.Outcome State Fault Refusal :=
  .next (int1 sw d a (fun x => BitVec.ofNat 32 (trailZeros x)) s)
/-- `brev` (R116). -/
def execBrev (sw : Bool) (d : BitVec 7) (a : Opnd) (s : State) : Host.Outcome State Fault Refusal :=
  .next (int1 sw d a (fun x => x.reverse) s)
/-- `perm` (R117). -/
def execPerm (sw : Bool) (d : BitVec 7) (a b : Opnd) (s : State) : Host.Outcome State Fault Refusal :=
  .next (int3 sw d a b permVal s)
/-- `add.i64` (R116). -/
def execAddI64 (sw : Bool) (d : BitVec 7) (a b : Opnd) (s : State) : Host.Outcome State Fault Refusal :=
  .next (pair2 sw d (fun l => opnd64 s a l + opnd64 s b l) s)
/-- `sub.i64` (R116). -/
def execSubI64 (sw : Bool) (d : BitVec 7) (a b : Opnd) (s : State) : Host.Outcome State Fault Refusal :=
  .next (pair2 sw d (fun l => opnd64 s a l - opnd64 s b l) s)
/-- `mul.wide` (R116). -/
def execMulWide (sw : Bool) (d : BitVec 7) (a b : Opnd) (u : Bool) (s : State) : Host.Outcome State Fault Refusal :=
  .next (pair2 sw d (fun l =>
    if u then (opnd s a l).setWidth 64 * (opnd s b l).setWidth 64
    else (opnd s a l).signExtend 64 * (opnd s b l).signExtend 64) s)
/-- `shl.i64` (R116). -/
def execShlI64 (sw : Bool) (d : BitVec 7) (a b : Opnd) (s : State) : Host.Outcome State Fault Refusal :=
  .next (pair2 sw d (fun l => if (opnd s b l).toNat < 64 then opnd64 s a l <<< (opnd s b l).toNat else 0) s)
/-- `shr.i64` (R116). -/
def execShrI64 (sw : Bool) (d : BitVec 7) (a b : Opnd) (arith : Bool) (s : State) :
    Host.Outcome State Fault Refusal :=
  .next (pair2 sw d (fun l =>
    let n := (opnd s b l).toNat
    if arith then BitVec.ofInt 64 (Int.fdiv (opnd64 s a l).toInt (2 ^ min n 63))
    else if n < 64 then opnd64 s a l >>> n else 0) s)
/-- What the default handler writes for a division: D of each lane, or the uniform register (R118). -/
def divWrites (s : State) (d : BitVec 7) (a b : Opnd) (rem u : Bool) : List Write :=
  (resultLanes s).map fun l => wr s d.toNat l (divResult rem u (opnd s a l) (opnd s b l)).toNat
/-- `idiv`: the emulate trap, subcode 0x19 (R79, R118). -/
def execIdiv (_sw : Bool) (d : BitVec 7) (a b : Opnd) (u : Bool) (s : State) : Host.Outcome State Fault Refusal :=
  .next (raiseTrapWith { cause := 2, sub := 0x19, addr := 0 } true (divWrites s d a b false u)
    s)
/-- `irem`: the emulate trap, subcode 0x1A (R79, R118). -/
def execIrem (_sw : Bool) (d : BitVec 7) (a b : Opnd) (u : Bool) (s : State) : Host.Outcome State Fault Refusal :=
  .next (raiseTrapWith { cause := 2, sub := 0x1A, addr := 0 } true (divWrites s d a b true u)
    s)
/-- `mov` (R127). -/
def execMov (sw : Bool) (d : BitVec 7) (a : Opnd) (wide : Bool) (s : State) : Host.Outcome State Fault Refusal :=
  .next (fixedOp sw (fun l =>
    wrN s wide d.toNat l (if wide then (opnd64 s a l).toNat else (opnd s a l).toNat)) s)
/-- `movp` (R124). -/
def execMovp (sw : Bool) (d : BitVec 7) (a : Opnd) (p : Fin 24) (sense wide : Bool) (s : State) :
    Host.Outcome State Fault Refusal :=
  .next (fixedOp sw (fun l =>
    if s.cw.pred l p.val != sense then
      wrN s wide d.toNat l (if wide then (opnd64 s a l).toNat else (opnd s a l).toNat)
    else []) s)
/-- `movi` (R136). -/
def execMovi (sw : Bool) (d : BitVec 7) (wide : Bool) (imm : Word) (s : State) : Host.Outcome State Fault Refusal :=
  .next (fixedOp sw (fun l => wrN s wide d.toNat l (imm.signExtend 64).toNat) s)
/-- `addi` (R137). -/
def execAddi (sw : Bool) (d : BitVec 7) (a : Opnd) (sat : Bool) (imm : Word) (s : State) :
    Host.Outcome State Fault Refusal :=
  .next (int1 sw d a (fun x => if sat then sat32 (x.toInt + imm.toInt) else x + imm) s)
/-- `lop3` (R138). -/
def execLop3 (sw : Bool) (d : BitVec 7) (a b c : Opnd) (f : BitVec 8) (s : State) : Host.Outcome State Fault Refusal :=
  .next (fixedOp sw (fun l => [wr s d.toNat l (lop3Val f (opnd s a l) (opnd s b l) (opnd s c l)).toNat]) s)
/-- `lea` (R139). -/
def execLea (sw : Bool) (d : BitVec 7) (a b : Opnd) (sh : Fin 5) (sx : Bool) (disp : BitVec 28) (s : State) :
    Host.Outcome State Fault Refusal :=
  .next (pair2 sw d (fun l =>
    let ix := if sx then (opnd s b l).signExtend 64 else (opnd s b l).setWidth 64
    opnd64 s a l + ix <<< sh.val + disp.signExtend 64) s)

end Sys2Proof.Machine
end

