-- ==== Sys2Proof/Machine/Predicates.lean ====
section
/-!
DEFINITION. Compares, predicate logic and the cross-lane instructions (R123, R125, R126, R161 to R166).
-/
namespace Sys2Proof.Machine

/-- An integer condition (R123). -/
def icondHolds (c : ICond) (a b : Int) : Bool :=
  match c with
  | .eq => decide (a = b) | .ne => decide (a ≠ b) | .lt => decide (a < b) | .le => decide (a ≤ b)
  | .gt => decide (b < a) | .ge => decide (b ≤ a)

/-- `cmp.i32` (R123). -/
def execCmpI32 (sw : Bool) (pd : Fin 24) (c : ICond) (a b : Opnd) (s : State) : Host.Outcome State Fault Refusal :=
  .next (predOp sw pd (fun l => (icondHolds c (opnd s a l).toInt (opnd s b l).toInt, 0)) s)
/-- `cmp.n32` (R123). -/
def execCmpN32 (sw : Bool) (pd : Fin 24) (c : ICond) (a b : Opnd) (s : State) : Host.Outcome State Fault Refusal :=
  .next (predOp sw pd (fun l => (icondHolds c (opnd s a l).toNat (opnd s b l).toNat, 0)) s)
/-- `cmp.f32` (R123). -/
def execCmpF32 (sw : Bool) (pd : Fin 24) (c : FCond) (a b : Opnd) (s : State) : Host.Outcome State Fault Refusal :=
  .next (predOp sw pd (fun l => fpCompare .f32 c (opndF .f32 s a l) (opndF .f32 s b l)) s)
/-- `cmp.f64` (R123). -/
def execCmpF64 (sw : Bool) (pd : Fin 24) (c : FCond) (a b : Opnd) (s : State) : Host.Outcome State Fault Refusal :=
  .next (predOp sw pd (fun l => fpCompare .f64 c (opndF .f64 s a l) (opndF .f64 s b l)) s)
/-- `cmp.i64` (R123). -/
def execCmpI64 (sw : Bool) (pd : Fin 24) (c : ICond) (a b : Opnd) (s : State) : Host.Outcome State Fault Refusal :=
  .next (predOp sw pd (fun l => (icondHolds c (opnd64 s a l).toInt (opnd64 s b l).toInt, 0)) s)
/-- A predicate source; 31 reads as 1 (R125, R166). -/
def psrcVal (w : Wave) (p : PSrc) (l : Nat) : Bool :=
  match p with
  | none => true
  | some q => w.pred l q.val
/-- `plop` (R125). -/
def execPlop (sw : Bool) (pd : Fin 24) (pa pb : PSrc) (f : BitVec 8) (s : State) : Host.Outcome State Fault Refusal :=
  .next (predOp sw pd (fun l =>
    (f.getLsbD (4 * (psrcVal s.cw pa l).toNat + 2 * (psrcVal s.cw pb l).toNat + (s.cw.pred l pd.val).toNat), 0)) s)
/-- `fcls` (R75, R126). -/
def execFcls (sw : Bool) (pd : Fin 24) (a : Opnd) (mask : BitVec 10) (wide : Bool) (s : State) :
    Host.Outcome State Fault Refusal :=
  .next (predOp sw pd (fun l => (mask.getLsbD (fpClass (fmtOf wide) (opndF (fmtOf wide) s a l)), 0)) s)

/-! ### Cross-lane -/

/-- The lane of R162's table; none outside 0 to 63. -/
def xlLane (mode : XlMode) (k : BitVec 6) (l : Nat) : Option Nat :=
  match mode with
  | .idx => some k.toNat
  | .rel =>
    let src : Int := if k.toNat < 32 then (l : Int) + k.toNat else (l : Int) + k.toNat - 64
    if 0 ≤ src ∧ src < 64 then some src.toNat else none
  | .xor => some (Nat.xor l k.toNat)
  | .wrel => some ((l + 64 / 2 ^ k.toNat) % 64)
/-- The lane if it is in Active. -/
def activeLane (s : State) : Option Nat → Option Nat
  | some l => if l < 64 && s.cur.active.getLsbD l then some l else none
  | none => none
/-- `shfl`, variable latency (R162). -/
def execShfl (sw : Bool) (d : BitVec 7) (a : Opnd) (k : BitVec 6) (mode : XlMode) (s : State) :
    Host.Outcome State Fault Refusal :=
  .next (variableOp sw d.toNat 1 (fun l =>
    [wr s d.toNat l (opnd s a ((activeLane s (xlLane mode k l)).getD l)).toNat]) s)
/-- `shflx`, variable latency (R163). -/
def execShflx (sw : Bool) (d : BitVec 7) (a b f : Opnd) (s : State) : Host.Outcome State Fault Refusal :=
  .next (variableOp sw d.toNat 1 (fun l =>
    match activeLane s (some (opnd s b l).toNat) with
    | some src => [wr s d.toNat l (opnd s a src).toNat]
    | none => [wr s d.toNat l (opnd s f l).toNat]) s)
/-- `push`, variable latency: later, higher-numbered sources overwrite (R164). -/
def execPush (sw : Bool) (d : BitVec 7) (a : Opnd) (k : BitVec 6) (mode : XlMode) (s : State) :
    Host.Outcome State Fault Refusal :=
  .next (variableOp sw d.toNat 1 (fun l =>
    match activeLane s (xlLane mode k l) with
    | some dst => [wr s d.toNat dst (opnd s a l).toNat]
    | none => []) s)
/-- The leaves of R107: Op(A, l) in Active, the identity elsewhere. -/
def redLeaves (s : State) (a : Opnd) (fn : RedFn) : List Word :=
  (List.range 64).map fun l => if s.cur.active.getLsbD l then opnd s a l else fn.identity
/-- `red`, variable latency (R107, R165). -/
def execRed (sw : Bool) (d : BitVec 7) (a : Opnd) (fn : RedFn) (s : State) : Host.Outcome State Fault Refusal :=
  .next (variableOp sw d.toNat 1 (fun l =>
    let r := redTree fn 6 (redLeaves s a fn) 0
    fpWrites s false d.toNat l (r.1.toNat, r.2)) s)
/-- `scan`, variable latency (R108, R165). -/
def execScan (sw : Bool) (d : BitVec 7) (a : Opnd) (fn : RedFn) (excl : Bool) (s : State) :
    Host.Outcome State Fault Refusal :=
  .next (variableOp sw d.toNat 1 (fun l =>
    let r := scanTree fn 6 1 (redLeaves s a fn) 0
    let v := if excl then (if l = 0 then fn.identity else r.1.getD (l - 1) 0) else r.1.getD l 0
    fpWrites s false d.toNat l (v.toNat, r.2)) s)
/-- The result of a vote (R166). -/
def voteVal (s : State) (mode : VoteMode) (pa : PSrc) : Bool :=
  let a := s.lanes.map (psrcVal s.cw pa)
  match mode with
  | .all => a.all id
  | .any => a.any id
  | .eq => a.all id || a.all not
/-- `vote.all`, `vote.any` and `vote.eq`, variable latency (R166). -/
def execVote (sw : Bool) (mode : VoteMode) (pa : PSrc) (pd : Fin 24) (s : State) : Host.Outcome State Fault Refusal :=
  .next (finish sw (addPend 0 0 (.value (s.lanes.map fun l => .pred l pd.val (voteVal s mode pa))) s))
/-- `vote.ballot`, variable latency: the mask in a pair (R166). -/
def execVoteBallot (sw : Bool) (d : BitVec 6) (pa : PSrc) (s : State) : Host.Outcome State Fault Refusal :=
  .next (variableOp sw (2 * d.toNat) 2 (fun l =>
    wrN s true (2 * d.toNat) l (maskOf (s.lanes.filter (psrcVal s.cw pa))).toNat) s)

end Sys2Proof.Machine
end

