-- ==== Sys2Proof/Machine/Dispatch.lean ====
section
/-!
DEFINITION. The dispatch of each step to its meaning.
-/
namespace Sys2Proof.Machine

/-- The meaning of a step. -/
def exec (i : Instr) (s : State) : Host.Outcome State Fault Refusal :=
  match i with
  | .add sw d a b sat => Sys2Proof.Machine.execAdd sw d a b sat s
  | .sub sw d a b sat => Sys2Proof.Machine.execSub sw d a b sat s
  | .mulLo sw d a b => Sys2Proof.Machine.execMulLo sw d a b s
  | .mulHi sw d a b u => Sys2Proof.Machine.execMulHi sw d a b u s
  | .madLo sw d a b => Sys2Proof.Machine.execMadLo sw d a b s
  | .min sw d a b u => Sys2Proof.Machine.execMin sw d a b u s
  | .max sw d a b u => Sys2Proof.Machine.execMax sw d a b u s
  | .absd sw d a b u => Sys2Proof.Machine.execAbsd sw d a b u s
  | .and sw d a b => Sys2Proof.Machine.execAnd sw d a b s
  | .or sw d a b => Sys2Proof.Machine.execOr sw d a b s
  | .xor sw d a b => Sys2Proof.Machine.execXor sw d a b s
  | .andn sw d a b => Sys2Proof.Machine.execAndn sw d a b s
  | .shl sw d a b => Sys2Proof.Machine.execShl sw d a b s
  | .shr sw d a b arith => Sys2Proof.Machine.execShr sw d a b arith s
  | .rot sw d a b => Sys2Proof.Machine.execRot sw d a b s
  | .bfe sw d a b signed => Sys2Proof.Machine.execBfe sw d a b signed s
  | .bfi sw d a b => Sys2Proof.Machine.execBfi sw d a b s
  | .popc sw d a => Sys2Proof.Machine.execPopc sw d a s
  | .clz sw d a => Sys2Proof.Machine.execClz sw d a s
  | .ctz sw d a => Sys2Proof.Machine.execCtz sw d a s
  | .brev sw d a => Sys2Proof.Machine.execBrev sw d a s
  | .perm sw d a b => Sys2Proof.Machine.execPerm sw d a b s
  | .addI64 sw d a b => Sys2Proof.Machine.execAddI64 sw d a b s
  | .subI64 sw d a b => Sys2Proof.Machine.execSubI64 sw d a b s
  | .mulWide sw d a b u => Sys2Proof.Machine.execMulWide sw d a b u s
  | .idiv sw d a b u => Sys2Proof.Machine.execIdiv sw d a b u s
  | .irem sw d a b u => Sys2Proof.Machine.execIrem sw d a b u s
  | .shlI64 sw d a b => Sys2Proof.Machine.execShlI64 sw d a b s
  | .shrI64 sw d a b arith => Sys2Proof.Machine.execShrI64 sw d a b arith s
  | .fadd sw d a b wide => Sys2Proof.Machine.execFadd sw d a b wide s
  | .fsub sw d a b wide => Sys2Proof.Machine.execFsub sw d a b wide s
  | .fmul sw d a b wide => Sys2Proof.Machine.execFmul sw d a b wide s
  | .ffma sw d a b wide => Sys2Proof.Machine.execFfma sw d a b wide s
  | .fmin sw d a b wide => Sys2Proof.Machine.execFmin sw d a b wide s
  | .fmax sw d a b wide => Sys2Proof.Machine.execFmax sw d a b wide s
  | .fdiv sw d a b wide => Sys2Proof.Machine.execFdiv sw d a b wide s
  | .fsqrt sw d a wide => Sys2Proof.Machine.execFsqrt sw d a wide s
  | .hadd sw d a b bf => Sys2Proof.Machine.execHadd sw d a b bf s
  | .hsub sw d a b bf => Sys2Proof.Machine.execHsub sw d a b bf s
  | .hmul sw d a b bf => Sys2Proof.Machine.execHmul sw d a b bf s
  | .hfma sw d a b bf => Sys2Proof.Machine.execHfma sw d a b bf s
  | .hmin sw d a b bf => Sys2Proof.Machine.execHmin sw d a b bf s
  | .hmax sw d a b bf => Sys2Proof.Machine.execHmax sw d a b bf s
  | .hdot2 sw d a b bf => Sys2Proof.Machine.execHdot2 sw d a b bf s
  | .fabs sw d a => Sys2Proof.Machine.execFabs sw d a s
  | .fneg sw d a => Sys2Proof.Machine.execFneg sw d a s
  | .cmpI32 sw pd c a b => Sys2Proof.Machine.execCmpI32 sw pd c a b s
  | .cmpN32 sw pd c a b => Sys2Proof.Machine.execCmpN32 sw pd c a b s
  | .cmpF32 sw pd c a b => Sys2Proof.Machine.execCmpF32 sw pd c a b s
  | .cmpF64 sw pd c a b => Sys2Proof.Machine.execCmpF64 sw pd c a b s
  | .cmpI64 sw pd c a b => Sys2Proof.Machine.execCmpI64 sw pd c a b s
  | .movp sw d a p sense wide => Sys2Proof.Machine.execMovp sw d a p sense wide s
  | .plop sw pd pa pb f => Sys2Proof.Machine.execPlop sw pd pa pb f s
  | .fcls sw pd a mask wide => Sys2Proof.Machine.execFcls sw pd a mask wide s
  | .mov sw d a wide => Sys2Proof.Machine.execMov sw d a wide s
  | .cvt sw d a src dst rnd sat => Sys2Proof.Machine.execCvt sw d a src dst rnd sat s
  | .dxq sw d a fmt => Sys2Proof.Machine.execDxq sw d a fmt s
  | .dxqUnpack sw d a fmt => Sys2Proof.Machine.execDxqUnpack sw d a fmt s
  | .sfu sw d a fn => Sys2Proof.Machine.execSfu sw d a fn s
  | .atab sw d a => Sys2Proof.Machine.execAtab sw d a s
  | .atld sw a b => Sys2Proof.Machine.execAtld sw a b s
  | .atsw sw => Sys2Proof.Machine.execAtsw sw s
  | .shfl sw d a k mode => Sys2Proof.Machine.execShfl sw d a k mode s
  | .push sw d a k mode => Sys2Proof.Machine.execPush sw d a k mode s
  | .red sw d a fn => Sys2Proof.Machine.execRed sw d a fn s
  | .scan sw d a fn excl => Sys2Proof.Machine.execScan sw d a fn excl s
  | .vote sw mode pa pd => Sys2Proof.Machine.execVote sw mode pa pd s
  | .voteBallot sw d pa => Sys2Proof.Machine.execVoteBallot sw d pa s
  | .barArrive sw id count => Sys2Proof.Machine.execBarArrive sw id count s
  | .barWait sw id count => Sys2Proof.Machine.execBarWait sw id count s
  | .barBoth sw id count => Sys2Proof.Machine.execBarBoth sw id count s
  | .rq sw q => Sys2Proof.Machine.execRq sw q s
  | .spawn sw arg off => Sys2Proof.Machine.execSpawn sw arg off s
  | .bra sw u c off => Sys2Proof.Machine.execBra sw u c off s
  | .bri sw idx table => Sys2Proof.Machine.execBri sw idx table s
  | .call sw u c off => Sys2Proof.Machine.execCall sw u c off s
  | .ret sw u => Sys2Proof.Machine.execRet sw u s
  | .exit sw => Sys2Proof.Machine.execExit sw s
  | .joinEnrol sw j => Sys2Proof.Machine.execJoinEnrol sw j s
  | .joinWait sw j => Sys2Proof.Machine.execJoinWait sw j s
  | .joinStrike sw j => Sys2Proof.Machine.execJoinStrike sw j s
  | .nap sw => Sys2Proof.Machine.execNap sw s
  | .ld sw d a size off => Sys2Proof.Machine.execLd sw d a size off s
  | .ldl sw d a size off => Sys2Proof.Machine.execLdl sw d a size off s
  | .lds sw d a size off => Sys2Proof.Machine.execLds sw d a size off s
  | .ldc sw d a size off => Sys2Proof.Machine.execLdc sw d a size off s
  | .ldk sw d a size off => Sys2Proof.Machine.execLdk sw d a size off s
  | .ldg sw d a size off => Sys2Proof.Machine.execLdg sw d a size off s
  | .st sw a data size off => Sys2Proof.Machine.execSt sw a data size off s
  | .stl sw a data size off => Sys2Proof.Machine.execStl sw a data size off s
  | .sts sw a data size off => Sys2Proof.Machine.execSts sw a data size off s
  | .stc sw a data size off => Sys2Proof.Machine.execStc sw a data size off s
  | .stk sw a data size off => Sys2Proof.Machine.execStk sw a data size off s
  | .stg sw a data size off => Sys2Proof.Machine.execStg sw a data size off s
  | .ldblk sw d a fmt => Sys2Proof.Machine.execLdblk sw d a fmt s
  | .cmpst sw a data wide => Sys2Proof.Machine.execCmpst sw a data wide s
  | .chk sw idx region sc => Sys2Proof.Machine.execChk sw idx region sc s
  | .ldw sw d a wide off => Sys2Proof.Machine.execLdw sw d a wide off s
  | .movi sw d wide imm => Sys2Proof.Machine.execMovi sw d wide imm s
  | .addi sw d a sat imm => Sys2Proof.Machine.execAddi sw d a sat imm s
  | .lop3 sw d a b c f => Sys2Proof.Machine.execLop3 sw d a b c f s
  | .lea sw d a b sh sx disp => Sys2Proof.Machine.execLea sw d a b sh sx disp s
  | .ldx sw d a size off => Sys2Proof.Machine.execLdx sw d a size off s
  | .stx sw a data size off => Sys2Proof.Machine.execStx sw a data size off s
  | .atom sw d a b wide op off => Sys2Proof.Machine.execAtom sw d a b wide op off s
  | .cas sw d a b c wide off => Sys2Proof.Machine.execCas sw d a b c wide off s
  | .acq sw a off => Sys2Proof.Machine.execAcq sw a off s
  | .rel sw a off => Sys2Proof.Machine.execRel sw a off s
  | .ffma3 sw d a b c wide rnd => Sys2Proof.Machine.execFfma3 sw d a b c wide rnd s
  | .shflx sw d a b f => Sys2Proof.Machine.execShflx sw d a b f s
  | .thset sw h quad => Sys2Proof.Machine.execThset sw h quad s
  | .mma sw tag h b fmt fold row0 kb => Sys2Proof.Machine.execMma sw tag h b fmt fold row0 kb s
  | .accRd sw tag d => Sys2Proof.Machine.execAccRd sw tag d s
  | .accZero sw tag => Sys2Proof.Machine.execAccZero sw tag s
  | .accRel sw tag => Sys2Proof.Machine.execAccRel sw tag s
  | .mscl sw d a b c br bc => Sys2Proof.Machine.execMscl sw d a b c br bc s
  | .cpy sw dst src xf len => Sys2Proof.Machine.execCpy sw dst src xf len s
  | .cseal sw => Sys2Proof.Machine.execCseal sw s
  | .cwait sw n => Sys2Proof.Machine.execCwait sw n s
  | .drain sw path => Sys2Proof.Machine.execDrain sw path s
  | .trap sw code => Sys2Proof.Machine.execTrap sw code s
  | .rdsr sw d sr => Sys2Proof.Machine.execRdsr sw d sr s
  | .wrsr sw sr a => Sys2Proof.Machine.execWrsr sw sr a s
  | .launch sw a off => Sys2Proof.Machine.execLaunch sw a off s
  | .trig sw => Sys2Proof.Machine.execTrig sw s
  | .rmark sw => Sys2Proof.Machine.execRmark sw s
  | .eret sw => Sys2Proof.Machine.execEret sw s
  | .clauseEntry => Sys2Proof.Machine.execClauseEntry s
  | .variableResultWrite core slot k => Sys2Proof.Machine.execVariableResultWrite core slot k s
  | .commitInstant core slot => Sys2Proof.Machine.execCommitInstant core slot s
  | .committedStorePerform core slot => Sys2Proof.Machine.execCommittedStorePerform core slot s
  | .rollback core slot => Sys2Proof.Machine.execRollback core slot s
  | .trapEntry core slot => Sys2Proof.Machine.execTrapEntry core slot s
  | .atswExchange core quarter => Sys2Proof.Machine.execAtswExchange core quarter s
  | .spawnBinTimerExpiry core bin => Sys2Proof.Machine.execSpawnBinTimerExpiry core bin s
  | .spawnWaveFormation core bin => Sys2Proof.Machine.execSpawnWaveFormation core bin s
  | .ldwTimeout core slot k => Sys2Proof.Machine.execLdwTimeout core slot k s
  | .ldwReread core slot k => Sys2Proof.Machine.execLdwReread core slot k s
  | .watchNotify place => Sys2Proof.Machine.execWatchNotify place s
  | .copyCompletion core k => Sys2Proof.Machine.execCopyCompletion core k s
  | .copyAbort core k addr => Sys2Proof.Machine.execCopyAbort core k addr s
  | .mmaAccept core => Sys2Proof.Machine.execMmaAccept core s
  | .mmaBReadEnd core stage => Sys2Proof.Machine.execMmaBReadEnd core stage s
  | .mmaAFetchDone core stage => Sys2Proof.Machine.execMmaAFetchDone core stage s
  | .mmaComputeStart core => Sys2Proof.Machine.execMmaComputeStart core s
  | .mmaComplete core => Sys2Proof.Machine.execMmaComplete core s
  | .mmaReplay core group => Sys2Proof.Machine.execMmaReplay core group s
  | .mmaAbort core stage cause addr => Sys2Proof.Machine.execMmaAbort core stage cause addr s
  | .launchRecordParse part slot => Sys2Proof.Machine.execLaunchRecordParse part slot s
  | .gridQueueEntry grid => Sys2Proof.Machine.execGridQueueEntry grid s
  | .teamPlacement => Sys2Proof.Machine.execTeamPlacement s
  | .sliceExpiry team => Sys2Proof.Machine.execSliceExpiry team s
  | .preemption team => Sys2Proof.Machine.execPreemption team s
  | .deferralDeadline team => Sys2Proof.Machine.execDeferralDeadline team s
  | .reclaim cluster => Sys2Proof.Machine.execReclaim cluster s
  | .reclaimDeadline cluster => Sys2Proof.Machine.execReclaimDeadline cluster s
  | .pageFault core slot => Sys2Proof.Machine.execPageFault core slot s
  | .teamRestore team => Sys2Proof.Machine.execTeamRestore team s
  | .shootdown va bytes asid => Sys2Proof.Machine.execShootdown va bytes asid s
  | .atsInvalidation part pasid va bytes => Sys2Proof.Machine.execAtsInvalidation part pasid va bytes s
  | .hostCxlMemAccess part off write bytes data => Sys2Proof.Machine.execHostCxlMemAccess part off write bytes data s
  | .gets m => Sys2Proof.Machine.execGets m s
  | .getx m => Sys2Proof.Machine.execGetx m s
  | .fwd m => Sys2Proof.Machine.execFwd m s
  | .tok m => Sys2Proof.Machine.execTok m s
  | .done m => Sys2Proof.Machine.execDone m s
  | .notice m => Sys2Proof.Machine.execNotice m s
  | .recallLine die line => Sys2Proof.Machine.execRecall die line s
  | .preq core line first words write => Sys2Proof.Machine.execPreq core line first words write s
  | .pact die core => Sys2Proof.Machine.execPact die core s
  | .pdone die core => Sys2Proof.Machine.execPdone die core s
  | .transientRequestFailure core line first words write => Sys2Proof.Machine.execTransientRequestFailure core line first words write s
  | .rds m => Sys2Proof.Machine.execRds m s
  | .rdx m => Sys2Proof.Machine.execRdx m s
  | .upg m => Sys2Proof.Machine.execUpg m s
  | .evs m => Sys2Proof.Machine.execEvs m s
  | .eve m => Sys2Proof.Machine.execEve m s
  | .wbm m => Sys2Proof.Machine.execWbm m s
  | .wbo m => Sys2Proof.Machine.execWbo m s
  | .fwds m => Sys2Proof.Machine.execFwds m s
  | .fwdx m => Sys2Proof.Machine.execFwdx m s
  | .inv m => Sys2Proof.Machine.execInv m s
  | .binv m => Sys2Proof.Machine.execBinv m s
  | .data m => Sys2Proof.Machine.execData m s
  | .ack m => Sys2Proof.Machine.execAck m s
  | .chipLoss chip => Sys2Proof.Machine.execChipLoss chip s
  | .intervalClose part ctx => Sys2Proof.Machine.execIntervalClose part ctx s
  | .contextRollback part ctx => Sys2Proof.Machine.execContextRollback part ctx s
  | .pipelineError core u => Sys2Proof.Machine.execPipelineError core u s
  | .memoryScrub stack chunk pins => Sys2Proof.Machine.execMemoryScrub stack chunk pins s
  | .routerFence die router => Sys2Proof.Machine.execRouterFence die router s
  | .dieMeterReport die => Sys2Proof.Machine.execDieMeterReport die s
  | .deviceStart r => Sys2Proof.Machine.execDeviceStart r s
  | .startTimeout => Sys2Proof.Machine.execStartTimeout s
  | .coreReset core => Sys2Proof.Machine.execCoreReset core s
  | .admitKernel part index => Sys2Proof.Machine.execAdmit part index s
  | .installRuntimeLibrary index => Sys2Proof.Machine.execInstallRuntimeLibrary index s
  | .unload part index => Sys2Proof.Machine.execUnload part index s
  | .create => Sys2Proof.Machine.execCreate s
  | .destroy => Sys2Proof.Machine.execDestroy s
  | .clearStartCounter => Sys2Proof.Machine.execClearStartCounter s
  | .jobRollback => Sys2Proof.Machine.execJobRollback s
  | .mailboxInstall => Sys2Proof.Machine.execMailboxInstall s
  | .fqack part value => Sys2Proof.Machine.execFqack part value s
  | .logicalDeviceReset part => Sys2Proof.Machine.execLogicalDeviceReset part s
  | .biascmd part value => Sys2Proof.Machine.execBiascmd part value s
  | .biasChangeDone part => Sys2Proof.Machine.execBiasChangeDone part s
  | .grcmd part value => Sys2Proof.Machine.execGrcmd part value s
  | .granuleChangeDone part => Sys2Proof.Machine.execGranuleChangeDone part s
  | .umreq part value => Sys2Proof.Machine.execUmreq part value s
  | .usageRecordWrite part => Sys2Proof.Machine.execUsageRecordWrite part s
  | .registerWrite part off width value => Sys2Proof.Machine.execRegisterWrite part off width value s
  | .hostCxlCacheSnoop line => Sys2Proof.Machine.execHostCxlCacheSnoop line s
  | .hostMmioAccess off write bytes data => Sys2Proof.Machine.execHostMmioAccess off write bytes data s
  | .nellysPortDown port => Sys2Proof.Machine.execNellysPortDown port s
  | .firmwareUpdate copyB => Sys2Proof.Machine.execFirmwareUpdate copyB s

end Sys2Proof.Machine
end

