-- ==== Sys2Proof/Machine/Select.lean ====
section
/-!
DEFINITION. What happens next: an input of the outside world, an event of the part that may take place now, or the issue
of the group that a core's selection finds (R38, R61, R63, R66, R72, R150). The spec fixes no order among cores and
events (R290, R417); the rule by which one of them is taken next is the model's (log 3).
-/
namespace Sys2Proof.Machine

/-- A step that may be next with the test whether it can take place now. -/
abbrev Candidate := Instr × (State → Option State)

/-! ### Events of a core -/

/-- Events of a wave slot. -/
def waveEvents (s : State) (core : Nat) (kw : Nat × Wave) : List Candidate :=
  let slot := kw.1
  let pends := (List.range kw.2.pend.length).flatMap fun k =>
    [(Instr.variableResultWrite core slot k, evResult core slot k), (.ldwReread core slot k, evLdwReread core slot k),
     (.ldwTimeout core slot k, evLdwTimeout core slot k)]
  let parks := if (s.wave core slot).pend.isEmpty then [] else
    (kw.2.pend.flatMap fun p => match p.src with
      | .wait _ acc _ (some _) _ => acc.flatMap fun x => (x.keys.filter fun k => decide (onChip ≤ k)).map (· - onChip)
      | _ => []).eraseDups.map fun place => (Instr.watchNotify place, evWatch place)
  [(Instr.rollback core slot, evRollback core slot), (.commitInstant core slot, evCommit core slot),
   (.committedStorePerform core slot, evStore core slot), (.trapEntry core slot, evTrapEntry core slot),
   (.pageFault core slot, evFault core slot)] ++ pends ++ parks

/-- Events of the engines of a core. -/
def engineEvents (s : State) (core : Nat) : List Candidate :=
  let c := s.core core
  let copies := (List.range c.copies.length).flatMap fun k =>
    (Instr.copyCompletion core k, evCopy core k) ::
    (match (c.copies[k]?).bind (copyFailure s core) with
      | some a => [(Instr.copyAbort core k a, evCopyAbort core k a)]
      | none => [])
  let stages := c.mmas.flatMap fun m =>
    [(Instr.mmaBReadEnd core m.stage, evBRead core m.stage), (.mmaAFetchDone core m.stage, evFetch core m.stage)] ++
    (match abortCause s core m with
      | some (cause, a) => [(Instr.mmaAbort core m.stage cause a, evMmaAbort core m.stage cause a)]
      | none => [])
  copies ++ stages ++ [(Instr.mmaAccept core, evMmaAccept core), (.mmaComputeStart core, evCompute core),
    (.mmaComplete core, evMmaComplete core)]

/-- Events of a core. -/
def coreEvents (s : State) (core : Nat) : List Candidate :=
  let c := s.core core
  c.waves.flatMap (waveEvents s core) ++ engineEvents s core ++
  (List.range 4).map (fun q => (Instr.atswExchange core q, evAtsw core q)) ++
  c.bins.flatMap (fun b => [(Instr.spawnWaveFormation core b.1, evFormWave core b.1),
    (.spawnBinTimerExpiry core b.1, evBinTimer core b.1)]) ++
  c.reqs.flatMap (fun r => [(Instr.transientRequestFailure core r.line r.f r.n r.write, evFailure core r.line r.f r.n r.write),
    (.preq core r.line r.f r.n r.write, evPreq core r.line r.f r.n r.write)])

/-! ### Events of coherence -/

/-- The arrival of a message. -/
def msgEvent (k : Nat) : Msg → Candidate
  | .gets .. => (.gets k, evGets k) | .getx .. => (.getx k, evGetx k) | .fwd .. => (.fwd k, evFwd k)
  | .recall c l => (.recallLine (dieOf c) l, evRecall (dieOf c) l)
  | .tok .. => (.tok k, evTok k) | .done .. => (.done k, evDone k) | .notice .. => (.notice k, evNotice k)
  | .rds .. => (.rds k, evRds k) | .rdx .. => (.rdx k, evRdx k) | .upg .. => (.upg k, evUpg k)
  | .evs .. => (.evs k, evEvs k) | .eve .. => (.eve k, evEve k) | .wbm .. => (.wbm k, evWbm k)
  | .wbo .. => (.wbo k, evWbo k) | .fwds .. => (.fwds k, evFwds k) | .fwdx .. => (.fwdx k, evFwdx k)
  | .inv .. => (.inv k, evInv k) | .binv .. => (.binv k, evBinv k) | .data .. => (.data k, evData k)
  | .ack .. => (.ack k, evAck k)

/-- Events of coherence: messages that arrive, recalls, and the arbiters' activations. -/
def coherenceEvents (s : State) : List Candidate :=
  (List.range s.msgs.length).flatMap (fun k => ((s.msgs[k]?).map (msgEvent k)).toList) ++
  (s.frames.filter fun f => f.2.recalled).map (fun f => (Instr.recallLine (f.1 % 8) (f.1 / 8), evRecall (f.1 % 8) (f.1 / 8))) ++
  s.dies.flatMap (fun d => d.2.arbiter.flatMap fun p =>
    [(Instr.pact d.1 p.core, evPact d.1 p.core), (.pdone d.1 p.core, evPdone d.1 p.core)])

/-! ### Events of the dispatchers and of management -/

/-- Events of a partition. -/
def partEvents (s : State) (p : Nat × Partition) : List Candidate :=
  p.2.slotsSeen.map (fun k => (Instr.launchRecordParse p.1 k, evParse p.1 k)) ++
  (match nextEntry p.2 with
    | some k => [(Instr.admitKernel p.1 k, evAdmit p.1 k), (.unload p.1 k, evUnload p.1 k)]
    | none => []) ++
  (s.device.checking.filter (·.part == p.1)).map (fun a => (Instr.admitKernel p.1 a.index, evAdmit p.1 a.index)) ++
  (s.device.unloads.filter (·.1 == p.1)).map (fun u => (Instr.unload p.1 u.2.1, evUnload p.1 u.2.1)) ++
  [(Instr.biasChangeDone p.1, evBiasDone p.1), (.granuleChangeDone p.1, evGrDone p.1), (.usageRecordWrite p.1, evUsage p.1)] ++
  (if p.2.rst then [(Instr.logicalDeviceReset p.1, evReset p.1)] else []) ++
  ((s.grids.filter fun g => g.2.part == p.1 && g.2.st != .ended).map fun g => g.2.ctx).eraseDups.flatMap (fun c =>
    [(Instr.intervalClose p.1 c, evClose p.1 c), (.contextRollback p.1 c, evContextRollback p.1 c)])

/-- Events of a team. -/
def teamEvents (s : State) (t : Nat × Team) : List Candidate :=
  (if t.2.launches.isEmpty then [] else
    match s.partOf t.2 with
    | some n => [(Instr.launchRecordParse n (64 + t.1), evParse n (64 + t.1))]
    | none => []) ++
  [(Instr.teamRestore t.1, evRestore t.1), (.sliceExpiry t.1, evSlice t.1), (.preemption t.1, evPreempt t.1),
   (.deferralDeadline t.1, evDeferral t.1)]

/-- The command in the mailbox (R388). -/
def mailboxEvents : List Candidate :=
  [(Instr.create, evCreate), (.destroy, evDestroy), (.clearStartCounter, evClearStart), (.jobRollback, evJob),
   (.mailboxInstall, evInstall)]

/-- Events of the dispatchers and of management. -/
def deviceEvents (s : State) : List Candidate :=
  s.parts.flatMap (partEvents s) ++
  (s.grids.filter fun g => decide (g.2.st = .waiting)).map (fun g => (Instr.gridQueueEntry g.1, evQueue g.1)) ++
  s.teams.flatMap (teamEvents s) ++
  (if s.grids.isEmpty then [] else (Instr.teamPlacement, evPlace) ::
    (List.range 128).flatMap (fun k => [(Instr.reclaim k, evReclaim k), (.reclaimDeadline k, evReclaimDeadline k)])) ++
  (s.dies.filter fun d => !d.2.unreported.isEmpty).map (fun d => (Instr.dieMeterReport d.1, evMeter d.1)) ++
  (if s.device.mbBusy then mailboxEvents else []) ++
  s.device.fwPending.map (fun k => (Instr.installRuntimeLibrary k, evInstallLibrary k))

/-- Every event of the part that a turn of a core looks at, from a place that moves with the turns on. -/
def candidates (s : State) (core : Nat) : List Candidate :=
  let all := coreEvents s core ++ coherenceEvents s ++ deviceEvents s
  let n := s.turn / 2 % all.length
  all.drop n ++ all.take n

/-- The first event of a list that can take place now. -/
def firstEvent (s : State) (l : List Candidate) : Option Instr := (l.find? fun c => (c.2 s).isSome).map (·.1)

/-- The first event that can take place now. -/
def nextEvent (s : State) (core : Nat) : Option Instr := firstEvent s (candidates s core)

/-- A core's events have waited long enough for the report of their die: it comes before another turn and a half of the
core could pass the 65,536 cycles (R397). -/
def reportDue (s : State) (core : Nat) : Bool :=
  (find? (s.die (dieOf core)).meterSince core).any fun k => decide (k + 53248 ≤ (s.core core).clk.toNat)

/-- Results whose clock the spec fixes: a table read's and a slot read's (R374, R382). -/
def timedResults (core : Nat) (kw : Nat × Wave) : List Candidate :=
  (List.range kw.2.pend.length).filterMap fun k =>
    if (kw.2.pend[k]?).any (fun p => match p.src with
      | .table _ | .slot .. => true
      | _ => false) then some (Instr.variableResultWrite core kw.1 k, evResult core kw.1 k) else none

/-- What a commit instant does where it does not ask for tokens: the region commits, or held effects are released. -/
def commitsNow (core slot : Nat) (s : State) : Option State :=
  if (s.wave core slot).ckpt.isNone then releaseOldest s core slot else commitRegion s core slot

/-- What does not wait for its turn on a core: what comes at a clock that the spec fixes, of the results, the exchanges and the
engines (R134, R369 to R382); a committed store that holds its tokens performs (R294), a region that can commit does so at the
first clock (R296, R301), a team to be pre-empted goes when it holds no lock (R358, R360), and a die's report that is due is
made (R397). -/
def promptEvent (s : State) (core : Nat) : Option Instr :=
  let c := s.core core
  firstEvent s ((if reportDue s core then [(Instr.dieMeterReport (dieOf core), evMeter (dieOf core))] else []) ++
    (s.teams.filter fun t => decide (t.2.core = some core) && decide (t.2.lkcnt = 0) && !t.2.saving &&
      (t.2.due.isSome || reclaimed s t.2)).map
      (fun t => (Instr.preemption t.1, evPreempt t.1)) ++
    c.waves.flatMap (timedResults core) ++
    (List.range 4).map (fun q => (Instr.atswExchange core q, evAtsw core q)) ++
    (if c.mmas.isEmpty && c.mmaWait.isEmpty && c.copies.isEmpty then [] else engineEvents s core) ++
    c.waves.flatMap fun w => [(Instr.committedStorePerform core w.1, evStore core w.1),
      (Instr.commitInstant core w.1, commitsNow core w.1)])

/-- The clocks at which something of a core is due that the spec fixes (R370 to R375, R382). -/
def dueClocks (c : Core) : List Nat :=
  (c.waves.flatMap fun w => w.2.pend.flatMap fun p => match p.src with
    | .table _ => [p.at_ + 18]
    | .slot .. => [p.at_ + 20]
    | _ => []) ++
  (c.mmas.flatMap fun m => [m.acceptAt + (mmaBlockLen m.fmt + 3) / 4, fetchEnd c m, computeEnd m]) ++
  (c.copies.filterMap fun x => if x.active then some (c.copyAt + (x.left + 255) / 256) else none) ++ c.wake.toList ++
  (List.range 4).flatMap fun q => [(c.quarter q).bankFree, (c.quarter q).clearEnd]

/-! ### The step -/

/-- What happens next. -/
inductive Turn
  /-- A step with no more to it. -/
  | run (i : Instr) (s : State)
  /-- The issue of an instruction, with the group's partition. -/
  | issue (i : Instr) (s : State) (part : Option Nat)
  /-- A state change with no instruction. -/
  | done (s : State)

/-- The core whose turn it is. -/
def turnCore (s : State) : Nat := s.turn / 4096 % Config.cores

/-- One turn has gone by, and with it a cycle of the management core and of the dispatcher of the turn's die, which notes
since when a core's events wait for their report (R6, R397); units' writes that waited try again (R209). -/
def tick (s : State) : State :=
  let s := retryUnits s
  let core := turnCore s
  let d := s.die (dieOf core)
  let runs := s.teams.any fun t => t.2.core == some core && t.2.grid.isSome
  let since := if (d.unreported.isEmpty && !runs) || (find? d.meterSince core).isSome then d.meterSince
    else put d.meterSince core (s.core core).clk.toNat
  { s.setDie (dieOf core) { d with clk := d.clk + 1, meterSince := since } with
    turn := s.turn + 1, device := { s.device with clk := s.device.clk + 1 } }

/-- A core with nothing to do gives up its turn, its clock run on (R28); where something is due before, the clock stops there
and the turn stays. -/
def idle (s : State) (core : Nat) : State :=
  let c := s.core core
  let clk := c.clk.toNat
  let next := ((dueClocks c).filter fun t => decide (clk < t)).foldl min (clk + 4096)
  if next < clk + 4096 then s.setCore core { c with clk := BitVec.ofNat 64 next }
  else { s.setCore core { c with clk := c.clk + 4096 } with turn := (s.turn / 4096 + 1) * 4096 }

/-- The state in which a selected group issues: its fetch's TLB entries, its threads no longer demoted (R150, R276), and no
value of an earlier access in question any more (R403). -/
def issueState (s : State) (cur : Cursor) : State :=
  let s := fetchFill (s.setCw { s.cw with sent := none }) cur.core cur.slot cur.pc.toNat
  undemote (if twoWord (opcodeOf cur.w0.toNat) then fetchFill s cur.core cur.slot (cur.pc.toNat + 4) else s)

/-- The turn of a core in which an event may take place: where no group can be selected, a cycle of the core goes by, so that
the deadlines that it counts come however many events there are (R6, R417, log 3). -/
def passCycle (s : State) (core : Nat) : State :=
  if (nextSelection s core).isSome then s
  else
    let c := s.core core
    s.setCore core { c with clk := c.clk + 1 }

/-- What a selected group does, from the state in which its selection has been made. -/
def groupTurn (s : State) (cur : Cursor) : Turn :=
  match pick s cur with
  | .entry => .run .clauseEntry (undemote (fetchFill s cur.core cur.slot cur.hdr.toNat))
  | .hold h => .done (holdBack h s)
  | .trap t fetched => .done (raiseTrapWith t fetched [] s)
  | .miss va => .done (pageMiss va 2 false s)
  | .issue i => .issue i (issueState s cur) (s.partOf s.ct)

/-- The turn of a core that a selection gives (R150). -/
def selectionTurn (s : State) (core : Nat) : Option Turn :=
  match nextSelection s core with
  | none => none
  | some (t, slot, m) =>
    let cur := groupCursor s core slot m
    let entry := (lanesOf m).any fun l => ((s.wave core slot).thread l).owes != .nothing
    some (groupTurn (takeSelection s core slot t (if entry then 1 else portClocks cur) cur) cur)

/-- What happens next: an input first; else what does not wait; else, in turns, an issue or an event of the turn's core (log
3). An input that is an instruction of a program is none of the outside world's doings, and is dropped. -/
def nextTurn (s : State) : Turn :=
  match s.inputs with
  | i :: r => if i.isEvent then .run i { s with inputs := r } else .done { s with inputs := r }
  | [] =>
    let core := turnCore s
    let t := tick s
    match promptEvent t core with
    | some i => .run i t
    | none =>
    if s.turn % 2 = 0 then
      match selectionTurn t core with
      | some x => x
      | none => match nextEvent (passCycle t core) core with
        | some i => .run i (passCycle t core)
        | none => .done (idle t core)
    else
      match nextEvent (passCycle t core) core with
      | some i => .run i (passCycle t core)
      | none => match selectionTurn t core with
        | some x => x
        | none => .done (idle t core)

end Sys2Proof.Machine
end

