-- ==== Sys2Proof/Machine/Step.lean ====
section
/-!
DEFINITION. One step of the part, and the state in which the next step issues a given instruction.
-/
namespace Sys2Proof.Machine

/-- An issue's outcome with what the issue counts. -/
def afterIssue (i : Instr) (part : Option Nat) : Host.Outcome State Fault Refusal → Host.Outcome State Fault Refusal
  | .next s => .next (countIssue i part s)
  | o => o

/-- One step: what happens next, done (R150, R417, log 3). -/
def step (s : State) : Host.Outcome State Fault Refusal :=
  match nextTurn s with
  | .run i t => exec i t
  | .issue i t part => afterIssue i part (exec i t)
  | .done t => .next t

/-- The state with a clause of one instruction in core 0's firmware region and the wave of its slot 0 at that instruction,
with nothing owed: the next step issues it. It stands for the loading of firmware before a start (R414 step 1, log 31). -/
def State.withFetchWord (s : State) (nbits w : Nat) : State :=
  let v := w % 2 ^ nbits
  let base := BitVec.ofNat 64 Config.fwBase
  let s := writePA s Config.fwBase 4 mixHeaderWord
  let s := writePA s (Config.fwBase + 4) 8 v
  let c := s.core 0
  let x := look (fwWave 0) c.waves 0
  let x := { x with
    threads := [], base := { x.base with live := true, pc := base + 4, hdr := base, owes := .nothing, hold := .none, wait := [],
                                         trapHeld := false }
    pend := [], ckpt := none, trapReq := none }
  let s := s.setCore 0 { c with strict := true, waves := [(0, x)], fw := del (del c.fw 4) 5 }
  { s with inputs := [], turn := 0, device := { s.device with failed := false } }

end Sys2Proof.Machine
end

