-- ==== Sys2Proof/Safety.lean ====
section
/-!
DEFINITION. What counts as a safe state and a safe step, and the terms in which claims about one step are stated: what an
instruction writes, what it leaves, and where its threads stand.
-/
namespace Sys2Proof.Machine

/-! ### Safe states and steps -/

/-- Memory is in its canonical form. -/
def MemSafe (s : State) : Prop := Memory.wf s.mem = true

/-- A step that ends in a next state with memory in its canonical form. -/
def SafeStep (s : State) : Prop := ∃ t, step s = .next t ∧ MemSafe t

/-! ### Frames -/

/-- Every byte of memory reads as before. -/
def SameBytes (s t : State) : Prop := ∀ k, readByte t k = readByte s k

/-- Every byte outside some keys reads as before. -/
def SameBytesBut (keys : List Nat) (s t : State) : Prop := ∀ k, k ∉ keys → readByte t k = readByte s k

/-- Nothing of the machine but the running wave differs, and no byte of memory. -/
def OnlyWave (s t : State) : Prop := t = s.setCw t.cw ∧ SameBytes s t

/-- Every register, uniform register and predicate of the wave reads as before. -/
def SameRegs (s t : State) : Prop :=
  (∀ r l, t.cw.reg r l = s.cw.reg r l) ∧ (∀ r, t.cw.uni r = s.cw.uni r) ∧
  ∀ p l, t.cw.pred l p = s.cw.pred l p

/-- The byte that some store-buffer entries, in order, store last at a virtual address (R176, R225, R294). -/
def storedByte (es : List SbEntry) (va : Nat) : Option Nat :=
  (es.flatMap (·.lanes)).foldl (fun b x =>
    if x.acc.va ≤ va ∧ va < x.acc.va + x.acc.keys.length then some (x.data / 256 ^ (va - x.acc.va) % 256) else b) none

/-- What n bytes at a virtual address on read as once some entries have performed, where they store to each of them. -/
def storedVal (es : List SbEntry) (va n : Nat) : Option Nat :=
  (List.range n).foldr (fun i v => match v, storedByte es (va + i) with
    | some x, some b => some (b + 256 * x)
    | _, _ => none) (some 0)

/-- Entries of the store buffer that are the stores of a trap frame of `n` bytes at an address, by the group `m` (R225): they
store to the frame's bytes, all of them, and to no other. -/
def FrameStores (es : List SbEntry) (m : Mask) (at_ n : Nat) : Prop :=
  (∀ e ∈ es, e.op = .frame ∧ e.mask = m ∧ e.spec = false) ∧
  ∀ a, (storedByte es a).isSome = true ↔ at_ ≤ a ∧ a < at_ + n

/-! ### Registers -/

/-- An integer wrapped to n bits, as a number (Wrap of R44). -/
def wrapN (n : Nat) (x : Int) : Nat := (x % 2 ^ n).toNat

/-- Bits of a number as a word: bit i of `f` for each i. -/
def bitSum (n : Nat) (f : Nat → Nat) : Nat := ((List.range n).map fun i => f i * 2 ^ i).sum

/-- The lanes of Active. -/
def activeLanes (s : State) (l : Nat) : Bool := s.lanes.contains l

/-- A register, by its number in `Wave.bad`, is one of n from d on, in a lane of `on`, or, in a UNI clause, a uniform one. -/
def IsWritten (s : State) (on : Nat → Bool) (n d k : Nat) : Prop :=
  ∃ r, d ≤ r ∧ r < d + n ∧
    if s.cur.uni = true then k = 8192 + r else ∃ l, l < 64 ∧ on l = true ∧ k = r * 64 + l

/-- `Wr` (R42): n registers from d on take the value v, low word first, in every lane of Active; in a UNI clause the
uniform registers take the value of the lowest lane; an error that one of them held is gone (R401). Every other register
reads as before. -/
def RegsAfter (s t : State) (n d : Nat) (v : Nat → Nat) : Prop :=
  (∀ k, k ∈ t.cw.bad ↔ k ∈ s.cw.bad ∧ ¬ IsWritten s (activeLanes s) n d k) ∧
  (∀ r l, l < 64 → t.cw.reg r l =
    if s.cur.uni = false ∧ l ∈ s.lanes ∧ d ≤ r ∧ r < d + n then BitVec.ofNat 32 (v l / 2 ^ (32 * (r - d)))
    else s.cw.reg r l) ∧
  ∀ r, t.cw.uni r =
    if s.cur.uni = true ∧ d ≤ r ∧ r < d + n then BitVec.ofNat 32 (v s.lowLane / 2 ^ (32 * (r - d))) else s.cw.uni r

/-- The flags that a thread of the group gets: those of its own lane, in a UNI clause those of the one result (R31). -/
def flagsOf (s : State) (fl : Nat → Flags) (l : Nat) : Flags := if s.cur.uni then fl s.lowLane else fl l

/-- A thread of the group after an instruction that falls through: at the next PC, nothing else of it changed but the
flags it gained and what it owes and waits for (R31, R61, R70). -/
def WentOn (s : State) (a b : Thread) (f : Flags) : Prop :=
  b.pc = s.cur.npc ∧
  b = { a with pc := b.pc, hdr := b.hdr, owes := b.owes, hold := b.hold, wait := b.wait, fpst := a.fpst ||| f }

/-- The threads of the group went on; every other thread of the wave is unchanged. -/
def ThreadsAfter (s t : State) (fl : Nat → Flags) : Prop :=
  ∀ l, if l ∈ s.lanes then WentOn s (s.cw.thread l) (t.cw.thread l) (flagsOf s fl l)
    else t.cw.thread l = s.cw.thread l

/-! ### Shapes of instructions -/

/-- A fixed-latency instruction (R69, R112): it completes; n registers from d on take v; the threads go on with the flags
fl; nothing else changes. -/
def Computes (i : Instr) (s : State) (n d : Nat) (v : Nat → Nat) (fl : Nat → Flags) : Prop :=
  ∃ t, exec i s = .next t ∧ RegsAfter s t n d v ∧ ThreadsAfter s t fl ∧ OnlyWave s t ∧
    t.cw = { s.cw with regs := t.cw.regs, unif := t.cw.unif, bad := t.cw.bad, threads := t.cw.threads }

/-- No flags. -/
def noFlags (_ : Nat) : Flags := 0

/-- A compare (R123): it completes; predicate pd becomes `b l` in each lane of Active; the threads go on with the flags
fl; nothing else changes. -/
def Decides (i : Instr) (s : State) (pd : Fin 24) (b : Nat → Bool) (fl : Nat → Flags) : Prop :=
  ∃ t, exec i s = .next t ∧
    (∀ l p, p < 24 → t.cw.pred l p = if l ∈ s.lanes ∧ p = pd.val then b l else s.cw.pred l p) ∧
    (∀ l, if l ∈ s.lanes then
        WentOn s (s.cw.thread l) (t.cw.thread l) (if s.cur.uni then (s.lanes.map fl).foldl (· ||| ·) 0 else fl l)
      else t.cw.thread l = s.cw.thread l) ∧
    OnlyWave s t ∧ t.cw = { s.cw with preds := t.cw.preds, threads := t.cw.threads }

/-- What a list of writes does to any wave: n registers from d on take v in the lanes `on` of it, or as uniform
registers, and threads gain the flags fl; nothing else changes. -/
def Delivers (s : State) (on : Nat → Bool) (ws : List Write) (n d : Nat) (v : Nat → Nat) (fl : Nat → Flags) : Prop :=
  ∀ w, (∀ r l, l < 64 → (Wave.writes ws w).reg r l =
      if s.cur.uni = false ∧ on l = true ∧ d ≤ r ∧ r < d + n then BitVec.ofNat 32 (v l / 2 ^ (32 * (r - d)))
      else w.reg r l) ∧
    (∀ r, (Wave.writes ws w).uni r =
      if s.cur.uni = true ∧ d ≤ r ∧ r < d + n then BitVec.ofNat 32 (v s.lowLane / 2 ^ (32 * (r - d))) else w.uni r) ∧
    (∀ l, (Wave.writes ws w).thread l =
      if l ∈ s.lanes then { w.thread l with fpst := (w.thread l).fpst ||| flagsOf s fl l } else w.thread l) ∧
    (∀ k, k ∈ (Wave.writes ws w).bad ↔ k ∈ w.bad ∧ ¬ IsWritten s on n d k) ∧
    Wave.writes ws w =
      { w with regs := (Wave.writes ws w).regs, unif := (Wave.writes ws w).unif, bad := (Wave.writes ws w).bad,
               threads := (Wave.writes ws w).threads }

/-- The record of a result that the running group awaits under the number `id` (R69); `u` says that it comes from an
uncached page (R282). -/
def newPend (s : State) (u : Bool) (id d n : Nat) (src : Source) : Pend :=
  { id := id, pc := s.cur.pc, hdr := s.cur.hdr, mask := s.cur.active, d := d, n := n, src := src
    spec := s.cw.ckpt.isSome, unc := u, at_ := s.cc.clk.toNat }

/-- A result outstanding (R69): the group's threads go on, one more result of the wave is pending, for the registers and
lanes given, and nothing else changes; the number it has is new. -/
def Outstanding (s t : State) (u : Bool) (d n : Nat) (src : Source) : Prop :=
  t.cw.pend = s.cw.pend ++ [newPend s u s.fresh d n src] ∧
  t.fresh = s.fresh + 1 ∧ ThreadsAfter s t noFlags ∧ SameBytes s t ∧
  t = { s.setCw t.cw with fresh := s.fresh + 1 } ∧ t.cw = { s.cw with pend := t.cw.pend, threads := t.cw.threads }

/-- A variable-latency instruction whose values are those at its issue: it completes with a result outstanding, whose
writing gives n registers from d on the value v in the lanes `on`, with the flags fl (R69). -/
def Defers (i : Instr) (s : State) (on : Nat → Bool) (n d : Nat) (v : Nat → Nat) (fl : Nat → Flags) : Prop :=
  ∃ t ws, exec i s = .next t ∧ Outstanding s t false d n (.value ws) ∧ Delivers s on ws n d v fl

/-- The group is held at its PC: each of its threads has the hold given and is otherwise unchanged, as is the rest of the
machine. -/
def Holds (i : Instr) (s : State) (h : Hold) : Prop :=
  exec i s = .next (holdGroup h s)

/-- An instruction with nothing but its own progress: the threads go on, their backward-branch counts at 0 where `back`,
and nothing else changes. -/
def GoesOn (s t : State) (back : Bool) : Prop :=
  ∀ l, if l ∈ s.lanes then
      let a := s.cw.thread l
      let b := t.cw.thread l
      b.pc = s.cur.npc ∧
      b = { a with pc := b.pc, hdr := b.hdr, owes := b.owes, hold := b.hold, wait := b.wait, back := if back then 0 else a.back }
    else t.cw.thread l = s.cw.thread l

/-! ### Accesses, buffered effects and transfers -/

/-- The state in which an access issues: the TLB entries of its pages, and a checkpoint opened where one is due (R276,
R291, R302); `u` says that it goes to an uncached page, for which none opens (R300). -/
def issuing (acc : List Access) (u : Bool) (s : State) : State := openForAccess u (fillTlb acc s)

/-- Nothing older holds an access back (R197, R282, R298, R302): no load of an uncached page has still to perform, and in
cautious mode, or for an access to an uncached page (`u`), nothing older has. -/
def MayIssue (s : State) (u : Bool) : Prop :=
  s.cw.uncLoad = false ∧ (u = true ∨ s.cw.careful = true → s.cw.quiet = true ∧ s.cw.effects = [])

/-- The store-buffer entry of the running group's instruction with some lanes' data (R294). -/
def newEntry (s : State) (op : SbOp) (lanes : List SbLane) : SbEntry :=
  { id := s.fresh, pc := s.cur.pc, hdr := s.cur.hdr, mask := s.cur.active, op := op, lanes := lanes,
    spec := s.cw.ckpt.isSome }

/-- An entry taken in the store buffer, with the results that wait for it: the group goes on, no byte of memory changes,
and nothing else does (R177, R294). -/
def Buffered (s t : State) (e : SbEntry) (ps : List Pend) : Prop :=
  t.cw.sbuf = s.cw.sbuf ++ [e] ∧ t.cw.pend = s.cw.pend ++ ps ∧ GoesOn s t true ∧ SameBytes s t ∧
  t = { s.setCw t.cw with fresh := s.fresh + 1 } ∧
  t.cw = { s.cw with sbuf := t.cw.sbuf, pend := t.cw.pend, threads := t.cw.threads }

/-- An instruction whose accesses take an entry `e` of the store buffer that has room, with the results `ps` that wait for it
(R177, R282, R290, R294, R295). `s1` is the state as it issues. The core asks for the tokens it lacks, and the group goes on;
with nothing older and nothing in its way the entry performs at once. One for uncached pages (`u`) performs at its issue, the
tokens of its other lanes held. -/
def TakesEntry (i : Instr) (s s1 : State) (u : Bool) (e : SbEntry) (ps : List Pend) : Prop :=
  let core := s.cur.core
  let slot := s.cur.slot
  let need := tokenKeys s1 core slot e.accesses
  let held : Prop := missingKey s1.cc true need = none
  let clear : Prop := entryBlock s1 core slot e = none
  let now : Prop := e.spec = false ∧ s.cw.sbuf = [] ∧ s.cw.effects = [] ∧ held ∧ clear
  bufferRoom s1.cw e = true →
  (u = false → ∃ t, Buffered (requestTokens s1 core slot true need) t e ps ∧
    (now → exec i s = .next (performEntry t core slot e)) ∧ (¬ now → exec i s = .next t)) ∧
  (u = true → held → clear → ∃ t, Buffered s1 t e ps ∧
    exec i s = .next (let x := performUncached t core slot e
      x.setCw { x.cw with sent := some s.cur }))

/-- Buffered effects held for their release: the group goes on, and nothing else changes (R301). Each effect draws `n`
numbers, of which it holds the last. -/
def HoldsEffects (s t : State) (es : List Effect) (n : Nat) (back : Bool) : Prop :=
  t.cw.effects = s.cw.effects ++ es.mapIdx (fun i e =>
    { id := s.fresh + n * i + (n - 1), mask := s.cur.active, spec := s.cw.ckpt.isSome, eff := e }) ∧
  GoesOn s t back ∧ SameBytes s t ∧ t = { s.setCw t.cw with fresh := s.fresh + n * es.length } ∧
  t.cw = { s.cw with effects := t.cw.effects, threads := t.cw.threads }

/-- The backward-branch count of a thread after a transfer, before a demotion (R151). -/
def backAfter (a : Thread) (target : Option DWord) : Nat :=
  match target with
  | some x => if x.toNat ≤ a.pc.toNat then a.back + 1 else 0
  | none => a.back

/-- A control transfer (R61, R64, R142 to R146, R150, R151, R154): each thread of Active stands after the header it goes
to, or at the next PC; a group with a thread at 64 backward branches is demoted; %lr becomes `lr` where that gives a
value; in strict mode the rest of Run goes where Active goes, but threads parked at an `acq` (log 68); nothing else
changes. -/
def Transfers (s t : State) (target lr : Nat → Option DWord) : Prop :=
  let full : Prop := ∃ l ∈ s.lanes, 64 ≤ backAfter (s.cw.thread l) (target l)
  (∀ l ∈ s.lanes,
    let a := s.cw.thread l
    let b := t.cw.thread l
    (match target l with
      | some x => b.pc = x + 4 ∧ b.hdr = x ∧ b.owes = .entry
      | none => b.pc = s.cur.npc) ∧
    (full → b.back = 0 ∧ b.demoted = true) ∧ (¬ full → b.back = backAfter a (target l) ∧ b.demoted = a.demoted) ∧
    b = { a with pc := b.pc, hdr := b.hdr, owes := b.owes, hold := .none, wait := b.wait, back := b.back,
                 demoted := b.demoted, lr := (lr l).getD a.lr }) ∧
  (∀ l, l ∉ s.lanes → t.cw.thread l =
    match target s.lowLane with
    | some x => if s.strict = true ∧ (runMask s.cw).getLsbD l = true ∧ (s.cw.thread l).atAcq = false then
        { s.cw.thread l with pc := x + 4, hdr := x, owes := .entry } else s.cw.thread l
    | none => s.cw.thread l) ∧
  OnlyWave s t ∧ t.cw = { s.cw with threads := t.cw.threads }

end Sys2Proof.Machine
end

