-- ==== Sys2Proof/Certificates/Slice0/Obligations.lean ====
section
/-!
DEFINITION. The statements for the provers: encoding, the step, reset and memory, what each instruction computes, holds,
leaves and traps on, and what each event of the part does.
-/
section
open Sys2Proof Sys2Proof.Machine

/-! ### Encoding and decoding -/

/-- Decoding the words of a well-formed instruction gives that instruction (R59, R60, R72 to R77). -/
def Obligations.DecodeEncode : Prop :=
  ∀ i : Instr, i.WellFormed = true → i.isEvent = false → decodeList (encode i) = some i

/-- What decodes is well formed, and its words are the ones its encoding gives: every bit of the words is a field
(R59, R60, R72 to R78). -/
def Obligations.EncodeDecode : Prop :=
  ∀ (w w2 : Nat) (i : Instr), w < 2 ^ 32 → w2 < 2 ^ 32 → decodeWords true w w2 = .ok i →
    i.WellFormed = true ∧ encode i = if twoWord (opcodeOf w) then [w, w2] else [w]

/-- Words of the spec's own listings decode to the instructions beside them: `cmp.i32.lt p1, %lid, 3`, `?p1 bra` by six
words, `bra.u` by four, `movi v1, 100` and `exit` (the table under R153). -/
def Obligations.DecodeSamples : Prop :=
  decodeList [0x300AE0C3] = some (.cmpI32 false 1 .lt (.special .lid) (.pos 3)) ∧
  decodeList [0x48040006] = some (.bra false false (some (1, false)) 6) ∧
  decodeList [0x48FC0004] = some (.bra false true none 4) ∧
  decodeList [0x60020000, 0x64] = some (.movi false 1 false 100) ∧
  decodeList [0x4C000000] = some (.exit false)

/-! ### The step -/

/-- The step issues the instruction that the selected group's words decode to: where nothing comes before the turn (log 3), with
the group's fetches allowed, its clause's class known and its words an instruction of that class that nothing holds back, the
step is that instruction's meaning, at the cursor of the selection, with what the issue counts (R61, R63, R150). -/
def Obligations.StepIssuesDecoded : Prop :=
  ∀ (s : State) (t slot : Nat) (m : Mask) (cls : Cls) (i : Instr),
    let core := turnCore s
    let t0 := tick s
    let c := groupCursor t0 core slot m
    let s1 := takeSelection t0 core slot t (portClocks c) c
    s.inputs = [] → s.turn % 2 = 0 → promptEvent t0 core = none → nextSelection t0 core = some (t, slot, m) →
    ((lanesOf m).any fun l => ((t0.wave core slot).thread l).owes != .nothing) = false →
    ((lanesOf c.active).any fun l => ((s1.wave c.core c.slot).thread l).owes != .nothing) = false →
    fetchCheck s1 c.core c.slot c.pc.toNat = .ok →
    (twoWord (opcodeOf c.w0.toNat) = true → fetchCheck s1 c.core c.slot (c.pc.toNat + 4) = .ok) →
    clauseClass s1 c = some cls → decodeIn cls c.isLast c.w0.toNat c.w1.toNat = .ok i →
    pickIssue s1 c i = .issue i →
    step s = afterIssue i (s1.partOf s1.ct) (exec i (issueState s1 c))

/-- No step stops. -/
def Obligations.EveryStepAnswers : Prop := ∀ s : State, ∃ t, step s = .next t

/-! ### Reset and memory -/

/-- Core reset (R40): every core is in strict mode with one wave, in slot 0 of quarter 0, of 64 lanes, quota 128, its
threads at the first instruction of FWBASE's clause and owing its entry; FPST and the predicates read 0.
Memory at reset is in its canonical form and every byte reads 0 (DESIGN CHOICE for on-chip bytes, log 1). -/
def Obligations.ResetState : Prop :=
  (∀ core slot l : Nat, l < 64 →
     (State.reset.core core).strict = true ∧
     (State.reset.hasWave core slot = true ↔ slot = 0) ∧
     (State.reset.wave core 0).quota = 128 ∧ (State.reset.wave core 0).liveMask = BitVec.allOnes 64 ∧
     ((State.reset.wave core 0).thread l).live = true ∧
     ((State.reset.wave core 0).thread l).hdr = BitVec.ofNat 64 Config.fwBase ∧
     ((State.reset.wave core 0).thread l).pc = BitVec.ofNat 64 Config.fwBase + 4 ∧
     ((State.reset.wave core 0).thread l).owes = .entry ∧
     ((State.reset.wave core 0).thread l).fpst = 0 ∧ ((State.reset.wave core 0).thread l).lr = 0 ∧
     (∀ p, (State.reset.wave core 0).pred l p = false)) ∧
  (MemSafe State.reset ∧ ∀ k, readByte State.reset k = 0)

/-- Every step keeps memory in its canonical form, from every state that has it. -/
def Obligations.MemoryFormKept : Prop :=
  ∀ s t : State, MemSafe s → step s = .next t → MemSafe t

/-- Bytes written by a unit read back, and no other byte changes (R7): for keys without repeats. -/
def Obligations.ReadAfterWrite : Prop :=
  ∀ (s : State) (keys : List Nat) (v : Nat), keys.Nodup →
    readKeys (writeKeys s keys v) keys = v % 256 ^ keys.length ∧ SameBytesBut keys s (writeKeys s keys v)

/-! ### Integer, address, bit and move instructions (R116, R117, R127, R136 to R139) -/

/-- R116's instructions on 32 bits: each writes the table's result to D in each lane of Active, or once in a UNI clause.
R116's bitwise instructions, shifts and rotation. -/
def Obligations.IntegerResults : Prop :=
  (∀ (s : State) (sw : Bool) (d : BitVec 7) (a b : Opnd),
     let A (l : Nat) : Nat := (opnd s a l).toNat
     let B (l : Nat) : Nat := (opnd s b l).toNat
     let SA (l : Nat) : Int := (opnd s a l).toInt
     let SB (l : Nat) : Int := (opnd s b l).toInt
     let D (l : Nat) : Nat := destVal s false d l
     let clamp (x : Int) : Nat := wrapN 32 (max (-2 ^ 31) (min (2 ^ 31 - 1) x))
     let C (i : Instr) (v : Nat → Nat) : Prop := Computes i s 1 d.toNat v noFlags
     C (.add sw d a b false) (fun l => A l + B l) ∧ C (.add sw d a b true) (fun l => clamp (SA l + SB l)) ∧
     C (.sub sw d a b false) (fun l => wrapN 32 ((A l : Int) - B l)) ∧
     C (.sub sw d a b true) (fun l => clamp (SA l - SB l)) ∧
     C (.mulLo sw d a b) (fun l => A l * B l) ∧
     C (.mulHi sw d a b false) (fun l => wrapN 32 (SA l * SB l / 2 ^ 32)) ∧
     C (.mulHi sw d a b true) (fun l => A l * B l / 2 ^ 32) ∧
     C (.madLo sw d a b) (fun l => A l * B l + D l) ∧
     C (.min sw d a b false) (fun l => wrapN 32 (min (SA l) (SB l))) ∧ C (.min sw d a b true) (fun l => min (A l) (B l)) ∧
     C (.max sw d a b false) (fun l => wrapN 32 (max (SA l) (SB l))) ∧ C (.max sw d a b true) (fun l => max (A l) (B l)) ∧
     C (.absd sw d a b false) (fun l => (SA l - SB l).natAbs) ∧
     C (.absd sw d a b true) (fun l => ((A l : Int) - B l).natAbs)) ∧
  (∀ (s : State) (sw : Bool) (d : BitVec 7) (a b : Opnd),
     let A (l : Nat) : Nat := (opnd s a l).toNat
     let B (l : Nat) : Nat := (opnd s b l).toNat
     let C (i : Instr) (v : Nat → Nat) : Prop := Computes i s 1 d.toNat v noFlags
     C (.and sw d a b) (fun l => A l &&& B l) ∧ C (.or sw d a b) (fun l => A l ||| B l) ∧
     C (.xor sw d a b) (fun l => A l ^^^ B l) ∧ C (.andn sw d a b) (fun l => A l &&& (2 ^ 32 - 1 - B l)) ∧
     C (.shl sw d a b) (fun l => if B l < 32 then A l * 2 ^ B l else 0) ∧
     C (.shr sw d a b false) (fun l => if B l < 32 then A l / 2 ^ B l else 0) ∧
     C (.shr sw d a b true) (fun l => wrapN 32 ((opnd s a l).toInt / 2 ^ min (B l) 31)) ∧
     C (.rot sw d a b) (fun l => A l * 2 ^ (B l % 32) + A l / 2 ^ (32 - B l % 32)))

/-- R117's field instructions and R138's `lop3`, bit by bit.
R116's counts and reversal: `popc` adds the bits; `clz` and `ctz` count the zeros above the highest and below the lowest
1 bit, 32 for 0; bit i of `brev` is bit 31 − i. -/
def Obligations.BitResults : Prop :=
  (∀ (s : State) (sw : Bool) (d : BitVec 7) (a b c : Opnd) (f : BitVec 8),
     let A (l : Nat) : Nat := (opnd s a l).toNat
     let B (l : Nat) : Nat := (opnd s b l).toNat
     let D (l : Nat) : Nat := destVal s false d l
     let pos (l : Nat) : Nat := B l % 32
     let len (l : Nat) : Nat := min (B l / 256 % 64) (32 - pos l)
     let mk (l : Nat) : Nat := (2 ^ len l - 1) * 2 ^ pos l
     let fld (l : Nat) : Nat := A l / 2 ^ pos l % 2 ^ len l
     let bit (x i : Nat) : Nat := x / 2 ^ i % 2
     let byte (l n : Nat) : Nat := (if n % 8 < 4 then A l else D l) / 256 ^ (n % 4) % 256
     let y (l n : Nat) : Nat := if n < 8 then byte l n else if 128 ≤ byte l n then 255 else 0
     let C (i : Instr) (v : Nat → Nat) : Prop := Computes i s 1 d.toNat v noFlags
     C (.bfe sw d a b false) fld ∧
     C (.bfe sw d a b true) (fun l => if 0 < len l ∧ 2 ^ (len l - 1) ≤ fld l then wrapN 32 ((fld l : Int) - 2 ^ len l)
       else fld l) ∧
     C (.bfi sw d a b) (fun l => (D l &&& (2 ^ 32 - 1 - mk l)) ||| (A l * 2 ^ pos l % 2 ^ 32 &&& mk l)) ∧
     C (.perm sw d a b) (fun l => y l (B l % 16) + 2 ^ 8 * y l (B l / 16 % 16) + 2 ^ 16 * y l (B l / 256 % 16) +
       2 ^ 24 * y l (B l / 4096 % 16)) ∧
     C (.lop3 sw d a b c f) (fun l => bitSum 32 fun i =>
       bit f.toNat (bit (A l) i + 2 * bit (B l) i + 4 * bit (opnd s c l).toNat i))) ∧
  (∀ (s : State) (sw : Bool) (d : BitVec 7) (a : Opnd),
     let A (l : Nat) : Nat := (opnd s a l).toNat
     let bit (l i : Nat) : Nat := A l / 2 ^ i % 2
     let C (i : Instr) (v : Nat → Nat) : Prop := Computes i s 1 d.toNat v noFlags
     C (.popc sw d a) (fun l => ((List.range 32).map (bit l)).sum) ∧
     (∃ n : Nat → Nat, C (.clz sw d a) n ∧ ∀ l, (A l = 0 → n l = 32) ∧
       (A l ≠ 0 → n l < 32 ∧ bit l (31 - n l) = 1 ∧ A l < 2 ^ (32 - n l))) ∧
     (∃ n : Nat → Nat, C (.ctz sw d a) n ∧ ∀ l, (A l = 0 → n l = 32) ∧
       (A l ≠ 0 → n l < 32 ∧ bit l (n l) = 1 ∧ A l % 2 ^ n l = 0)) ∧
     C (.brev sw d a) (fun l => bitSum 32 fun i => bit l (31 - i)))

/-- R116's pair instructions and R139's `lea`: the result, of 64 bits, goes to the pair D.
The moves (R124, R127, R136, R137): bit for bit; `movp` only in lanes whose predicate XOR sense is 1; `movi` a
sign-extended constant; `addi` wrapping or clamped. -/
def Obligations.PairAndMoveResults : Prop :=
  (∀ (s : State) (sw : Bool) (d : BitVec 7) (a b : Opnd) (sh : Fin 5) (disp : BitVec 28),
     let A (l : Nat) : Nat := (opnd64 s a l).toNat
     let B (l : Nat) : Nat := (opnd64 s b l).toNat
     let n (l : Nat) : Nat := (opnd s b l).toNat
     let C (i : Instr) (v : Nat → Nat) : Prop := Computes i s 2 d.toNat v noFlags
     C (.addI64 sw d a b) (fun l => (A l + B l) % 2 ^ 64) ∧ C (.subI64 sw d a b) (fun l => wrapN 64 ((A l : Int) - B l)) ∧
     C (.mulWide sw d a b true) (fun l => (opnd s a l).toNat * (opnd s b l).toNat) ∧
     C (.mulWide sw d a b false) (fun l => wrapN 64 ((opnd s a l).toInt * (opnd s b l).toInt)) ∧
     C (.shlI64 sw d a b) (fun l => if n l < 64 then A l * 2 ^ n l % 2 ^ 64 else 0) ∧
     C (.shrI64 sw d a b false) (fun l => if n l < 64 then A l / 2 ^ n l else 0) ∧
     C (.shrI64 sw d a b true) (fun l => wrapN 64 ((opnd64 s a l).toInt / 2 ^ min (n l) 63)) ∧
     C (.lea sw d a b sh false disp) (fun l => wrapN 64 (A l + (n l : Int) * 2 ^ sh.val + disp.toInt)) ∧
     C (.lea sw d a b sh true disp) (fun l => wrapN 64 (A l + (opnd s b l).toInt * 2 ^ sh.val + disp.toInt))) ∧
  (∀ (s : State) (sw : Bool) (d : BitVec 7) (a : Opnd) (p : Fin 24) (sense wide : Bool) (imm : Word),
     let V (l : Nat) : Nat := if wide then (opnd64 s a l).toNat else (opnd s a l).toNat
     Computes (.mov sw d a wide) s (wideRegs wide) d.toNat V noFlags ∧
     Computes (.movp sw d a p sense wide) s (wideRegs wide) d.toNat
       (fun l => if s.cw.pred l p.val = sense then destVal s wide d l else V l) noFlags ∧
     Computes (.movi sw d wide imm) s (wideRegs wide) d.toNat (fun _ => wrapN 64 imm.toInt) noFlags ∧
     Computes (.addi sw d a false imm) s 1 d.toNat (fun l => (opnd s a l).toNat + imm.toNat) noFlags ∧
     Computes (.addi sw d a true imm) s 1 d.toNat
       (fun l => wrapN 32 (max (-2 ^ 31) (min (2 ^ 31 - 1) ((opnd s a l).toInt + imm.toInt)))) noFlags)

/-- Integer division by the default handler (R79, R118, R225): with no handler address, no trap or checkpoint in the
wave and no result of the group outstanding, `idiv` and `irem` write R118's results in each lane of Active, or once in a
UNI clause; the frame's stores at TFB, the results at their registers' places among them, stand in the store buffer, and the
group's threads go on, at the next PC, once those have performed. No byte of memory and nothing else changes. -/
def Obligations.DivisionResults : Prop :=
  ∀ (s : State) (sw : Bool) (d : BitVec 7) (a b : Opnd),
    let A (l : Nat) : Nat := (opnd s a l).toNat
    let B (l : Nat) : Nat := (opnd s b l).toNat
    let SA (l : Nat) : Int := (opnd s a l).toInt
    let SB (l : Nat) : Int := (opnd s b l).toInt
    let size := 0x340 + 256 * s.cw.quota
    let C (i : Instr) (v : Nat → Nat) : Prop := ∃ t es, exec i s = .next t ∧ RegsAfter s t 1 d.toNat v ∧
      (∀ l, if l ∈ s.lanes then (t.cw.thread l).pc = s.cur.npc ∧ (t.cw.thread l).hold = .frame
        else t.cw.thread l = s.cw.thread l) ∧
      t.cw.sbuf = s.cw.sbuf ++ es ∧ FrameStores es s.cur.active s.cw.tfb.toNat size ∧
      storedVal es (s.cw.tfb.toNat + 8) 8 = some s.cur.npc.toNat ∧
      (∀ l, l ∈ s.lanes → s.cur.uni = false → d.toNat < s.cw.quota →
        storedVal es (s.cw.tfb.toNat + 0x240 + 4 * (d.toNat * 64 + l)) 4 = some (v l % 2 ^ 32)) ∧
      (s.cur.uni = true → d.toNat < 64 → s.lanes ≠ [] →
        storedVal es (s.cw.tfb.toNat + 0x240 + 256 * s.cw.quota + 4 * d.toNat) 4 = some (v s.lowLane % 2 ^ 32)) ∧
      t.cw = { s.cw with regs := t.cw.regs, unif := t.cw.unif, bad := t.cw.bad, threads := t.cw.threads,
                         sbuf := t.cw.sbuf, pass := 0 } ∧
      SameBytes s t ∧ t = { s.setCw t.cw with fresh := t.fresh }
    s.cw.ckpt = none → s.cw.trapReq = none → s.cw.handler = none → s.cw.outstanding s.cur.active = false →
    thdlOf s s.cw = 0 →
    C (.idiv sw d a b false) (fun l => if B l = 0 then 2 ^ 32 - 1 else wrapN 32 (Int.tdiv (SA l) (SB l))) ∧
    C (.idiv sw d a b true) (fun l => if B l = 0 then 2 ^ 32 - 1 else A l / B l) ∧
    C (.irem sw d a b false) (fun l => if B l = 0 then A l else wrapN 32 (SA l - SB l * Int.tdiv (SA l) (SB l))) ∧
    C (.irem sw d a b true) (fun l => if B l = 0 then A l else A l % B l)

/-! ### Floating point and conversions (R119 to R122, R128, R140, R216) -/

/-- f32 and f64 arithmetic (R119, R140): each lane's result rounded in its own thread's mode, `ffma3` in its own, and the
flags kept in the threads.
Packed arithmetic (R83, R120): each half of D takes the operation of the same halves of A, B and, for `hfma`, D, and
the flags of both are kept; `hdot2` (R121) and the scale fold `mscl` (R216) on f32; `fabs` and `fneg` on bit 31 (R122).
Conversions (R92 to R96, R128) go to D in the registers of the to type, with their flags. -/
def Obligations.FloatResults : Prop :=
  (∀ (s : State) (sw wide : Bool) (d : BitVec 7) (a b c : Opnd) (rnd : RMode),
     let f := fmtOf wide
     let A (l : Nat) : Nat := opndF f s a l
     let B (l : Nat) : Nat := opndF f s b l
     let C (i : Instr) (r : Nat → Nat × Flags) : Prop :=
       Computes i s (wideRegs wide) d.toNat (fun l => (r l).1) (fun l => (r l).2)
     C (.fadd sw d a b wide) (fun l => fpAdd f (rmOf s l) (A l) (B l)) ∧
     C (.fsub sw d a b wide) (fun l => fpSub f (rmOf s l) (A l) (B l)) ∧
     C (.fmul sw d a b wide) (fun l => fpMul f (rmOf s l) (A l) (B l)) ∧
     C (.ffma sw d a b wide) (fun l => fpFma f (rmOf s l) (A l) (B l) (destVal s wide d l)) ∧
     C (.ffma3 sw d a b c wide rnd) (fun l => fpFma f rnd (A l) (B l) (opndF f s c l)) ∧
     C (.fmin sw d a b wide) (fun l => fpMinMax f false (A l) (B l)) ∧
     C (.fmax sw d a b wide) (fun l => fpMinMax f true (A l) (B l))) ∧
  (∀ (s : State) (sw bf : Bool) (d : BitVec 7) (a b c : Opnd) (br bc : BitVec 2),
     let f := packedFmt bf
     let A (l : Nat) : Nat := opndF f s a l
     let B (l : Nat) : Nat := opndF f s b l
     let D (l : Nat) : Nat := destVal s false d l
     let half (x i : Nat) : Nat := x / 65536 ^ i % 65536
     let C (i : Instr) (r : Nat → Nat × Flags) : Prop := Computes i s 1 d.toNat (fun l => (r l).1) (fun l => (r l).2)
     let P (i : Instr) (op : RMode → Nat → Nat → Nat → Nat × Flags) : Prop :=
       C i (fun l =>
         let e (k : Nat) : Nat × Flags := op (rmOf s l) (half (A l) k) (half (B l) k) (half (D l) k)
         ((e 0).1 % 65536 + 65536 * ((e 1).1 % 65536), (e 0).2 ||| (e 1).2))
     P (.hadd sw d a b bf) (fun m x y _ => fpAdd f m x y) ∧ P (.hsub sw d a b bf) (fun m x y _ => fpSub f m x y) ∧
     P (.hmul sw d a b bf) (fun m x y _ => fpMul f m x y) ∧ P (.hfma sw d a b bf) (fun m x y z => fpFma f m x y z) ∧
     P (.hmin sw d a b bf) (fun _ x y _ => fpMinMax f false x y) ∧ P (.hmax sw d a b bf) (fun _ x y _ => fpMinMax f true x y) ∧
     C (.hdot2 sw d a b bf) (fun l => fpDot2 f (rmOf s l) (A l) (B l) (D l)) ∧
     C (.mscl sw d a b c br bc) (fun l => fpScaleFold (rmOf s l) (D l) (opnd s a l).toNat
       ((opnd s b l).toNat / 256 ^ br.toNat % 256) ((opnd s c l).toNat / 256 ^ bc.toNat % 256)) ∧
     Computes (.fabs sw d a) s 1 d.toNat (fun l => (opnd s a l).toNat % 2 ^ 31) noFlags ∧
     Computes (.fneg sw d a) s 1 d.toNat (fun l => ((opnd s a l).toNat + 2 ^ 31) % 2 ^ 32) noFlags) ∧
  (∀ (s : State) (sw sat : Bool) (d : BitVec 7) (a : Opnd) (src dst : NumTy) (rnd : RMode),
     Computes (.cvt sw d a src dst rnd sat) s (numRegs dst) d.toNat
       (fun l => (cvtBits src dst rnd sat (cvtSource s src a l)).1)
       (fun l => (cvtBits src dst rnd sat (cvtSource s src a l)).2))

/-! ### Variable latency and cross-lane results (R69, R161 to R168) -/

/-- Division, root and `sfu` (R119, R130), the shuffles (R162, R163), the reduction and the scan (R107, R108, R165) and the
ballot (R166) leave a result outstanding for the group, whose writing delivers their values: lanes outside Active supply
none and receive none. That FPST stays as it is until then, and the flags come with the values, is the model's reading (DEDUCED,
log 9). -/
def Obligations.DeferredResults : Prop :=
  ∀ (s : State) (sw wide excl : Bool) (d : BitVec 7) (e : BitVec 6) (a b c : Opnd) (k : BitVec 6) (mode : XlMode)
    (sf : SfuFn) (fn : RedFn) (pa : PSrc),
    let f := fmtOf wide
    let on := activeLanes s
    let src (o : Option Nat) (l : Nat) : Nat := match o with
      | some m => if m ∈ s.lanes then (opnd s a m).toNat else (opnd s c l).toNat
      | none => (opnd s c l).toNat
    let red := redTree fn 6 (redLeaves s a fn) 0
    let scan := scanTree fn 6 1 (redLeaves s a fn) 0
    Defers (.fdiv sw d a b wide) s on (wideRegs wide) d.toNat
      (fun l => (fpDiv f (rmOf s l) (opndF f s a l) (opndF f s b l)).1)
      (fun l => (fpDiv f (rmOf s l) (opndF f s a l) (opndF f s b l)).2) ∧
    Defers (.fsqrt sw d a wide) s on (wideRegs wide) d.toNat
      (fun l => (fpSqrt f (rmOf s l) (opndF f s a l)).1) (fun l => (fpSqrt f (rmOf s l) (opndF f s a l)).2) ∧
    Defers (.sfu sw d a sf) s on 1 d.toNat
      (fun l => (sfuResult sf (opnd s a l)).1.toNat) (fun l => (sfuResult sf (opnd s a l)).2) ∧
    Defers (.shfl sw d a k mode) s on 1 d.toNat
      (fun l => match xlLane mode k l with
        | some m => if m ∈ s.lanes then (opnd s a m).toNat else (opnd s a l).toNat
        | none => (opnd s a l).toNat) noFlags ∧
    Defers (.shflx sw d a b c) s on 1 d.toNat (fun l => src (some (opnd s b l).toNat) l) noFlags ∧
    Defers (.red sw d a fn) s on 1 d.toNat (fun _ => red.1.toNat) (fun _ => red.2) ∧
    Defers (.scan sw d a fn excl) s on 1 d.toNat
      (fun l => (if excl then (if l = 0 then fn.identity else scan.1.getD (l - 1) 0) else scan.1.getD l 0).toNat)
      (fun _ => scan.2) ∧
    Defers (.voteBallot sw e pa) s on 2 (2 * e.toNat)
      (fun _ => ((s.lanes.filter fun l => psrcVal s.cw pa l).map (2 ^ ·)).sum) noFlags

/-- `push` (R164), outside a UNI clause, which holds none (R65): a lane of Active that a lane of Active names takes the value
of the highest such lane; every other lane keeps D.
`dxq` (R97 to R100, R129): each half with a lane of Active is packed to, or unpacked from, one block held four bytes a
lane; the result is outstanding, its flags with it (DEDUCED, log 9).
The votes (R166): the predicate is written, once the outstanding result is, in every lane of Active. -/
def Obligations.CrossLaneResults : Prop :=
  (∀ (s : State) (sw : Bool) (d : BitVec 7) (a : Opnd) (k : BitVec 6) (mode : XlMode), s.cur.uni = false →
     ∃ t ws, exec (.push sw d a k mode) s = .next t ∧ Outstanding s t false d.toNat 1 (.value ws) ∧
       ∀ w r l, l < 64 → (Wave.writes ws w).reg r l =
         (match (s.lanes.filter fun m => xlLane mode k m = some l).getLast? with
           | some m => if l ∈ s.lanes ∧ r = d.toNat then opnd s a m else w.reg r l
           | none => w.reg r l)) ∧
  (∀ (s : State) (sw : Bool) (d : BitVec 7) (a : Opnd) (fmt : DxFmt), s.cur.uni = false →
     let act (l : Nat) : Bool := s.lanes.contains l
     let half (l : Nat) : Nat := l / 32
     let pack (h : Nat) : Nat × Flags :=
       dxPack fmt ((List.range 32).map fun i => if act (32 * h + i) then (opnd s a (32 * h + i)).toNat else 0)
     let block (h : Nat) : Nat := ((List.range fmt.words).map fun j => (opnd s a (32 * h + j)).toNat * 2 ^ (32 * j)).sum
     Defers (.dxq sw d a fmt) s act 1 d.toNat (fun l => (pack (half l)).1 / 2 ^ (32 * (l % 32)) % 2 ^ 32)
       (fun l => (pack (half l)).2) ∧
     Defers (.dxqUnpack sw d a fmt) s act 1 d.toNat (fun l => dxElemF32 fmt (block (half l)) (l % 32)) noFlags) ∧
  (∀ (s : State) (sw : Bool) (pa : PSrc) (pd : Fin 24) (mode : VoteMode),
     let a (l : Nat) : Bool := psrcVal s.cw pa l
     ∃ t ws, exec (.vote sw mode pa pd) s = .next t ∧ Outstanding s t false 0 0 (.value ws) ∧
       ∀ w l p, p < 24 → (Wave.writes ws w).pred l p =
         if l ∈ s.lanes ∧ p = pd.val then
           (match mode with
             | .all => decide (∀ m ∈ s.lanes, a m = true)
             | .any => decide (∃ m ∈ s.lanes, a m = true)
             | .eq => decide ((∀ m ∈ s.lanes, a m = true) ∨ ∀ m ∈ s.lanes, a m = false))
         else w.pred l p)

/-- A result that waits for nothing is written (R69), a table's 18 clocks after its issue or later (R382): the event delivers
its writes to the wave, and to the checkpoint's image where the result is older than the region (DEDUCED, log 63), its flags
among them (DEDUCED, log 9), but none to the lane registers, predicates and flags of a thread that has exited (R12) or to rows
given up since its issue (R159); the result is no longer outstanding, and nothing else changes.
A load that may perform reads each lane's bytes and writes that lane's D (R176): bytes and half words extended, longer
values to as many registers as they fill, low word first; a thread that has exited takes nothing (R12). No other register and
no byte changes, the result is no longer outstanding, and a read of an uncached page is metered at its home (R282). With no
store of the wave buffered, the bytes are those in memory.
A waiting load (R180, R341): its first read parks the lanes whose word equals the expected value and releases the others
with the word in D; the lanes that nothing watches, on an uncached page or before a full watch list, wait as a result of their
own that reads again every 1024 cycles; a parked one is read again when its home notifies, as each park of each core on the
place is, one after another; lanes whose word differs then go on with it; 65,536 cycles after its park began every lane goes on
with the word it reads. A thread that has exited takes nothing, and no byte of memory changes. -/
def Obligations.ResultsWritten : Prop :=
  (∀ (s : State) (core slot k : Nat) (p : Pend) (ws : List Write),
     let w := s.wave core slot
     let made := ws.filter fun x => match x with
       | .reg r l _ => decide (r < p.cap) && (w.thread l).live
       | .pred l _ _ | .flags l _ => (w.thread l).live
       | .unif .. => true
     let w' := Wave.writes made w
     let image (c : Checkpoint) : Checkpoint :=
       let x := Wave.writes made { w with regs := c.rows, unif := c.unif, preds := c.preds, threads := c.threads
                                          base := c.base, bad := c.bad }
       { c with rows := x.regs, unif := x.unif, preds := x.preds, threads := x.threads, bad := x.bad }
     w.pend[k]? = some p → (p.src = .value ws ∨ (p.src = .table ws ∧ p.at_ + 18 ≤ (s.core core).clk.toNat)) →
     ∃ t, exec (.variableResultWrite core slot k) s = .next t ∧ SameBytes s t ∧
       t = s.setWave core slot (t.wave core slot) ∧
       t.wave core slot = { w with
         regs := w'.regs, unif := w'.unif, bad := w'.bad, preds := w'.preds, threads := w'.threads
         pend := w.pend.filter fun x => decide (x.id ≠ p.id)
         ckpt := if p.spec then w.ckpt else w.ckpt.map image }) ∧
  (∀ (s : State) (core slot k : Nat) (p : Pend) (z : LdSize) (acc : List Access) (ms : List Mark),
     let w := s.wave core slot
     let s0 := if p.unc then uncachedTraffic s core slot false acc else s
     let v (x : Access) : Nat := readThrough s w p.id x.keys
     let word (n i : Nat) : Word := match z with
       | .s8 => BitVec.ofInt 32 (if n % 256 < 128 then (n % 256 : Int) else (n % 256 : Int) - 256)
       | .s16 => BitVec.ofInt 32 (if n % 65536 < 32768 then (n % 65536 : Int) else (n % 65536 : Int) - 65536)
       | _ => BitVec.ofNat 32 (n / 2 ^ (32 * i))
     let takes (l : Nat) : Prop := (w.thread l).live = true ∧ ∃ x ∈ acc, x.lane = l
     w.pend[k]? = some p → p.src = .load z acc → readState s0 core slot p acc = .ready ms →
     (acc.map (·.lane)).Nodup → (∀ x ∈ acc, x.lane < 64) →
     ∃ t, exec (.variableResultWrite core slot k) s = .next t ∧ SameBytes s t ∧
       (t.wave core slot).pend = w.pend.filter (fun x => decide (x.id ≠ p.id)) ∧
       (∀ x ∈ acc, (w.thread x.lane).live = true → ∀ i, i < z.regs → p.d + i < p.cap →
         (t.wave core slot).reg (p.d + i) x.lane = word (v x) i) ∧
       (∀ r l, l < 64 → (r < p.d ∨ p.d + z.regs ≤ r ∨ p.cap ≤ r ∨ ¬ takes l) → (t.wave core slot).reg r l = w.reg r l) ∧
       (∀ r, (t.wave core slot).uni r = w.uni r) ∧ (∀ l q, (t.wave core slot).pred l q = w.pred l q) ∧
       (t.wave core slot).threads = w.threads ∧ (t.core core).marks = (s.core core).marks ++ ms ∧
       t = s0.setCore core (t.core core) ∧ (w.sbuf = [] → ∀ x ∈ acc, v x = readKeys s x.keys)) ∧
  (∀ (s : State) (core slot k : Nat) (p : Pend) (wide : Bool) (acc acc' : List Access) (expect : List Nat)
     (start poll : Option Nat) (ms : List Mark),
     let w := s.wave core slot
     let clk := (s.core core).clk.toNat
     let s0 := if p.unc then uncachedTraffic s core slot false acc' else s
     let v (x : Access) : Nat := readThrough s w p.id x.keys
     let word (x : Nat) (i : Nat) : Word := BitVec.ofNat 32 (x / 2 ^ (32 * i))
     let pairs := acc'.zip expect
     let go := (pairs.filter fun x => v x.1 != x.2).map (·.1)
     let stay := pairs.filter fun x => v x.1 == x.2
     let takes (xs : List Access) (l : Nat) : Prop := (w.thread l).live = true ∧ ∃ x ∈ xs, x.lane = l
     let since := if start.isSome || w.ckpt.isSome then start else some clk
     let parts : List (Access × Nat) × List (Access × Nat) :=
       if poll.isSome then ([], stay) else if start.isSome || w.ckpt.isSome then (stay, [])
       else watchLanes s0 (onUncached s0 core slot) stay []
     let split : Bool := !parts.1.isEmpty && !parts.2.isEmpty
     let id' := if split then s0.fresh else p.id
     let given (t : State) (xs : List Access) (two : Bool) : Prop := SameBytes s t ∧
       (∀ x ∈ xs, (w.thread x.lane).live = true → ∀ i, i < wideRegs wide → p.d + i < p.cap →
         (t.wave core slot).reg (p.d + i) x.lane = word (v x) i) ∧
       (∀ r l, l < 64 → (r < p.d ∨ p.d + wideRegs wide ≤ r ∨ p.cap ≤ r ∨ ¬ takes xs l) →
         (t.wave core slot).reg r l = w.reg r l) ∧
       ∀ l, l < 64 →
         let a := w.thread l
         let goes : Bool := xs.any fun x => x.lane == l
         let moves : Bool := two && parts.2.any fun x => x.1.lane == l
         (t.wave core slot).thread l = { a with
           hold := if a.hold = .ldw p.id then (if goes then .none else if moves then .ldw id' else a.hold) else a.hold
           back := if goes && start.isSome then 0 else a.back
           wait := if two && a.wait.contains p.id then id' :: a.wait else a.wait }
     let part (n : Nat) (xs : List (Access × Nat)) (q : Option Nat) : List Pend := if xs = [] then []
       else [{ p with id := n, mask := accMask (xs.map (·.1)), src := .wait wide (xs.map (·.1)) (xs.map (·.2)) since q }]
     let reads (i : Instr) : Prop := ∃ t, exec i s = .next t ∧ given t go split ∧
       (t.wave core slot).pend = w.pend.flatMap fun x =>
         if x.id = p.id then part p.id parts.1 none ++ part id' parts.2 (some (clk + 1024)) else [x]
     w.pend[k]? = some p → p.src = .wait wide acc expect start poll → rereadKeys s core slot acc = .ok acc' →
     readState s0 core slot p acc' = .ready ms → (acc'.map (·.lane)).Nodup → (∀ x ∈ acc', x.lane < 64) →
     ((go ≠ [] ∨ (w.ckpt = none ∧ start = none) ∨ (start.isSome = true ∧ poll.isSome = true)) →
       (poll = none → reads (.variableResultWrite core slot k)) ∧
       (∀ b, poll = some b → b ≤ clk → reads (.ldwReread core slot k))) ∧
     (∀ b, start = some b → b + 65536 ≤ clk →
       ∃ t, exec (.ldwTimeout core slot k) s = .next t ∧ given t acc' false ∧
         (t.wave core slot).pend = w.pend.filter fun x => decide (x.id ≠ p.id))) ∧
  (∀ (s : State) (stay : List (Access × Nat)) (uncached : Access → Bool) (taken : List Nat),
     let r := watchLanes s uncached stay taken
     (∀ x, x ∈ stay ↔ x ∈ r.1 ∨ x ∈ r.2) ∧ (∀ x ∈ stay, uncached x.1 = true → x ∈ r.2) ∧
     ((∀ b, watchCount s b + (taken.filter (· == b)).length + stay.length ≤ 64) → (∀ x ∈ stay, uncached x.1 = false) →
       r = (stay, [])) ∧
     (∀ x ∈ stay, (∃ b ∈ x.1.banks s, 64 ≤ watchCount s b) → x ∈ r.2)) ∧
  (∀ (s : State) (place : Nat),
     let parks := s.cores.flatMap fun c => ((parksOn c.2 (onChip + place)).reverse).map fun x => (c.1, x.1, x.2)
     exec (.watchNotify place) s = .next (parks.foldl (fun t x => match exec (.variableResultWrite x.1 x.2.1 x.2.2) t with
       | .next t' => t'
       | _ => t) s))

/-! ### Compares and predicates (R123, R125, R126) -/

/-- Integer conditions (R123).
Floating-point compares (R123, R87). Without a NaN the condition compares the values, in
the order of their signs and magnitudes; a signalling NaN sets IV but in eq and ne. A NaN operand makes eq, lt, le, gt, ge and
ordered 0 and ne and unordered 1, in every lane that has one.
`plop` (R125): pd takes bit 4 × pa + 2 × pb + old pd of F in each lane of Active; 31 reads 1. -/
def Obligations.CompareResults : Prop :=
  (∀ (s : State) (sw : Bool) (pd : Fin 24) (a b : Opnd),
     let SA (l : Nat) : Int := (opnd s a l).toInt
     let SB (l : Nat) : Int := (opnd s b l).toInt
     let A (l : Nat) : Nat := (opnd s a l).toNat
     let B (l : Nat) : Nat := (opnd s b l).toNat
     let QA (l : Nat) : Int := (opnd64 s a l).toInt
     let QB (l : Nat) : Int := (opnd64 s b l).toInt
     let D (i : Instr) (v : Nat → Bool) : Prop := Decides i s pd v noFlags
     D (.cmpI32 sw pd .eq a b) (fun l => A l == B l) ∧ D (.cmpI32 sw pd .ne a b) (fun l => A l != B l) ∧
     D (.cmpI32 sw pd .lt a b) (fun l => decide (SA l < SB l)) ∧ D (.cmpI32 sw pd .le a b) (fun l => decide (SA l ≤ SB l)) ∧
     D (.cmpI32 sw pd .gt a b) (fun l => decide (SB l < SA l)) ∧ D (.cmpI32 sw pd .ge a b) (fun l => decide (SB l ≤ SA l)) ∧
     D (.cmpN32 sw pd .eq a b) (fun l => A l == B l) ∧ D (.cmpN32 sw pd .ne a b) (fun l => A l != B l) ∧
     D (.cmpN32 sw pd .lt a b) (fun l => decide (A l < B l)) ∧ D (.cmpN32 sw pd .le a b) (fun l => decide (A l ≤ B l)) ∧
     D (.cmpN32 sw pd .gt a b) (fun l => decide (B l < A l)) ∧ D (.cmpN32 sw pd .ge a b) (fun l => decide (B l ≤ A l)) ∧
     D (.cmpI64 sw pd .eq a b) (fun l => opnd64 s a l == opnd64 s b l) ∧
     D (.cmpI64 sw pd .ne a b) (fun l => opnd64 s a l != opnd64 s b l) ∧
     D (.cmpI64 sw pd .lt a b) (fun l => decide (QA l < QB l)) ∧ D (.cmpI64 sw pd .le a b) (fun l => decide (QA l ≤ QB l)) ∧
     D (.cmpI64 sw pd .gt a b) (fun l => decide (QB l < QA l)) ∧ D (.cmpI64 sw pd .ge a b) (fun l => decide (QB l ≤ QA l))) ∧
  (∀ (s : State) (sw wide : Bool) (pd : Fin 24) (a b : Opnd) (c : FCond),
     let f := fmtOf wide
     let A (l : Nat) : Nat := opndF f s a l
     let B (l : Nat) : Nat := opndF f s b l
     let key (x : Nat) : Int := let m : Int := x % 2 ^ (f.width - 1)
       if signOf f x = true then -m else m
     let nan (l : Nat) : Bool := isNaN f (A l) || isNaN f (B l)
     ∃ v fl, Decides (if wide then .cmpF64 sw pd c a b else .cmpF32 sw pd c a b) s pd v fl ∧
       (∀ l, nan l = true → v l = decide (c = .ne ∨ c = .unordered)) ∧
       (∀ l, nan l = false → (v l = true ↔ match c with
         | .eq => key (A l) = key (B l)
         | .ne => key (A l) ≠ key (B l)
         | .lt => key (A l) < key (B l)
         | .le => key (A l) ≤ key (B l)
         | .gt => key (B l) < key (A l)
         | .ge => key (B l) ≤ key (A l)
         | .ordered => True
         | .unordered => False)) ∧
       ∀ l, fl l = if c ≠ .eq ∧ c ≠ .ne ∧ (isSNaN f (A l) = true ∨ isSNaN f (B l) = true) then flagIV else 0) ∧
  (∀ (s : State) (sw : Bool) (pd : Fin 24) (pa pb : PSrc) (F : BitVec 8),
     let rd (q : PSrc) (l : Nat) : Nat := match q with
       | none => 1
       | some q => (s.cw.pred l q.val).toNat
     Decides (.plop sw pd pa pb F) s pd
       (fun l => decide (F.toNat / 2 ^ (4 * rd pa l + 2 * rd pb l + (s.cw.pred l pd.val).toNat) % 2 = 1)) noFlags)

/-- `fcls` (R126): pd takes, in each lane of Active, the bit of the mask at the class of A; no flag is set. -/
def Obligations.ClassTest : Prop :=
  ∀ (s : State) (sw wide : Bool) (pd : Fin 24) (a : Opnd) (mask : BitVec 10),
    Decides (.fcls sw pd a mask wide) s pd (fun l => mask.getLsbD (fpClass (fmtOf wide) (opndF (fmtOf wide) s a l))) noFlags

/-! ### Control transfers and strict mode (R141 to R155) -/

/-- `bra` (R142), `call` (R143), `ret` (R144) and `bri` (R146) where no check fails: every thread of Active goes to its
target or to the next PC, and a thread that takes a `call` gets the header after its clause in %lr; in strict mode the rest of
Run goes with Active (DEDUCED, log 68).
The traps of the control transfers (R68, R78, R142 to R146, R154): targets that differ under U = 1, or in strict mode
under any U, are the uniformity trap; a target, of any thread that takes it, that is no header with BS = 1 is an illegal
instruction; a table that is not declared is a reserved field; an index past its table is the bounds trap. -/
def Obligations.TransferResults : Prop :=
  (∀ (s : State) (sw u : Bool) (c : BrCond) (off : BitVec 17) (idx : Opnd) (tab : BitVec 10) (entry : DWord) (es : List Int),
     let x : DWord := s.cur.pc + off.signExtend 64 * 4
     let take (l : Nat) : Bool := match c with
       | none => true
       | some (p, sense) => s.cw.pred l p.val != sense
     let to_ (l : Nat) : Option DWord := if take l then some x else none
     let back (l : Nat) : Option DWord := some (s.cw.thread l).lr
     let jump (l : Nat) : Option DWord := some (entry + BitVec.ofInt 64 (es.getD (opnd s idx l).toNat 0))
     let agree (f : Nat → Option DWord) : Prop := ∀ l ∈ s.lanes, ∀ m ∈ s.lanes, f l = f m
     let good (f : Nat → Option DWord) : Prop := ∀ l ∈ s.lanes, ∀ a, f l = some a → goodTarget s a = true
     let ok (f : Nat → Option DWord) : Prop := (u = true ∨ s.strict = true → agree f) ∧ good f
     let Goes (i : Instr) (f lr : Nat → Option DWord) : Prop := ∃ t, exec i s = .next t ∧ Transfers s t f lr
     (ok to_ → Goes (.bra sw u c off) to_ (fun _ => none)) ∧
     (ok to_ → Goes (.call sw u c off) to_ (fun l => if take l then some (s.cur.npc - 4) else none)) ∧
     (ok back → Goes (.ret sw u) back (fun _ => none)) ∧
     (tableAt s tab.toNat = some (entry, es) → (∀ l ∈ s.lanes, (opnd s idx l).toNat < es.length) →
       (s.strict = true → agree jump) → good jump → Goes (.bri sw idx tab) jump (fun _ => none))) ∧
  (∀ (s : State) (sw u : Bool) (c : BrCond) (off : BitVec 17) (idx : Opnd) (tab : BitVec 10) (entry : DWord) (es : List Int),
     let x : DWord := s.cur.pc + off.signExtend 64 * 4
     let take (l : Nat) : Bool := match c with
       | none => true
       | some (p, sense) => s.cw.pred l p.val != sense
     let differ : Prop := ∃ l ∈ s.lanes, take l ≠ take s.lowLane
     let lrDiffer : Prop := ∃ l ∈ s.lanes, (s.cw.thread l).lr ≠ (s.cw.thread s.lowLane).lr
     (differ → s.strict = false → u = true →
       exec (.bra sw u c off) s = .next (trap 3 0 s) ∧ exec (.call sw u c off) s = .next (trap 3 1 s)) ∧
     (differ → s.strict = true →
       exec (.bra sw u c off) s = .next (trap 3 3 s) ∧ exec (.call sw u c off) s = .next (trap 3 3 s)) ∧
     (lrDiffer → s.strict = false → u = true → exec (.ret sw u) s = .next (trap 3 2 s)) ∧
     (lrDiffer → s.strict = true → exec (.ret sw u) s = .next (trap 3 3 s)) ∧
     ((u = false ∧ s.strict = false ∨ ¬ differ) → (∃ l ∈ s.lanes, take l = true) → goodTarget s x = false →
       exec (.bra sw u c off) s = .next (trap 1 7 s) ∧ exec (.call sw u c off) s = .next (trap 1 7 s)) ∧
     ((u = false ∧ s.strict = false ∨ ¬ lrDiffer) → (∃ l ∈ s.lanes, goodTarget s (s.cw.thread l).lr = false) →
       exec (.ret sw u) s = .next (trap 1 7 s)) ∧
     (tableAt s tab.toNat = none → exec (.bri sw idx tab) s = .next (trap 1 2 s)) ∧
     (tableAt s tab.toNat = some (entry, es) →
       let jump (l : Nat) : DWord := entry + BitVec.ofInt 64 (es.getD (opnd s idx l).toNat 0)
       let inside : Prop := ∀ l ∈ s.lanes, (opnd s idx l).toNat < es.length
       let split : Prop := ∃ l ∈ s.lanes, jump l ≠ jump s.lowLane
       (¬ inside → exec (.bri sw idx tab) s = .next (trap 5 1 s)) ∧
       (inside → split → s.strict = true → exec (.bri sw idx tab) s = .next (trap 3 3 s)) ∧
       (inside → (s.strict = false ∨ ¬ split) → (∃ l ∈ s.lanes, goodTarget s (jump l) = false) →
         exec (.bri sw idx tab) s = .next (trap 1 7 s))))

/-- `nap` (R149): the group is demoted and goes on; no register, no byte of memory and nothing else changes. -/
def Obligations.NapResults : Prop :=
  ∀ (s : State) (sw : Bool), ∃ t, exec (.nap sw) s = .next t ∧ OnlyWave s t ∧ SameRegs s t ∧
    t.cw = { s.cw with threads := t.cw.threads } ∧
    ∀ l, if l ∈ s.lanes then
        let a := s.cw.thread l
        let b := t.cw.thread l
        b.pc = s.cur.npc ∧ b = { a with pc := b.pc, hdr := b.hdr, owes := b.owes, hold := .none, wait := b.wait, back := 0,
                                        demoted := true }
      else t.cw.thread l = s.cw.thread l

/-- `join` (R155), where Run is not left empty: `join.enrol` adds Active to the mask; `join.wait` parks the enrolled lanes
of Active at the next PC; `join.strike` takes Active off the mask. A wait or a strike after which every lane of the mask is
parked on it or exited, and there is one, releases the mask: its parked lanes go on at the next PC, and it is cleared.
`join.wait` that leaves Run empty without a release (R155): the illegal-convergence trap, subcode 1, with the parked
lanes as its group. -/
def Obligations.JoinResults : Prop :=
  (∀ (s : State) (sw : Bool) (j : BitVec 3),
     let k := j.toNat
     let R : Mask := look 0 s.cw.rejoin k
     let act (l : Nat) : Bool := s.lanes.contains l
     let parked (l : Nat) : Prop := (s.cw.thread l).hold = .parked k
     let waits (l : Nat) : Prop := if act l then R.getLsbD l = true else parked l
     let freeW : Prop := R ≠ 0 ∧ ∀ l, R.getLsbD l = true → (s.cw.thread l).live = false ∨ waits l
     let S : Mask := R &&& ~~~s.cur.active
     let freeS : Prop := S ≠ 0 ∧ ∀ l, S.getLsbD l = true → (s.cw.thread l).live = false ∨ parked l
     let free_ (l : Nat) (t : State) : Prop :=
       (t.cw.thread l).pc = s.cur.npc ∧ (t.cw.thread l).hold = .none
     let stays (l : Nat) (t : State) : Prop := t.cw.thread l = s.cw.thread l
     let masks (t : State) (m : Mask) : Prop := ∀ n, look 0 t.cw.rejoin n = if n = k then m else look 0 s.cw.rejoin n
     let frame (t : State) : Prop := OnlyWave s t ∧ SameRegs s t ∧ t.cw = { s.cw with threads := t.cw.threads, rejoin := t.cw.rejoin }
     (∃ t, exec (.joinEnrol sw j) s = .next t ∧ masks t (R ||| s.cur.active) ∧ GoesOn s t false ∧ frame t) ∧
     ((∃ l ∈ s.lanes, (s.cw.thread l).live = true ∧ R.getLsbD l = false) →
       ∃ t, exec (.joinWait sw j) s = .next t ∧ frame t ∧
         (freeW → masks t 0 ∧ ∀ l, if act l ∨ (R.getLsbD l = true ∧ parked l) then free_ l t else stays l t) ∧
         (¬ freeW → masks t R ∧ ∀ l, if act l then
           (t.cw.thread l).pc = s.cur.npc ∧ (t.cw.thread l).hold = (if R.getLsbD l then .parked k else .none) else stays l t)) ∧
     ((∀ l ∈ s.lanes, R.getLsbD l = true) → freeW →
       (∃ l, R.getLsbD l = true ∧ waits l ∧ (s.cw.thread l).live = true) →
       ∃ t, exec (.joinWait sw j) s = .next t ∧ frame t ∧ masks t 0 ∧
         ∀ l, if act l ∨ (R.getLsbD l = true ∧ parked l) then free_ l t else stays l t) ∧
     ((∃ l ∈ s.lanes, (s.cw.thread l).live = true) →
       ∃ t, exec (.joinStrike sw j) s = .next t ∧ frame t ∧
         (freeS → masks t 0 ∧ ∀ l, if act l ∨ (S.getLsbD l = true ∧ parked l) then free_ l t else stays l t) ∧
         (¬ freeS → masks t S ∧ ∀ l, if act l then free_ l t else stays l t))) ∧
  (∀ (s : State) (sw : Bool) (j : BitVec 3),
     let R : Mask := look 0 s.cw.rejoin j.toNat
     let parks (l : Nat) : Prop := ∃ n, (s.cw.thread l).hold = .parked n
     s.strict = true → s.hasWave s.cur.core s.cur.slot = true → s.lanes ≠ [] →
     (∀ l, l < 64 → (s.cw.thread l).live = true → if l ∈ s.lanes then R.getLsbD l = true else parks l) →
     (∀ l ∈ s.lanes, (s.cw.thread l).live = true) →
     (∃ l, R.getLsbD l = true ∧ (s.cw.thread l).live = true ∧ l ∉ s.lanes ∧ (s.cw.thread l).hold ≠ .parked j.toNat) →
     ∃ s1, OnlyWave s s1 ∧ SameRegs s s1 ∧
       (∀ l ∈ s.lanes, (s1.cw.thread l).pc = s.cur.npc ∧ (s1.cw.thread l).hold = .parked j.toNat) ∧
       exec (.joinWait sw j) s = .next (raiseTrapWith { cause := 4, sub := 1, addr := 0 } true []
         { s1 with cur := { s.cur with active := s.cw.liveMask } }))

/-! ### Team coordination and `exit` (R148, R156 to R160) -/

/-- Barriers (R157). An arrival sets the arrival flag of each thread of Active; once every live thread of the wave has
arrived since its last arrival the wave arrives, at a count of 1 to 64 read in the lowest lane: the barrier's count rises,
or, where it reaches the count read, returns to 0 as the phase number rises by 1. `bar.wait` holds a thread whose flag is
set for the phase of its arrival, and any other for the phase after the one now, and clears the flag; `bar.both` arrives
and then waits. A waiting thread stands at the next PC and keeps that of its `bar` beside it, where a save puts it back; one
that a restore has put back there has arrived already, and does not arrive again (the model's choice, DEDUCED, log 10). -/
def Obligations.BarrierResults : Prop :=
  ∀ (s : State) (sw : Bool) (id : BitVec 4) (count : Opnd),
    let k := id.toNat
    let v := (opnd s count s.lowLane).toNat
    let c := if v = 0 then 1 else min v 64
    let a (l : Nat) : BarView := (s.cw.thread l).bar k
    let here (l : Nat) : Bool := s.lanes.contains l
    let comes (l : Nat) : Bool := here l && !(s.cw.thread l).again
    let live (l : Nat) : Bool := decide (l < 64) && (s.cw.thread l).live
    let b := s.ct.bar k
    let whole : Bool := s.lanes.any comes && (List.range 64).any live &&
      (List.range 64).all fun l => !live l || comes l || (a l).since
    let view (l : Nat) : BarView :=
      let x := if comes l then { a l with flag := true, since := true } else a l
      if whole && live l then { x with since := false, phase := b.phase } else x
    let after : Barrier :=
      if whole then (if c ≤ b.count + 1 then { count := 0, phase := b.phase + 1 } else { count := b.count + 1, phase := b.phase })
      else b
    let still (t : State) (l : Nat) (w : BarView) (done : Bool) : Prop :=
      (t.cw.thread l).bar k = w ∧ (∀ n, n ≠ k → (t.cw.thread l).bar n = (s.cw.thread l).bar n) ∧
      (let x := s.cw.thread l
       let y := t.cw.thread l
       if here l then y = { x with pc := s.cur.npc, hdr := y.hdr, owes := y.owes, hold := y.hold, wait := y.wait, back := 0,
                                   bars := y.bars, again := if done then false else x.again }
       else y = { x with bars := y.bars })
    let frame (t : State) (x : Barrier) : Prop :=
      SameRegs s t ∧ SameBytes s t ∧ t.ct.bar k = x ∧ (∀ n, n ≠ k → t.ct.bar n = s.ct.bar n) ∧
      t = (if whole then s.setTeam s.cw.team { s.ct with bars := t.ct.bars } else s).setCw t.cw ∧
      t.cw = { s.cw with threads := t.cw.threads, barCounts := t.cw.barCounts, phases := t.cw.phases }
    let waits (t : State) (l : Nat) (w : BarView) (p : Nat) : Prop :=
      (t.cw.thread l).hold = if w.flag then .barOwn k s.cur.pc s.cur.hdr else .barNext k p s.cur.pc s.cur.hdr
    (∃ t, exec (.barArrive sw id count) s = .next t ∧ frame t after ∧
      ∀ l, still t l (view l) false ∧ (here l = true → (t.cw.thread l).hold = .none)) ∧
    (∃ t, exec (.barWait sw id count) s = .next t ∧ SameRegs s t ∧ OnlyWave s t ∧ t.cw = { s.cw with threads := t.cw.threads } ∧
      ∀ l, still t l (if here l then { a l with flag := false } else a l) true ∧ (here l = true → waits t l (a l) b.phase)) ∧
    ∃ t, exec (.barBoth sw id count) s = .next t ∧ frame t after ∧
      ∀ l, still t l (if here l then { view l with flag := false } else view l) true ∧
        (here l = true → waits t l (view l) after.phase)

/-- `exit` (R12, R148). Outside strict mode, with no trap in progress and another live thread in the wave that has triggered
nothing and arrived at no barrier since the wave's last arrival, and no error mark left, Active leaves the active set and
nothing else changes; where Active holds every live thread, the wave leaves its slot.
In strict mode (R155) Active leaves every mask, too; a mask it leaves whose other lanes, and there is one, are all parked on it
or exited is released: its parked lanes go on at the next PC, and it is cleared. Where that leaves Run empty with a live thread
parked, the illegal-convergence trap, subcode 1, has the parked lanes as its group. -/
def Obligations.ExitResults : Prop :=
  (∀ (s : State) (sw : Bool), s.strict = false → (∀ l ∈ s.lanes, (s.cw.thread l).copyMark = none) →
    ((∃ l, l < 64 ∧ l ∉ s.lanes ∧ (s.cw.thread l).live = true ∧ (s.cw.thread l).triggered = false ∧
        ∀ k, ((s.cw.thread l).bar k).since = false) → s.hasWave s.cur.core s.cur.slot = true →
      s.ct.core = some s.cur.core → s.cw.handler = none →
      ∃ t, exec (.exit sw) s = .next t ∧ OnlyWave s t ∧ SameRegs s t ∧ t.cw = { s.cw with threads := t.cw.threads } ∧
        ∀ l, t.cw.thread l = if l ∈ s.lanes then { s.cw.thread l with live := false, hold := .none } else s.cw.thread l) ∧
    ((∀ l, l < 64 → (s.cw.thread l).live = true → l ∈ s.lanes) →
      ∃ t, exec (.exit sw) s = .next t ∧ t.hasWave s.cur.core s.cur.slot = false)) ∧
  (∀ (s : State) (sw : Bool),
    let R (k : Nat) : Mask := look 0 s.cw.rejoin k
    let left (k : Nat) : Mask := R k &&& ~~~s.cur.active
    let act (l : Nat) : Bool := s.lanes.contains l
    let released (k : Nat) : Prop := k < 8 ∧ R k &&& s.cur.active ≠ 0 ∧ left k ≠ 0 ∧
      ∀ l, (left k).getLsbD l = true → (s.cw.thread l).live = false ∨ (s.cw.thread l).hold = .parked k
    let freed (l : Nat) : Prop := ∃ k, released k ∧ (left k).getLsbD l = true ∧ (s.cw.thread l).hold = .parked k
    let stays (l : Nat) : Prop := l < 64 ∧ l ∉ s.lanes ∧ (s.cw.thread l).live = true
    let free_ (l : Nat) (b : Thread) : Prop :=
      b = { s.cw.thread l with pc := s.cur.npc, hdr := b.hdr, owes := b.owes, hold := .none }
    let gone (t : State) : Prop := OnlyWave s t ∧ SameRegs s t ∧
      t.cw = { s.cw with threads := t.cw.threads, rejoin := t.cw.rejoin } ∧
      (∀ k, k < 8 → (released k → look 0 t.cw.rejoin k = 0) ∧ (¬ released k → look 0 t.cw.rejoin k = left k)) ∧
      ∀ l, l < 64 → (act l = true → t.cw.thread l = { s.cw.thread l with live := false, hold := .none }) ∧
        (act l = false → freed l → free_ l (t.cw.thread l)) ∧ (act l = false → ¬ freed l → t.cw.thread l = s.cw.thread l)
    s.strict = true → (∀ l ∈ s.lanes, (s.cw.thread l).copyMark = none) → s.hasWave s.cur.core s.cur.slot = true →
    s.ct.core = some s.cur.core → s.cw.handler = none →
    (∃ l, stays l ∧ (s.cw.thread l).triggered = false ∧ ∀ k, ((s.cw.thread l).bar k).since = false) →
    ((∃ l, stays l ∧ ((∀ k, (s.cw.thread l).hold ≠ .parked k) ∨ freed l)) → ∃ t, exec (.exit sw) s = .next t ∧ gone t) ∧
    ((∀ l, stays l → (∃ k, (s.cw.thread l).hold = .parked k) ∧ ¬ freed l) →
      ∃ t, gone t ∧ exec (.exit sw) s = .next (raiseTrapWith { cause := 4, sub := 1, addr := 0 } true []
        { t with cur := { s.cur with active := t.cw.liveMask } })))

/-- `rq` (R159): a quota of n rows below the wave's gives its rows from n on, with their contents lost, to the team's pool
of the quarter; one above takes rows of the pool, which read 0 in it, and which serves the waves that wait in lower slots
first, or waits for them; one that the team can never have is the quota trap.
What a group that is held, or that meets a trap it must wait for, keeps: its threads have the hold given and nothing else
of the machine changes. -/
def Obligations.QuotaResults : Prop :=
  (∀ (s : State) (sw : Bool) (q : Fin 16),
     let n := 8 * (q.val + 1)
     let w := s.cw
     let pool := look 0 s.ct.pools s.cq
     let free := rqPool s s.cur.core s.cur.slot
     let others := ((s.cc.waves.filter fun x =>
       x.2.team == w.team && x.1 / 16 == s.cq && x.1 != s.cur.slot).map (·.2.quota)).sum
     let done (p : Nat) : Prop := ∃ t, exec (.rq sw q) s = .next t ∧ t.cw.quota = n ∧ look 0 t.ct.pools s.cq = p ∧
       (∀ r l, l < 64 → t.cw.reg r l = if min n w.quota ≤ r then 0 else w.reg r l) ∧
       (∀ k, k ∈ t.cw.bad ↔ k ∈ w.bad ∧ (k < 64 * min n w.quota ∨ 8192 ≤ k)) ∧ (∀ r, t.cw.uni r = w.uni r) ∧
       (∀ l p, t.cw.pred l p = w.pred l p) ∧ GoesOn s t false ∧ SameBytes s t ∧
       t = (s.setTeam w.team { s.ct with pools := t.ct.pools }).setCw t.cw ∧
       t.cw = { w with
         quota := n, regs := t.cw.regs, bad := t.cw.bad, threads := t.cw.threads
         pend := w.pend.map fun p => { p with cap := min p.cap (min n w.quota) } } ∧
       ∀ k, k ≠ s.cq → look 0 t.ct.pools k = look 0 s.ct.pools k
     (n ≤ w.quota → done (pool + (w.quota - n))) ∧
     (w.quota < n → n - w.quota ≤ pool + others → n - w.quota ≤ free → done (pool - (n - w.quota))) ∧
     (w.quota < n → n - w.quota ≤ pool + others → free < n - w.quota → exec (.rq sw q) s = .next (holdGroup (.rq n) s)) ∧
     (pool + others < n - w.quota → exec (.rq sw q) s = .next (trap 0x10 1 s))) ∧
  (∀ (s : State) (h : Hold), OnlyWave s (holdGroup h s) ∧ SameRegs s (holdGroup h s) ∧
     ∀ l, (holdGroup h s).cw.thread l = if l ∈ s.lanes then { s.cw.thread l with hold := h } else s.cw.thread l)

/-! ### Loads, stores, atomics and locks (R170 to R186, R294) -/

/-- The loads where every lane's check passes and nothing older holds them back: the result is outstanding with the access
of each lane, and no register and no byte changes yet (R170, R172, R176, R178, R180, R291). `ldw` keeps what D holds as the
value it expects, and its whole group waits until its first read (DEDUCED, log 59). -/
def Obligations.LoadIssue : Prop :=
  ∀ (s : State) (sw wide : Bool) (d : BitVec 7) (a : Pair) (z : LdSize) (off : BitVec 6) (off' : Word) (fmt : DxFmt)
    (acc : List Access) (u : Bool),
    let s1 := issuing acc u s
    let scaled : Int := (off.toNat * z.bytes : Nat)
    let m := 4 * wideRegs wide
    let passes (form : Option Win) (align code n : Nat) (o : Int) (ls : List Nat) : Prop :=
      checkLanes s form false align code n (formAddr s form a o) ls [] false = .ok acc u
    let L (i : Instr) (n : Nat) (src : Source) : Prop := ∃ t, exec i s = .next t ∧ Outstanding s1 t u d.toNat n src
    let P (form : Option Win) (o : Int) : Prop := passes form z.bytes z.code z.bytes o s.lanes
    MayIssue s u →
    SameBytes s s1 ∧ SameRegs s s1 ∧ s1.cw.threads = s.cw.threads ∧
    (P none scaled → L (.ld sw d a z off) z.regs (.load z acc)) ∧
    (P (some .lane) scaled → L (.ldl sw d a z off) z.regs (.load z acc)) ∧
    (P (some .scratch) scaled → L (.lds sw d a z off) z.regs (.load z acc)) ∧
    (P (some .cluster) scaled → L (.ldc sw d a z off) z.regs (.load z acc)) ∧
    (P (some .pad) scaled → L (.ldk sw d a z off) z.regs (.load z acc)) ∧
    (P (some .global) scaled → L (.ldg sw d a z off) z.regs (.load z acc)) ∧
    (P none off'.toInt → L (.ldx sw d a z off') z.regs (.load z acc)) ∧
    (passes none 1 0 fmt.blockBytes 0 (halfLeads s) → L (.ldblk sw d a fmt) 1 (.block fmt acc)) ∧
    (passes none m (if wide then 5 else 4) m (off.toNat * m : Nat) s.lanes →
      ∃ t, exec (.ldw sw d a wide off) s = .next t ∧
        Outstanding s1 t u d.toNat (wideRegs wide) (.wait wide acc (acc.map fun x => destVal s wide d x.lane) none none) ∧
        ∀ l ∈ s.lanes, (t.cw.thread l).hold = .ldw s1.fresh)

/-- The stores where every lane's check passes, nothing older holds them back and the store buffer has room: each lane's
data joins the buffer, the group goes on, and no byte of memory and no register changes until the entry performs, which it
does at once where nothing is in its way (R170, R172, R177, R179, R294). `cmpst` puts the lanes' data side by side from the
lowest lane's address on.
`atom` and `cas` where every lane's check passes, nothing older holds them back and the store buffer has room: the
event waits in the buffer, or takes place at once where nothing is in its way, and its result is outstanding until then (R181
to R183). -/
def Obligations.StoreAndAtomicIssue : Prop :=
  (∀ (s : State) (sw wide : Bool) (a : Pair) (data : Opnd) (z : StSize) (off : BitVec 5) (off' : Word) (acc : List Access)
     (u : Bool),
     let s1 := issuing acc u s
     let scaled : Int := (off.toNat * z.bytes : Nat)
     let S (i : Instr) (n : Nat) : Prop := TakesEntry i s s1 u
       (newEntry s1 .store (acc.map fun x => { acc := x, data := opndWide n s data x.lane, other := 0 })) []
     let P (form : Option Win) (o : Int) : Prop :=
       checkLanes s form true z.bytes z.code z.bytes (formAddr s form a o) s.lanes [] false = .ok acc u
     let m := 4 * wideRegs wide
     let code := if wide then 5 else 4
     let q := formAddr s none a 0 s.lowLane
     MayIssue s u →
     (P none scaled → S (.st sw a data z off) z.bytes) ∧ (P (some .lane) scaled → S (.stl sw a data z off) z.bytes) ∧
     (P (some .scratch) scaled → S (.sts sw a data z off) z.bytes) ∧
     (P (some .cluster) scaled → S (.stc sw a data z off) z.bytes) ∧
     (P (some .pad) scaled → S (.stk sw a data z off) z.bytes) ∧
     (P (some .global) scaled → S (.stg sw a data z off) z.bytes) ∧
     (P none off'.toInt → S (.stx sw a data z off') z.bytes) ∧
     ((∃ ks c, checkAccess s (s.who s.lowLane) none true m code q (m * s.lanes.length) = .ok ks c) →
       checkLanes s none true m code m (fun l => (q + s.lanes.idxOf l * m) % 2 ^ 64) s.lanes [] false = .ok acc u →
       S (.cmpst sw a data wide) m)) ∧
  (∀ (s : State) (sw wide : Bool) (d : BitVec 7) (a : Pair) (b c : Opnd) (op : AtomOp) (off : BitVec 24) (off' : BitVec 16)
     (acc : List Access) (u : Bool),
     let s1 := issuing acc u s
     let n := 4 * wideRegs wide
     let P (o : Int) : Prop :=
       checkLanes s none true n (if wide then 5 else 4) n (formAddr s none a o) s.lanes [] false = .ok acc u
     let A (i : Instr) (e : SbEntry) : Prop :=
       TakesEntry i s s1 u e [newPend s1 u s1.fresh d.toNat (wideRegs wide) .buffered]
     MayIssue s u →
     (P off.toInt → A (.atom sw d a b wide op off)
       (newEntry s1 (.atom op wide) (acc.map fun x => { acc := x, data := opndWide n s b x.lane, other := 0 }))) ∧
     (P off'.toInt → A (.cas sw d a b c wide off')
       (newEntry s1 (.cas wide) (acc.map fun x =>
         { acc := x, data := opndWide n s b x.lane, other := opndWide n s c x.lane }))))

/-- A buffered store performs (R177, R289, R294): of the oldest entry, with no effect before it held, its tokens held and
nothing in its way, the lanes on the line of its first write their bytes at their keys as they stand now, in ascending lane
order; every other byte reads as before, no register changes, and those lanes leave the buffer.
A buffered atomic performs (R181 to R183): with each lane on bytes of its own, every lane's D takes the number there,
and the bytes take the operation's result from it and the lane's operand; for `cas` the operand c where the number was b; a
thread that has exited takes no number (R12).
Two lanes on one word perform in ascending order. No other byte and no other lane's register changes. -/
def Obligations.StoresAndAtomicsPerform : Prop :=
  (∀ (s : State) (core slot : Nat) (e f : SbEntry) (r : List SbEntry) (x0 : SbLane) (xs : List SbLane),
     let w := s.wave core slot
     let line (x : SbLane) : Nat := x.acc.keys.headD 0 / 128
     let now := e.lanes.filter fun x => line x == line x0
     let later := e.lanes.filter fun x => line x != line x0
     let left := if later = [] then w.sbuf.filter fun x => decide (x.id ≠ e.id)
       else w.sbuf.map fun x => if x.id = e.id then { x with lanes := later } else x
     w.sbuf = e :: r → e.lanes = x0 :: xs → e.op = .store → e.spec = false → w.liveMask ≠ 0 → (∀ h ∈ w.effects, e.id ≤ h.id) →
     entryBlock s core slot e = none → refresh s core slot { e with lanes := now } = .ok f →
     missingKey (s.core core) true (tokenKeys s core slot f.accesses) = none → (∀ p ∈ w.pend, p.id ≠ e.id) →
     ∃ t, exec (.committedStorePerform core slot) s = .next t ∧
       t.mem = (f.lanes.foldl (fun s x => writeKeys s x.acc.keys x.data) s).mem ∧
       SameBytesBut (f.lanes.flatMap (·.acc.keys)) s t ∧
       ((f.lanes.flatMap (·.acc.keys)).Nodup → ∀ x ∈ f.lanes, readKeys t x.acc.keys = x.data % 256 ^ x.acc.keys.length) ∧
       t.wave core slot = { w with sbuf := left }) ∧
  (∀ (s : State) (core slot : Nat) (e f : SbEntry) (r : List SbEntry) (x0 : SbLane) (xs : List SbLane) (p : Pend) (wide : Bool),
     let w := s.wave core slot
     let line (x : SbLane) : Nat := x.acc.keys.headD 0 / 128
     let now := e.lanes.filter fun x => line x == line x0
     let bits := 32 * wideRegs wide
     let sgn (m : Nat) : Int := if m < 2 ^ (bits - 1) then m else (m : Int) - 2 ^ bits
     let new (x : SbLane) (m : Nat) : Nat := match e.op with
       | .atom .add _ => (m + x.data) % 2 ^ bits
       | .atom .and _ => m &&& x.data
       | .atom .or _ => m ||| x.data
       | .atom .xor _ => m ^^^ x.data
       | .atom .min _ => if sgn x.data < sgn m then x.data else m
       | .atom .max _ => if sgn m < sgn x.data then x.data else m
       | .atom .umin _ => min m x.data
       | .atom .umax _ => max m x.data
       | .atom .xchg _ => x.data
       | .atom .faddF32 _ => (fpAdd .f32 .rne m x.data).1
       | _ => if m = x.data then x.other else m
     let gets_ (t : State) (x : SbLane) (m : Nat) : Prop := (w.thread x.acc.lane).live = true → ∀ i, i < wideRegs wide →
       p.d + i < p.cap → (t.wave core slot).reg (p.d + i) x.acc.lane = BitVec.ofNat 32 (m / 2 ^ (32 * i))
     ((∃ op, e.op = .atom op wide) ∨ e.op = .cas wide) → w.sbuf = e :: r → e.lanes = x0 :: xs → e.spec = false →
     w.liveMask ≠ 0 → (∀ h ∈ w.effects, e.id ≤ h.id) →
     entryBlock s core slot e = none → refresh s core slot { e with lanes := now } = .ok f →
     missingKey (s.core core) true (tokenKeys s core slot f.accesses) = none →
     w.pend.find? (fun q => q.id == e.id) = some p → p.n = wideRegs wide →
     (f.lanes.map (·.acc.lane)).Nodup → (∀ x ∈ f.lanes, x.acc.lane < 64 ∧ x.acc.keys.Nodup ∧ x.data < 2 ^ bits ∧
       x.acc.keys.length = 4 * wideRegs wide) →
     ∃ t, exec (.committedStorePerform core slot) s = .next t ∧ SameBytesBut (f.lanes.flatMap (·.acc.keys)) s t ∧
       (∀ r l, l < 64 → (r < p.d ∨ p.d + p.n ≤ r ∨ ∀ x ∈ f.lanes, x.acc.lane ≠ l) → (t.wave core slot).reg r l = w.reg r l) ∧
       ((f.lanes.flatMap (·.acc.keys)).Nodup → ∀ x ∈ f.lanes,
         gets_ t x (readKeys s x.acc.keys) ∧
         readKeys t x.acc.keys = new x (readKeys s x.acc.keys) % 256 ^ x.acc.keys.length) ∧
       ∀ x y, f.lanes = [x, y] → x.acc.keys = y.acc.keys →
         let m := new x (readKeys s x.acc.keys) % 256 ^ x.acc.keys.length
         gets_ t x (readKeys s x.acc.keys) ∧ gets_ t y m ∧ readKeys t y.acc.keys = new y m % 256 ^ y.acc.keys.length)

/-- `acq` and `rel` outside a region, with no effect held and nothing in the way of their event (R185, R186). Each lane of an
`acq` whose word reads 0 and that no lower lane names takes the lock: the word becomes 1, LKCNT rises by 1 for each, modulo 2^32
(DESIGN CHOICE, log 39), and these lanes go on; the others stand at the `acq`, parked on their words. A `rel` that meets no
misuse writes 0 to each lane's word and LKCNT falls by the number of lanes. No other byte and no register changes. -/
def Obligations.LockResults : Prop :=
  ∀ (s : State) (sw : Bool) (a : Pair) (off : Word) (acc : List Access) (u : Bool) (f : SbEntry),
    let s1 := issuing acc u s
    let core := s.cur.core
    let slot := s.cur.slot
    let team := s.cw.team
    let entry (op : SbOp) (v : Nat) : SbEntry := newEntry s1 op (acc.map fun x => { acc := x, data := v, other := 0 })
    let fa := f.accesses
    let win := lockWinners (readKeys s) fa []
    let words (xs : List Access) : List Nat := xs.flatMap (·.keys)
    let may (e : SbEntry) : Prop := refresh s1 core slot e = .ok f ∧ entryBlock s1 core slot e = none ∧
      missingKey s1.cc true (tokenKeys s1 core slot e.accesses) = none
    checkLanes s none true 4 4 4 (formAddr s none a off.toInt) s.lanes [] false = .ok acc u → MayIssue s u →
    s.cw.effects = [] → s1.cw.ckpt = none → fa.map (·.lane) = s.lanes → (∀ x ∈ fa, x.keys.length = 4) →
    (may (entry .lock 1) → (words win).Nodup →
      ∃ t, exec (.acq sw a off) s = .next t ∧ SameBytesBut (words win) s t ∧ (∀ x ∈ win, readKeys t x.keys = 1) ∧
        SameRegs s t ∧
        (t.team team).lkcnt = (if win = [] then (s.team team).lkcnt else ((s.team team).lkcnt + win.length) % 2 ^ 32) ∧
        (∀ x ∈ win, (t.cw.thread x.lane).pc = s.cur.npc ∧ (t.cw.thread x.lane).hold = .none ∧
          (t.cw.thread x.lane).back = 0) ∧
        (∀ x ∈ fa, x ∉ win → t.cw.thread x.lane = { s.cw.thread x.lane with
          pc := s.cur.pc, hdr := s.cur.hdr, owes := .nothing, hold := .acq x.va, wait := [], back := 0 }) ∧
        ∀ l, l ∉ s.lanes → t.cw.thread l = s.cw.thread l) ∧
    (may (entry .rel 0) → (words fa).Nodup → (s.team team).lkcnt < 2 ^ 32 →
      ∃ t, exec (.rel sw a off) s = .next t ∧ SameBytesBut (words fa) s t ∧ (∀ x ∈ fa, readKeys t x.keys = 0) ∧
        SameRegs s t ∧ (t.team team).lkcnt = (s.team team).lkcnt - fa.length ∧
        ∀ l, if l ∈ s.lanes then (t.cw.thread l).pc = s.cur.npc ∧ (t.cw.thread l).hold = .none ∧ (t.cw.thread l).back = 0
          else t.cw.thread l = s.cw.thread l)

/-- Where the check of R172 fails: a load, a store, an atomic or a lock instruction raises the trap of its lowest failing
lane, and no register and no byte changes before that trap; a missing translation waits for the page-fault service or is
the access violation 3.
The order of the checks of one access (R34, R35, R172, R173, R276): alignment with the size code as subcode, then the window
and the window form, then the bytes past the window's end, then the launch allotment, or, in a translated window, each byte's
page in address order: a missing translation, a write to a sealed page (subcode 5; one to a page in admission is refused alike,
R38), a write to a page that is not writable (subcode 4); then the range-lock table. A missing translation is the access
violation 3 where no service can supply it, for firmware's team or for a page faulted again after a restore; else the group is
held for it.
`chk` (R171): every index below the region's length in elements goes on with nothing changed; one at or above it is the
bounds trap; a region that is not declared is a reserved field. -/
def Obligations.AccessTraps : Prop :=
  (∀ (s : State) (sw wide : Bool) (d : BitVec 7) (a : Pair) (data c : Opnd) (z : LdSize) (y : StSize) (off : BitVec 6)
     (off5 : BitVec 5) (offw : Word) (op : AtomOp) (o24 : BitVec 24) (o16 : BitVec 16) (fmt : DxFmt) (t : TrapInfo)
     (va : Nat) (wr : Bool),
     let fails (i : Instr) (r : Checked) : Prop :=
       (r = .trap t → exec i s = .next (raiseTrapWith t true [] s)) ∧
       (r = .miss va wr → exec i s = .next (pageMiss va wr.toNat true s))
     let ldCheck (form : Option Win) (o : Int) : Checked :=
       checkLanes s form false z.bytes z.code z.bytes (formAddr s form a o) s.lanes [] false
     let stCheck (form : Option Win) (o : Int) : Checked :=
       checkLanes s form true y.bytes y.code y.bytes (formAddr s form a o) s.lanes [] false
     let o : Int := (off.toNat * z.bytes : Nat)
     let p : Int := (off5.toNat * y.bytes : Nat)
     let n := 4 * wideRegs wide
     let code := if wide then 5 else 4
     let word (write : Bool) (k m : Nat) (o : Int) : Checked :=
       checkLanes s none write m k m (formAddr s none a o) s.lanes [] false
     fails (.ld sw d a z off) (ldCheck none o) ∧ fails (.ldl sw d a z off) (ldCheck (some .lane) o) ∧
     fails (.lds sw d a z off) (ldCheck (some .scratch) o) ∧ fails (.ldc sw d a z off) (ldCheck (some .cluster) o) ∧
     fails (.ldk sw d a z off) (ldCheck (some .pad) o) ∧ fails (.ldg sw d a z off) (ldCheck (some .global) o) ∧
     fails (.ldx sw d a z offw) (ldCheck none offw.toInt) ∧
     fails (.ldblk sw d a fmt) (checkLanes s none false 1 0 fmt.blockBytes (formAddr s none a 0) (halfLeads s) [] false) ∧
     fails (.ldw sw d a wide off) (word false code n (off.toNat * n : Nat)) ∧
     fails (.st sw a data y off5) (stCheck none p) ∧ fails (.stl sw a data y off5) (stCheck (some .lane) p) ∧
     fails (.sts sw a data y off5) (stCheck (some .scratch) p) ∧ fails (.stc sw a data y off5) (stCheck (some .cluster) p) ∧
     fails (.stk sw a data y off5) (stCheck (some .pad) p) ∧ fails (.stg sw a data y off5) (stCheck (some .global) p) ∧
     fails (.stx sw a data y offw) (stCheck none offw.toInt) ∧
     fails (.atom sw d a data wide op o24) (word true code n o24.toInt) ∧
     fails (.cas sw d a data c wide o16) (word true code n o16.toInt) ∧
     (checkAccess s (s.who s.lowLane) none true n code (formAddr s none a 0 s.lowLane) (n * s.lanes.length) = .trap t →
       exec (.cmpst sw a data wide) s = .next (raiseTrapWith t true [] s)) ∧
     (checkAccess s (s.who s.lowLane) none true n code (formAddr s none a 0 s.lowLane) (n * s.lanes.length) = .miss va →
       exec (.cmpst sw a data wide) s = .next (pageMiss va 1 true s)) ∧
     fails (.acq sw a offw) (word true 4 4 offw.toInt) ∧ fails (.rel sw a offw) (word true 4 4 offw.toInt)) ∧
  (∀ (s : State) (w : Who) (form : Option Win) (write : Bool) (align code va n : Nat),
     let r := checkAccess s w form write align code va n
     let bad (cause sub addr : Nat) : Fate := .trap { cause := cause, sub := sub, addr := addr }
     (va % align ≠ 0 → r = bad 7 code va) ∧
     (va % align = 0 → (2 ^ 57 ≤ va ∨ windowOf va = none) → r = bad 8 1 va) ∧
     ∀ win, va % align = 0 → windowOf va = some win →
       (∀ g, form = some g → g ≠ win → r = bad 8 1 va) ∧
       ((form = none ∨ form = some win) →
         (win.last < va + n - 1 → r = bad 6 0 (win.last + 1)) ∧
         (va + n - 1 ≤ win.last → win.translated = false →
           let o := va - win.first
           let lim := allotment s w win
           (lim < o + n → r = bad 8 2 (win.first + max o lim)) ∧
           (o + n ≤ lim →
             r = match checkLocks s w.core w.wave.team write va n with
               | some t => .trap t
               | none => .ok ((keysFrom o n).map (chipKey s w win)) false)) ∧
         (va + n - 1 ≤ win.last → win.translated = true →
           let leaf (i : Nat) : Option Leaf := dataLeaf s w.core (s.partOf w.team) (va + i)
           let shut (l : Leaf) : Prop := write = true ∧ (l.sealed_ = true ∨ inAdmission s l.pa = true)
           let fine (i : Nat) : Prop := ∃ l, leaf i = some l ∧ ¬ shut l ∧ (write = true → l.w = true)
           (∀ i, i < n → (∀ j, j < i → fine j) →
             (leaf i = none → r = .miss (va + i)) ∧
             (∀ l, leaf i = some l → (shut l → r = bad 8 5 (va + i)) ∧
               (¬ shut l → write = true → l.w = false → r = bad 8 4 (va + i)))) ∧
           (∀ pa : Nat → Leaf, (∀ i, i < n → fine i ∧ leaf i = some (pa i)) →
             r = match checkLocks s w.core w.wave.team write va n with
               | some t => .trap t
               | none => .ok ((List.range n).map fun i => (pa i).pa) ((List.range n).all fun i => (pa i).c))))) ∧
  (∀ (s : State) (va kind : Nat) (fetched : Bool),
     (s.partOf s.ct = none ∨ va / 65536 ∈ s.ct.faulted →
       pageMiss va kind fetched s = raiseTrapWith { cause := 8, sub := 3, addr := va } fetched [] s) ∧
     (s.partOf s.ct ≠ none → va / 65536 ∉ s.ct.faulted → pageMiss va kind fetched s = holdGroup (.fault va kind) s)) ∧
  (∀ (s : State) (sw : Bool) (idx : Opnd) (region : BitVec 10) (sc : Fin 5) (r : Region),
     (regionAt s region.toNat = some r → (∀ l ∈ s.lanes, (opnd s idx l).toNat < r.len / 2 ^ sc.val) →
       ∃ t, exec (.chk sw idx region sc) s = .next t ∧ OnlyWave s t ∧ SameRegs s t ∧ ThreadsAfter s t noFlags ∧
         t.cw = { s.cw with threads := t.cw.threads }) ∧
     (regionAt s region.toNat = some r → (∃ l ∈ s.lanes, r.len / 2 ^ sc.val ≤ (opnd s idx l).toNat) →
       exec (.chk sw idx region sc) s = .next (trap 5 0 s)) ∧
     (regionAt s region.toNat = none → exec (.chk sw idx region sc) s = .next (trap 1 2 s)))

/-! ### Buffered effects and copies (R160, R188 to R196, R229, R230, R301) -/

/-- `cpy`, `cseal`, `spawn`, `trig` and `launch` whose checks pass, in a wave with a live region, with something older
unperformed or with an effect held: the effect is held for its release, in order, and nothing else changes (R160, R189,
R194, R229, R230, R301). A `cpy` holds one copy for each lane of Active.
The same instructions in a wave with no region, nothing older and no effect held, whose effect can be released: it takes
place at once, and the group goes on (R301); a `spawn` that finds no bin is held; a failing check of a `cpy`, a `spawn` or a
`launch` traps. -/
def Obligations.HeldEffects : Prop :=
  (∀ (s : State) (sw : Bool) (dst src a : Pair) (xf : Xf) (len arg : Opnd) (off : BitVec 16) (offw : Word),
     let code : Nat := match xf with
       | .none => 0 | .expand _ => 1 | .compact _ => 2
     let meta_ (l : Nat) : Nat := match xf with
       | .none => 0 | .expand m => (pairVal s m l).toNat | .compact m => (pairVal s m l).toNat
     let op (id l : Nat) : CopyOp :=
       { id := id, team := s.cw.team, slot := s.cur.slot, lane := l, wave := s.cw.serial, pc := s.cur.pc, xf := code
         dst := (pairVal s dst l).toNat, src := (pairVal s src l).toNat, len := (opnd s len l).toNat, metaAddr := meta_ l }
     let entry : DWord := s.cur.pc + off.signExtend 64 * 4
     let at_ := (pairVal s a 0 + offw.signExtend 64).toNat
     let H (i : Instr) (es : List Effect) (n : Nat) (back : Bool) : Prop :=
       ∃ t, exec i s = .next t ∧ HoldsEffects s t es n back
     (s.cw.quiet = false ∨ s.cw.effects ≠ []) →
     ((∀ l ∈ s.lanes, checkCopy s (s.who l) (op 0 l) = none) →
       H (.cpy sw dst src xf len) (s.lanes.mapIdx fun i l => .copy (op (s.fresh + 2 * i) l)) 2 true) ∧
     H (.cseal sw) [.seal s.cur.active] 1 false ∧
     (goodTarget s entry = true → (s.cw.ckpt = none → (binFor s.cc s.cw.team entry).isSome = true) →
       H (.spawn sw arg off) [.spawn entry (s.lanes.map fun l => opnd s arg l)] 1 true) ∧
     H (.trig sw) [.trig s.cur.active] 1 true ∧
     (s.cw.wid = 0 → s.cur.active.getLsbD 0 = true → specialTeam s .depth < 10 → at_ % 128 = 0 →
       (∃ w, windowOf at_ = some w ∧ at_ + 127 ≤ w.last) → H (.launch sw a offw) [.launch at_] 1 true)) ∧
  (∀ (s s2 : State) (sw : Bool) (dst src a : Pair) (xf : Xf) (len arg : Opnd) (off : BitVec 16) (offw : Word),
     let entry : DWord := s.cur.pc + off.signExtend 64 * 4
     let at_ := (pairVal s a 0 + offw.signExtend 64).toNat
     let op (id l : Nat) : CopyOp :=
       { id := id, team := s.cw.team, slot := s.cur.slot, lane := l, wave := s.cw.serial, pc := s.cur.pc, xf := 0
         dst := (pairVal s dst l).toNat, src := (pairVal s src l).toNat, len := (opnd s len l).toNat, metaAddr := 0 }
     let leader : Prop := s.cw.wid = 0 ∧ s.cur.active.getLsbD 0 = true
     let released (s0 : State) (e : Effect) : Prop := releaseEffect s0 s.cur.core s.cur.slot e = some s2
     s.cw.quiet = true → s.cw.effects = [] →
     (released s (.seal s.cur.active) → exec (.cseal sw) s = .next (finish sw s2)) ∧
     (released (progress s) (.trig s.cur.active) → exec (.trig sw) s = .next (finish sw s2)) ∧
     (goodTarget s entry = true → (binFor s.cc s.cw.team entry).isSome = true →
       released (progress s) (.spawn entry (s.lanes.map fun l => opnd s arg l)) →
       exec (.spawn sw arg off) s = .next (finish sw s2)) ∧
     (goodTarget s entry = true → binFor s.cc s.cw.team entry = none →
       exec (.spawn sw arg off) s = .next (holdGroup (.spawn entry) s)) ∧
     (goodTarget s entry = false → exec (.spawn sw arg off) s = .next (trap 1 7 s)) ∧
     (leader → specialTeam s .depth < 10 → at_ % 128 = 0 → (∃ w, windowOf at_ = some w ∧ at_ + 127 ≤ w.last) →
       released (progress s) (.launch at_) → exec (.launch sw a offw) s = .next (finish sw s2)) ∧
     (¬ leader → exec (.launch sw a offw) s = .next (trap 4 5 s)) ∧
     (leader → 10 ≤ specialTeam s .depth → exec (.launch sw a offw) s = .next (trapAt 0x0B 0 at_ s)) ∧
     (leader → specialTeam s .depth < 10 → at_ % 128 = 0 → windowOf at_ = none →
       exec (.launch sw a offw) s = .next (trapAt 8 1 at_ s)) ∧
     (∀ l, s.lanes = [l] → xf = .none → checkCopy s (s.who l) (op 0 l) = none →
       released { progress s with fresh := s.fresh + 1 } (.copy (op s.fresh l)) →
       exec (.cpy sw dst src xf len) s = .next (finish sw s2)) ∧
     ∀ (t : TrapInfo) (l : Nat) (r : List Nat), s.lanes = l :: r → xf = .none → checkCopy s (s.who l) (op 0 l) = some t →
       exec (.cpy sw dst src xf len) s = .next (raiseTrapWith t true [] s))

/-- What the releases do (R160, R188, R189, R194, R229, R230, R375, R378): a seal makes a thread's open copies its next batch;
a spawn adds entries to the bin of its address, and starts its timer where it was empty; a launch puts the record's 128
bytes in the team's launch buffer of eight; a trigger marks the threads; a copy of no bytes does nothing, and any other
joins the engine's queue with the lock of each of its ranges. -/
def Obligations.EffectRelease : Prop :=
  ∀ (s : State) (core slot : Nat) (lanes : Mask) (entry : DWord) (args : List Word) (addr n : Nat) (c : CopyOp),
    let w := s.wave core slot
    let k := s.core core
    let t := s.team w.team
    let open_ (ids : List Nat) : List Nat := ids.filter fun id => k.copies.any fun x => x.op.id == id
    let e := freeEntries k
    let bin : Bin :=
      { team := w.team, entry := entry, args := args, expires := some (k.clk.toNat + timerOf s t), dueWave := false }
    ((∃ l ∈ lanesOf lanes, 15 ≤ unfinished (w.thread l)) → releaseEffect s core slot (.seal lanes) = none) ∧
    ((∀ l ∈ lanesOf lanes, unfinished (w.thread l) < 15) → ∃ s', releaseEffect s core slot (.seal lanes) = some s' ∧
      s' = s.setWave core slot (s'.wave core slot) ∧ ∀ l, (s'.wave core slot).thread l =
        let x := w.thread l
        let y := tidyBatches (x.batches ++ [{ copies := open_ x.open_, err := x.openErr }])
        if l ∈ lanesOf lanes then { x with open_ := [], openErr := none, batches := y } else x) ∧
    (binFor k w.team entry = none → releaseEffect s core slot (.spawn entry args) = none) ∧
    (binFor k w.team entry = some n → find? k.bins n = none →
      releaseEffect s core slot (.spawn entry args) = some (s.setCore core { k with bins := put k.bins n bin })) ∧
    (∀ b at_, binFor k w.team entry = some n → find? k.bins n = some b → b.args ≠ [] → b.expires = some at_ →
      releaseEffect s core slot (.spawn entry args) =
        some (s.setCore core { k with bins := put k.bins n { b with args := b.args ++ args } })) ∧
    (8 ≤ t.launches.length → releaseEffect s core slot (.launch addr) = none) ∧
    (t.launches.length < 8 → t.grid = none → releaseEffect s core slot (.launch addr) =
      some (s.setTeam w.team { t with launches := t.launches ++ [readRecord s core w.team addr] })) ∧
    (∀ h g, t.launches.length < 8 → t.grid = some h → find? s.grids h = some g →
      releaseEffect s core slot (.launch addr) =
        some ((s.setTeam w.team { t with launches := t.launches ++ [readRecord s core w.team addr] }).setGrid h
          { g with liveChildren := g.liveChildren + 1 })) ∧
    (∃ s', releaseEffect s core slot (.trig lanes) = some s' ∧ SameBytes s s' ∧
      ∀ l, (s'.wave core slot).thread l =
        if l ∈ lanesOf lanes then { w.thread l with triggered := true } else w.thread l) ∧
    (c.len = 0 → releaseEffect s core slot (.copy c) = some s) ∧
    (c.len ≠ 0 → (k.copies.filter fun x => !x.active).length < 32 → (copyRanges c).length ≤ e.length → c.slot = slot →
      ∃ s', releaseEffect s core slot (.copy c) = some s' ∧ SameBytes s s' ∧ s'.fresh = s.fresh ∧
        (s'.wave core slot).thread c.lane = { w.thread c.lane with open_ := (w.thread c.lane).open_ ++ [c.id] } ∧
        (s'.core core).seq = k.seq + 1 ∧
        (s'.core core).copies.map (fun x => (x.op, x.entries)) =
          k.copies.map (fun x => (x.op, x.entries)) ++ [(c, e.take (copyRanges c).length)] ∧
        ∀ i, i < (copyRanges c).length → ∀ r, (copyRanges c)[i]? = some r → ∃ j, e[i]? = some j ∧
          let x := (s'.core core).lock j
          x.v = true ∧ x.dst = r.write ∧ x.eng = false ∧ x.wave = slot ∧ x.start = r.at_ ∧ x.len = r.len)

/-- `cwait` and `drain` (R193 to R196): a group none of whose threads has more unfinished batches than `cwait` allows, or each
of whose lanes finds none left of the copies that its `drain` waits for, goes on; else it waits. A `drain` waits for the
copies to its window that the core holds when it first issues. A finished batch with an error mark is the access violation 7
in its lowest lane, and the mark goes. -/
def Obligations.CopyWaits : Prop :=
  ∀ (s : State) (sw : Bool) (n : BitVec 3) (path : DrainPath) (l addr : Nat),
    let few : Prop := ∀ l ∈ s.lanes, unfinished (s.cw.thread l) ≤ n.toNat
    let clear : Prop := ∀ l ∈ s.lanes, batchError (s.cw.thread l) = none
    let win : Win := match path with
      | .global => .global | .diePad => .pad | .cluster => .cluster | .scratch => .scratch | .host => .host
    let here := (s.cc.copies.filter fun c => windowOf c.op.dst == some win).map (·.op.id)
    let left (l : Nat) : List Nat := match (s.cw.thread l).hold with
      | .drain ids => here.filter ids.contains
      | _ => here
    let drained : Prop := ∀ l ∈ s.lanes, left l = []
    let goes (i : Instr) : Prop := ∃ t, exec i s = .next t ∧ OnlyWave s t ∧ SameRegs s t ∧ GoesOn s t false
    let traps (i : Instr) : Prop :=
      exec i s = .next (trapAt 8 7 addr (s.setCw (s.cw.setThread l (clearBatchError (s.cw.thread l)))))
    let mark : Prop := s.lanes.find? (fun l => (batchError (s.cw.thread l)).isSome) = some l ∧
      batchError (s.cw.thread l) = some addr ∧ s.cw.ckpt = none ∧ s.cw.trapReq = none
    (few → clear → goes (.cwait sw n)) ∧ (few → mark → traps (.cwait sw n)) ∧
    (¬ few → exec (.cwait sw n) s = .next (holdGroup (.batches s.cur.active n.toNat) s)) ∧
    (drained → clear → goes (.drain sw path)) ∧ (drained → mark → traps (.drain sw path)) ∧
    (¬ drained → ∃ t, exec (.drain sw path) s = .next t ∧ OnlyWave s t ∧ SameRegs s t ∧
      ∀ l, t.cw.thread l = if l ∈ s.lanes then { s.cw.thread l with hold := .drain (left l) } else s.cw.thread l)

/-! ### Tile handles, quartets and activation tables (R131 to R135, R200 to R215) -/

/-- `thset` (R202): the handle takes the 128 bits of its four uniform registers and becomes valid, once, if every check
passes; else the first failing check traps. -/
def Obligations.HandleResults : Prop :=
  ∀ (s : State) (sw : Bool) (h quad : BitVec 4),
    let v : BitVec 128 := s.cw.uni (4 * quad.toNat + 3) ++ s.cw.uni (4 * quad.toNat + 2) ++
      s.cw.uni (4 * quad.toNat + 1) ++ s.cw.uni (4 * quad.toNat)
    (checkHandle s v = none → ∃ t, exec (.thset sw h quad) s = .next t ∧ SameBytes s t ∧ SameRegs s t ∧
      (∀ n, find? t.ct.handles n = if n = h.toNat then some v else find? s.ct.handles n) ∧ GoesOn s t false ∧
      t = (s.setTeam s.cw.team { s.ct with handles := t.ct.handles }).setCw t.cw ∧
      t.cw = { s.cw with threads := t.cw.threads }) ∧
    (∀ x, checkHandle s v = some x → exec (.thset sw h quad) s = .next (raiseTrapWith x true [] s)) ∧
    (handleReserved v = true → checkHandle s v = some { cause := 0x0F, sub := 4, addr := 0 })

/-- `mma`, `acc.zero` and `acc.rel` (R204, R205, R211, R214): each wave of the quartet waits at its copy. With the fourth
copy, all alike, an `mma` takes its place in the engine's queue and the waves stay held; `acc.zero` writes −0.0 to every
element of the slot, binding a free one where the tag is unbound and no earlier binding waits for one, or waits for one there;
`acc.rel` unbinds the tag, and the four waves go on. Copies that differ are the illegal-convergence trap 3 in all of them.
`acc.rd` (R212, R213): with every lane of a quartet's four waves, no abort mark, a tag below `.slots` that is bound and no
incomplete `mma` on it, 16 registers from D on are outstanding, the lane's part of its quarter's rows; a word of them in error
is a data loss (R401).
The traps of R204, R210 and R215 of `acc.rd`, `acc.zero`, `acc.rel` and `mma` otherwise: no quartet; a lane of the four waves
not active, one of another wave that has exited among them (DEDUCED, log 40); for the `acc` instructions an abort mark, which
goes with its trap, unless that must wait, and an incomplete `mma`; a tag at or above `.slots`. -/
def Obligations.QuartetResults : Prop :=
  (∀ (s : State) (sw fold : Bool) (tag : BitVec 3) (h b : BitVec 4) (fmt : MmaFmt) (row0 kb : BitVec 16) (q : Nat),
     let k := tag.toNat
     let core := s.cur.core
     let s1 := holdGroup .quartet (s.setCw { s.cw with rdv := some s.cur })
     let slots := quartetSlots s1 core s.cw.team q
     let copies := slots.filterMap fun n => (s1.wave core n).rdv
     let same : Prop := ∀ c ∈ copies, c.w0 = s.cur.w0 ∧ secondWord c.w0 c.w1 = secondWord s.cur.w0 s.cur.w1
     let mma : Instr := .mma sw tag h b fmt fold row0 kb
     let idle : Prop := find? s.cw.aborts k = none ∧ mmaPending s.cc s.cw.team q k = false
     let key := 8 * q + k
     let queue (x : State) (w : MmaWait) : State :=
       x.setCore core { x.core core with mmaWait := insertWait s.cc.mmaWait w }
     let wait : MmaWait :=
       { team := s.cw.team, quartet := q, tag := k, zero := false, at_ := s.cc.clk.toNat, slot0 := slots.headD 0, due := none
         handle := h.toNat, b := 8 * b.toNat, fmt := fmt, fold := fold, row0 := row0.toNat, kb := kb.toNat }
     s.cw.quartet = some q → s.cur.active = BitVec.allOnes 64 → quartetWhole s core s.cw.team q = true → k < s.ct.slots →
     (copies.length < 4 → exec mma s = .next s1 ∧
       (idle → exec (.accZero sw tag) s = .next s1 ∧ exec (.accRel sw tag) s = .next s1)) ∧
     (4 ≤ copies.length → ¬ same →
       let t := trapQuartet core { cause := 4, sub := 3, addr := 0 } slots s1
       exec mma s = .next t ∧ (idle → exec (.accZero sw tag) s = .next t ∧ exec (.accRel sw tag) s = .next t)) ∧
     (4 ≤ copies.length → same →
       exec mma s = .next (queue s1 wait) ∧
       (idle → ∀ n, (find? s.ct.tags key = some n ∨ (find? s.ct.tags key = none ∧ freeSlot s.cc = some n ∧ dueFirst s.cc.mmaWait = none)) →
         ∃ t, exec (.accZero sw tag) s = .next t ∧ find? t.ct.tags key = some n ∧ SameBytes s t ∧ SameRegs s t ∧
           (∀ e, slotElem t.cc n e = 0x80000000) ∧ (∀ m e, m ≠ n → slotElem t.cc m e = slotElem s.cc m e) ∧
           ∀ x ∈ slots, (t.wave core x).rdv = none) ∧
       (idle → find? s.ct.tags key = none → (freeSlot s.cc = none ∨ (dueFirst s.cc.mmaWait).isSome = true) →
         exec (.accZero sw tag) s = .next (queue { s1 with fresh := s.fresh + 1 } { wait with
           zero := true, due := some s.fresh, handle := 0, b := 0, fmt := .dx8, fold := false, row0 := 0, kb := 0 })) ∧
       (idle → ∀ n, find? s.ct.tags key = some n →
         ∃ t, exec (.accRel sw tag) s = .next t ∧ find? t.ct.tags key = none ∧ SameBytes s t ∧ SameRegs s t ∧
           ∀ x ∈ slots, (t.wave core x).rdv = none) ∧
       (idle → find? s.ct.tags key = none →
         exec (.accRel sw tag) s = .next (trapQuartet core { cause := 0x0F, sub := 0, addr := 0 } slots s1)))) ∧
  (∀ (s : State) (sw fold : Bool) (tag d : BitVec 3) (h b : BitVec 4) (fmt : MmaFmt) (row0 kb : BitVec 16) (q n : Nat),
     let k := tag.toNat
     let i : Instr := .accRd sw tag d
     let mma : Instr := .mma sw tag h b fmt fold row0 kb
     let at_ (l j : Nat) : Nat := 64 * (16 * s.cq + l / 4) + (l % 4) * 16 + j
     let bad : Prop := ∃ l ∈ s.lanes, ∃ j, j < 16 ∧ at_ l j ∈ (look ({} : AccSlot) s.cc.acc n).bad
     let all : Prop := s.cur.active = BitVec.allOnes 64 ∧ quartetWhole s s.cur.core s.cw.team q = true
     let whole : Prop := s.cw.quartet = some q ∧ all
     let busy := mmaPending s.cc s.cw.team q k
     (whole → find? s.cw.aborts k = none → k < s.ct.slots → busy = false → find? s.ct.tags (8 * q + k) = some n → ¬ bad →
       ∃ t ws, exec i s = .next t ∧ Outstanding s t false (16 * d.toNat) 16 (.slot n ws) ∧
         ∀ w r l, l < 64 → (Wave.writes ws w).reg r l =
           if 16 * d.toNat ≤ r ∧ r < 16 * d.toNat + 16 then
             slotElem s.cc n (at_ l (r - 16 * d.toNat)) else w.reg r l) ∧
     (whole → find? s.cw.aborts k = none → k < s.ct.slots → busy = false → find? s.ct.tags (8 * q + k) = some n → bad →
       exec i s = .next (trap 0x0D 0 s)) ∧
     (whole → find? s.cw.aborts k = none → k < s.ct.slots → busy = false → find? s.ct.tags (8 * q + k) = none →
       exec i s = .next (trap 0x0F 0 s)) ∧
     (∀ i : Instr, i = .accRd sw tag d ∨ i = .accZero sw tag ∨ i = .accRel sw tag →
       (whole → find? s.cw.aborts k = none → k < s.ct.slots → busy = true → exec i s = .next (trap 0x0F 1 s)) ∧
       (whole → find? s.cw.aborts k = none → s.ct.slots ≤ k → exec i s = .next (trap 0x0F 2 s)) ∧
       ∀ x, whole → find? s.cw.aborts k = some x → exec i s = .next (raiseTrapWith x true []
         (if trapMustWait s then s else s.setCw { s.cw with aborts := del s.cw.aborts k }))) ∧
     (whole → s.ct.slots ≤ k → exec mma s = .next (trap 0x0F 2 s)) ∧
     ∀ i : Instr, i = .accRd sw tag d ∨ i = .accZero sw tag ∨ i = .accRel sw tag ∨ i = mma →
       (s.cw.quartet = none → exec i s = .next (trap 4 0 s)) ∧
       (s.cw.quartet = some q → ¬ all → exec i s = .next (trap 4 2 s)))

/-- The activation tables (R131 to R135, R382): `atld` of a team that does not own the shadow bank takes it, cleared, and waits
25 clocks for that; then it writes it. `atsw` starts a switch and parks its group until the exchange, which, once no `atab` of
the quarter is in flight, swaps the banks with their owners and counts ATGEN; `atab` evaluates the bank that is active when it
issues, and is held, with its place in the order, during a switch and in its last clock, as a second `atsw` is during one
(DESIGN CHOICE, log 93). The owner traps of cause 0x11. -/
def Obligations.TableResults : Prop :=
  ∀ (s : State) (sw : Bool) (d : BitVec 7) (a b : Opnd) (core n : Nat),
    let Q := s.cc.quarter s.cq
    let clk := s.cc.clk.toNat
    let mine (x : Bank) : Prop := x.owner = some s.cw.team
    let quarterOnly (t : State) : Prop := SameBytes s t ∧ SameRegs s t ∧
      (∀ m, m ≠ s.cq → t.cc.quarter m = s.cc.quarter m) ∧ ∀ l, l ∉ s.lanes → t.cw.thread l = s.cw.thread l
    let wrote (k l : Nat) : Bool := decide ((opnd s a l).toNat = k)
    let held : Prop := Q.switching.isSome = true ∨ clk < Q.bankFree
    let inOrder : State := holdGroup (.bank s.fresh) { s with fresh := s.fresh + 1 }
    (mine Q.shadow → Q.clearEnd ≤ clk → ∃ t, exec (.atld sw a b) s = .next t ∧ quarterOnly t ∧ GoesOn s t false ∧
      (t.cc.quarter s.cq) = { Q with shadow := (t.cc.quarter s.cq).shadow } ∧ mine (t.cc.quarter s.cq).shadow ∧
      ∀ k, (t.cc.quarter s.cq).shadow.word k =
        match (s.lanes.filter (wrote k)).getLast? with
        | some l => if k ≤ 769 then opnd s b l else Q.shadow.word k
        | none => Q.shadow.word k) ∧
    (mine Q.shadow → clk < Q.clearEnd → exec (.atld sw a b) s = .next (holdGroup (.clear Q.clearEnd) s)) ∧
    (¬ mine Q.shadow → ∃ t, exec (.atld sw a b) s = .next t ∧ quarterOnly t ∧
      (t.cc.quarter s.cq) = { Q with shadow := { owner := some s.cw.team, words := [] }, clearEnd := clk + 25 } ∧
      ∀ l ∈ s.lanes, t.cw.thread l = { s.cw.thread l with hold := .clear (clk + 25) }) ∧
    (Q.switching = none → mine Q.shadow → ∃ t, exec (.atsw sw) s = .next t ∧ quarterOnly t ∧
      (t.cc.quarter s.cq) = { Q with switching := some s.cw.team } ∧
      ∀ l ∈ s.lanes, (t.cw.thread l).pc = s.cur.npc ∧ (t.cw.thread l).hold = .exchange Q.atgen) ∧
    (Q.switching = none → ¬ mine Q.shadow → exec (.atsw sw) s = .next (trap 0x11 1 s)) ∧
    (¬ held → mine Q.active → ∃ t ws, exec (.atab sw d a) s = .next t ∧ Outstanding s t false d.toNat 1 (.table ws) ∧
      ∀ w r l, l < 64 → (Wave.writes ws w).reg r l = if l ∈ s.lanes ∧ r = d.toNat then
        atabVal Q.active (Config.freeNat (64 * s.fresh + l)) (opnd s a l) else w.reg r l) ∧
    (¬ held → ¬ mine Q.active → exec (.atab sw d a) s = .next (trap 0x11 0 s)) ∧
    (held → exec (.atab sw d a) s = .next inOrder) ∧ (Q.switching.isSome = true → exec (.atsw sw) s = .next inOrder) ∧
    (((s.core core).quarter n).switching.isSome = true → atabInFlight (s.core core) n = false →
      let x := (s.core core).quarter n
      ∃ t, exec (.atswExchange core n) s = .next t ∧ t = s.setCore core (t.core core) ∧
        (t.core core).quarter n = { x with
          active := x.shadow, shadow := x.active, atgen := x.atgen + 1, switching := none
          bankFree := (s.core core).clk.toNat + 1 } ∧
        (∀ m, m ≠ n → (t.core core).quarter m = (s.core core).quarter m) ∧ (t.core core).waves = (s.core core).waves)

/-! ### Taking an exception and the return from it (R72, R114, R223 to R228) -/

/-- Entry into a handler (R225, R226): with no region, no trap in progress or waiting, no result of the group outstanding and
a handler address, the group's threads stand at it, and wait there for the frame's stores; every other live thread of the wave
is held; no register, predicate, %lr or FPST changes; and the wave's stores of the frame at TFB, behind those it has buffered,
give each field the value of R226. No byte of memory changes before they perform. A trap of a fetch gives the PC twice, and no
words or header. -/
def Obligations.ExceptionEntry : Prop :=
  ∀ (s : State) (t : TrapInfo) (fetched : Bool) (emu : List Write),
    let w := s.cw
    let c := s.cur
    let x := raiseTrapWith t fetched emu s
    let H := thdlOf s w &&& ~~~3#64
    let size := 0x340 + 256 * w.quota
    let npc := if fetched then c.npc else c.pc
    let nhdr := if c.isLast && fetched then c.npc - 4 else c.hdr
    let hd : Handler :=
      { frame := w.tfb.toNat, quota := w.quota, group := c.active, pc := c.pc, hdr := c.hdr, npc := npc, nhdr := nhdr }
    w.ckpt = none → w.trapReq = none → (t.cause = 0x0D → poisonRollsBack s w.team = none) → w.handler = none →
    w.outstanding c.active = false → thdlOf s w ≠ 0 →
    (∀ l, l < 64 → x.cw.thread l =
      let a := w.thread l
      if c.active.getLsbD l then { a with hold := .frame, pc := H + 4, hdr := H, owes := .entry }
      else if a.live then { a with trapHeld := true } else a) ∧
    SameRegs s x ∧ x.cw.handler = some hd ∧ SameBytes s x ∧ x = { s.setCw x.cw with fresh := x.fresh } ∧
    x.cw = { w with threads := x.cw.threads, handler := x.cw.handler, pass := 0, sbuf := x.cw.sbuf } ∧
    ∃ es, x.cw.sbuf = w.sbuf ++ es ∧ FrameStores es c.active w.tfb.toNat size ∧
      let rd (off n v : Nat) : Prop := storedVal es (w.tfb.toNat + off) n = some (v % 256 ^ n)
      rd 0x00 4 t.cause ∧ rd 0x04 4 t.sub ∧ rd 0x08 8 c.pc.toNat ∧ rd 0x10 8 npc.toNat ∧
      rd 0x18 4 (if fetched then c.w0.toNat else 0) ∧
      rd 0x1C 4 (if fetched ∧ twoWord (opcodeOf c.w0.toNat) = true then c.w1.toNat else 0) ∧
      rd 0x20 4 (if fetched then codeWord s c.core c.slot c.hdr.toNat else 0) ∧
      rd 0x24 4 (w.quota + 64 * 2 ^ 16) ∧ rd 0x28 8 t.addr ∧ rd 0x30 16 c.active.toNat ∧
      (∀ l, l < 64 → rd (0x40 + 4 * l) 4 (w.predWord l).toNat) ∧ (∀ o, 0x140 ≤ o → o < 0x240 → rd o 1 0) ∧
      (∀ i l, i < w.quota → l < 64 → rd (0x240 + 4 * (i * 64 + l)) 4 (w.reg i l).toNat) ∧
      ∀ n, n < 64 → rd (0x240 + 256 * w.quota + 4 * n) 4 (w.uni n).toNat

/-- A trap that cannot be taken yet (R72, R114): with a live region or a trap of the wave waiting, the group waits for the
commit and issues again; with results of the group outstanding the trap waits, and its event delivers it once they are
written; poison whose context is to be rolled back holds the group with no trap (R408).
A trap in a handler, and one of another cause than 0x02 with no handler address, ends the wave's grid with status 2 and
the trap that ended it (R228). -/
def Obligations.TrapWaits : Prop :=
  (∀ (s : State) (t : TrapInfo) (fetched : Bool) (emu : List Write) (core slot : Nat) (r : TrapReq),
     let w := s.wave core slot
     let x := raiseTrapWith t fetched emu s
     (s.cw.ckpt.isSome = true ∨ s.cw.trapReq.isSome = true → x = holdGroup .commit s) ∧
     (s.cw.ckpt = none → s.cw.trapReq = none → t.cause = 0x0D → (poisonRollsBack s s.cw.team).isSome = true →
       x = holdGroup .trapWait s) ∧
     (s.cw.ckpt = none → s.cw.trapReq = none → (t.cause = 0x0D → poisonRollsBack s s.cw.team = none) → s.cw.handler = none →
       s.cw.outstanding s.cur.active = true →
       OnlyWave s x ∧ SameRegs s x ∧
       x.cw.trapReq = some { info := t, group := s.cur.active, cur := s.cur, fetched := fetched, emu := emu } ∧
       ∀ l, x.cw.thread l = if l ∈ s.lanes then { s.cw.thread l with hold := .trapWait } else s.cw.thread l) ∧
     (w.trapReq = some r → w.ckpt = none → w.outstanding r.group = false →
       exec (.trapEntry core slot) s = .next { raiseTrapWith r.info r.fetched r.emu
         { s.setWave core slot { w with trapReq := none } with cur := r.cur } with cur := s.cur })) ∧
  (∀ (s : State) (t : TrapInfo) (fetched : Bool) (emu : List Write) (h : Nat) (g : Grid),
     let w := s.cw
     w.ckpt = none → w.trapReq = none → (t.cause = 0x0D → poisonRollsBack s w.team = none) →
     (w.handler.isSome = true ∨ (w.outstanding s.cur.active = false ∧ thdlOf s w = 0 ∧ t.cause ≠ 2)) →
     (s.team w.team).grid = some h → find? s.grids h = some g → g.st ≠ .ended → g.trap = none →
     ∃ g', find? (raiseTrapWith t fetched emu s).grids h = some g' ∧ g'.st = .ended ∧ g'.status = 2 ∧
       g'.trap = some (t, s.cur.pc.toNat, s.cur.core, w.wid))

/-- `eret` (R227, R228): with no trap in progress cause 0x01, subcode 9; with a live handler thread elsewhere, or none left,
the group waits; once every live one stands at an `eret`, they wait there for the frame's pages and tokens; a frame that cannot
be read gives its trap; else, the frame reading as `f`, each live lane of the trapping group whose bit of the frame's active
mask is set takes the frame's PC, predicates and registers, of those that the wave holds still (DEDUCED, log 37), one whose bit
is clear exits, the uniform registers are the frame's, the held threads are released, and no byte of memory changes. Where no
lane exits, and no arrival or trigger of the wave is complete, nothing else of the machine does. -/
def Obligations.ReturnResults : Prop :=
  ∀ (s : State) (sw : Bool) (h : Handler) (keys : List Nat) (c : Bool) (va : Nat) (tr : TrapInfo),
    let w := s.cw
    let f := readKeys s keys
    let rd (off : Nat) : Word := BitVec.ofNat 32 (f / 256 ^ off)
    let mask : Mask := BitVec.ofNat 64 (f / 256 ^ 0x30)
    let pc : DWord := BitVec.ofNat 64 (f / 256 ^ 8) &&& ~~~3#64
    let in_ (l : Nat) : Prop := h.group.getLsbD l = true ∧ (w.thread l).live = true
    let back (l : Nat) : Prop := in_ l ∧ mask.getLsbD l = true
    let stand : Prop := (∃ l, in_ l) ∧ ∀ l, in_ l → l ∈ s.lanes ∨ (w.thread l).hold = .eret
    let rows := min h.quota w.quota
    let stays (l : Nat) : Prop := l < 64 ∧ (w.thread l).live = true ∧ (in_ l → back l)
    let runs (l : Nat) : Prop := stays l ∧ (back l ∨ ∀ k, (w.thread l).hold ≠ .parked k)
    let x := park sw (holdGroup .eret s)
    let low := (lanesOf h.group).headD 0
    let left := (lanesOf h.group).filter fun l => (w.thread l).live
    let fate := frameFate x s.cur.core s.cur.slot low h.frame (0x340 + 256 * h.quota)
    let need := tokenKeys x s.cur.core s.cur.slot [{ lane := low, va := h.frame, keys := keys }]
    let waits (k : Hold) (y : State) : State := y.setCw (y.cw.mapThreads (fun _ b => { b with hold := k }) left)
    let fails (t : TrapInfo) : State := raiseTrapWith t true [] { x with cur := { s.cur with active := maskOf left } }
    let served : Prop := s.partOf s.ct ≠ none ∧ va / 65536 ∉ s.ct.faulted
    (w.handler = none → exec (.eret sw) s = .next (trap 1 9 s)) ∧
    (w.handler = some h → ¬ stand → (∃ l ∈ s.lanes, (w.thread l).live = true) → exec (.eret sw) s = .next x) ∧
    (w.handler = some h → stand → fate = .miss va → served → exec (.eret sw) s = .next (waits (.fault va 0) x)) ∧
    (w.handler = some h → stand → fate = .miss va → ¬ served →
      exec (.eret sw) s = .next (checkRun (fails { cause := 8, sub := 3, addr := va }))) ∧
    (w.handler = some h → stand → fate = .trap tr → exec (.eret sw) s = .next (checkRun (fails tr))) ∧
    (w.handler = some h → stand → fate = .ok keys c → (missingKey x.cc false need).isSome = true →
      exec (.eret sw) s = .next (waits (.tokens false need) (requestTokens x s.cur.core s.cur.slot false need))) ∧
    (w.handler = some h → stand → fate = .ok keys c → missingKey x.cc false need = none →
      s.hasWave s.cur.core s.cur.slot = true → (∃ l, stays l) → (s.strict = true → ∃ l, runs l) →
      ∃ t, exec (.eret sw) s = .next t ∧ SameBytes s t ∧ t.cw.handler = none ∧
        (∀ l, l < 64 →
          let b := t.cw.thread l
          (back l → b.live = true ∧ b.pc = pc ∧ b.owes = .resume ∧ b.hold = .none ∧ b.trapHeld = false ∧
            b.lr = (w.thread l).lr ∧ b.fpst = (w.thread l).fpst ∧
            (pc = h.pc → b.hdr = h.hdr) ∧ (pc ≠ h.pc → pc = h.npc → b.hdr = h.nhdr) ∧
            (∀ r, r < rows → t.cw.reg r l = rd (0x240 + 4 * (r * 64 + l))) ∧
            (∀ r, rows ≤ r → t.cw.reg r l = w.reg r l) ∧ t.cw.predWord l = (rd (0x40 + 4 * l)).setWidth 24) ∧
          (h.group.getLsbD l = true → ¬ back l → b.live = false) ∧
          (¬ back l → (∀ r, t.cw.reg r l = w.reg r l) ∧ t.cw.predWord l = w.predWord l)) ∧
        (∀ n, n < 64 → t.cw.uni n = rd (0x240 + 256 * h.quota + 4 * n)) ∧
        ((∀ l, in_ l → back l) → s.ct.core = some s.cur.core →
          (∃ l, stays l ∧ (w.thread l).triggered = false ∧ ∀ k, ((w.thread l).bar k).since = false) →
          OnlyWave s t ∧ ∀ l, l ∉ s.lanes → ¬ back l → t.cw.thread l = { w.thread l with trapHeld := false }))

/-! ### System instructions and the clause-entry step (R28 to R33, R62 to R64, R221 to R231) -/

/-- `rdsr` (R28, R221): the 64 bits of the register, per lane for FPMODE and FPST, in a pair of lane registers of each lane of
Active, or once, for the lowest lane, in a uniform pair.
`wrsr` (R28 to R33, R40, R222): FPMODE and FPST take each lane's value, a register of wider scope the lowest lane's, with
reserved bits dropped; a read-only register does not change; CORECTL's two bits are set and never cleared; fw0 and fw1 take
no write (a choice of the model, log 18). No register of the wave and no byte changes.
`trap` raises cause 0x0E with its code as the subcode (R224); `rmark` makes the interval of its context begin to close
and parks its group until it has (R231), and goes on in firmware's team, which has no context. -/
def Obligations.SystemRegisters : Prop :=
  (∀ (s : State) (sw : Bool) (d : Pair) (sr : SysReg),
     let v (l : Nat) : DWord := match sr with
       | .wavew => 64
       | .fpmode => (s.cw.thread l).rm.setWidth 64
       | .fpst => (s.cw.thread l).fpst.setWidth 64
       | .tfb => s.cw.tfb
       | .thdl => ((s.gridOf s.ct).map (·.thdl)).getD s.ct.fwThdl
       | .ckst => s.cw.rb ++ s.cw.cm
       | .clk => s.cc.clk
       | .quota => BitVec.ofNat 64 s.cw.quota
       | .atgen => (s.cc.quarter s.cq).atgen
       | .lkcnt => BitVec.ofNat 64 s.ct.lkcnt
       | .depth => BitVec.ofNat 64 (((s.gridOf s.ct).map (·.depth)).getD 0 % 2 ^ 64)
       | .rivl => ((ctxOf s s.ct).map fun k => (s.context k).rivl).getD 0
       | .fw n => fwRead s.cc n.toNat
     let half (x : DWord) (i : Nat) : Word := BitVec.ofNat 32 (x.toNat / 2 ^ (32 * i))
     ∃ t, exec (.rdsr sw d sr) s = .next t ∧ ThreadsAfter s t noFlags ∧ OnlyWave s t ∧
       t.cw = { s.cw with regs := t.cw.regs, unif := t.cw.unif, bad := t.cw.bad, threads := t.cw.threads } ∧
       (∀ r l, l < 64 → t.cw.reg r l = match d with
         | .lane k => if l ∈ s.lanes ∧ 2 * k.toNat ≤ r ∧ r < 2 * k.toNat + 2 then half (v l) (r - 2 * k.toNat) else s.cw.reg r l
         | .unif _ => s.cw.reg r l) ∧
       ∀ r, t.cw.uni r = match d with
         | .lane _ => s.cw.uni r
         | .unif k => if 2 * k.toNat ≤ r ∧ r < 2 * k.toNat + 2 then half (v s.lowLane) (r - 2 * k.toNat) else s.cw.uni r) ∧
  (∀ (s : State) (sw : Bool) (a : Opnd) (n : BitVec 4) (h : Nat) (g : Grid),
     let v := opnd64 s a s.lowLane
     let W (sr : SysReg) (P : State → Prop) : Prop :=
       ∃ t, exec (.wrsr sw sr a) s = .next t ∧ SameBytes s t ∧ SameRegs s t ∧ P t
     let wave (t : State) (w : Wave) : Prop := OnlyWave s t ∧ t.cw = { w with threads := t.cw.threads } ∧ ThreadsAfter s t noFlags
     let core (t : State) (c : Core) : Prop := t = (s.setCore s.cur.core c).setCw t.cw ∧ ThreadsAfter s t noFlags
     let per (t : State) (x : Nat → Thread) : Prop := OnlyWave s t ∧ ∀ l, if l ∈ s.lanes then WentOn s (x l) (t.cw.thread l) 0
       else t.cw.thread l = s.cw.thread l
     W .fpmode (fun t => per t fun l => { s.cw.thread l with rm := (opnd64 s a l).setWidth 2 }) ∧
     W .fpst (fun t => per t fun l => { s.cw.thread l with fpst := (opnd64 s a l).setWidth 6 }) ∧
     W .tfb (fun t => wave t { s.cw with tfb := v }) ∧
     W .ckst (fun t => wave t { s.cw with cm := v.setWidth 32, rb := (v >>> 32).setWidth 32 }) ∧
     W .clk (fun t => core t { s.cc with clk := v }) ∧
     W .atgen (fun t => core t (s.cc.setQuarter s.cq { s.cc.quarter s.cq with atgen := v })) ∧
     W .lkcnt (fun t => t = (s.setTeam s.cw.team { s.ct with lkcnt := v.toNat % 2 ^ 32 }).setCw t.cw ∧ ThreadsAfter s t noFlags) ∧
     W (.fw n) (fun t => core t (if n.toNat ≤ 1 then s.cc
       else if n.toNat = 3 then { s.cc with corectl := s.cc.corectl ||| (v &&& 3) }
       else { s.cc with fw := put s.cc.fw n.toNat v })) ∧
     (∀ sr ∈ [SysReg.wavew, .quota, .depth], W sr fun t => wave t s.cw) ∧
     (s.ct.grid = some h → find? s.grids h = some g →
       W .thdl (fun t => t = (s.setGrid h { g with thdl := v }).setCw t.cw ∧ ThreadsAfter s t noFlags) ∧
       W .rivl (fun t => t = (s.setContext g.ctx { s.context g.ctx with rivl := v }).setCw t.cw ∧ ThreadsAfter s t noFlags)) ∧
     (s.ct.grid = none →
       W .thdl (fun t => t = (s.setTeam s.cw.team { s.ct with fwThdl := v }).setCw t.cw ∧ ThreadsAfter s t noFlags) ∧
       W .rivl (fun t => wave t s.cw))) ∧
  (∀ (s : State) (sw : Bool) (code : BitVec 16) (k : Nat),
     exec (.trap sw code) s = .next (trap 0x0E code.toNat s) ∧
     (ctxOf s s.ct = some k → ∃ t, exec (.rmark sw) s = .next t ∧ SameBytes s t ∧ SameRegs s t ∧
       t = (s.setContext k { s.context k with closing := true }).setCw t.cw ∧
       ∀ l, if l ∈ s.lanes then (t.cw.thread l).pc = s.cur.npc ∧ (t.cw.thread l).hold = .rmark
         else t.cw.thread l = s.cw.thread l) ∧
     (ctxOf s s.ct = none → ∃ t, exec (.rmark sw) s = .next t ∧ OnlyWave s t ∧ SameRegs s t ∧ ThreadsAfter s t noFlags))

/-- The clause-entry step (R62 to R64): with the header's waits met, each thread that passes the guard has taken the step, and
each that fails it stands at the next clause and owes its entry. A CK header opens a checkpoint at the group's PC when a
thread passes and one arrives other than by a resume; with one live, or an uncached load outstanding, the threads that passed
wait, and owe no more than the opening (R197, R291). A header with WR set and results outstanding, one with WM set and a
matrix operation of the quartet not complete, and one with WB set and more batches unfinished than its BN, hold the group; a
word that is no header traps. -/
def Obligations.ClauseEntry : Prop :=
  ∀ (s : State) (h : Header),
    let w := s.cw
    let hdr := decodeHeader (codeWord s s.cur.core s.cur.slot s.cur.hdr.toNat)
    let ids := w.resultIds s.cur.active
    let many : Prop := ∃ l ∈ s.lanes, h.bn < unfinished (w.thread l)
    let wr : Prop := h.wr = true ∧ ids ≠ []
    let engines : Prop := (h.wm = true ∧ matrixBusy s = true) ∨ (h.wb = true ∧ many)
    let pass (l : Nat) : Bool := decide ((w.thread l).owes = .open_) || match h.gp with
      | none => true
      | some p => w.pred l p.val != h.gs
    let next : DWord := BitVec.ofNat 64 (clauseEnd (codeWord s s.cur.core s.cur.slot) h.n (s.cur.hdr.toNat + 4))
    let arrives : Prop := ∃ l ∈ s.lanes, (w.thread l).owes = .entry ∨ (w.thread l).owes = .open_
    let opens : Prop := h.ck = true ∧ arrives ∧ ∃ l ∈ s.lanes, pass l = true
    let waits : Prop := opens ∧ (w.ckpt.isSome = true ∨ w.uncLoad = true)
    (hdr = none → exec .clauseEntry s = .next (trap 1 6 s)) ∧
    (hdr = some h →
      (wr → ∃ t, exec .clauseEntry s = .next t ∧ OnlyWave s t ∧ SameRegs s t ∧
        ∀ l, t.cw.thread l = if l ∈ s.lanes then { w.thread l with wait := ids } else w.thread l) ∧
      (¬ wr → engines →
        exec .clauseEntry s = .next (holdGroup (.header s.cur.active h.wm (if h.wb then some h.bn else none)) s)) ∧
      (¬ wr → ¬ engines → (h.wm = true → w.aborts = []) → (h.wb = true → ∀ l ∈ s.lanes, batchError (w.thread l) = none) →
        ∃ t, exec .clauseEntry s = .next t ∧ OnlyWave s t ∧ SameRegs s t ∧
          (∀ l, l ∈ s.lanes → pass l = true → ¬ waits →
            t.cw.thread l = { w.thread l with owes := .nothing, hold := .none, demoted := false }) ∧
          (∀ l, l ∈ s.lanes → pass l = true → waits →
            t.cw.thread l = { w.thread l with owes := .open_, hold := .ckpt, demoted := false }) ∧
          (∀ l, l ∈ s.lanes → pass l = false → t.cw.thread l =
            { w.thread l with pc := next + 4, hdr := next, owes := .entry, hold := .none, demoted := false }) ∧
          (∀ l, l ∉ s.lanes → t.cw.thread l = w.thread l) ∧
          (opens → ¬ waits →
            t.cw.ckpt.isSome = true ∧ t.cw.ckpt.map (·.at_) = some s.cur.pc ∧ t.cw.region = 0) ∧
          (¬ opens ∨ waits → t.cw.ckpt = w.ckpt)))

/-! ### Events of a core (R69, R160, R180, R294 to R302, R356) -/

/-- The commit instant (R296, R301): a region whose loads have returned, whose older stores have performed and whose tokens are
held, none of its marks lost, commits, where each of its entries may perform in program order; no effect being held, the
region, its marks and its shadows are gone, and CKST.CM adds 1. The oldest effect held, issued outside a region, is released
once nothing older is unperformed.
A rollback (R297, R302): a region with a lost mark is discarded; threads, predicates, registers and uniform registers are
the checkpoint's, each thread resuming at its instruction; buffered stores, effects and results of the region go, the older
ones stay; CKST.RB adds 1, the wave's marks go, and no byte of memory changes. -/
def Obligations.CommitAndRollback : Prop :=
  (∀ (s s2 : State) (core slot : Nat) (e : Held) (r : List Held),
     let w := s.wave core slot
     (∀ x, gathered s core slot = true → performAll core slot w.sbuf s = .ok x → w.effects = [] →
       ∃ t, exec (.commitInstant core slot) s = .next t ∧ t.mem = x.mem ∧
         (w.sbuf = [] → SameBytes s t ∧ (t.wave core slot).regs = w.regs ∧ (t.wave core slot).threads = w.threads) ∧
         (t.wave core slot).ckpt = none ∧ (t.wave core slot).region = 0 ∧
         (t.wave core slot).cm = (x.wave core slot).cm + 1 ∧ (t.wave core slot).rollbacks = 0 ∧
         (t.wave core slot).cautious = false ∧ (∀ p ∈ (t.wave core slot).pend, p.spec = false) ∧
         ∀ m ∈ (t.core core).marks, m.slot ≠ slot) ∧
     (w.effects = e :: r → e.spec = false → olderPerformed w e.id = true → releaseEffect s core slot e.eff = some s2 →
       exec (.commitInstant core slot) s = .next (s2.setWave core slot { s2.wave core slot with
         effects := (s2.wave core slot).effects.filter fun x => x.id ≠ e.id }))) ∧
  (∀ (s : State) (core slot : Nat) (k : Checkpoint),
     let w := s.wave core slot
     w.ckpt = some k → w.lost = true →
     ∃ t, exec (.rollback core slot) s = .next t ∧ SameBytes s t ∧ t = s.setCore core (t.core core) ∧
       (let x := t.wave core slot
        x.regs = k.rows ∧ x.unif = k.unif ∧ x.preds = k.preds ∧ x.ckpt = none ∧ x.lost = false ∧ x.rb = w.rb + 1 ∧
        x.sbuf = w.sbuf.filter (fun e => !e.spec) ∧ x.pend = w.pend.filter (fun p => !p.spec) ∧
        x.effects = w.effects.filter (fun e => !e.spec) ∧ x.region = 0 ∧
        x.rollbacks = (if k.at_ = w.lastAt then w.rollbacks + 1 else 1) ∧
        (4 ≤ x.rollbacks → x.cautious = true) ∧
        (∀ l, l < 64 → let a := look k.base k.threads l
          (x.thread l).pc = a.pc ∧ (x.thread l).hdr = a.hdr ∧ (x.thread l).lr = a.lr ∧ (x.thread l).fpst = a.fpst ∧
          (x.thread l).live = a.live ∧ (x.thread l).owes = .resume) ∧
        ∀ m, m ∈ (t.core core).marks ↔ m ∈ (s.core core).marks ∧ m.slot ≠ slot))

/-- A bin forms a wave (R14, R160, R356): of its oldest 64 entries once it holds 64, or has been due since an expiry that
found no room; at its timer's expiry of all it holds. The wave stands at the bin's entry in the chosen slot, lane i with
entry i as %spawn.arg, other lanes exited, registers 0 but for s0:s1, its lane-private block written 0 (log 21). An expiry
with no room makes the bin due. -/
def Obligations.SpawnResults : Prop :=
  ∀ (s : State) (core n slot at_ : Nat) (b : Bin),
    let c := s.core core
    let t0 := s.team b.team
    let wid := spawnWid s core b.team
    let room : Prop := spawnSlot s core t0.quota = some slot ∧ wid < 64 ∧
      firstFit (scratchUsed s core) scratchBytes (64 * t0.lpriv) = some at_
    let formed (t : State) (due : Bool) (ex : Option Nat) : Prop :=
      (t.wave core slot).team = b.team ∧ (t.wave core slot).wid = wid ∧ (t.wave core slot).quota = t0.quota ∧
      (t.wave core slot).quartet = none ∧
      (∀ l, l < 64 → let x := (t.wave core slot).thread l
        x.live = decide (l < b.args.length) ∧ x.pc = b.entry + 4 ∧ x.hdr = b.entry ∧ x.owes = .entry ∧
        (l < b.args.length → x.arg = b.args.getD l 0)) ∧
      (∀ r l, (t.wave core slot).reg r l = 0) ∧ (∀ r, 2 ≤ r → (t.wave core slot).uni r = 0) ∧
      (∀ o, o < 64 * t0.lpriv → readByte t (scratchKey core (at_ + o)) = 0) ∧
      SameBytesBut ((List.range (64 * t0.lpriv)).map fun o => scratchKey core (at_ + o)) s t ∧
      find? (t.core core).bins n = (match b.args.drop 64 with
        | [] => none
        | r => some { b with args := r, dueWave := due, expires := ex })
    find? c.bins n = some b →
    (room → (b.dueWave = true ∨ 64 ≤ b.args.length) →
      ∃ t, exec (.spawnWaveFormation core n) s = .next t ∧ formed t false b.expires) ∧
    (∀ clk, b.expires = some clk → clk ≤ c.clk.toNat →
      (room → ∃ t, exec (.spawnBinTimerExpiry core n) s = .next t ∧ formed t false none) ∧
      (spawnSlot s core t0.quota = none →
        exec (.spawnBinTimerExpiry core n) s =
          .next (s.setCore core { c with bins := put c.bins n { b with expires := none, dueWave := true } })))

/-! ### The engines (R103 to R106, R188 to R193, R201, R206 to R210, R369 to R381) -/

/-- The copy engine, for a copy whose thread lives (R188, R191 to R194, R375, R377, R381): an active copy whose bytes have all
moved by the core's clock, whose ranges translate, that no earlier operation of the core conflicts with, whose destination no
fetcher of another core holds (R209), of no line of a lost chip, and whose lines' tokens can be gathered, completes as one
event: its destination, and its metadata where it compacts, hold the bytes made of its source; no other byte changes; where a
byte of its source is poisoned, every unit it writes is (R270). One that meets a failing range aborts: no byte changes, and its
batch, or its thread's open copies, carries an error mark. Either way it leaves the queue, its locks go and its batch counts it
out. -/
def Obligations.CopyEngine : Prop :=
  ∀ (s s1 : State) (core n addr : Nat) (c : Copy) (keys : List (List Nat)),
    let now := syncCopies s core
    let op := c.op
    let w := s.wave core op.slot
    let x := w.thread op.lane
    let part (i : Nat) : List Nat := keys.getD i []
    let md := if op.xf = 2 then part 2 else []
    let source := part 0 ++ if op.xf = 1 then part 2 else []
    let out := copyBytes op.xf ((part 0).map (readByte s)) (if op.xf = 1 then (part 2).map (readByte s) else [])
    let left (t : State) : Prop :=
      (∀ y ∈ (t.core core).copies, y.op.id ≠ op.id) ∧ (∀ i ∈ c.entries, ((t.core core).lock i).v = false) ∧
      (∀ b ∈ ((t.wave core op.slot).thread op.lane).batches, op.id ∉ b.copies) ∧
      op.id ∉ ((t.wave core op.slot).thread op.lane).open_
    (now.core core).copies[n]? = some c → c.active = true → s.hasWave core op.slot = true → w.serial = op.wave →
    x.live = true → copyMiss now core c = none →
    (c.left = 0 → op.xf < 3 → op.len ≠ 0 → op.len % (copyAlign op.xf).2.2 = 0 →
      blockedBy now (now.core core) op.team c.reg (copyRanges op) = false →
      (copyRanges op).mapM (rangeKeys now (copyWho now core op)) = .ok keys →
      fetcherHolds now (some core) ((part 1 ++ md).map (· / 4)) = false →
      engineGather now (now.partOf (now.team op.team)) keys.flatten = some s1 → (part 1 ++ md).Nodup →
      (∀ a ∈ part 1 ++ md, lostPA s a = false) →
      ∃ t, exec (.copyCompletion core n) s = .next t ∧ left t ∧
        (∀ i, i < (part 1).length → readByte t ((part 1).getD i 0) = out.1.getD i 0) ∧
        (∀ i, i < md.length → readByte t (md.getD i 0) = out.2.1.getD i 0) ∧ SameBytesBut (part 1 ++ md) s t ∧
        ((firstPoison s1 source).isSome = true → ∀ a ∈ part 1 ++ md, poisonUnit a ∈ t.poison)) ∧
    (copyFailure now core c = some addr →
      ∃ t, exec (.copyAbort core n addr) s = .next t ∧ left t ∧ SameBytes s t ∧
        (op.id ∈ x.open_ → ((t.wave core op.slot).thread op.lane).openErr.isSome = true) ∧
        ∀ b ∈ x.batches, op.id ∈ b.copies → ∃ b' ∈ ((t.wave core op.slot).thread op.lane).batches, b'.err.isSome = true)

/-- The matrix engine (R103, R206 to R211, R369 to R374, R379, R381, R401). A slot that is free goes to the binding that became
due first; else the first waiting `mma` that can go on does: one that finds no slot becomes due, one that finds no entry for its
lock is passed over, and one that finds both is accepted into a free stage, with its tag's slot, a lock on A's bytes and B as
the four waves hold it. Its waves go on once B is read; the tile is read as one event, and the fetcher then holds a token of its
words; the earliest operation starts once both operands are there; at its completion, if nothing makes it abort, element (i, j)
of the slot is the sum of R103 onto the old element, or onto −0.0 where it folds, no other slot that is bound changes, the lock
and the stage are free, and the quarters whose groups failed twice are fenced. A first mismatch of a group runs it again; an
abort leaves the slot and gives each wave of the quartet its mark. No byte of memory changes. -/
def Obligations.MatrixEngine : Prop :=
  ∀ (s s1 : State) (core stage slot group cause addr : Nat) (w : MmaWait) (ws vs : List MmaWait) (m : MmaOp) (ms : List MmaOp)
    (h : BitVec 128) (blocks : List (Nat × List Nat)),
    let c := s.core core
    let clk := c.clk.toNat
    let t0 := s.team w.team
    let key := 8 * w.quartet + w.tag
    let slots := quartetSlots s core w.team w.quartet
    let range := tileRange h w.fmt w.row0 w.kb
    let due := dueFirst c.mmaWait
    let held : Prop := w.at_ < clk ∧ ∃ n, c.wake = some n ∧ clk < n
    let turned (x : TrapInfo) : State := trapQuartet core x slots (dropWait s core w)
    let waits := quartetSlots s core m.team m.quartet
    let keys := blocks.flatMap (·.2)
    let n := (m.replays.filter (· == group)).length
    let only (t : State) (y : MmaOp) : Prop :=
      (t.core core).mmas.map (·.reg) = c.mmas.map (·.reg) ∧ (∀ z ∈ (t.core core).mmas, z.reg = m.reg → z = y) ∧
      ∀ z ∈ c.mmas, z.reg ≠ m.reg → z ∈ (t.core core).mmas
    let gone (t : State) : Prop := (∀ z ∈ (t.core core).mmas, z.reg ≠ m.reg) ∧
      ∀ i, m.lock = some i → ((t.core core).lock i).v = false
    let bound (k : Nat) : Prop := ∀ a, find? c.acc k = some a → a.releasing = false
    let kept (t : State) (k : Nat) : Prop := ∀ e, slotElem (t.core core) k e = slotElem c k e
    (c.mmaWait = ws ++ w :: vs → (∀ x ∈ ws, tryAccept core s x = none) → w.zero = false → (due = none ∨ freeSlot c = none) →
      freeStage c = some stage →
      (find? t0.tags key = none → freeSlot c = none → w.due = none →
        exec (.mmaAccept core) s = .next (setDue s.draw.2 core w (some s.draw.1))) ∧
      (find? t0.tags key = some slot → find? t0.handles w.handle = some h → handleFmt h = some w.fmt → range.isSome = true →
        lockEntryFor c t0 w.quartet = none → tryAccept core s w = none) ∧
      (find? t0.tags key = some slot ∨ (find? t0.tags key = none ∧ freeSlot c = some slot) →
        (find? t0.handles w.handle = none → exec (.mmaAccept core) s = .next (turned { cause := 0x0F, sub := 3, addr := 0 })) ∧
        (find? t0.handles w.handle = some h → handleFmt h ≠ some w.fmt → ¬ held →
          exec (.mmaAccept core) s = .next (turned { cause := 0x0F, sub := 5, addr := 0 })) ∧
        (find? t0.handles w.handle = some h → handleFmt h = some w.fmt →
          (range = none ∨ (¬ held ∧ (lockEntryFor c t0 w.quartet).isSome = true)) →
          ∃ t op, exec (.mmaAccept core) s = .next t ∧ SameBytes s t ∧
            (t.core core).mmaWait = c.mmaWait.filter (fun x => decide (x ≠ w)) ∧
            (t.core core).mmas = c.mmas ++ [op] ∧ op.team = w.team ∧ op.quartet = w.quartet ∧ op.tag = w.tag ∧
            op.slot = slot ∧ op.stage = stage ∧ op.fmt = w.fmt ∧ op.fold = w.fold ∧ op.handle = h ∧ op.row0 = w.row0 ∧
            op.kb = w.kb ∧ op.b = readB s core slots w.b w.fmt ∧ op.a = none ∧ op.bRead = false ∧ op.started = false ∧
            op.acceptAt = clk ∧ find? (t.team w.team).tags key = some slot ∧
            match range with
            | none => op.lock = none
            | some r => op.lock = lockEntryFor c t0 w.quartet ∧ ∀ i, op.lock = some i →
                let y := (t.core core).lock i
                y.v = true ∧ y.dst = false ∧ y.eng = true ∧ y.start = r.at_ ∧ y.len = r.len))) ∧
    (due = some w → find? t0.tags key = none → freeSlot c = some slot →
      ∃ t, exec (.mmaAccept core) s = .next t ∧ SameBytes s t ∧ find? (t.team w.team).tags key = some slot ∧
        (∀ e, slotElem (t.core core) slot e = 0x80000000) ∧
        (t.core core).mmaWait = if w.zero then c.mmaWait.filter fun x => decide (x ≠ w)
          else c.mmaWait.map fun x => if x = w then { x with due := none } else x) ∧
    ((c.mmas.find? fun m => m.stage == stage && !m.bRead) = some m → m.acceptAt + (mmaBlockLen m.fmt + 3) / 4 ≤ clk →
      (∀ k ∈ waits, ∀ r, (s.wave core k).rdv = some r → r.core = core ∧ r.slot = k) →
      ∃ t, exec (.mmaBReadEnd core stage) s = .next t ∧ SameBytes s t ∧ only t { m with bRead := true } ∧
        ∀ k ∈ waits, ∀ r, (s.wave core k).rdv = some r → (t.wave core k).rdv = none ∧
          ∀ l ∈ lanesOf r.active, ((t.wave core k).thread l).pc = r.npc ∧ ((t.wave core k).thread l).hold = .none) ∧
    (fetching c = some m → m.stage = stage → fetchBlocked s core m = false → tileKeys s core m = .ok blocks →
      fetchEnd c m ≤ clk → firstPoison s keys = none →
      engineGather s (s.partOf (s.team m.team)) keys = some s1 → firstPoison s1 keys = none →
      ∃ t, exec (.mmaAFetchDone core stage) s = .next t ∧ SameBytes s t ∧ only t { m with
        a := some (blocks.map fun b => (b.1, readKeys s b.2))
        held := ((keys.filter fun k => decide (k < onChip)).map (· / 4)).eraseDups }) ∧
    (c.mmas = m :: ms → m.a.isSome = true → m.bRead = true → m.started = false →
      ∃ t, exec (.mmaComputeStart core) s = .next t ∧ SameBytes s t ∧ only t { m with started := true, startAt := clk }) ∧
    (c.mmas = m :: ms → m.started = true → computeEnd m ≤ clk → abortCause s core m = none →
      (find? c.acc m.slot).isSome = true → bound m.slot →
      ∃ t, exec (.mmaComplete core) s = .next t ∧ SameBytes s t ∧ gone t ∧
        (∀ i j, i < 64 → j < 64 → slotElem (t.core core) m.slot (64 * i + j) =
          BitVec.ofNat 32 (mmaElem (if m.fold then 0x80000000 else (slotElem c m.slot (64 * i + j)).toNat)
            ((List.range 4).map fun b =>
              blockPairs m.fmt (look 0 (m.a.getD []) (4 * i + b)) (look 0 m.b (4 * j + b))))) ∧
        (find? (t.core core).acc m.slot).map (·.bad) = some [] ∧ (∀ q ∈ m.failed 2, q ∈ (t.core core).fenced) ∧
        (∀ k, k ≠ m.slot → bound k → kept t k) ∧ (t.core core).waves = c.waves) ∧
    (c.mmas = m :: ms → m.started = true → group < 4 → n < 3 →
      ∃ t, exec (.mmaReplay core group) s = .next t ∧ SameBytes s t ∧
        only t (if n = 0 then { m with replays := group :: m.replays, a := none, started := false, acceptAt := clk }
          else { m with replays := group :: m.replays })) ∧
    ((c.mmas.find? fun m => m.stage == stage) = some m → m.bRead = true → abortCause s core m = some (cause, addr) →
      ∃ t, exec (.mmaAbort core stage cause addr) s = .next t ∧ SameBytes s t ∧ gone t ∧
        (∀ k, bound k → kept t k) ∧ (cause = 0x0C → ∀ q ∈ m.failed 2, q ∈ (t.core core).fenced) ∧
        ∀ k ∈ waits, find? (t.wave core k).aborts m.tag =
          some { cause := cause, sub := if cause = 8 then 7 else 0, addr := if cause = 0x0C then 0 else addr })

/-! ### Launch, placement, pre-emption and page faults (R284, R346 to R363, R395) -/

/-- A launch record of the host that reaches the head of its partition's ready slots (R346 to R349): its slot byte is read
again, and a record whose byte is 0 is dropped; else the byte is cleared; a refused one ends its grid at once with the status of
R349 and places no team; an accepted one is a waiting grid with the fields of the record, as its own context, in the order of
parsing. A record of a team's launch buffer is a child of the team's grid: of its context, one deeper.
A waiting grid (R350): with every dependence met it enters its class's queue; where one of them failed it ends with
status 6. -/
def Obligations.GridEntry : Prop :=
  (∀ (s : State) (part slot st h r' : Nat) (rest rs : List Nat) (g : Grid),
     let p := s.part part
     let r := controlRead s part (128 * slot) 128
     let s0 := controlWrite (s.setPart part { p with slotsSeen := rest }) part (128 * slot + 127) 1 0
     let f := fieldOf
     let id (r : Nat) (a : Nat) : Nat := if f r 0 8 = 0 then 2 ^ 63 + (a + 1) else f r 0 8
     let fields (r : Nat) (x : Grid) : Prop :=
       x.part = part ∧ x.kid = f r 8 4 ∧ x.prio = f r 0xC 4 % 8 ∧ x.early = decide (8 ≤ f r 0xC 4 % 16) ∧
       x.gx = f r 0x10 2 ∧ x.gy = f r 0x12 2 ∧ x.gz = f r 0x14 2 ∧ x.lpriv = f r 0x18 4 ∧ x.scratch = f r 0x1C 4 ∧
       x.clus = f r 0x20 4 ∧ x.dpad = f r 0x24 4 ∧ x.timer = f r 0x34 2 ∧ x.thdl = BitVec.ofNat 64 (f r 0x38 8) ∧
       x.deps = (List.range (f r 0x36 2)).map (fun i => f r (0x40 + 8 * i) 8) ∧ x.cmpl = f r 0x60 8 ∧ x.id = id r p.assigned ∧
       x.seq = s.nextSeq ∧ x.nextTeam = 0 ∧ x.liveTeams = 0
     let accepted (x : Grid) : Prop := x.st = .waiting
     let refused (x : Grid) : Prop := x.st = .ended ∧ x.status = st
     let parsed (t : State) (r : Nat) (ok : Grid → Prop) : Prop :=
       ∃ x, find? t.grids s.nextHandle = some x ∧ fields r x ∧ ok x ∧ t.nextHandle = s.nextHandle + 1 ∧ t.nextSeq = s.nextSeq + 1
     let host (ok : Grid → Prop) : Prop :=
       ∃ t, exec (.launchRecordParse part slot) s = .next t ∧ (t.part part).slotsSeen = rest ∧
         parsed t r fun x => ok x ∧ x.depth = 0 ∧ x.parent = none ∧ x.ctx = s.nextHandle
     let s1 := s.setTeam h { s.team h with launches := rs }
     let child (k : Nat) (ok : Grid → Prop) (slot : Nat) : Prop :=
       ∃ t, exec (.launchRecordParse part slot) s = .next t ∧ (t.team h).launches = rs ∧
         parsed t r' fun x => ok x ∧ x.depth = g.depth + 1 ∧ x.parent = some k ∧ x.ctx = g.ctx
     (slot < 64 → p.slotsSeen = slot :: rest → p.ready = true → f r 127 1 = 0 →
       exec (.launchRecordParse part slot) s = .next (s.setPart part { p with slotsSeen := rest })) ∧
     (slot < 64 → p.slotsSeen = slot :: rest → p.ready = true → f r 127 1 ≠ 0 →
       (refusal s0 part r none = none → host accepted) ∧
       (refusal s0 part r none = some st → host refused)) ∧
     (∀ k, (s.team h).launches = r' :: rs → (s.team h).grid = some k → find? s.grids k = some g → g.part = part →
       p.ready = true → k ≠ s.nextHandle → refusal s1 part r' (some g) = none → child k accepted (h + 64))) ∧
  (∀ (s : State) (h : Nat) (g : Grid),
     find? s.grids h = some g → g.st = .waiting →
     ((∀ d ∈ g.deps, depFailed s g.part d = false ∧ depMet s g d = true) →
       exec (.gridQueueEntry h) s = .next (s.setGrid h { g with st := .queued })) ∧
     ((∃ d ∈ g.deps, depFailed s g.part d = true) →
       ∃ t x, exec (.gridQueueEntry h) s = .next t ∧ find? t.grids h = some x ∧ x.st = .ended ∧ x.status = 6))

/-- A team is placed (R284, R352 to R355): the chosen grid's next team, with the next index, becomes resident on the chosen
core, its waves stand at the kernel's entry in the slots planned, with the quotas of the grid, registers of 0 and the
argument block's address in s0:s1, its lane-private blocks and its scratch are written 0, and no byte outside the on-chip
memories changes. A saved team that is ready is placed, in its partition's turn, with its waves as its frame holds them
(R362, R363). -/
def Obligations.TeamPlaced : Prop :=
  ∀ (s : State) (n h h' core team : Nat) (plan : Plan) (skipped : List Waiting) (g : Grid) (k : Kernel),
    let s0 := skipped.foldl markPassed s
    let T := s.nextHandle
    let entry : DWord := BitVec.ofNat 64 k.entry
    let args : DWord := BitVec.ofNat 64 (g.argsAt % 2 ^ 64)
    let i := g.nextTeam
    find? s0.grids h = some g → (plan.slots.map (·.2)).Nodup → (plan.slots.map (·.1)).Nodup →
    (find? s0.kernels g.kid = some k → nextPart s = some n →
      choose s n (queuesOf s n) [] = (skipped, some (.new h, h', core, plan)) →
      ∃ t x, exec .teamPlacement s = .next t ∧ t.nextHandle = T + 1 ∧ t.device.lastPart = n ∧
        (t.team T).core = some core ∧ (t.team T).grid = some h ∧ (t.team T).live = true ∧ (t.team T).index = i ∧
        (t.team T).x = i % g.gx ∧ (t.team T).y = i / g.gx % g.gy ∧ (t.team T).z = i / (g.gx * g.gy) ∧
        (t.team T).quota = g.quota ∧ (t.team T).regions = g.regions ∧ (t.team T).lkcnt = 0 ∧
        find? t.grids h = some x ∧ x.nextTeam = i + 1 ∧ x.liveTeams = g.liveTeams + 1 ∧
        (∀ a ∈ plan.slots, let w := t.wave core a.2
          w.team = T ∧ w.wid = a.1 ∧ w.quota = g.quota ∧
          w.quartet = (if a.1 < 4 * k.quartets then some (a.1 / 4) else none) ∧
          (∀ l, (w.thread l).live = true ∧ (w.thread l).pc = entry + 4 ∧ (w.thread l).hdr = entry ∧
            (w.thread l).owes = .entry) ∧
          (∀ r l, w.reg r l = 0) ∧ w.uni 0 = args.setWidth 32 ∧ w.uni 1 = (args >>> 32).setWidth 32 ∧
          (∀ r, 2 ≤ r → w.uni r = 0) ∧ ∀ l, w.predWord l = 0) ∧
        (∀ o, o < g.scratch → readByte t (scratchKey core (plan.scratchAt + o)) = 0) ∧
        (∀ b ∈ plan.blocks, ∀ o, o < 64 * g.lpriv → readByte t (scratchKey core (b.2 + o)) = 0) ∧
        ∀ a, a < onChip → readByte t a = readByte s a) ∧
    ((s.team team).grid = some h → s.partOf (s.team team) = some n → (s.team team).ready = true → nextPart s = some n →
      choose s n (queuesOf s n) [] = (skipped, some (.saved team, h', core, plan)) → banksFree s core (s.team team) = true →
      ∃ t, exec (.teamRestore team) s = .next t ∧ t.device.lastPart = n ∧ (t.team team).core = some core ∧
        (t.team team).saved = [] ∧ (t.team team).due = none ∧ (t.team team).lkcnt = (s.team team).lkcnt ∧ (t.team team).bars = (s.team team).bars ∧
        (t.team team).handles = (s.team team).handles ∧
        (∀ a ∈ plan.slots, ∀ w, ((s.team team).saved.find? fun w => w.1 / 4 == a.1) = some w → t.wave core a.2 = w.2) ∧
        ∀ a, a < onChip → readByte t a = readByte s a)

/-- Teams taken off their cores (R218, R358 to R363). Firmware may have set the slice (log 56: a free value). A team whose
slice is over, with a waiting team of its class or a higher
one passed over, falls due; at the start of a reclaim every borrowed team of the cluster that holds no lock issues nothing more;
one that is due or outranked and holds no lock leaves its core with its waves in its frame, once they have rolled back and are
settled and the frame has room; with a lock held it falls due and runs on; 2^20 cycles later every resident team of its grid is
to leave, locks or not. -/
def Obligations.TeamTakenOff : Prop :=
  ∀ (s : State) (team k h n d cluster owner t0 : Nat),
    let x := s.team team
    let now := (s.core k).clk.toNat
    let s1 := beginSave s team
    let sf := firmwareSlice s n
    let wants : Prop := x.due.isSome = true ∨ outranked s team = true
    let bs := borrowed s cluster
    let settledS := settleReclaims s
    let locked := bs.filter fun b => decide (0 < (s.team b.2).lkcnt) && !(s.team b.2).forced
    let forced (t : State) (i : Nat) : Prop := (t.team i).forced = true ∧ (t.team i).due.isSome = true
    x.core = some k →
    (s.partOf x = some n → x.due = none → (sf.part n).slice ≤ now - x.since →
      (∃ w ∈ queuesOf sf n, classOf sf x ≤ w.cls sf ∧ (w.passed sf).isSome = true) →
      exec (.sliceExpiry team) s = .next (sf.setTeam team { x with due := some now })) ∧
    (x.live = true → x.grid = some h → x.saving = false → x.posting = [] → wants → (x.lkcnt = 0 ∨ x.forced = true) →
      (saveable s1 team k = true → saveRoom s1 team = true →
        ∃ t, exec (.preemption team) s = .next t ∧ SameBytes s t ∧ (t.team team).core = none ∧
          (t.team team).grid = some h ∧ (t.team team).lkcnt = x.lkcnt ∧ (t.team team).bars = x.bars ∧
          (∀ w ∈ (t.core k).waves, w.2.team ≠ team) ∧
          ∀ w ∈ (s1.core k).waves, w.2.team = team → (4 * w.2.wid + w.1 / 16, savedWave (s1.team team) w.2) ∈ (t.team team).saved) ∧
      (saveable s1 team k = false → exec (.preemption team) s = .next s1 ∧ (s1.team team).saving = true)) ∧
    (x.live = true → x.grid = some h → x.saving = false → x.due = none → outranked s team = true → 0 < x.lkcnt →
      x.forced = false → exec (.preemption team) s = .next (s.setTeam team { x with due := some now })) ∧
    (x.grid = some h → x.due = some d → x.forced = false → 0 < x.lkcnt → d + 2 ^ 20 ≤ now →
      ∃ t, exec (.deferralDeadline team) s = .next t ∧ t = { s with teams := t.teams } ∧
        ∀ i, if (s.team i).grid = some h ∧ (s.team i).core.isSome = true then forced t i else t.team i = s.team i) ∧
    (clusterOwner s (8 * cluster) = some owner → bs ≠ [] → find? settledS.device.reclaims cluster = none →
      (∃ w ∈ queuesOf settledS owner, ∃ a g e, w.needs settledS = some (a, g, e) ∧
        ∃ b ∈ bs, (fits ((coreTeams settledS b.1).foldl saveTeam settledS) b.1 g e).isSome = true) →
      ∃ t, exec (.reclaim cluster) s = .next t ∧
        find? t.device.reclaims cluster = some (s.die (cluster / 16)).clk ∧ SameBytes s t ∧
        ∀ b ∈ bs, if (s.team b.2).lkcnt = 0 then (t.team b.2).saving = true else t.team b.2 = s.team b.2) ∧
    (find? s.device.reclaims cluster = some t0 → t0 + 2 ^ 20 ≤ (s.die (cluster / 16)).clk → locked ≠ [] →
      ∃ t, exec (.reclaimDeadline cluster) s = .next t ∧ SameBytes s t ∧
        ∀ b ∈ locked, ∀ a, (s.team b.2).grid = some a → ∀ i, (s.team i).grid = some a → (s.team i).core.isSome = true →
          forced t i)

/-- Page faults (R362, R390, R395): a team whose threads wait for pages rolls back and issues nothing more; once it is settled
it leaves its core, or with no room for its frame waits on its core, and then each fault is in the fault queue, or waits for an
entry of it, and the team awaits each page; a pre-emption that comes meanwhile ends the same save. `FQACK` frees the entries of
its page, and each team of the partition waits for that page no more. -/
def Obligations.PageFaults : Prop :=
  ∀ (s : State) (core slot part value : Nat) (g : Grid),
    let team := (s.wave core slot).team
    let x := s.team team
    let faults := (teamFaults s team core).filter fun f => !x.waiting.contains (f.1 / 65536) && !x.posting.contains f
    let s0 := s.setTeam team { x with posting := x.posting ++ faults }
    let s1 := if x.saving then s0 else beginSave s0 team
    let p := s.part part
    let page := value / 65536 % 2 ^ 41
    let asid := value % 65536
    let posted (t : State) (f : Nat × Nat) : Prop :=
      f.1 / 65536 ∈ (t.team team).waiting ∧
        ((f.1 / 65536, faultAsid s g.part f.1) ∈ (t.part g.part).fqOpen ∨
          (f.1, g.id, f.2, core) ∈ (t.part g.part).unposted)
    (s.gridOf x = some g → x.core = some core → faults ≠ [] →
      (saveable s1 team core = false → exec (.pageFault core slot) s = .next s1 ∧ (s1.team team).saving = true ∧
        (s1.team team).posting = x.posting ++ faults) ∧
      (saveable s1 team core = true →
        ∃ t, exec (.pageFault core slot) s = .next t ∧ (t.team team).saving = false ∧ (t.team team).posting = [] ∧
          (t.team team).core = (if saveRoom s1 team then none else some core) ∧ ∀ f ∈ x.posting ++ faults, posted t f)) ∧
    (s.gridOf x = some g → x.core = some core → x.live = true → x.saving = true → saveable s team core = true →
      saveRoom s team = true →
      ∃ t, exec (.preemption team) s = .next t ∧ (t.team team).core = none ∧ ∀ f ∈ x.posting, posted t f) ∧
    (p.created = true → p.unposted = [] →
      ∃ t, exec (.fqack part value) s = .next t ∧ SameBytes s t ∧ (page, asid) ∉ (t.part part).fqOpen ∧
        (∀ e ∈ p.fqOpen, e ≠ (page, asid) → e ∈ (t.part part).fqOpen) ∧
        (faultAsid s part (65536 * page) = asid → ∀ i, (s.team i).grid.isSome = true → s.partOf (s.team i) = some part →
          page ∉ (t.team i).waiting))

/-! ### Translations and the host (R278, R287, R344, R346, R383, R384, R392, R393, R415) -/

/-- A shootdown (R278), with no load in the range that must perform first: no core's and no die's TLB keeps an entry of the
range under its tag, every other entry stays, no L1 keeps a line brought in under an address of the range and the tag, and no
byte changes. An address-translation invalidation (R392, R393) shoots the range
down under each of the partition's ASIDs whose entry has the PASID; after one of every address of the host-unified window each
such index has the entry that the host wrote, or none. -/
def Obligations.Shootdowns : Prop :=
  ∀ (s : State) (va bytes asid part pasid : Nat),
    let lo := va / 65536 * 65536
    let n := (va + bytes + 65535) / 65536 * 65536 - lo
    let tag : Option Nat := if va < 2 ^ 56 then none else some asid
    let p := s.part part
    let idxs := pasidIndexes s part pasid
    let every : Prop := lo ≤ 2 ^ 56 ∧ 0x1FE_FFFF_FFFF_FFFF < lo + n
    ((∀ c ∈ s.cores, rangeInUse s c.1 lo n tag = false) →
      ∃ t, exec (.shootdown va bytes asid) s = .next t ∧ SameBytes s t ∧
        (∀ c e, e ∈ (t.core c).tlb ↔ e ∈ (s.core c).tlb ∧ e.hit lo n tag = false) ∧
        (∀ d e, e ∈ (t.die d).tlb ↔ e ∈ (s.die d).tlb ∧ e.hit lo n tag = false) ∧
        ∀ c l e, find? (s.core c).l1 l = some e → lo ≤ 128 * e.va → 128 * e.va < lo + n → e.asid = tag →
          (t.core c).line l = []) ∧
    (p.created = true → (∀ i ∈ idxs, ∀ c ∈ s.cores, rangeInUse s c.1 lo n (some (p.asidBase + i)) = false) →
      ∃ t, exec (.atsInvalidation part pasid va bytes) s = .next t ∧ SameBytes s t ∧
        (∀ c e, e ∈ (t.core c).tlb ↔
          e ∈ (s.core c).tlb ∧ ∀ i ∈ idxs, e.hit lo n (some (p.asidBase + i)) = false) ∧
        (∀ d e, e ∈ (t.die d).tlb ↔
          e ∈ (s.die d).tlb ∧ ∀ i ∈ idxs, e.hit lo n (some (p.asidBase + i)) = false) ∧
        ∀ i, find? (t.part part).asids i =
          if every ∧ i ∈ idxs then (let e := asidEntry s part i; if e.1 then some (e.2.1, e.2.2) else none) else find? p.asids i)

/-- The host's accesses (R287, R344, R346, R383, R384, R415). To a partition's memory, at most one line: a write, to a page
not sealed, changes the bytes it names and no other, and a slot byte it leaves nonzero makes its launch slot ready; a read
changes no byte; in device bias the device's copies of the line are taken back first, in host bias none may be held; no engine
holds a token of its words. A snoop
takes the line back from every die. Through BAR 2 it writes die 0's pad in minimal mode, and partition 0's control area in
PCIe mode. -/
def Obligations.HostAccesses : Prop :=
  ∀ (s : State) (part off bytes data line : Nat) (write : Bool),
    let p := s.part part
    let pa := partPA p off
    let idle (l : Nat) : Prop := (s.dir l).busy = none ∧ tokensInFlight s l = false ∧
      ∀ d ∈ s.dies, ∀ e ∈ d.2.noticeBuf, e.line ≠ l
    let unheld (t : State) (l : Nat) : Prop := (t.dir l).st = .i ∧ ∀ d, d < 8 → (t.frame d l).st = .i
    let own : Prop := s.device.cxl = true ∧ if s.devBias pa then idle (pa / 128) else lineHeld s (pa / 128) = false
    let free (pa : Nat) : Prop := fetcherHolds s none ((keysFrom pa bytes).map (· / 4)) = false ∧ s.unitWaits = []
    (p.created = true → own → engineHolds s none write ((keysFrom pa bytes).map (· / 4)) = false → 0 < bytes → off % 128 + bytes ≤ 128 → off + bytes ≤ p.memBytes →
      ∃ t, exec (.hostCxlMemAccess part off write bytes data) s = .next t ∧
        (s.devBias pa = true → unheld t (pa / 128)) ∧
        (if write ∧ sealedPA s pa = false then
          readPA t pa bytes = data % 256 ^ bytes ∧ SameBytesBut (keysFrom pa bytes) s t ∧
            ∀ i, i < 64 → off < 65536 → off ≤ 128 * i + 127 → 128 * i + 127 < off + bytes →
              data / 256 ^ (128 * i + 127 - off) % 256 ≠ 0 → i ∈ (t.part part).slotsSeen
        else SameBytes s t) ∧
        (write = false → t.device.hostData = readPA s pa bytes)) ∧
    (s.device.cxl = true → (ownDram (128 * line) = true → s.devBias (128 * line) = false) →
      (ownDram (128 * line) = true ∨ 2 ^ 51 ≤ 128 * line) → idle line →
      ∃ t, exec (.hostCxlCacheSnoop line) s = .next t ∧ SameBytes s t ∧ unheld t line) ∧
    (s.device.minimal = true → off + bytes ≤ 50331648 →
      ∃ t, exec (.hostMmioAccess off write bytes data) s = .next t ∧
        if write then readKeys t ((keysFrom off bytes).map minimalPadKey) = data % 256 ^ bytes ∧
            SameBytesBut ((keysFrom off bytes).map minimalPadKey) s t
        else SameBytes s t ∧ t.device.hostData = readKeys s ((keysFrom off bytes).map minimalPadKey)) ∧
    (s.device.minimal = false → s.device.cxl = false → (s.part 0).created = true → off + bytes ≤ 65536 →
      (write = true → free (controlPA s 0 off)) →
      ∃ t, exec (.hostMmioAccess off write bytes data) s = .next t ∧
        if write then readKeys t (keysFrom (controlPA s 0 off) bytes) = data % 256 ^ bytes ∧
            SameBytesBut (keysFrom (controlPA s 0 off) bytes) s t
        else SameBytes s t ∧ t.device.hostData = controlRead s 0 off bytes)

/-! ### Tokens within a die (R318 to R329) -/

/-- Messages of the token protocol, each with its moment come, in words of the line w below 32 and their tokens and owner
token (R318, R319, R321 to R327, R342). A read at its home slice takes one token of each word of the span that the slice
owns, the owner token only with the last and only from a die in M or E (a core that the die arbiter serves takes every
token the slice may give), and is forwarded to the owner of each other word; a write takes every token that the slice holds
and goes to each other holder; a slice without the state for it asks the line's home. A holder answers a read with one token
where it holds two, or with its owner token, a write with all. Tokens that a request awaits add to those held, and requests
that they satisfy end with a `DONE` that carries the core's records, by which the slice learns the owner and its holders, the
requester among them and none that neither holds a record nor awaits one;
tokens that none awaits go home. Tokens come to the slice, and what a pending write lacks of them goes on to its core. -/
def Obligations.TokenMessages : Prop :=
  ∀ (s : State) (m core line f n num die dest : Nat) (ctx src : Option Nat) (sp : List Span) (write : Bool) (q : TokenReq)
    (l : Leaf),
    let c := s.core core
    let home := dieOf core
    let fr := s.frame home line
    let within (f n w : Nat) : Prop := f ≤ w ∧ w < f + n
    let has (rs : List Span) (w : Nat) (x : Nat × Bool) : Prop := tokensOf rs w = x
    let at_ (w : Nat) : Nat × Bool := tokensOf fr.recs w
    let l1 (k : Nat) : List Span := (s.core k).line line
    let sent (t : State) (d : Nat) (from_ : Option Nat) (to' : Nat) (out : Nat → Nat × Bool) : Prop :=
      (∀ w, w < 32 → out w = (0, false)) ∨
      ∃ xs, Msg.tok d from_ (some to') line xs ∈ t.msgs ∧ ∀ w, w < 32 → has xs w (out w)
    let req : LocalReq := { core := core, num := num, va := q.va, f := f, n := n, write := write, ctx := q.ctx }
    let asks : Prop := (c.reqs.find? fun x => x.num == num && x.line == line) = some q ∧ q.f = f ∧ q.n = n ∧ q.write = write
    let ready : Prop := asks ∧ setAside s home core line f n = false ∧ fr.recalled = false ∧ fr.waiting = [] ∧
      fr.later = [] ∧ fr.asked = none ∧ engineHolds s (some core) write (spanWords line f n) = false
    let runs (i : Instr) (P : State → Prop) : Prop := ∃ t, exec i s = .next t ∧ SameBytes s t ∧ P t
    let own : Prop := fr.st = .m ∨ fr.st = .e
    let all : Bool := starved s core line f n
    let gives (w : Nat) : Nat × Bool :=
      if ¬ within f n w then (0, false)
      else if (at_ w).2 = true ∧ ¬ own then (if all then (at_ w).1 - 1 else min 1 ((at_ w).1 - 1), false)
      else if all then at_ w
      else if (at_ w).2 = false then (0, false)
      else if 2 ≤ (at_ w).1 then (1, false) else at_ w
    let other (t : State) (d w : Nat) : Nat := ((spread (t.frame d line).recs).getD w (noTok 0)).oc
    let quiet (d : Nat) : Prop := ∀ p ∈ (s.die d).arbiter, p.active = false
    let sum (a b : Nat × Bool) : Nat × Bool := (a.1 + b.1, a.2 || b.2)
    (s.msgs[m]? = some (.gets core line f n num ctx) → ready → write = false → fr.st ≠ .i → f + n ≤ 32 →
      runs (.gets m) fun t => (t.frame home line).st = fr.st ∧ (core, q.va) ∈ (t.frame home line).holders ∧
        (∀ w, w < 32 → has (t.frame home line).recs w ((at_ w).1 - (gives w).1, (at_ w).2 && !(gives w).2)) ∧
        sent t home none core gives ∧
        ∀ w, within f n w → (at_ w).2 = false → coreOf home (other s home w) ≠ core →
          ∃ g k, within g k w ∧ Msg.fwd (coreOf home (other s home w)) core line g k num false ∈ t.msgs) ∧
    (s.msgs[m]? = some (.getx core line f n num ctx) → ready → write = true → own → f + n ≤ 32 →
      runs (.getx m) fun t => (t.frame home line).st = .m ∧ req ∈ (t.frame home line).serving ∧
        (∀ w, w < 32 → (within f n w → (tokensOf (t.frame home line).recs w).1 = 0) ∧
          (¬ within f n w → has (t.frame home line).recs w (at_ w))) ∧
        sent t home none core (fun w => if within f n w ∧ 0 < (at_ w).1 then at_ w else (0, false)) ∧
        ∀ h ∈ fr.holders, h.1 ≠ core → (∃ x ∈ l1 h.1, x.f < f + n ∧ f < x.f + x.n) →
          Msg.fwd h.1 core line f n num true ∈ t.msgs) ∧
    (s.msgs[m]? = some (.gets core line f n num ctx) → ready → write = false → fr.st = .i →
      runs (.gets m) fun t => (t.frame home line).waiting = [req] ∧ (t.frame home line).asked = some .s ∧
        Msg.rds home line q.ctx ∈ t.msgs) ∧
    (s.msgs[m]? = some (.getx core line f n num ctx) → ready → write = true → ¬ own →
      runs (.getx m) fun t => (t.frame home line).waiting = [req] ∧ (t.frame home line).asked = some .m ∧
        (if fr.st = .i then Msg.rdx home line q.ctx else Msg.upg home line q.ctx) ∈ t.msgs) ∧
    (s.msgs[m]? = some (.fwd dest core line f n num write) → setAside s home core line f n = false →
      let x (w : Nat) : Nat × Bool := tokensOf (l1 dest) w
      let out (w : Nat) : Nat × Bool :=
        if within f n w ∧ 0 < (x w).1 then
          if write then x w else if 2 ≤ (x w).1 then (1, false) else if (x w).2 then x w else (0, false)
        else (0, false)
      runs (.fwd m) fun t => sent t home (some dest) core out ∧
        ((gather false 0 (splitWords write f n (spread (l1 dest))).2).length ≤ 2 →
          ∀ w, w < 32 → has ((t.core dest).line line) w ((x w).1 - (out w).1, (x w).2 && !(out w).2))) ∧
    (s.msgs[m]? = some (.tok die src (some core) line sp) → quiet die →
      (c.reqs.find? fun r => r.line == line && (List.range r.n).any fun i =>
        decide (0 < ((spread sp).getD (r.f + i) (noTok 0)).tk)) = some q →
      fillLeaf s core q = some l → (∀ e, find? c.l1 line = some e → e.va = q.va) →
      (c.l1.filter fun e => e.1 != line && ((find? c.l1 e.1).map (·.va)).getD e.1 % 128 == q.va % 128).length < 8 →
      (gather false 0 (addWords (spread (l1 core)) (spread sp))).length ≤ 2 →
      runs (.tok m) fun t =>
        (∀ w, w < 32 → has ((t.core core).line line) w (sum (tokensOf (l1 core) w) (tokensOf sp w))) ∧
        ∀ r ∈ c.reqs, r.line = line → satisfied (t.core core) r = true →
          r ∉ (t.core core).reqs ∧ Msg.done core line r.f r.n r.num ((t.core core).line line) ∈ t.msgs) ∧
    (s.msgs[m]? = some (.tok die src (some core) line sp) → quiet die → (∀ r ∈ c.reqs, r.line ≠ line) → l1 core = [] →
      (∃ w, w < 32 ∧ 0 < (tokensOf sp w).1) →
      runs (.tok m) fun t => ∃ xs, Msg.notice home core line xs ∈ t.msgs ∧ ∀ w, w < 32 → has xs w (tokensOf sp w)) ∧
    (s.msgs[m]? = some (.done core line f n num sp) →
      runs (.done m) fun t =>
        (∀ w, w < 32 → has (t.frame home line).recs w (at_ w)) ∧
        (∀ r ∈ (t.frame home line).serving, ¬ (r.core = core ∧ r.num = num)) ∧
        (∀ h ∈ (t.frame home line).holders, l1 h.1 ≠ [] ∨ h.1 = core ∨ ∃ r ∈ (s.core h.1).reqs, r.line = line) ∧
        (∀ e, find? c.l1 line = some e → (core, e.va) ∈ (t.frame home line).holders) ∧
        ∀ w, w < 32 → within f n w → (at_ w).2 = false → (tokensOf sp w).2 = true → other t home w = core % 128) ∧
    (∀ i, (i = Instr.tok m ∧ s.msgs[m]? = some (.tok die src none line sp) ∨
        i = Instr.notice m ∧ s.msgs[m]? = some (.notice die core line sp)) → quiet die →
      let at_ (w : Nat) : Nat × Bool := tokensOf (s.frame die line).recs w
      let lack (r : LocalReq) (w : Nat) : Prop := within r.f r.n w ∧ (tokensOf ((s.core r.core).line line) w).1 < 128
      ((s.frame die line).serving = [] →
        runs i fun t => ∀ w, w < 32 → has (t.frame die line).recs w (sum (at_ w) (tokensOf sp w))) ∧
      ∀ r, (s.frame die line).serving = [r] → (s.frame die line).recalled = false → alive s line r = true →
        (∀ w, w < 32 → (tokensOf sp w).2 = true → 0 < (tokensOf sp w).1) →
        runs i fun t => sent t die none r.core (fun w => if lack r w then tokensOf sp w else (0, false)) ∧
          ∀ w, w < 32 → has (t.frame die line).recs w (if lack r w then at_ w else sum (at_ w) (tokensOf sp w)))

/-- Recalls and starvation (R322, R323, R328, R329). The slice of a line to be recalled demands its tokens of every core that
holds some; a core answers with all that it holds; with none held and none in flight the slice has every token of its words. A
request that 512 local cycles have not satisfied is sent again, but for
the third time: then it is persistent, and waits at the die's arbiter, one for each core (log 50: while the arbiter serves
another of its core it goes on as a transient one too); the first in turn over its words becomes active, and every other
core of the die gives up its tokens of those that it lacks; served, it leaves the arbiter, which then starts its turn after
it. -/
def Obligations.TokenArbiter : Prop :=
  ∀ (s : State) (m core line f n die : Nat) (write : Bool) (p : Persistent) (r : TokenReq),
    let c := s.core core
    let home := dieOf core
    let hit (r : TokenReq) : Bool := r.line == line && r.f == f && r.n == n && r.write == write
    let runs (i : Instr) (P : State → Prop) : Prop := ∃ t, exec i s = .next t ∧ SameBytes s t ∧ P t
    let d := s.die die
    let fr := s.frame die line
    let again : Msg := if write then .getx core line f n r.num r.ctx else .gets core line f n r.num r.ctx
    let r' (on : Bool) : TokenReq := { r with fails := r.fails + 1, at_ := c.clk.toNat, persistent := on }
    let shut : Prop := ∃ x ∈ (s.die home).arbiter, x.core = core ∧ ¬ (x.line = line ∧ x.f = f)
    (recallMsg s die line = none → fr.recalled = true → holdersOf s die line ≠ [] →
      runs (.recallLine die line) fun t => ∀ k ∈ holdersOf s die line, Msg.recall k line ∈ t.msgs) ∧
    (recallMsg s die line = some (m, core) →
      runs (.recallLine die line) fun t => (t.core core).line line = [] ∧
        ((∃ w, w < 32 ∧ 0 < (tokensOf (c.line line) w).1) → ∃ xs, Msg.tok die (some core) none line xs ∈ t.msgs ∧
          ∀ w, w < 32 → 0 < (tokensOf (c.line line) w).1 → tokensOf xs w = tokensOf (c.line line) w)) ∧
    (recallDone s die line = true → fr.recalled = true → fr.probed = false → fr.waiting = [] → fr.later = [] →
      fr.serving = [] → fr.st ≠ .i →
      runs (.recallLine die line) fun t => (t.frame die line).recalled = false ∧
        (∀ w, w < 32 → tokensOf (t.frame die line).recs w = (128, true)) ∧
        ∀ k, dieOf k = die → (t.core k).line line = []) ∧
    (c.reqs.find? hit = some r → r.persistent = false → r.at_ + 512 ≤ c.clk.toNat →
      (r.fails < 2 → runs (.transientRequestFailure core line f n write) fun t =>
        again ∈ t.msgs ∧ r' false ∈ (t.core core).reqs) ∧
      (2 ≤ r.fails → runs (.transientRequestFailure core line f n write) fun t =>
        (shut → again ∈ t.msgs) ∧ (¬ shut → t.msgs = s.msgs) ∧ r' true ∈ (t.core core).reqs)) ∧
    ((∃ x ∈ c.reqs, hit x = true ∧ x.persistent = true) → (∀ x ∈ (s.die home).arbiter, x.core ≠ core) →
      exec (.preq core line f n write) s = .next (s.setDie home { s.die home with arbiter := (s.die home).arbiter ++
        [{ core := core, line := line, f := f, n := n, write := write, active := false }] })) ∧
    ((d.arbiter.find? fun x => x.core == core) = some p → p.active = false →
      (∀ q ∈ d.arbiter, q.overlaps p = true → q.active = false ∧ turnOf d core ≤ turnOf d q.core) →
      engineHolds s (some core) p.write (spanWords p.line p.f p.n) = false →
      runs (.pact die core) fun t => (∃ q ∈ (t.die die).arbiter, q.core = core ∧ q.active = true) ∧
        ∀ k w, dieOf k = die → k ≠ core → w < 32 → lacks s p w = true → (tokensOf ((t.core k).line p.line) w).1 = 0) ∧
    ((d.arbiter.find? fun x => x.core == core && x.active) = some p →
      (∀ x ∈ c.reqs, ¬ (x.line = p.line ∧ x.f = p.f ∧ x.n = p.n ∧ x.write = p.write ∧ x.persistent = true)) →
      stillNeeds c p = false →
      runs (.pdone die core) fun t => (t.die die).lastServed = core % 128 ∧
        (t.die die).arbiter = d.arbiter.filter fun q => !(q.core == core && q.active))

/-! ### Between dies (R330 to R339, R405) -/

/-- Requests of dies at a line's home (R330, R332, R333). A home that serves another request of the line queues it. A free
one whose set has room serves it: a read of an unlisted line is granted E with data from memory, of a shared one S, and of
one with an owner goes to the owner; a write makes its die the owner in M, with data from memory, from the owner, and an
invalidation for each other sharer; an upgrade of a listed die needs no data, but for a sharer's where another die owns
dirty words; an eviction, its dirty words to the LLC, takes its die off the entry, and is acknowledged, as is that of an
unlisted die, or of one listed again for a newer request, which changes nothing. Data carry the sectors that the die's held
requests need (R266, R267). -/
def Obligations.HomeRequests : Prop :=
  ∀ (s : State) (m die line : Nat) (ctx : Option Nat) (mask : BitVec 32),
    let d := s.dir line
    let free : Prop := d.busy = none ∧ (d.st = .i → (dirPeers s line).length < 16)
    let runs (i : Instr) (P : State → Prop) : Prop := ∃ t, exec i s = .next t ∧ SameBytes s t ∧ P t
    let entry (t : State) (st : Moesi) (owner : Nat) : Prop := (t.dir line).st = st ∧ (t.dir line).owner = owner
    let data (grant : Moesi) : Msg := .data die line 0 grant (broughtSectors s die line)
    let old : Prop := ∃ e ∈ (s.die die).noticeBuf, e.line = line ∧ e.stale = true
    let rds := Msg.rds die line ctx
    let rdx := Msg.rdx die line ctx
    let upg := Msg.upg die line ctx
    let invs (t : State) (xs : List Nat) : Prop := ∀ x ∈ xs, Msg.inv x line ∈ t.msgs
    let queued (x : Msg) (i : Instr) : Prop := s.msgs[m]? = some x → d.busy.isSome = true → sliceQueue s line < 32 →
      runs i fun t => t.msgs = s.msgs.eraseIdx m ∧ t.dir line = { d with queue := d.queue ++ [x] }
    let write (x : Msg) (i : Instr) : Prop := s.msgs[m]? = some x → free →
      (d.st = .i → runs i fun t => entry t .m die ∧ data .m ∈ t.msgs) ∧
      (d.st = .s → runs i fun t => entry t .m die ∧ (t.dir line).busy = some ⟨die, diesOf d.sharers, .data, ctx⟩ ∧
        invs t (diesOf d.sharers)) ∧
      (d.st = .o → runs i fun t => entry t .m die ∧ .fwdx d.owner die line ∈ t.msgs ∧
        invs t ((diesOf d.sharers).filter (· ≠ d.owner))) ∧
      (d.st = .e ∨ d.st = .m → runs i fun t => entry t .m die ∧ .fwdx d.owner die line ∈ t.msgs)
    let leaves (x : Msg) (i : Instr) : Prop := s.msgs[m]? = some x → d.busy = none →
      runs i fun t => Msg.ack die line false true 0 ∈ t.msgs ∧
        (die ∉ d.listed ∨ old → t.dir line = d) ∧
        (die ∈ d.listed → ¬ old → die ∉ (t.dir line).listed ∧ ∀ x, x ≠ die → d.st = .s → (x ∈ d.listed ↔ x ∈ (t.dir line).listed))
    queued rds (.rds m) ∧ queued rdx (.rdx m) ∧ queued upg (.upg m) ∧ queued (.evs die line) (.evs m) ∧
    queued (.eve die line) (.eve m) ∧ queued (.wbm die line mask) (.wbm m) ∧ queued (.wbo die line mask) (.wbo m) ∧
    (s.msgs[m]? = some rds → free →
      (d.st = .i → runs (.rds m) fun t => entry t .e die ∧ data .e ∈ t.msgs) ∧
      (d.st = .s → runs (.rds m) fun t => (t.dir line).st = .s ∧ (t.dir line).sharers = d.sharers ||| dieBit die ∧
        data .s ∈ t.msgs) ∧
      (d.st ≠ .i → d.st ≠ .s → runs (.rds m) fun t => entry t d.st d.owner ∧ .fwds d.owner die line ∈ t.msgs)) ∧
    write rdx (.rdx m) ∧
    (die ∉ d.listed → write upg (.upg m)) ∧
    (s.msgs[m]? = some upg → d.busy = none → (d.st = .s ∧ d.sharers.getLsbD die = true ∨ d.st = .o ∧ d.owner = die) →
      runs (.upg m) fun t => entry t .m die ∧ invs t ((diesOf d.sharers).filter (· ≠ die)) ∧
        ((diesOf d.sharers).filter (· ≠ die) = [] → .ack die line false false 0 ∈ t.msgs)) ∧
    (s.msgs[m]? = some upg → d.busy = none → d.st = .o → d.owner ≠ die → d.sharers.getLsbD die = true →
      runs (.upg m) fun t => entry t .m die ∧ .fwdx d.owner die line ∈ t.msgs ∧
        invs t ((diesOf d.sharers).filter fun x => x ≠ die ∧ x ≠ d.owner)) ∧
    leaves (.evs die line) (.evs m) ∧ leaves (.eve die line) (.eve m) ∧ leaves (.wbm die line mask) (.wbm m) ∧
    leaves (.wbo die line mask) (.wbo m)

/-- Probes, data and acknowledgements (R266, R287, R319, R331, R333 to R335, R342). With no token of the line in flight, an
owner that a read reaches keeps its copy as S or O and supplies the requester; one that a write reaches, a sharer that is
invalidated and a die whose entry is evicted recall the line, and then give up their copies and supply the requester or
acknowledge to the home. Data install the line, with the sectors they carry, in the state granted once no acknowledgement is
missing and, for a line that the host grants, it has granted it, for which the device asks while its link is in CXL mode; the
last acknowledgement makes the home go on; an upgraded die's state is M. -/
def Obligations.HomeProbes : Prop :=
  ∀ (s : State) (m die owner line : Nat) (mask : BitVec 32) (grant : Moesi) (got : BitVec 4) (e : Bool) (b : Busy),
    let d := s.dir line
    let fr (k : Nat) : Frame := s.frame k line
    let runs (i : Instr) (P : State → Prop) : Prop := ∃ t, exec i s = .next t ∧ SameBytes s t ∧ P t
    let quiet (k : Nat) : Prop := inFlight s k line = false ∧ (fr k).st ≠ .i
    let recalls (x : Msg) (i : Instr) (k : Nat) (P : State → Prop) : Prop := s.msgs[m]? = some x → (fr k).st ≠ .i →
      (recallDone s k line = true → runs i P) ∧
      (recallDone s k line = false → (fr k).probed = false →
        exec i s = .next (s.setFrame k line { fr k with recalled := true, probed := true }))
    let may (own : Bool) : Prop := hostGrants s line = true → granted s line own = true
    let empty (t : State) (k : Nat) : Prop :=
      (t.frame k line).st = .i ∧ ∀ c, dieOf c = k → (t.core c).line line = []
    let dirty (x : BitVec 32) (k : Nat) : Prop := ∀ w, (fr k).dm.getLsbD w = true → x.getLsbD w = true
    let left := b.acks.filter (· ≠ die)
    let idle : Prop := (fr die).waiting = [] ∧ (fr die).later = [] ∧ d.queue = []
    (s.msgs[m]? = some (.fwds owner die line) → quiet owner →
      runs (.fwds m) fun t => ((t.frame owner line).st = .s ∨ (t.frame owner line).st = .o) ∧
        ((t.dir line).st = .s ∨ (t.dir line).st = .o) ∧
        ∃ x, .data die line x (if owner = die ∧ x ≠ 0 then .o else .s) (fr owner).valid ∈ t.msgs ∧ dirty x owner) ∧
    (recalls (.fwdx owner die line) (.fwdx m) owner fun t =>
      empty t owner ∧ ∃ x, .data die line x .m (fr owner).valid ∈ t.msgs ∧ dirty x owner) ∧
    (recalls (.inv die line) (.inv m) die fun t => empty t die ∧ .ack die line true false 0 ∈ t.msgs) ∧
    (recalls (.binv die line) (.binv m) die fun t => empty t die ∧ ∃ x, .ack die line true false x ∈ t.msgs ∧ dirty x die) ∧
    (s.msgs[m]? = some (.data die line mask grant got) → d.busy = some b → b.die = die → b.acks = [] → idle →
      may (grant ≠ .s) → (setPeers s die line).length < 16 - (s.die die).padWays →
      runs (.data m) fun t => (t.dir line).busy = none ∧ (t.frame die line).st = grant ∧ (t.frame die line).asked = none ∧
        (t.frame die line).valid = (if (fr die).st = .i then got else (fr die).valid ||| got) ∧
        ((fr die).st = .i → ∀ w, w < 32 → tokensOf (t.frame die line).recs w = (128, true)) ∧
        (grant = .m ∨ grant = .o → (t.frame die line).dm = mask ||| (fr die).dm)) ∧
    (s.msgs[m]? = some (.data die line mask grant got) → d.busy = some b → b.die = die → b.acks = [] → ¬ may (grant ≠ .s) →
      s.device.cxl = true → runs (.data m) fun t => t.msgs = s.msgs ∧ (find? t.hostGrants line).isSome = true) ∧
    (s.msgs[m]? = some (.ack die line true e mask) → d.busy = some b → left ≠ [] →
      runs (.ack m) fun t => (t.dir line).busy = some { b with acks := left }) ∧
    (s.msgs[m]? = some (.ack die line true e mask) → d.busy = some b → left = [] →
      (b.after = .data → runs (.ack m) fun t => .data b.die line 0 .m (broughtSectors s b.die line) ∈ t.msgs) ∧
      (b.after = .ack → runs (.ack m) fun t => .ack b.die line false false 0 ∈ t.msgs) ∧
      (b.after = .owner → runs (.ack m) fun t => (t.dir line).busy = some { b with acks := [] }) ∧
      (b.after = .free → d.queue = [] → runs (.ack m) fun t => (t.dir line).st = .i ∧ (t.dir line).busy = none)) ∧
    (s.msgs[m]? = some (.ack die line false true mask) →
      runs (.ack m) fun t => t.msgs = s.msgs.eraseIdx m ∧
        (t.die die).noticeBuf = (s.die die).noticeBuf.filter fun x => x.line != line) ∧
    (s.msgs[m]? = some (.ack die line false false mask) → idle → may true →
      runs (.ack m) fun t => (t.frame die line).st = .m ∧ (t.frame die line).asked = none ∧ (t.dir line).busy = none)

/-! ### Recovery, faults of the part and start-up (R40, R305, R338, R388, R397, R399, R402 to R416) -/

/-- Recovery intervals (R231, R407 to R410). An interval closes once every team of its context stands at a commit point with
its copies and matrix operations done, and the frames have room beside the set that they replace: RIVL adds 1, the log is empty
and the frame set is that of the teams now; with too little room it stays open. A context that consumes poison after a close,
and has not rolled back in its interval, goes back to it: each logged line holds its old bytes, no other byte of memory
changes, and its teams are those of the frame set. A job rollback ends with status 1, or 6 where a context had no closed
interval.
A pipeline error in the instruction that a wave issues next (R305, R402, R403): its result is discarded, and a live
region rolls back; a second mismatch in the attempt that follows fences the quarter, and its team issues nothing more and is to
be saved; in a team so moved the next one raises the trap 0x0C, as does at once one in an access whose value has already been
sent to an uncached page. -/
def Obligations.ContextRecovery : Prop :=
  (∀ (s : State) (part ctx : Nat) (ts : List (Nat × Team)),
     let c := s.context ctx
     let teams := ctxTeams s ctx
     let mine : Prop := (find? s.grids ctx).map (·.part) = some part
     let n := mbField s 0 1
     let lines := c.log.flatMap fun e => keysFrom (128 * e.line) 128
     let s1 := teams.foldl flushStale s
     (mine → c.closing = true → (∀ t ∈ teams, teamClosed s t = true) →
       (contextRoom s1 part c.spare (teams.map (teamImage s1)) = true →
         ∃ t, exec (.intervalClose part ctx) s = .next t ∧ t = s1.setContext ctx (t.context ctx) ∧
           (t.context ctx).rivl = c.rivl + 1 ∧ (t.context ctx).log = [] ∧ (t.context ctx).closing = false ∧
           (t.context ctx).rolledBack = false ∧ (t.context ctx).frames = some (teams.map fun t => (t, teamImage s1 t)) ∧
           (t.context ctx).spare = c.units ∧
           (t.context ctx).grids = s.grids.filter fun g => g.2.ctx == ctx && g.2.st != .ended) ∧
       (contextRoom s1 part c.spare (teams.map (teamImage s1)) = false →
         exec (.intervalClose part ctx) s = .next (s1.setContext ctx { c with closing := false }))) ∧
     (mine → c.frames = some ts → c.rolledBack = false → (∀ e ∈ c.log, e.shared = false ∧ e.old.length = 128) →
       (c.log.map (·.line)).Nodup → (ts.map (·.1)).Nodup →
       (∃ k ∈ s.cores, ∃ w ∈ k.2.waves, ctxOf s (s.team w.2.team) = some ctx ∧ consumesPoison s k.1 w.1 = true) →
       ∃ t, exec (.contextRollback part ctx) s = .next t ∧
         (∀ e ∈ c.log, readBytes t (128 * e.line) 128 = e.old) ∧ (∀ a, a < onChip → a ∉ lines → readByte t a = readByte s a) ∧
         (t.context ctx).rolledBack = true ∧ (t.context ctx).log = [] ∧ (t.context ctx).rivl = c.rivl ∧
         ∀ x ∈ ts, ∃ r, t.team x.1 = { x.2 with waiting := [], passed := none, due := none, readyAt := r }) ∧
     (mbRuns s 4 = true → modeAllows s 4 n = true → (s.part n).created = true →
       ∃ t, exec .jobRollback s = .next t ∧ t.device.mbBusy = false ∧
         t.device.mbStatus = if ∃ k ∈ jobContexts s n, (s.context k).frames = none then 6 else 1)) ∧
  (∀ (s : State) (core slot : Nat) (i : Instr),
     let w := s.wave core slot
     let x := s.team w.team
     let m := groupOf s core slot
     let c := groupCursor s core slot m
     let back := if w.ckpt.isSome then rollBackWave s core slot else s
     let id := (slot, c.pc.toNat)
     let known : Prop := id ∈ (back.core core).mismatches
     (∀ a, w.sent = some a → exec (.pipelineError core (.sent slot)) s = .next
       (raiseEarlier (s.setWave core slot { w with sent := none }) core slot { cause := 0x0C, sub := 0, addr := 0 } s.fresh
         a.pc a.hdr a.active)) ∧
     (s.hasWave core slot = true → m ≠ 0 → pick s c = .issue i →
     (x.retry = false → ¬ known →
       ∃ t, exec (.pipelineError core (.result slot)) s = .next t ∧ SameBytes s t ∧ id ∈ (t.core core).mismatches ∧
         t.wave core slot = back.wave core slot) ∧
     (x.retry = false → known → x.grid.isSome = true → x.core = some core →
       ∃ t, exec (.pipelineError core (.result slot)) s = .next t ∧ SameBytes s t ∧ id ∉ (t.core core).mismatches ∧
         slot / 16 ∈ (t.core core).fenced ∧ (t.core core).corectl.getLsbD 1 = true ∧ acceptsTeams t core = false ∧
         (t.team w.team).saving = true ∧ (t.team w.team).fencedOff = true ∧ (t.team w.team).due = some 0 ∧
         (t.team w.team).forced = true) ∧
     (x.retry = true → exec (.pipelineError core (.result slot)) s = .next
       { raiseTrapWith { cause := 0x0C, sub := 0, addr := 0 } true []
           { s.setTeam w.team { x with retry := false } with cur := c } with cur := s.cur })))

/-- Faults of the part (R264, R338, R397, R399, R404, R411). The scrub moves on by one chunk, counts each pin it corrects,
takes one of 16 corrections for dead, and poisons in DRAM what a code cannot correct (R270); a word of a register file, an
accumulator slot, an on-chip memory or a cache that its code cannot correct is as poison, and a tag in error poisons the words
whose tokens its frame held (R401); a fenced router loses its cores; a die's metered events are added to their partitions'
counters; a lost chip's lines leave its directory entries, poisoned where it
owned them; with the last of the 18 ports every other device is lost. -/
def Obligations.PartFaults : Prop :=
  ∀ (s : State) (stack chunk die router chip port core slot r i key : Nat) (pins : List Nat),
    let k := look {} s.hbmStacks stack
    let pa := chunkPA stack chunk
    let gang := chunk % 8
    let codes := codesOf (s.granule pa)
    let wrong := (pins ++ (k.wrong.filter fun x => x.1 == chunk).map (·.2)).eraseDups
    let fails (c : Nat × Nat × Option Nat × Nat) : Bool := codeFails gang c wrong k.dead
    let poisoned (t : State) (a : Nat) : Prop := poisonUnit a ∈ t.poison ∨ poisonUnit a ∈ t.dramPoison
    let y (t : State) : Stack := look {} t.hbmStacks stack
    let w := s.wave core slot
    let err (u : CheckUnit) : Instr := .pipelineError core u
    let s1 := (s.cores.filter fun c => dieOf c.1 == die).foldl (fun s c => meterCycles s c.1) s
    let d := s.die die
    let dev := s.device
    let lost (t : State) (c : Nat) : Prop := c ∈ t.device.lostChips
    (stack < 16 → chunk < 2 ^ 28 → k.scrubAt = chunk →
      ∃ t, exec (.memoryScrub stack chunk pins) s = .next t ∧ SameBytes s t ∧ (y t).scrubAt = (chunk + 1) % 2 ^ 28 ∧
        (∀ c ∈ codes, fails c = true → ∀ a ∈ keysFrom (pa + 32 * c.1) (32 * c.2.1), poisoned t a) ∧
        ((∀ c ∈ codes, fails c = false) → t.poison = s.poison ∧ t.dramPoison = s.dramPoison) ∧
        (∀ p ∈ wrong, p ∉ k.dead → (∃ c ∈ codes, fails c = false ∧ pinIn gang c p = true) →
          (chunk + 1 < 2 ^ 28 → look 0 (y t).corrected p = look 0 k.corrected p + 1) ∧
          (15 ≤ look 0 k.corrected p → p ∈ (y t).dead)) ∧
        ∀ p ∈ k.dead, p ∈ (y t).dead) ∧
    (s.hasWave core slot = true →
      (r < w.quota → i < 64 → 64 * r + i ∉ w.bad →
        exec (err (.lane slot r i)) s = .next (s.setWave core slot { w with bad := (64 * r + i) :: w.bad })) ∧
      (r < 64 → 8192 + r ∉ w.bad →
        exec (err (.uniform slot r)) s = .next (s.setWave core slot { w with bad := (8192 + r) :: w.bad }))) ∧
    (∀ a, find? (s.core core).acc r = some a → i < 4096 → i ∉ a.bad →
      ∃ t, exec (err (.acc r i)) s = .next t ∧ SameBytes s t ∧ find? (t.core core).acc r = some { a with bad := i :: a.bad }) ∧
    (firstPoison s [key] = none →
      (onChip ≤ key → exec (err (.onChip key)) s = .next (addPoison s [key])) ∧
      ((find? (s.core core).l1 (key / 128)).isSome = true → exec (err (.cache key)) s = .next (addPoison s [key]))) ∧
    (heldKeys key ((s.core core).line key) ≠ [] →
      ∃ t, exec (err (.l1Tag key)) s = .next t ∧ SameBytes s t ∧
        ∀ a ∈ heldKeys key ((s.core core).line key), poisonUnit a ∈ t.poison) ∧
    (die < 8 → router < 128 → router ∉ d.deadRouters →
      ∃ t, exec (.routerFence die router) s = .next t ∧ router ∈ (t.die die).deadRouters ∧
        ∀ c ∈ coresAt s die router, c ∈ t.device.lostCores ∧ (t.core c).waves = [] ∧ acceptsTeams t c = false) ∧
    ((s1.die die).unreported ≠ [] → ((s1.die die).unreported.map (·.1)).Nodup →
      ∃ t, exec (.dieMeterReport die) s = .next t ∧ SameBytes s t ∧ (t.die die).unreported = [] ∧
        ∀ e ∈ (s1.die die).unreported, look 0 (t.part (e.1 / 16)).counters (e.1 % 16) =
          (look 0 (s.part (e.1 / 16)).counters (e.1 % 16) + e.2) % 2 ^ 64) ∧
    (chip < Config.domain → chip ≠ Config.deviceNumber → chip ∉ dev.lostChips →
      ∃ t, exec (.chipLoss chip) s = .next t ∧ SameBytes s t ∧ lost t chip ∧
        ∀ l, (t.dir l).ownerChip ≠ some chip ∧ ((s.dir l).ownerChip = some chip → (t.dir l).st = .i ∧
          ((s.dir l).st = .m ∨ (s.dir l).st = .e → (t.dir l).groups.getLsbD (chip / 4) = false) ∧
          ((s.dir l).st = .m ∨ (s.dir l).st = .o → ∀ a ∈ keysFrom (128 * l) 128, poisonUnit a ∈ t.poison))) ∧
    (port < 18 → port ∉ dev.downPorts →
      ∃ t, exec (.nellysPortDown port) s = .next t ∧ SameBytes s t ∧ t.device.downPorts = port :: dev.downPorts ∧
        look 0 t.device.portErrors port = look 0 dev.portErrors port + 1 ∧
        (dev.downPorts.length < 17 → t.device.lostChips = dev.lostChips) ∧
        (17 ≤ dev.downPorts.length → ∀ c, c < Config.domain → c ≠ Config.deviceNumber → lost t c))

/-- Start-up (R40, R388, R414 to R416). A device start leaves every core and on-chip memory as reset does, host memory as it
was, and the device's memory, too, where it ends before step 5, which writes it 0; with STARTCNT at 3 or above it enters
minimal mode; a start whose step fails is failed, with the reason of R416, and STARTCNT counts it; one with nothing to report
is ready, with reason 0 and STARTCNT 0; one that takes 2^33 cycles fails with reason 0x0B. A core reset returns a core without
a team to strict mode, one wave at FWBASE. An accepted firmware update, and the clearing of the start counter, set STARTCNT to
0. -/
def Obligations.StartUp : Prop :=
  ∀ (s : State) (r : StartReport) (core : Nat) (copyB : Bool),
    let n := s.device.startCnt
    let counted := min 255 (n + 1)
    let keeps (d : Device) : Prop := d.minimal = true ∨ d.step < 5
    let fresh (t : State) : Prop := t.grids = [] ∧ t.kernels = [] ∧ (∀ k, t.core k = resetCore k) ∧
      (∀ a, 2 ^ 51 ≤ a → a < onChip → readByte t a = readByte s a) ∧ (∀ a, onChip ≤ a → readByte t a = unlistedByte) ∧
      (∀ a, a < 2 ^ 51 → keeps t.device → readByte t a = readByte s a) ∧
      ∀ a, a < 2 ^ 51 → ¬ keeps t.device → readByte t a = unlistedByte
    let start (P : Device → Prop) : Prop := ∃ t, exec (.deviceStart r) s = .next t ∧ fresh t ∧ P t.device
    let failed (reason step : Nat) (d : Device) : Prop :=
      d.ready = false ∧ d.failed = true ∧ d.minimal = false ∧ d.reason = reason ∧ d.step = step ∧ d.startCnt = counted
    let copy : Prop := r.copyA = true ∨ r.copyB = true
    let up4 : Prop := copy ∧ r.identity = true ∧ r.config = true
    let up5 : Prop := up4 ∧ r.hostLink = true ∧ r.fabric = none ∧ r.dram = none
    let plain : Prop := r.degraded = none ∧ degradedStack s = none ∧ r.replaced = [] ∧ r.badPorts = []
    (3 ≤ n → start fun d => d.minimal = true ∧ d.ready = false ∧ d.failed = false ∧ d.reason = 0x10 ∧ d.startCnt = counted ∧
      d.cxl = false ∧ d.downPorts = List.range 18 ∧
      d.detail = if s.device.minimal then s.device.detail else s.device.reason) ∧
    (n < 3 →
      (¬ copy → start (failed 2 1)) ∧ (copy → r.identity = false → start (failed 3 2)) ∧
      (copy → r.identity = true → r.config = false → start (failed 4 3)) ∧
      (up4 → r.hostLink = false → start (failed 5 4)) ∧
      (∀ x, up4 → r.hostLink = true → r.fabric = some x → start fun d => failed 6 4 d ∧ d.die = x ∧ d.detail = x) ∧
      (∀ x, up4 → r.hostLink = true → r.fabric = none → r.dram = some x →
        start fun d => failed 7 4 d ∧ d.die = x / 2 ∧ d.detail = x) ∧
      (up5 → r.memory = false → start (failed 9 5)) ∧
      (∀ x, up5 → r.memory = true → spareless s r = some x →
        start fun d => failed 0x0A 6 d ∧ d.die = x / 128 ∧ d.detail = x % 128) ∧
      (up5 → r.memory = true → spareless s r = none → start fun d =>
        d.ready = true ∧ d.failed = false ∧ d.minimal = false ∧ d.step = 7 ∧ d.startCnt = 0 ∧ d.cxl = !r.pcie ∧
        d.downPorts = r.badPorts.eraseDups ∧ d.ports = r.ports ∧
        (r.copyA = true → plain → d.reason = 0) ∧ (r.copyA = false → plain → d.reason = 1 ∧ d.fwb = true)) ∧
      ∃ t, exec .startTimeout s = .next t ∧ fresh t ∧ 1 ≤ t.device.step ∧ t.device.step ≤ 7 ∧
        failed 0x0B t.device.step t.device) ∧
    (core < Config.cores → coreTeams s core = [] → core ∉ s.device.lostCores →
      ∃ t, exec (.coreReset core) s = .next t ∧ SameBytes s t ∧ t.core core = resetCore core ∧
        (t.core core).strict = true ∧ (t.core core).waves = [(0, fwWave core)] ∧
        ∀ k, k ≠ core → (t.core k).waves = (s.core k).waves) ∧
    ((s.device.minimal = true ∨ (s.device.failed = true ∧ s.device.reason = 2)) →
      exec (.firmwareUpdate copyB) s = .next { s with device := { s.device with startCnt := 0 } }) ∧
    (mbRuns s 3 = true → ∃ t, exec .clearStartCounter s = .next t ∧ SameBytes s t ∧ t.device.startCnt = 0 ∧
      t.device.mbBusy = false ∧ t.device.mbStatus = 1)

/-! ### Admission, partitions and their services (R234 to R239, R253 to R256, R384 to R398, R418) -/

/-- Pavane's requests (R234 to R239, R253, R254, R388, R390). A partition's next request that is malformed ends with status 3,
one whose destination is refused with status 4; another has its destination in admission, which no party writes, until its check
can be done: an image that the check rejects then ends with status 2; one that it accepts, once sealed, with status 1, as the
kernel of the next kernel ID at its destination. (No fetcher holds a word that a unit writes: log 90.) An unload of an unknown
kernel ends with status 5; another holds one of the eight units, and no new launch takes the kernel; once no grid names it, the
kernel goes, its pages read 0, and the status is 1. Firmware's request, which the mailbox puts in its ring, installs a library
at the first free place of the runtime area, or ends with its status. -/
def Obligations.Admission : Prop :=
  ∀ (s s2 : State) (part index : Nat) (h bs : List Byte) (img : Pavane.Image) (ga : Pavane.Gather) (e : Pavane.Fail) (k : Kernel)
    (a : Checking),
    let f := ringField s part index
    let word := keysFrom (controlPA s part (0x2000 + 64 * index + 0x24)) 4
    let calm : Prop := s.unitWaits = [] ∧ ∀ c ∈ s.cores, ∀ m ∈ c.2.mmas, m.held = []
    let taken : Option Checking := s.device.checking.find? fun a => a.part == part && a.index == index
    let next : Prop := unitFree s = true ∧ admPart s = some part ∧ nextEntry (s.part part) = some index
    let ends (i : Instr) (st : Nat) (P : State → Prop) : Prop :=
      ∃ t, exec i s = .next t ∧ readKeys t word = st ∧ index ∉ (t.part part).admPending ∧ P t
    let ends' (i : Instr) (st : Nat) (P : State → Prop) : Prop :=
      ends i st fun t => (t.part part).admLast = index ∧ t.device.lastAdmit = part ∧ P t
    let held (u : Nat × Nat × Nat) : Prop := (s.device.unloads.find? fun u => u.1 == part && u.2.1 == index) = some u
    let unheld : Prop := (s.device.unloads.find? fun u => u.1 == part && u.2.1 == index) = none
    let dest := f 0x18 8
    let bytes := f 0x20 4
    let pas := destPAs s part dest bytes
    let headed : Prop := taken = none ∧ isUnload s part index = false ∧ ringBad s part index = false ∧
      imageBytes s (imageKeys s part (f 8 8) 64) 64 = some h ∧ Pavane.headRule (Pavane.head h) (f 0x10 4) false = none
    let fits : Prop := (∀ va ∈ destPages dest bytes, destPageOk s part va = true) ∧ sealedBytes (Pavane.head h) ≤ bytes
    let released := { s with device := { s.device with checking := s.device.checking.filter (· ≠ a) } }
    let image' := a.head ++ bs
    let body := Pavane.sections image'
    let checked : Prop := taken = some a ∧ a.since + checkClocks a ≤ (s.die a.unit).clk ∧
      imageBytes s (imageKeys s part (a.image + 64) (a.size - 64)) (a.size - 64) = some bs
    let kid := f 4 4
    let g (off n : Nat) : Nat := ofBytes ((keysFrom (64 * index + off) n).map (look (0 : Byte) s.device.fwRing))
    let read (n : Nat) : Option (List Byte) := imageBytes s (keysFrom (2 ^ 51 + g 8 8) n) n
    let top := s.device.runtimeTop
    let image := mbField s 0 8
    let len := mbField s 8 4
    (next → taken = none → calm → isUnload s part index = false → ringBad s part index = true →
      ends' (.admitKernel part index) 3 fun t => SameBytesBut word s t) ∧
    (next → headed → calm → ¬ fits → ends' (.admitKernel part index) 4 fun t => SameBytesBut word s t) ∧
    (next → headed → fits →
      ∃ t, exec (.admitKernel part index) s = .next t ∧ SameBytes s t ∧ index ∉ (t.part part).admPending ∧
        (t.part part).admLast = index ∧ t.device.lastAdmit = part ∧
        t.device.checking = s.device.checking ++ [readEntry s part index h pas] ∧
        ∀ pa ∈ pas, pa % 65536 = 0 → ∀ o, o < 65536 → inAdmission t (pa + o) = true) ∧
    (taken = some a → (s.die a.unit).clk < a.since + checkClocks a → exec (.admitKernel part index) s = .next s) ∧
    (checked → calm → Pavane.check image' false = .error e →
      ∃ t, exec (.admitKernel part index) s = .next t ∧ readKeys t word = 2 ∧ a ∉ t.device.checking ∧ t.kernels = s.kernels ∧
        ∀ pa ∈ a.pas, ∀ o, o < 65536 → pa + o ∉ word → readByte t (pa + o) = 0) ∧
    (checked → calm → Pavane.check image' false = .ok (img, ga) →
      sealKernel (unitWrite released (destKeys a.pas body.length) (ofBytes body)) a img ga (sha256 image') = some s2 →
      ∃ t, exec (.admitKernel part index) s = .next t ∧ readKeys t word = 1 ∧ a ∉ t.device.checking ∧
        t.nextKid = s.nextKid + 1 ∧ ∃ x, find? t.kernels s.nextKid = some x ∧
        x.part = part ∧ x.entry = a.dest ∧ x.dest = a.dest ∧ x.destBytes = a.bytes ∧ x.pages = a.pas.map (· / 65536) ∧
        x.waves = img.head.waves ∧ x.regs = img.head.regs8 ∧ x.unloading = false) ∧
    (next → unheld → calm → isUnload s part index = true →
      (ringReserved s part index = true → ends' (.unload part index) 3 fun t => SameBytesBut word s t) ∧
      (ringReserved s part index = false → (∀ x, find? s.kernels kid = some x → x.part ≠ part) →
        ends' (.unload part index) 5 fun t => SameBytesBut word s t) ∧
      (ringReserved s part index = false → find? s.kernels kid = some k → k.part = part →
        ∃ t, exec (.unload part index) s = .next t ∧ SameBytes s t ∧
          find? t.kernels kid = some { k with unloading := true } ∧ index ∉ (t.part part).admPending ∧
          t.device.lastAdmit = part ∧ t.device.unloads = s.device.unloads ++ [(part, index, kid)])) ∧
    (∀ u, held u → calm →
      (kernelBusy s part u.2.2 = true → exec (.unload part index) s = .next s) ∧
      (kernelBusy s part u.2.2 = false → find? s.kernels u.2.2 = some k →
        ∃ t, exec (.unload part index) s = .next t ∧ readKeys t word = 1 ∧ u ∉ t.device.unloads ∧
          find? t.kernels u.2.2 = none ∧
          ∀ p ∈ k.pages, ∀ o, o < 65536 → 65536 * p + o ∉ word → readByte t (65536 * p + o) = 0)) ∧
    (unitFree s = true → calm → s.device.fwPending.head? = some index →
      (read (g 0x10 4) = none → ∃ t, exec (.installRuntimeLibrary index) s = .next t ∧ t.device.mbStatus = 3 ∧
        index ∉ t.device.fwPending) ∧
      (read (g 0x10 4) = some bs → Pavane.headRule (Pavane.head bs) (g 0x10 4) true = none →
        top + (sealedBytes (Pavane.head bs) + 65535) / 65536 * 65536 ≤ runtimeArea → Pavane.check bs true = .ok (img, ga) →
        ∃ t, exec (.installRuntimeLibrary index) s = .next t ∧ t.device.mbStatus = 1 ∧ index ∉ t.device.fwPending ∧
          find? t.device.libraries top = some s.nextKid ∧ find? t.device.libDescs top =
            some (Pavane.descriptor img ga top s.nextKid (top + (img.head.code + img.head.data)) (sha256 bs)) ∧
          t.device.runtimeTop = top + (sealedBytes (Pavane.head bs) + 65535) / 65536 * 65536 ∧
          readBytes t (Config.runtimeBase + top) (Pavane.sections bs).length = Pavane.sections bs ∧
          ∃ x, find? t.kernels s.nextKid = some x ∧ x.runtime = img.runtime)) ∧
    (mbRuns s 5 = true → s.device.minimal = false → 64 ≤ len → len ≤ 8 * 2 ^ 20 → image + len ≤ 2 ^ 51 →
      s.device.fwPending = [] →
      ∃ t, exec .mailboxInstall s = .next t ∧ SameBytes s t ∧ t.device.fwPending = [0] ∧
        ∀ j, j < 64 → look 0 t.device.fwRing j =
          (bytesOf 4 1 ++ bytesOf 4 0 ++ bytesOf 8 image ++ bytesOf 4 len ++ bytesOf 44 0).getD j 0)

/-- Partitions (R386 to R391, R396). A creation whose limits, image and entries are sound gives the partition its resources and
makes it ready; one that breaks a limit of R386 to R390 leaves ERR 2, and READY as it was. A reset ends every grid of the
partition with status 7, stops its teams with nothing performed, and leaves it ready. A destruction keeps the final usage
record, frees its resources and leaves its memory 0. Both come after every admission of it that has begun. -/
def Obligations.Partitions : Prop :=
  ∀ (s : State) (part : Nat),
    let r := creationRequest s
    let n := mbField s 0 1
    let p := s.part n
    (mbRuns s 1 = true → modeAllows s 1 r.part = true →
      (resourceBad s r = false → imageUnreadable s r = false → imageBad s r = false →
        ∃ t, exec .create s = .next t ∧ t.device.mbBusy = false ∧ t.device.mbStatus = 1 ∧
          let x := t.part r.part
          x.created = true ∧ x.ready = true ∧ x.err = 1 ∧ x.clusters = r.clusters ∧ x.colours = r.colours ∧
          x.asidBase = r.asidBase ∧ x.asidCount = r.asidCount ∧ x.memBytes = r.memBytes ∧ x.pad = r.pad ∧
          ∀ m, m ≠ r.part → t.part m = s.part m) ∧
      (resourceBad s r = true → r.part < 16 → 
        ∃ t, exec .create s = .next t ∧ SameBytes s t ∧ t.device.mbStatus = 2 ∧
          t.part r.part = { s.part r.part with err := 2 })) ∧
    ((s.part part).created = true → admissionBegun s part = false →
      (∀ h g, find? s.grids h = some g → h < s.nextHandle) →
      ∃ t, exec (.logicalDeviceReset part) s = .next t ∧ (t.part part).ready = true ∧ (t.part part).rst = false ∧
        (t.part part).slotsSeen = [] ∧ (t.part part).admPending = [] ∧ (t.part part).fqOpen = [] ∧
        (∀ h g, find? s.grids h = some g → g.part = part → g.st ≠ .ended →
          ∃ x, find? t.grids h = some x ∧ x.st = .ended ∧ x.status = 7) ∧
        ∀ h x, find? s.teams h = some x → x.live = true → s.partOf x = some part → (t.team h).live = false) ∧
    (mbRuns s 2 = true → modeAllows s 2 n = true → p.created = true → admissionBegun s n = false →
      ∃ t, exec .destroy s = .next t ∧ t.device.mbBusy = false ∧ t.device.mbStatus = 1 ∧ (t.part n).created = false ∧
        (t.part n).clusters = 0 ∧ (t.part n).colours = 0 ∧ (t.part n).asids = [] ∧
        (find? t.device.finalRecords n).isSome = true ∧
        (∀ a, a < onChip → inPart p a = true → readByte t a = 0) ∧
        ∀ k x, find? t.kernels k = some x → x.part = n → x.runtime = true)

/-- The services of a partition and the writes to its registers (R385, R388, R394, R395, R398, R418): `BIASCMD` and `GRCMD`
start a change of one page, or set ERR; its end puts the page into the bias asked for, or, once the page is mapped nowhere,
reads it 0 under its new granule; a usage record is written at the offset asked for, in the order of the device's requests,
and its sequence number adds 1. A register of BAR 0 takes 8 bytes; another width has no effect. -/
def Obligations.PartServices : Prop :=
  ∀ (s s1 : State) (part value off width rest0 : Nat) (c : PageCmd) (rest : List Nat),
    let p := s.part part
    let page := value / 65536 % 2 ^ 24
    let outside : Prop := p.memBytes ≤ 65536 * page
    let pa := partPA p (65536 * c.page)
    let set (q : Partition) : Host.Outcome State Fault Refusal := .next (s.setPart part q)
    let aligned := value / 512 * 512
    let calm : Prop := s.unitWaits = [] ∧ ∀ c ∈ s.cores, ∀ m ∈ c.2.mmas, m.held = []
    let reg (off : Nat) : Instr := .registerWrite part off 8 value
    let bias : Prop :=
      (p.bias.isSome = true ∨ outside → exec (.biascmd part value) s = set { p with biasErr := true }) ∧
      (p.bias = none → ¬ outside →
        exec (.biascmd part value) s = set { p with bias := some { page := page, code := value % 2 }, biasErr := false })
    let granule : Prop :=
      (p.gran.isSome = true ∨ p.bias.isSome = true ∨ outside ∨ page = 0 ∨ s.devBias (partPA p (65536 * page)) = false →
        exec (.grcmd part value) s = set { p with granErr := true }) ∧
      (p.gran = none → p.bias = none → ¬ outside → page ≠ 0 → s.devBias (partPA p (65536 * page)) = true →
        exec (.grcmd part value) s = set { p with gran := some { page := page, code := value % 4 }, granErr := false })
    let usage : Prop :=
      (p.requests.length < 16 → aligned + 512 ≤ p.memBytes →
        exec (.umreq part value) s = .next
          ({ s with device := { s.device with usage := s.device.usage ++ [part] } }.setPart part
            { p with requests := p.requests ++ [aligned] })) ∧
      (16 ≤ p.requests.length → exec (.umreq part value) s = .next s)
    (p.created = true → bias ∧ granule ∧ usage) ∧
    (p.bias = some c → c.code = 1 →
      ∃ t, exec (.biasChangeDone part) s = .next t ∧ SameBytes s t ∧ t.devBias pa = true ∧ (t.part part).bias = none) ∧
    (p.bias = some c → c.code ≠ 1 → recallLines (pageLines pa) s = some s1 →
      ∃ t, exec (.biasChangeDone part) s = .next t ∧ SameBytes s t ∧ t.devBias pa = false ∧ (t.part part).bias = none) ∧
    (p.gran = some c → pageMapped s (pa / 65536) = true → exec (.granuleChangeDone part) s = .next s) ∧
    (p.gran = some c → pageMapped s (pa / 65536) = false →
      ∃ t, exec (.granuleChangeDone part) s = .next t ∧ (t.part part).gran = none ∧ t.granule pa = c.code ∧
        (∀ o, o < 65536 → readByte t (pa + o) = 0) ∧ SameBytesBut (keysFrom pa 65536) s t ∧
        ∀ a ∈ t.poison, ¬ (pa ≤ a ∧ a < pa + 65536)) ∧
    (p.created = true → p.requests = rest0 :: rest → rest0 % 512 = 0 → s.device.usage.head? = some part → calm →
      ∃ t, exec (.usageRecordWrite part) s = .next t ∧ t.device.usage = s.device.usage.drop 1 ∧ (t.part part).requests = rest ∧ (t.part part).recSeq = p.recSeq + 1 ∧
        (sealedPA s (partPA p rest0) = false → ∀ i, i < 512 → i < (recordHead part p (p.recSeq + 1)).length →
          readByte t (partPA p (rest0 + i)) = (recordHead part p (p.recSeq + 1)).getD i 0) ∧
        SameBytesBut ((List.range 512).map fun i => partPA p (rest0 + i)) s t) ∧
    (part ≠ 16 → p.created = true →
      (width ≠ 8 → exec (.registerWrite part off width value) s = .next s) ∧
      (∃ t, exec (reg 0x018) s = .next t ∧ SameBytes s t ∧ value % 64 ∈ (t.part part).admPending) ∧
      exec (reg 0x028) s = exec (.fqack part value) s ∧ exec (reg 0x038) s = exec (.biascmd part value) s ∧
      exec (reg 0x048) s = exec (.grcmd part value) s ∧ exec (reg 0x110) s = exec (.umreq part value) s ∧
      (value % 2 = 1 → exec (reg 0x030) s = set { p with rst := true, ready := false }) ∧
      exec (reg 0x100) s = set { p with nonce := BitVec.ofNat 64 value } ∧
      exec (reg 0x108) s = set { p with time := BitVec.ofNat 64 value }) ∧
    (s.device.mbBusy = false → 1 ≤ value % 256 → value % 256 ≤ 5 →
      exec (.registerWrite 16 0x100 8 value) s =
        .next { s with device := { s.device with mbCmd := value % 256, mbBusy := true } }) ∧
    (s.device.mbBusy = true → exec (.registerWrite 16 0x100 8 value) s = .next s)

end
end

