-- ==== Sys2Proof/Laws/Assoc.lean ====
section
/-!
SUPPORT. What the operations on finite maps do: reading after writing, and the canonical form kept.
-/
namespace Sys2Proof.Machine

variable {α : Type}

@[simp] theorem look_nil (d : α) (k : Nat) : look d [] k = d := rfl
@[simp] theorem find?_nil (k : Nat) : find? ([] : List (Nat × α)) k = none := rfl

/-- A read after a write: the value written at its key, every other key as before. -/
theorem look_put (d : α) (m : List (Nat × α)) (k k' : Nat) (v : α) :
    look d (put m k v) k' = if k' = k then v else look d m k' := by
  induction m with
  | nil => simp [put, look]
  | cons x r ih =>
    obtain ⟨a, b⟩ := x
    simp only [put]
    split
    · simp [look]
    · split
      · subst_vars; by_cases h : k' = a <;> simp [look, h]
      · by_cases h : k' = a
        · subst h; simp only [look, if_true]; rw [if_neg]; omega
        · simp only [look, h, if_false]; exact ih

@[simp] theorem look_put_self (d : α) (m : List (Nat × α)) (k : Nat) (v : α) : look d (put m k v) k = v := by
  simp [look_put]

theorem look_del (d : α) (m : List (Nat × α)) (k k' : Nat) :
    look d (del m k) k' = if k' = k then d else look d m k' := by
  induction m with
  | nil => simp [del]
  | cons x r ih =>
    obtain ⟨a, b⟩ := x
    simp only [del]
    split
    · subst_vars
      rw [ih]; by_cases h : k' = a <;> simp [look, h]
    · by_cases h : k' = a
      · subst h; simp only [look, if_true]; rw [if_neg]; omega
      · simp only [look, h, if_false]; exact ih

/-- A read after a write that never lists the value an unlisted key reads as. -/
theorem look_putd [DecidableEq α] (d : α) (m : List (Nat × α)) (k k' : Nat) (v : α) :
    look d (putd d m k v) k' = if k' = k then v else look d m k' := by
  unfold putd
  split
  · subst_vars; exact look_del ..
  · exact look_put ..

theorem find?_put (m : List (Nat × α)) (k k' : Nat) (v : α) :
    find? (put m k v) k' = if k' = k then some v else find? m k' := by
  induction m with
  | nil => simp [put, find?]
  | cons x r ih =>
    obtain ⟨a, b⟩ := x
    simp only [put]
    split
    · simp [find?]
    · split
      · subst_vars; by_cases h : k' = a <;> simp [find?, h]
      · by_cases h : k' = a
        · subst h; simp only [find?, if_true]; rw [if_neg]; omega
        · simp only [find?, h, if_false]; exact ih

/-- The last of two writes at one key stands. -/
@[simp] theorem put_put (m : List (Nat × α)) (k : Nat) (v w : α) : put (put m k v) k w = put m k w := by
  induction m with
  | nil => simp [put]
  | cons x r ih =>
    obtain ⟨a, b⟩ := x
    simp only [put]
    split
    · simp [put]
    · split
      · simp [put]
      · simp only [put, ih]; rw [if_neg ‹_›, if_neg ‹_›]

/-- A write of what is listed already changes nothing. -/
theorem put_find? (m : List (Nat × α)) (k : Nat) (v : α) (h : find? m k = some v)
    (s : m.Pairwise fun a b => a.1 < b.1) : put m k v = m := by
  induction m with
  | nil => simp at h
  | cons x r ih =>
    obtain ⟨a, b⟩ := x
    simp only [find?] at h
    have hs := List.pairwise_cons.1 s
    by_cases e : k = a
    · simp [e] at h; simp [put, e, h]
    · simp [e] at h
      have : a < k := by
        by_contra hn
        have : find? r k = none := by
          clear ih h
          have hlt : ∀ x ∈ r, k < x.1 := fun x hx => by have := hs.1 x hx; simp at this; omega
          clear hs s
          induction r with
          | nil => rfl
          | cons y r ih => simp only [find?]; rw [if_neg (by have := hlt y (by simp); omega)]; exact ih fun x hx => hlt x (by simp [hx])
        simp [this] at h
      rw [put, if_neg (by omega), if_neg e, ih h hs.2]

/-! ### The canonical form -/

/-- Every key of a map is above a bound. -/
def above (b : Nat) (m : List (Nat × α)) : Prop := ∀ x ∈ m, b < x.1

theorem canon_cons [DecidableEq α] (d : α) (k : Nat) (v : α) (r : List (Nat × α)) :
    canon d ((k, v) :: r) = true ↔ v ≠ d ∧ above k r ∧ canon d r = true := by
  induction r generalizing k v with
  | nil => simp [canon, above]
  | cons x r ih =>
    obtain ⟨a, b⟩ := x
    rw [show canon d ((k, v) :: (a, b) :: r) = (decide (v ≠ d) && decide (k < a) && canon d ((a, b) :: r)) from rfl]
    simp only [Bool.and_eq_true, decide_eq_true_eq]
    rw [ih]
    constructor
    · rintro ⟨⟨h1, h2⟩, h3, h4, h5⟩
      refine ⟨h1, fun x hx => ?_, h3, h4, h5⟩
      rcases List.mem_cons.1 hx with rfl | hx
      · exact h2
      · exact Nat.lt_trans h2 (h4 x hx)
    · rintro ⟨h1, h2, h3, h4, h5⟩
      exact ⟨⟨h1, h2 (a, b) (by simp)⟩, h3, h4, h5⟩

theorem mem_del (m : List (Nat × α)) (k : Nat) (x : Nat × α) : x ∈ del m k ↔ x ∈ m ∧ x.1 ≠ k := by
  induction m with
  | nil => simp [del]
  | cons y r ih =>
    obtain ⟨a, b⟩ := y
    simp only [del]
    split
    · subst_vars; rw [ih]; constructor
      · rintro ⟨h1, h2⟩; exact ⟨by simp [h1], h2⟩
      · rintro ⟨h1, h2⟩
        rcases List.mem_cons.1 h1 with rfl | h1
        · simp at h2
        · exact ⟨h1, h2⟩
    · simp only [List.mem_cons, ih]; constructor
      · rintro (rfl | ⟨h1, h2⟩)
        · exact ⟨by simp, by simpa using Ne.symm (by assumption)⟩
        · exact ⟨by simp [h1], h2⟩
      · rintro ⟨rfl | h1, h2⟩
        · simp
        · simp [h1, h2]

theorem canon_del [DecidableEq α] (d : α) (m : List (Nat × α)) (k : Nat) (h : canon d m = true) :
    canon d (del m k) = true := by
  induction m with
  | nil => rfl
  | cons x r ih =>
    obtain ⟨a, b⟩ := x
    obtain ⟨h1, h2, h3⟩ := (canon_cons ..).1 h
    simp only [del]
    split
    · exact ih h3
    · exact (canon_cons ..).2 ⟨h1, fun x hx => h2 x ((mem_del ..).1 hx).1, ih h3⟩

theorem mem_put (m : List (Nat × α)) (k : Nat) (v : α) (x : Nat × α) (h : x ∈ put m k v) : x = (k, v) ∨ x ∈ m := by
  induction m with
  | nil => simpa [put] using h
  | cons y r ih =>
    obtain ⟨a, b⟩ := y
    simp only [put] at h
    split at h
    · rcases List.mem_cons.1 h with h | h
      · exact .inl h
      · exact .inr h
    · split at h
      · rcases List.mem_cons.1 h with h | h
        · exact .inl h
        · exact .inr (by simp [h])
      · rcases List.mem_cons.1 h with h | h
        · exact .inr (by simp [h])
        · rcases ih h with h | h
          · exact .inl h
          · exact .inr (by simp [h])

theorem canon_put [DecidableEq α] (d : α) (m : List (Nat × α)) (k : Nat) (v : α) (h : canon d m = true) (hv : v ≠ d) :
    canon d (put m k v) = true := by
  induction m with
  | nil => simp [put, canon, hv]
  | cons x r ih =>
    obtain ⟨a, b⟩ := x
    obtain ⟨h1, h2, h3⟩ := (canon_cons ..).1 h
    simp only [put]
    split
    · rename_i hk
      refine (canon_cons ..).2 ⟨hv, fun x hx => ?_, h⟩
      rcases List.mem_cons.1 hx with rfl | hx
      · exact hk
      · exact Nat.lt_trans hk (h2 x hx)
    · split
      · subst_vars; exact (canon_cons ..).2 ⟨hv, h2, h3⟩
      · refine (canon_cons ..).2 ⟨h1, fun x hx => ?_, ih h3⟩
        rcases mem_put _ _ _ _ hx with rfl | hx
        · simp only; omega
        · exact h2 x hx

/-- A write keeps the canonical form. -/
theorem canon_putd [DecidableEq α] (d : α) (m : List (Nat × α)) (k : Nat) (v : α) (h : canon d m = true) :
    canon d (putd d m k v) = true := by
  unfold putd
  split
  · exact canon_del d m k h
  · exact canon_put d m k v h ‹_›

/-- Entries left out keep the canonical form. -/
theorem canon_filter [DecidableEq α] (d : α) (m : List (Nat × α)) (p : Nat × α → Bool) (h : canon d m = true) :
    canon d (m.filter p) = true := by
  induction m with
  | nil => rfl
  | cons x r ih =>
    obtain ⟨a, b⟩ := x
    obtain ⟨h1, h2, h3⟩ := (canon_cons ..).1 h
    rw [List.filter_cons]
    split
    · exact (canon_cons ..).2 ⟨h1, fun x hx => h2 x (List.mem_filter.1 hx).1, ih h3⟩
    · exact ih h3

/-- Two maps in canonical form that read the same are the same. -/
theorem canon_ext [DecidableEq α] (d : α) (m n : List (Nat × α)) (hm : canon d m = true) (hn : canon d n = true)
    (h : ∀ k, look d m k = look d n k) : m = n := by
  have low : ∀ (r : List (Nat × α)) (k : Nat), above k r → look d r k = d := by
    intro r k hr
    induction r with
    | nil => rfl
    | cons x r ih =>
      obtain ⟨a, b⟩ := x
      have := hr (a, b) (by simp)
      rw [look, if_neg (by simp at this; omega)]
      exact ih fun x hx => hr x (by simp [hx])
  induction m generalizing n with
  | nil =>
    cases n with
    | nil => rfl
    | cons y r =>
      obtain ⟨a, b⟩ := y
      have := h a
      simp [look] at this
      exact absurd this.symm ((canon_cons ..).1 hn).1
  | cons x r ih =>
    obtain ⟨a, b⟩ := x
    obtain ⟨h1, h2, h3⟩ := (canon_cons ..).1 hm
    cases n with
    | nil =>
      have := h a
      simp [look] at this
      exact absurd this h1
    | cons y q =>
      obtain ⟨c, e⟩ := y
      obtain ⟨g1, g2, g3⟩ := (canon_cons ..).1 hn
      have hac : a = c := by
        rcases Nat.lt_trichotomy a c with hl | hl | hl
        · have := h a
          simp only [look, if_true] at this
          rw [if_neg (by omega), low q a fun x hx => Nat.lt_trans hl (g2 x hx)] at this
          exact absurd this h1
        · exact hl
        · have := h c
          simp only [look, if_true] at this
          rw [if_neg (by omega), low r c fun x hx => Nat.lt_trans hl (h2 x hx)] at this
          exact absurd this.symm g1
      subst hac
      have hbe : b = e := by simpa [look] using h a
      subst hbe
      rw [ih q h3 g3 fun k => ?_]
      by_cases hk : k = a
      · subst hk; rw [low r k h2, low q k g2]
      · simpa [look, hk] using h k

end Sys2Proof.Machine
end

