-- ==== Sys2Proof/Laws/State.lean ====
section
/-!
SUPPORT. The small lemmas of State's and Wave's updates: one for each field that an update reads or leaves.
-/
namespace Sys2Proof.Machine

namespace State
variable (s : State) (k n : Nat)

/-! ### Cores, teams, partitions, dies, frames, directory entries -/

@[simp] theorem core_setCore (c : Core) : (s.setCore k c).core n = if n = k then c else s.core n := by
  unfold core setCore
  by_cases h : n = k
  · subst h; simp
  · simp [look_put, h]
@[simp] theorem team_setTeam (t : Team) : (s.setTeam k t).team n = if n = k then t else s.team n := by
  unfold team setTeam
  by_cases h : n = k
  · subst h; simp
  · simp [look_put, h]
@[simp] theorem part_setPart (p : Partition) : (s.setPart k p).part n = if n = k then p else s.part n := by
  simp [part, setPart, look_put]
@[simp] theorem die_setDie (d : Die) : (s.setDie k d).die n = if n = k then d else s.die n := by
  simp [die, setDie, look_put]
@[simp] theorem context_setContext (c : Context) : (s.setContext k c).context n = if n = k then c else s.context n := by
  simp [context, setContext, look_put]
@[simp] theorem dir_setDir (d : Dir) : (s.setDir k d).dir n = if n = k then d else s.dir n := by
  simp [dir, setDir, look_put]
@[simp] theorem setCore_setCore (c d : Core) : (s.setCore k c).setCore k d = s.setCore k d := by simp [setCore]
@[simp] theorem setTeam_setTeam (c d : Team) : (s.setTeam k c).setTeam k d = s.setTeam k d := by simp [setTeam]

@[simp] theorem setCore_mem (c : Core) : (s.setCore k c).mem = s.mem := rfl
@[simp] theorem setCore_cur (c : Core) : (s.setCore k c).cur = s.cur := rfl
@[simp] theorem setCore_fresh (c : Core) : (s.setCore k c).fresh = s.fresh := rfl
@[simp] theorem setCore_teams (c : Core) : (s.setCore k c).teams = s.teams := rfl
@[simp] theorem setCore_team (c : Core) : (s.setCore k c).team n = s.team n := rfl
@[simp] theorem setCore_grids (c : Core) : (s.setCore k c).grids = s.grids := rfl
@[simp] theorem setCore_msgs (c : Core) : (s.setCore k c).msgs = s.msgs := rfl
@[simp] theorem setTeam_mem (t : Team) : (s.setTeam k t).mem = s.mem := rfl
@[simp] theorem setTeam_cur (t : Team) : (s.setTeam k t).cur = s.cur := rfl
@[simp] theorem setTeam_core (t : Team) : (s.setTeam k t).core n = s.core n := rfl
@[simp] theorem setTeam_fresh (t : Team) : (s.setTeam k t).fresh = s.fresh := rfl
@[simp] theorem setGrid_mem (g : Grid) : (s.setGrid k g).mem = s.mem := rfl
@[simp] theorem setGrid_cur (g : Grid) : (s.setGrid k g).cur = s.cur := rfl
@[simp] theorem setGrid_core (g : Grid) : (s.setGrid k g).core n = s.core n := rfl
@[simp] theorem setGrid_team (g : Grid) : (s.setGrid k g).team n = s.team n := rfl
@[simp] theorem setPart_mem (p : Partition) : (s.setPart k p).mem = s.mem := rfl
@[simp] theorem setPart_cur (p : Partition) : (s.setPart k p).cur = s.cur := rfl
@[simp] theorem setDie_mem (d : Die) : (s.setDie k d).mem = s.mem := rfl
@[simp] theorem setContext_mem (c : Context) : (s.setContext k c).mem = s.mem := rfl
@[simp] theorem setFrame_mem (d : Nat) (f : Frame) : (s.setFrame d k f).mem = s.mem := rfl
@[simp] theorem setDir_mem (d : Dir) : (s.setDir k d).mem = s.mem := rfl

/-! ### The wave of a slot -/

variable (c : Nat) (w : Wave)

@[simp] theorem wave_setWave (c' k' : Nat) : (s.setWave c k w).wave c' k' = if c' = c ∧ k' = k then w else s.wave c' k' := by
  unfold wave setWave
  by_cases h : c' = c
  · subst h; simp [look_put]
  · simp [h]
@[simp] theorem setWave_setWave (x : Wave) : (s.setWave c k w).setWave c k x = s.setWave c k x := by
  simp [setWave]
@[simp] theorem setWave_mem : (s.setWave c k w).mem = s.mem := rfl
@[simp] theorem setWave_cur : (s.setWave c k w).cur = s.cur := rfl
@[simp] theorem setWave_fresh : (s.setWave c k w).fresh = s.fresh := rfl
@[simp] theorem setWave_team : (s.setWave c k w).team n = s.team n := rfl
@[simp] theorem setWave_grids : (s.setWave c k w).grids = s.grids := rfl

/-! ### The running wave -/

@[simp] theorem cw_setCw : (s.setCw w).cw = w := by simp [cw, setCw]
@[simp] theorem setCw_setCw (x : Wave) : (s.setCw w).setCw x = s.setCw x := by simp [setCw]
@[simp] theorem setCw_mem : (s.setCw w).mem = s.mem := rfl
@[simp] theorem setCw_cur : (s.setCw w).cur = s.cur := rfl
@[simp] theorem setCw_fresh : (s.setCw w).fresh = s.fresh := rfl
@[simp] theorem setCw_team : (s.setCw w).team n = s.team n := rfl
@[simp] theorem setCw_grids : (s.setCw w).grids = s.grids := rfl
@[simp] theorem setCw_lanes : (s.setCw w).lanes = s.lanes := rfl
@[simp] theorem setCw_lowLane : (s.setCw w).lowLane = s.lowLane := rfl

end State

namespace Wave
variable (w : Wave) (l : Nat)

@[simp] theorem thread_setThread (k : Nat) (t : Thread) : (w.setThread l t).thread k = if k = l then t else w.thread k := by
  simp [thread, setThread, look_put]
@[simp] theorem setThread_regs (t : Thread) : (w.setThread l t).regs = w.regs := rfl
@[simp] theorem setThread_unif (t : Thread) : (w.setThread l t).unif = w.unif := rfl
@[simp] theorem setThread_preds (t : Thread) : (w.setThread l t).preds = w.preds := rfl
@[simp] theorem setThread_pend (t : Thread) : (w.setThread l t).pend = w.pend := rfl
@[simp] theorem setThread_sbuf (t : Thread) : (w.setThread l t).sbuf = w.sbuf := rfl
@[simp] theorem setThread_ckpt (t : Thread) : (w.setThread l t).ckpt = w.ckpt := rfl
@[simp] theorem setReg_threads (r : Nat) (v : Word) : (w.setReg r l v).threads = w.threads := rfl
@[simp] theorem setReg_unif (r : Nat) (v : Word) : (w.setReg r l v).unif = w.unif := rfl
@[simp] theorem setReg_preds (r : Nat) (v : Word) : (w.setReg r l v).preds = w.preds := rfl
@[simp] theorem setUni_threads (r : Nat) (v : Word) : (w.setUni r v).threads = w.threads := rfl
@[simp] theorem setUni_regs (r : Nat) (v : Word) : (w.setUni r v).regs = w.regs := rfl
@[simp] theorem setUni_preds (r : Nat) (v : Word) : (w.setUni r v).preds = w.preds := rfl

@[simp] theorem mem_setReg_bad (r k : Nat) (v : Word) : k ∈ (w.setReg r l v).bad ↔ k ∈ w.bad ∧ k ≠ r * 64 + l := by
  simp [setReg]
@[simp] theorem mem_setUni_bad (r k : Nat) (v : Word) : k ∈ (w.setUni r v).bad ↔ k ∈ w.bad ∧ k ≠ 8192 + r := by
  simp [setUni]

/-- A lane register after a write of one: lanes lie in 0 to 63, so register and lane do not run into each other. -/
theorem reg_setReg (r k : Nat) (v : Word) (r' l' : Nat) (hl : k < 64) (hl' : l' < 64) :
    (w.setReg r k v).reg r' l' = if r' = r ∧ l' = k then v else w.reg r' l' := by
  simp only [reg, setReg, look_putd]
  congr 1
  exact propext ⟨fun h => by omega, fun h => by omega⟩
theorem uni_setUni (r : Nat) (v : Word) (r' : Nat) : (w.setUni r v).uni r' = if r' = r then v else w.uni r' := by
  simp [uni, setUni, look_putd]
theorem predWord_setPredWord (x : BitVec 24) (k : Nat) :
    (w.setPredWord l x).predWord k = if k = l then x else w.predWord k := by
  simp [predWord, setPredWord, look_putd]
/-- A predicate after a write of one. -/
theorem pred_setPred (p : Nat) (b : Bool) (l' p' : Nat) (hp : p' < 24) :
    (w.setPred l p b).pred l' p' = if l' = l ∧ p' = p then b else w.pred l' p' := by
  unfold setPred pred
  rw [predWord_setPredWord]
  by_cases hl : l' = l
  · subst hl
    cases b <;> by_cases h : p' = p <;> simp [h, hp, BitVec.getLsbD_twoPow]
    all_goals (subst h; simp [hp])
  · simp [hl]

/-- The threads after a change made to the threads of some lanes, each once. -/
theorem thread_mapThreads (f : Nat → Thread → Thread) (ls : List Nat) (h : ls.Nodup) (w : Wave) (k : Nat) :
    (mapThreads f ls w).thread k = if k ∈ ls then f k (w.thread k) else w.thread k := by
  induction ls generalizing w with
  | nil => simp [mapThreads]
  | cons l r ih =>
    obtain ⟨h1, h2⟩ := List.nodup_cons.1 h
    rw [mapThreads, ih h2]
    by_cases hk : k = l
    · subst hk; simp [h1]
    · simp [hk]

/-- A change made to threads leaves every other field of the wave. -/
theorem mapThreads_eq (f : Nat → Thread → Thread) (ls : List Nat) (w : Wave) :
    mapThreads f ls w = { w with threads := (mapThreads f ls w).threads } := by
  induction ls generalizing w with
  | nil => rfl
  | cons l r ih => rw [mapThreads, ih]; rfl

/-- Writes leave every field of the wave but registers with their errors, predicates and threads. -/
theorem writes_eq (ws : List Write) (w : Wave) :
    writes ws w = { w with regs := (writes ws w).regs, unif := (writes ws w).unif, bad := (writes ws w).bad,
                           preds := (writes ws w).preds, threads := (writes ws w).threads } := by
  induction ws generalizing w with
  | nil => rfl
  | cons x r ih => rw [writes, ih]; cases x <;> rfl

theorem writes_append (a b : List Write) (w : Wave) : writes (a ++ b) w = writes b (writes a w) := by
  induction a generalizing w with
  | nil => rfl
  | cons x r ih => exact ih _

end Wave

/-- The lanes of a mask are each listed once, and lie below 64. -/
theorem lanesOf_nodup (m : Mask) : (lanesOf m).Nodup := List.Nodup.filter _ List.nodup_range
theorem lt_of_mem_lanesOf {m : Mask} {l : Nat} (h : l ∈ lanesOf m) : l < 64 := by
  simpa [lanesOf, waveWidth] using (List.mem_filter.1 h).1

end Sys2Proof.Machine
end

