-- ==== Sys2Proof/Laws/Lanes.lean ====
section
/-!
SUPPORT. What the operations that every instruction ends with can do: the threads of the group going on, a hold, the
writing of fixed-latency results, a result left outstanding.
-/
namespace Sys2Proof.Machine
open State Wave

theorem step_wentOn (s : State) (t : Thread) : WentOn s t (t.step s.cur) 0 := by
  unfold WentOn Thread.step
  split <;> simp

/-- What `finish` does: the group's threads go on, and nothing else changes. -/
theorem finish_spec (sw : Bool) (s : State) :
    finish sw s = s.setCw (finish sw s).cw ∧
    (finish sw s).cw = { s.cw with threads := (finish sw s).cw.threads } ∧
    ∀ l, if l ∈ s.lanes then WentOn s (s.cw.thread l) ((finish sw s).cw.thread l) 0
      else (finish sw s).cw.thread l = s.cw.thread l := by
  have hn : s.lanes.Nodup := lanesOf_nodup s.cur.active
  have ha : (advance s).cw = mapThreads (fun _ t => t.step s.cur) s.lanes s.cw := by simp [advance]
  refine ⟨?_, ?_, fun l => ?_⟩
  · cases sw <;> simp [finish, park, advance]
  · cases sw
    · simp only [finish, park, Bool.false_eq_true, if_false, ha]
      exact mapThreads_eq ..
    · simp only [finish, park, if_true, cw_setCw]
      rw [mapThreads_eq, ha, mapThreads_eq (fun _ t => t.step s.cur)]
  · cases sw
    · simp only [finish, park, Bool.false_eq_true, if_false, ha]
      rw [thread_mapThreads _ _ hn]
      split
      · exact step_wentOn s _
      · rfl
    · have hl : (advance s).lanes = s.lanes := rfl
      simp only [finish, park, if_true, cw_setCw, hl]
      rw [thread_mapThreads _ _ hn, ha, thread_mapThreads _ _ hn]
      split
      · simp only [WentOn, Thread.step]; split <;> simp
      · rfl

/-- What `holdGroup` does: each thread of the group takes the hold. -/
theorem holdGroup_spec (h : Hold) (s : State) :
    holdGroup h s = s.setCw (holdGroup h s).cw ∧
    (holdGroup h s).cw = { s.cw with threads := (holdGroup h s).cw.threads } ∧
    ∀ l, (holdGroup h s).cw.thread l = if l ∈ s.lanes then { s.cw.thread l with hold := h } else s.cw.thread l := by
  refine ⟨by simp [holdGroup], by simpa [holdGroup] using mapThreads_eq .., fun l => ?_⟩
  simp only [holdGroup, cw_setCw]
  rw [thread_mapThreads _ s.lanes (lanesOf_nodup s.cur.active)]

/-- What a fixed-latency instruction does in terms of what its writes deliver to the wave. -/
theorem fixedOp_spec (sw : Bool) (f : Nat → List Write) (s : State) (n d : Nat) (v : Nat → Nat) (fl : Nat → Flags)
    (h : Delivers s (activeLanes s) ((resultLanes s).flatMap f) n d v fl) :
    let t := fixedOp sw f s
    RegsAfter s t n d v ∧ ThreadsAfter s t fl ∧ OnlyWave s t ∧
    t.cw = { s.cw with regs := t.cw.regs, unif := t.cw.unif, bad := t.cw.bad, threads := t.cw.threads } := by
  obtain ⟨h1, h2, h3, h5, h4⟩ := h s.cw
  set ws := (resultLanes s).flatMap f
  obtain ⟨g1, g2, g3⟩ := finish_spec sw (applyWrites ws s)
  have hcw : (applyWrites ws s).cw = Wave.writes ws s.cw := by simp [applyWrites]
  rw [hcw] at g2 g3
  have hl : (applyWrites ws s).lanes = s.lanes := rfl
  rw [hl] at g3
  have hregs : ∀ r l, (fixedOp sw f s).cw.reg r l = (Wave.writes ws s.cw).reg r l := fun r l => by
    show Wave.reg (finish sw (applyWrites ws s)).cw r l = _
    rw [g2]; rfl
  have huni : ∀ r, (fixedOp sw f s).cw.uni r = (Wave.writes ws s.cw).uni r := fun r => by
    show Wave.uni (finish sw (applyWrites ws s)).cw r = _
    rw [g2]; rfl
  have hbad : (fixedOp sw f s).cw.bad = (Wave.writes ws s.cw).bad := by
    show (finish sw (applyWrites ws s)).cw.bad = _
    rw [g2]
  refine ⟨⟨fun k => by rw [hbad]; exact h5 k, fun r l hl => ?_, fun r => ?_⟩, fun l => ?_, ⟨?_, fun k => ?_⟩, ?_⟩
  · rw [hregs, h1 r l hl]; simp [activeLanes]
  · rw [huni, h2]
  · have := g3 l
    split at this
    · rename_i hm
      rw [if_pos hm]
      rw [h3 l, if_pos hm] at this
      obtain ⟨p1, p2⟩ := this
      refine ⟨p1, ?_⟩
      show (finish sw (applyWrites ws s)).cw.thread l = _
      rw [p2]
      simp
      exact ⟨rfl, rfl, rfl, rfl, rfl⟩
    · rename_i hm
      rw [if_neg hm]
      rw [h3 l, if_neg hm] at this
      exact this
  · show finish sw (applyWrites ws s) = s.setCw (finish sw (applyWrites ws s)).cw
    conv_lhs => rw [g1]
    simp [applyWrites]
  · show readByte (finish sw (applyWrites ws s)) k = _
    rw [g1]; rfl
  · show (finish sw (applyWrites ws s)).cw = _
    have e1 : (finish sw (applyWrites ws s)).cw.regs = (Wave.writes ws s.cw).regs := by rw [g2]
    have e2 : (finish sw (applyWrites ws s)).cw.unif = (Wave.writes ws s.cw).unif := by rw [g2]
    have e0 : fixedOp sw f s = finish sw (applyWrites ws s) := rfl
    rw [hbad, e0, e1, e2]
    conv_lhs => rw [g2, h4]

end Sys2Proof.Machine
end

