-- ==== Sys2Proof/Laws/Delivers.lean ====
section
/-!
SUPPORT. What the writes of one result, or of a pair, with its flags, do to any wave.
-/
namespace Sys2Proof.Machine
open State Wave

/-- The writes of one lane's result and flags. -/
def laneWrites (s : State) (wide : Bool) (d l v : Nat) (f : Flags) : List Write := wrN s wide d l v ++ wrFlags s l f

theorem lanes_nodup (s : State) : s.lanes.Nodup := lanesOf_nodup s.cur.active
theorem lt_of_mem_lanes {s : State} {l : Nat} (h : l ∈ s.lanes) : l < 64 := lt_of_mem_lanesOf h

/-- What holds of each register of a result: one, or a pair. -/
theorem forall_wideRegs (wide : Bool) (d : Nat) (P : Nat → Prop) :
    (∀ r, d ≤ r → r < d + wideRegs wide → P r) ↔ P d ∧ (wide = true → P (d + 1)) := by
  refine ⟨fun h => ⟨h d le_rfl (by cases wide <;> simp [wideRegs]), fun e => h (d + 1) (by omega) (by simp [e, wideRegs])⟩,
    fun h r hr hr' => ?_⟩
  rcases Nat.eq_or_lt_of_le hr with rfl | hr
  · exact h.1
  · cases wide <;> simp only [wideRegs] at hr'
    · simp at hr'; omega
    · simp at hr'; rw [show r = d + 1 by omega]; exact h.2 rfl

/-- Flags raised in the threads of some lanes. -/
theorem writes_flags (ls : List Nat) (h : ls.Nodup) (f : Flags) (w : Wave) :
    (∀ l, (writes (ls.map fun k => .flags k f) w).thread l =
      if l ∈ ls then { w.thread l with fpst := (w.thread l).fpst ||| f } else w.thread l) ∧
    writes (ls.map fun k => .flags k f) w = { w with threads := (writes (ls.map fun k => .flags k f) w).threads } := by
  induction ls generalizing w with
  | nil => exact ⟨fun l => by simp [writes], rfl⟩
  | cons a r ih =>
    obtain ⟨h1, h2⟩ := List.nodup_cons.1 h
    obtain ⟨i1, i2⟩ := ih h2 (w.write (.flags a f))
    refine ⟨fun l => ?_, ?_⟩
    · simp only [List.map_cons, writes]
      rw [i1 l]
      by_cases hl : l = a
      · subst hl; simp [h1, write, stick]
      · simp [hl, write, stick]
    · simp only [List.map_cons, writes]
      rw [i2]; rfl

/-- One lane's writes outside a UNI clause. -/
theorem laneWrites_lane (s : State) (hu : s.cur.uni = false) (wide : Bool) (d l v : Nat) (f : Flags) (hl : l < 64) (w : Wave) :
    (∀ r k, k < 64 → (writes (laneWrites s wide d l v f) w).reg r k =
      if k = l ∧ d ≤ r ∧ r < d + wideRegs wide then BitVec.ofNat 32 (v / 2 ^ (32 * (r - d))) else w.reg r k) ∧
    (∀ k, (writes (laneWrites s wide d l v f) w).thread k =
      if k = l then { w.thread k with fpst := (w.thread k).fpst ||| f } else w.thread k) ∧
    (∀ k, k ∈ (writes (laneWrites s wide d l v f) w).bad ↔
      k ∈ w.bad ∧ ∀ r, d ≤ r → r < d + wideRegs wide → k ≠ r * 64 + l) ∧
    writes (laneWrites s wide d l v f) w =
      { w with regs := (writes (laneWrites s wide d l v f) w).regs, bad := (writes (laneWrites s wide d l v f) w).bad,
               threads := (writes (laneWrites s wide d l v f) w).threads } := by
  have hf : writes (wrFlags s l f) = fun w => writes (if f = 0 then [] else [.flags l f]) w := by
    funext w; simp [wrFlags, hu]
  have fl : ∀ w : Wave, (∀ k, (writes (wrFlags s l f) w).thread k =
      if k = l then { w.thread k with fpst := (w.thread k).fpst ||| f } else w.thread k) ∧
      writes (wrFlags s l f) w = { w with threads := (writes (wrFlags s l f) w).threads } := by
    intro w
    by_cases h0 : f = 0
    · simp [wrFlags, h0, writes]
    · simp only [hf, h0, if_false, writes, write]
      refine ⟨fun k => ?_, rfl⟩
      by_cases hk : k = l
      · subst hk; simp [stick]
      · simp [stick, hk]
  cases wide
  · have e : writes (laneWrites s false d l v f) w = writes (wrFlags s l f) (w.setReg d l (BitVec.ofNat 32 v)) := by
      simp [laneWrites, wrN, wr, hu, writes, write]
    obtain ⟨f1, f2⟩ := fl (w.setReg d l (BitVec.ofNat 32 v))
    rw [e]
    refine ⟨fun r k hk => ?_, fun k => ?_, fun k => ?_, ?_⟩
    · rw [f2]
      show Wave.reg (w.setReg d l _) r k = _
      rw [reg_setReg _ _ _ _ _ _ hl hk]
      by_cases hr : r = d
      · subst hr; by_cases hkl : k = l <;> simp [hkl, wideRegs]
      · rw [if_neg (by omega), if_neg (by simp [wideRegs]; omega)]
    · rw [f1 k]; rfl
    · rw [f2]
      show k ∈ (w.setReg d l (BitVec.ofNat 32 v)).bad ↔ _
      rw [mem_setReg_bad, forall_wideRegs]; simp
    · rw [f2]; rfl
  · have e : writes (laneWrites s true d l v f) w =
        writes (wrFlags s l f) ((w.setReg d l (BitVec.ofNat 32 v)).setReg (d + 1) l (BitVec.ofNat 32 (v / 2 ^ 32))) := by
      simp [laneWrites, wrN, wr, hu, writes, write]
    obtain ⟨f1, f2⟩ := fl ((w.setReg d l (BitVec.ofNat 32 v)).setReg (d + 1) l (BitVec.ofNat 32 (v / 2 ^ 32)))
    rw [e]
    refine ⟨fun r k hk => ?_, fun k => ?_, fun k => ?_, ?_⟩
    · rw [f2]
      show Wave.reg ((w.setReg d l _).setReg (d + 1) l _) r k = _
      rw [reg_setReg _ _ _ _ _ _ hl hk, reg_setReg _ _ _ _ _ _ hl hk]
      by_cases hkl : k = l
      · by_cases hr : r = d
        · subst hr; simp [hkl, wideRegs]
        · by_cases hr' : r = d + 1
          · subst hr'; simp [hkl, wideRegs]
          · rw [if_neg (by omega), if_neg (by omega), if_neg (by simp [wideRegs]; omega)]
      · rw [if_neg (by tauto), if_neg (by tauto), if_neg (by tauto)]
    · rw [f1 k]; rfl
    · rw [f2]
      show k ∈ ((w.setReg d l (BitVec.ofNat 32 v)).setReg (d + 1) l (BitVec.ofNat 32 (v / 2 ^ 32))).bad ↔ _
      rw [mem_setReg_bad, mem_setReg_bad, forall_wideRegs, and_assoc]; simp
    · rw [f2]; rfl

/-- The writes of a list of lanes, outside a UNI clause. -/
theorem lanesWrites_lane (s : State) (hu : s.cur.uni = false) (wide : Bool) (d : Nat) (v : Nat → Nat) (fl : Nat → Flags)
    (ls : List Nat) (hn : ls.Nodup) (hl : ∀ l ∈ ls, l < 64) (w : Wave) :
    let ws := ls.flatMap fun l => laneWrites s wide d l (v l) (fl l)
    (∀ r k, k < 64 → (writes ws w).reg r k =
      if k ∈ ls ∧ d ≤ r ∧ r < d + wideRegs wide then BitVec.ofNat 32 (v k / 2 ^ (32 * (r - d))) else w.reg r k) ∧
    (∀ k, (writes ws w).thread k =
      if k ∈ ls then { w.thread k with fpst := (w.thread k).fpst ||| fl k } else w.thread k) ∧
    (∀ k, k ∈ (writes ws w).bad ↔ k ∈ w.bad ∧ ∀ r, d ≤ r → r < d + wideRegs wide → ∀ l ∈ ls, k ≠ r * 64 + l) ∧
    writes ws w = { w with regs := (writes ws w).regs, bad := (writes ws w).bad, threads := (writes ws w).threads } := by
  induction ls generalizing w with
  | nil => exact ⟨fun r k _ => by simp [writes], fun k => by simp [writes], fun k => by simp [writes], rfl⟩
  | cons a q ih =>
    obtain ⟨h1, h2⟩ := List.nodup_cons.1 hn
    obtain ⟨p1, p2, p4, p3⟩ := laneWrites_lane s hu wide d a (v a) (fl a) (hl a (by simp)) w
    obtain ⟨i1, i2, i4, i3⟩ := ih h2 (fun l h => hl l (by simp [h])) (writes (laneWrites s wide d a (v a) (fl a)) w)
    simp only [List.flatMap_cons, writes_append]
    refine ⟨fun r k hk => ?_, fun k => ?_, fun k => ?_, ?_⟩
    · rw [i1 r k hk, p1 r k hk]
      by_cases ha : k = a
      · subst ha; simp [h1]
      · simp [ha]
    · rw [i2 k, p2 k]
      by_cases ha : k = a
      · subst ha; simp [h1]
      · simp [ha]
    · rw [i4, p4, and_assoc]
      refine and_congr_right fun _ => ⟨fun h r hr hr' l hl => ?_, fun h => ⟨fun r hr hr' => ?_, fun r hr hr' l hl => ?_⟩⟩
      · rcases List.mem_cons.1 hl with rfl | hl
        exacts [h.1 r hr hr', h.2 r hr hr' l hl]
      · exact h r hr hr' a (by simp)
      · exact h r hr hr' l (by simp [hl])
    · rw [i3]; rw [p3]

/-- What the writes of an instruction with one result a lane deliver (R42, R112). -/
theorem delivers_lanes (s : State) (wide : Bool) (d : Nat) (v : Nat → Nat) (fl : Nat → Flags) :
    Delivers s (activeLanes s) ((resultLanes s).flatMap fun l => laneWrites s wide d l (v l) (fl l))
      (wideRegs wide) d v fl := by
  intro w
  by_cases hu : s.cur.uni = false
  · have hr : resultLanes s = s.lanes := by simp [resultLanes, hu]
    obtain ⟨a, b, e, c⟩ := lanesWrites_lane s hu wide d v fl s.lanes (lanes_nodup s) (fun l h => lt_of_mem_lanes h) w
    rw [hr]
    refine ⟨fun r l hl => ?_, fun r => ?_, fun l => ?_, fun k => ?_, ?_⟩
    · rw [a r l hl]; simp [hu, activeLanes]
    · rw [c]; simp [hu, Wave.uni]
    · rw [b l]; simp [flagsOf, hu]
    · rw [e k]
      refine and_congr_right fun _ => ⟨fun h ⟨r, h1, h2, h3⟩ => ?_, fun h r h1 h2 l hl e => ?_⟩
      · obtain ⟨l, hl, ho, rfl⟩ := (by simpa [hu] using h3 : ∃ l, l < 64 ∧ activeLanes s l = true ∧ k = r * 64 + l)
        exact h r h1 h2 l (by simpa [activeLanes] using ho) rfl
      · exact h ⟨r, h1, h2, by rw [if_neg (by simp [hu])]; exact ⟨l, lt_of_mem_lanes hl, by simpa [activeLanes] using hl, e⟩⟩
    · rw [c]
  · have hu : s.cur.uni = true := by simpa using hu
    have hr : resultLanes s = [s.lowLane] := by simp [resultLanes, hu]
    rw [hr]
    simp only [List.flatMap_cons, List.flatMap_nil, List.append_nil]
    have hf : ∀ w : Wave, (∀ k, (writes (wrFlags s s.lowLane (fl s.lowLane)) w).thread k =
        if k ∈ s.lanes then { w.thread k with fpst := (w.thread k).fpst ||| fl s.lowLane } else w.thread k) ∧
        writes (wrFlags s s.lowLane (fl s.lowLane)) w =
          { w with threads := (writes (wrFlags s s.lowLane (fl s.lowLane)) w).threads } := by
      intro w
      by_cases h0 : fl s.lowLane = 0
      · simp [wrFlags, h0, writes]
      · have := writes_flags s.lanes (lanes_nodup s) (fl s.lowLane) w
        rw [wrFlags, if_neg h0, if_pos hu]
        exact this
    have hw : ∀ w : Wave, (∀ r, (writes (wrN s wide d s.lowLane (v s.lowLane)) w).uni r =
        if d ≤ r ∧ r < d + wideRegs wide then BitVec.ofNat 32 (v s.lowLane / 2 ^ (32 * (r - d))) else w.uni r) ∧
        (∀ k, k ∈ (writes (wrN s wide d s.lowLane (v s.lowLane)) w).bad ↔
          k ∈ w.bad ∧ ∀ r, d ≤ r → r < d + wideRegs wide → k ≠ 8192 + r) ∧
        writes (wrN s wide d s.lowLane (v s.lowLane)) w =
          { w with unif := (writes (wrN s wide d s.lowLane (v s.lowLane)) w).unif,
                   bad := (writes (wrN s wide d s.lowLane (v s.lowLane)) w).bad } := by
      intro w
      cases wide
      · simp only [wrN, wr, hu, if_true, Bool.false_eq_true, if_false, writes, write]
        refine ⟨fun r => ?_, fun k => ?_, rfl⟩
        rotate_left
        · rw [mem_setUni_bad, forall_wideRegs]; simp
        rw [uni_setUni]
        by_cases h : r = d
        · subst h; simp [wideRegs]
        · rw [if_neg h, if_neg (by simp [wideRegs]; omega)]
      · simp only [wrN, wr, hu, if_true, writes, write]
        refine ⟨fun r => ?_, fun k => ?_, rfl⟩
        rotate_left
        · rw [mem_setUni_bad, mem_setUni_bad, forall_wideRegs, and_assoc]; simp
        rw [uni_setUni, uni_setUni]
        by_cases h : r = d
        · subst h; simp [wideRegs]
        · by_cases h' : r = d + 1
          · subst h'; simp [wideRegs]
          · rw [if_neg h', if_neg h, if_neg (by simp [wideRegs]; omega)]
    obtain ⟨a1, a3, a2⟩ := hw w
    obtain ⟨b1, b2⟩ := hf (writes (wrN s wide d s.lowLane (v s.lowLane)) w)
    simp only [laneWrites, writes_append]
    refine ⟨fun r l hl => ?_, fun r => ?_, fun l => ?_, fun k => ?_, ?_⟩
    · rw [b2]; simp only [hu, Bool.true_eq_false, false_and, if_false]
      show Wave.reg (writes (wrN s wide d s.lowLane (v s.lowLane)) w) r l = _
      rw [a2]; rfl
    · rw [b2]; simp only [hu, true_and]
      exact a1 r
    · rw [b1 l]; simp only [flagsOf, hu, if_true]
      rw [a2]; rfl
    · rw [b2]
      refine (a3 k).trans (and_congr_right fun _ => ⟨fun h ⟨r, h1, h2, h3⟩ => ?_, fun h r h1 h2 e => ?_⟩)
      · exact h r h1 h2 (by simpa [hu] using h3)
      · exact h ⟨r, h1, h2, by rw [if_pos hu]; exact e⟩
    · rw [b2]; rw [a2]

end Sys2Proof.Machine
end

