-- ==== Sys2Proof/Laws/Memory.lean ====
section
/-!
SUPPORT. What each memory operation does: the bytes it changes, and that it keeps the canonical form of memory.
-/
namespace Sys2Proof.Machine
open State

/-! ### One byte -/

theorem readByte_writeByte (s : State) (k k' : Nat) (b : Byte) :
    readByte (writeByte s k b) k' = if k' = k then b else readByte s k' := look_putd ..
theorem wf_writeByte (s : State) (k : Nat) (b : Byte) (h : Memory.wf s.mem = true) :
    Memory.wf (writeByte s k b).mem = true := canon_putd _ _ _ _ h
theorem writeByte_eq (s : State) (k : Nat) (b : Byte) : writeByte s k b = { s with mem := (writeByte s k b).mem } := rfl

/-! ### Numbers and lists of bytes -/

theorem writeKeys_eq (s : State) (ks : List Nat) (v : Nat) : writeKeys s ks v = { s with mem := (writeKeys s ks v).mem } := by
  induction ks generalizing s v with
  | nil => rfl
  | cons k r ih => rw [writeKeys, ih]; rfl
theorem readByte_writeKeys (s : State) (ks : List Nat) (v k : Nat) (h : k ∉ ks) :
    readByte (writeKeys s ks v) k = readByte s k := by
  induction ks generalizing s v with
  | nil => rfl
  | cons a r ih =>
    rw [writeKeys, ih _ _ fun hr => h (.tail _ hr), readByte_writeByte, if_neg fun e : k = a => h (by simp [e])]
theorem wf_writeKeys (s : State) (ks : List Nat) (v : Nat) (h : Memory.wf s.mem = true) :
    Memory.wf (writeKeys s ks v).mem = true := by
  induction ks generalizing s v with
  | nil => exact h
  | cons k r ih => exact ih _ _ (wf_writeByte s k _ h)

theorem writePA_eq (s : State) (pa n v : Nat) : writePA s pa n v = { s with mem := (writePA s pa n v).mem } :=
  writeKeys_eq ..
theorem readByte_writePA (s : State) (pa n v k : Nat) (h : k < pa ∨ pa + n ≤ k) :
    readByte (writePA s pa n v) k = readByte s k := by
  refine readByte_writeKeys _ _ _ _ fun hk => ?_
  obtain ⟨i, hi, rfl⟩ := List.mem_map.1 hk
  have := List.mem_range.1 hi
  omega
theorem wf_writePA (s : State) (pa n v : Nat) (h : Memory.wf s.mem = true) : Memory.wf (writePA s pa n v).mem = true :=
  wf_writeKeys _ _ _ h

theorem writeBytes_eq (s : State) (pa : Nat) (bs : List Byte) :
    writeBytes s pa bs = { s with mem := (writeBytes s pa bs).mem } := by
  induction bs generalizing s pa with
  | nil => rfl
  | cons b r ih => rw [writeBytes, ih]; rfl
theorem wf_writeBytes (s : State) (pa : Nat) (bs : List Byte) (h : Memory.wf s.mem = true) :
    Memory.wf (writeBytes s pa bs).mem = true := by
  induction bs generalizing s pa with
  | nil => exact h
  | cons b r ih => exact ih _ _ (wf_writeByte s pa b h)
/-- Byte i of the list stands at pa + i; every other byte reads as before. -/
theorem readByte_writeBytes (s : State) (pa k : Nat) (bs : List Byte) :
    readByte (writeBytes s pa bs) k = if pa ≤ k ∧ k < pa + bs.length then bs.getD (k - pa) 0 else readByte s k := by
  induction bs generalizing s pa with
  | nil => simp only [writeBytes, List.length_nil, Nat.add_zero]; rw [if_neg (by omega)]
  | cons b r ih =>
    rw [writeBytes, ih, readByte_writeByte]
    by_cases h1 : k = pa
    · subst h1; simp
    · by_cases h2 : pa + 1 ≤ k ∧ k < pa + 1 + r.length
      · have e : k - pa = (k - (pa + 1)) + 1 := by omega
        rw [if_pos h2, if_pos (by simp; omega), e]; simp
      · rw [if_neg h2, if_neg h1, if_neg (by simp; omega)]

/-! ### Bytes written 0 -/

theorem readByte_zeroKeys (s : State) (ks : List Nat) (k : Nat) :
    readByte (zeroKeys s ks) k = if k ∈ ks then 0 else readByte s k := by
  suffices ∀ m : List Host.Cell, look unlistedByte (ks.foldl (fun m k => del m k) m) k = if k ∈ ks then 0 else look unlistedByte m k
    from this s.mem
  induction ks with
  | nil => intro m; rfl
  | cons a r ih =>
    intro m
    rw [List.foldl_cons, ih, look_del]
    by_cases h : k = a <;> by_cases h' : k ∈ r <;> simp [h, h', unlistedByte]
theorem wf_zeroKeys (s : State) (ks : List Nat) (h : Memory.wf s.mem = true) : Memory.wf (zeroKeys s ks).mem = true := by
  suffices ∀ m : List Host.Cell, Memory.wf m = true → Memory.wf (ks.foldl (fun m k => del m k) m) = true from this _ h
  induction ks with
  | nil => exact fun _ h => h
  | cons a r ih => exact fun m h => ih _ (canon_del _ _ _ h)

/-- Entries kept by their key leave the bytes they stand for as before. -/
theorem look_filter_key {α : Type} (d : α) (m : List (Nat × α)) (p : Nat → Bool) (k : Nat) :
    look d (m.filter fun c => p c.1) k = if p k = true then look d m k else d := by
  induction m with
  | nil => simp
  | cons a r ih =>
    obtain ⟨k', v⟩ := a
    by_cases hp : p k' = true
    · rw [List.filter_cons_of_pos (by simpa using hp), look, look]
      by_cases h : k = k'
      · subst h; simp [hp]
      · rw [if_neg h, if_neg h, ih]
    · rw [List.filter_cons_of_neg (by simpa using hp), ih]
      by_cases h : k = k'
      · subst h; simp [hp]
      · rw [look, if_neg h]

theorem readByte_zeroRange (s : State) (lo n k : Nat) :
    readByte (zeroRange s lo n) k = if lo ≤ k ∧ k < lo + n then 0 else readByte s k := by
  rw [readByte, zeroRange, look_filter_key _ _ fun k => decide (k < lo) || decide (lo + n ≤ k)]
  by_cases h : lo ≤ k ∧ k < lo + n
  · rw [if_pos h, if_neg (by simp; omega)]; rfl
  · rw [if_neg h, if_pos (by simp; omega)]; rfl
theorem wf_zeroRange (s : State) (lo n : Nat) (h : Memory.wf s.mem = true) : Memory.wf (zeroRange s lo n).mem = true :=
  canon_filter _ _ _ h

/-! ### Poison, marks and performed writes -/

@[simp] theorem clearPoison_mem (s : State) (ks : List Nat) : (clearPoison s ks).mem = s.mem := rfl
@[simp] theorem addPoison_mem (s : State) (ks : List Nat) : (addPoison s ks).mem = s.mem := rfl
@[simp] theorem loseAll_mem (s : State) (a b : Option Nat) (ks : List Nat) : (loseAll s a b ks).mem = s.mem := rfl

theorem performWrite_mem (s : State) (core slot : Option Nat) (ks : List Nat) (v : Nat) :
    (performWrite s core slot ks v).mem = (writeKeys s ks v).mem := rfl
theorem readByte_performWrite (s : State) (core slot : Option Nat) (ks : List Nat) (v k : Nat) (h : k ∉ ks) :
    readByte (performWrite s core slot ks v) k = readByte s k := readByte_writeKeys s ks v k h
theorem wf_performWrite (s : State) (core slot : Option Nat) (ks : List Nat) (v : Nat) (h : Memory.wf s.mem = true) :
    Memory.wf (performWrite s core slot ks v).mem = true := wf_writeKeys _ _ _ h

/-- A fold of operations each of which keeps the canonical form keeps it. -/
theorem wf_foldl {α : Type} (f : State → α → State) (hf : ∀ s a, Memory.wf s.mem = true → Memory.wf (f s a).mem = true)
    (l : List α) (s : State) (h : Memory.wf s.mem = true) : Memory.wf (l.foldl f s).mem = true := by
  induction l generalizing s with
  | nil => exact h
  | cons a r ih => exact ih _ (hf s a h)

/-! ### Operations that leave memory -/

/-- A fold of operations each of which leaves memory leaves it. -/
theorem mem_foldl {α : Type} (f : State → α → State) (hf : ∀ s a, (f s a).mem = s.mem) (l : List α) (s : State) :
    (l.foldl f s).mem = s.mem := by
  induction l generalizing s with
  | nil => rfl
  | cons a r ih => rw [List.foldl_cons, ih, hf]

/-! ### Tokens and the writes of the device's units -/

@[simp] theorem slicePut_mem (s : State) (die line : Nat) (sp : List Span) : (slicePut s die line sp).mem = s.mem := rfl
@[simp] theorem requestLine_mem (s : State) (core slot : Nat) (w : Bool) (need : List (Nat × Nat)) (l : Nat) :
    (requestLine s core slot w need l).mem = s.mem := by
  unfold requestLine
  dsimp only
  repeat' split
  all_goals rfl
@[simp] theorem requestTokens_mem (s : State) (core slot : Nat) (w : Bool) (need : List (Nat × Nat)) :
    (requestTokens s core slot w need).mem = s.mem := mem_foldl _ (fun _ _ => requestLine_mem ..) _ _
@[simp] theorem rewatch_mem (s : State) (core line : Nat) : (rewatch s core line).mem = s.mem := by
  refine mem_foldl _ (fun s kw => mem_foldl _ (fun s p => ?_) _ _) _ _
  split
  · dsimp only
    split
    · rfl
    · exact requestTokens_mem ..
  · rfl
@[simp] theorem recallLine_mem (s : State) (die line : Nat) : (recallLine s die line).mem = s.mem := by
  unfold recallLine
  dsimp only
  rw [mem_foldl _ fun _ _ => rewatch_mem .., setFrame_mem]
  refine mem_foldl _ (fun _ _ => ?_) _ _
  rfl
@[simp] theorem claimLine_mem (s : State) (line : Nat) : (claimLine s line).mem = s.mem := by
  unfold claimLine
  dsimp only
  rw [mem_foldl _ fun s d => by split <;> simp]
  refine mem_foldl _ (fun _ _ => ?_) _ _
  rfl
@[simp] theorem claimLines_mem (s : State) (ls : List Nat) : (ls.foldl claimLine s).mem = s.mem :=
  mem_foldl _ claimLine_mem _ _

/-- The memory after a write by a unit of the device is that after the plain write. -/
theorem writeKeys_mem (s t : State) (ks : List Nat) (v : Nat) (h : s.mem = t.mem) :
    (writeKeys s ks v).mem = (writeKeys t ks v).mem := by
  induction ks generalizing s t v with
  | nil => exact h
  | cons k r ih => exact ih _ _ _ (by simp [writeByte, h])
/-- A write by a unit is made, or waits for a fetcher's tokens. -/
theorem unitWrite_mem (s : State) (ks : List Nat) (v : Nat) :
    (unitWrite s ks v).mem = s.mem ∨ (unitWrite s ks v).mem = (writeKeys s ks v).mem := by
  unfold unitWrite
  split
  · exact .inl rfl
  · refine .inr ?_
    show (performWrite _ none none _ _).mem = _
    rw [performWrite_mem, writeKeys_mem _ s _ _ (claimLines_mem ..)]
theorem readByte_unitWrite (s : State) (ks : List Nat) (v k : Nat) (h : k ∉ ks) :
    readByte (unitWrite s ks v) k = readByte s k := by
  rcases unitWrite_mem s ks v with e | e
  · rw [readByte, e, ← readByte]
  · rw [readByte, e, ← readByte, readByte_writeKeys s ks v k h]
theorem wf_unitWrite (s : State) (ks : List Nat) (v : Nat) (h : Memory.wf s.mem = true) :
    Memory.wf (unitWrite s ks v).mem = true := by
  rcases unitWrite_mem s ks v with e | e <;> rw [e]
  · exact h
  · exact wf_writeKeys _ _ _ h
theorem wf_retryUnits (s : State) (h : Memory.wf s.mem = true) : Memory.wf (retryUnits s).mem = true := by
  unfold retryUnits
  split
  · exact h
  · exact wf_foldl _ (fun s w h => wf_unitWrite _ _ _ h) _ _ h

theorem readByte_unitZero (s : State) (lo n k : Nat) :
    readByte (unitZero s lo n) k = if lo ≤ k ∧ k < lo + n then 0 else readByte s k := by
  refine (readByte_zeroRange _ lo n k).trans ?_
  rw [readByte, claimLines_mem, ← readByte]
theorem wf_unitZero (s : State) (lo n : Nat) (h : Memory.wf s.mem = true) : Memory.wf (unitZero s lo n).mem = true := by
  unfold unitZero
  exact wf_zeroRange _ _ _ (by rw [claimLines_mem]; exact h)

theorem wf_writeVA (s : State) (core : Nat) (part : Option Nat) (va n v : Nat) (h : Memory.wf s.mem = true) :
    Memory.wf (writeVA s core part va n v).mem = true := by
  refine wf_foldl _ (fun s i h => ?_) _ _ h
  split
  · split
    · exact wf_unitWrite _ _ _ h
    · exact h
  · exact h

/-! ### Other operations that leave memory -/

@[simp] theorem tlbFill_mem (s : State) (core : Nat) (part : Option Nat) (va : Nat) : (tlbFill s core part va).mem = s.mem := by
  unfold tlbFill
  dsimp only
  repeat' split
  all_goals rfl
@[simp] theorem meter_mem (s : State) (die : Nat) (part : Option Nat) (m : Meter) (n : Nat) :
    (meter s die part m n).mem = s.mem := by
  unfold meter
  split <;> rfl
@[simp] theorem dropWave_mem (s : State) (core slot : Nat) : (dropWave s core slot).mem = s.mem := rfl
@[simp] theorem freeTeam_mem (s : State) (team : Nat) : (freeTeam s team).mem = s.mem := by
  unfold freeTeam
  dsimp only
  split <;> rfl
@[simp] theorem meterCycles_mem (s : State) (core : Nat) : (meterCycles s core).mem = s.mem :=
  (mem_foldl _ (fun _ _ => meter_mem ..) _ _).trans rfl
@[simp] theorem endResidency_mem (s : State) (team : Nat) : (endResidency s team).mem = s.mem := by
  unfold endResidency
  dsimp only
  split
  · split
    · rfl
    · simp
  · rfl
@[simp] theorem advance_mem (s : State) : (advance s).mem = s.mem := rfl
@[simp] theorem holdGroup_mem (h : Hold) (s : State) : (holdGroup h s).mem = s.mem := rfl
@[simp] theorem progress_mem (s : State) : (progress s).mem = s.mem := rfl
@[simp] theorem demoteAt64_mem (s : State) : (demoteAt64 s).mem = s.mem := by
  unfold demoteAt64
  split <;> rfl
@[simp] theorem park_mem (sw : Bool) (s : State) : (park sw s).mem = s.mem := by
  unfold park
  split <;> rfl
@[simp] theorem finish_mem (sw : Bool) (s : State) : (finish sw s).mem = s.mem := by simp [finish]

theorem wf_writeCompletion (s : State) (g : Grid) (status : Nat) (h : Memory.wf s.mem = true) :
    Memory.wf (writeCompletion s g status).mem = true := by
  unfold writeCompletion
  dsimp only
  iterate 12 refine wf_writeVA _ _ _ _ _ _ ?_
  exact h

/-- The memory after reset is in its canonical form. -/
theorem wf_reset : Memory.wf State.reset.mem = true := rfl

end Sys2Proof.Machine
end

