-- ==== Sys2Proof/Tests/Slice0.lean ====
section
/-!
SUPPORT. Tests: words written out from the spec's encodings and what they decode to, what WellFormed refuses, small steps
against the spec's examples or against hand calculation, and for each statement with hypotheses a state and operands that
meet them.
-/
namespace Sys2Proof.Tests
set_option Elab.async false
open Sys2Proof.Machine

/-! ### Small states -/

/-- A thread at the first instruction of the clause at the firmware base, with nothing owed. -/
def thr : Thread :=
  { pc := BitVec.ofNat 64 Config.fwBase + 4, hdr := BitVec.ofNat 64 Config.fwBase, owes := .nothing }

/-- A wave of 64 such threads. -/
def wv : Wave := { team := 0, wid := 0, quartet := none, quota := 128, base := thr }

/-- Two translations: the sealed page of the code, and a writable, cacheable page of data at 0x10000. -/
def pages : List TlbEntry :=
  [{ base := Config.fwBase, size := 65536, asid := none, leaf := Config.fwBase + 32 + 1 },
   { base := 0x10000, size := 65536, asid := none, leaf := 0x10000 + 16 + 8 + 1 }]

/-- Core 0 in normal service with one wave, lanes 0 and 1 of it running a one-word instruction, a MIX header at the firmware
base and at the next PC. -/
def st (w : Wave := wv) (active : Mask := 3) (uni : Bool := false) : State :=
  let s := writePA (writePA State.reset Config.fwBase 4 mixHeaderWord) (Config.fwBase + 8) 4 mixHeaderWord
  let s := s.setCore 0 { resetCore 0 with strict := false, waves := [(0, w)], tlb := pages }
  { s with cur := { core := 0, slot := 0, active := active, pc := BitVec.ofNat 64 Config.fwBase + 4,
                    npc := BitVec.ofNat 64 Config.fwBase + 12, hdr := BitVec.ofNat 64 Config.fwBase, uni := uni } }

/-- The same in strict mode. -/
def strictSt (w : Wave := wv) (active : Mask := 3) : State :=
  (st w active).setCore 0 { resetCore 0 with strict := true, waves := [(0, w)], tlb := pages }

/-- The wave with lane registers written: register, lane, value. -/
def regs (w : Wave) (l : List (Nat × Nat × Nat)) : Wave :=
  l.foldl (fun w x => w.setReg x.1 x.2.1 (BitVec.ofNat 32 x.2.2)) w

/-- An outcome's next state; the state after reset where there is none. -/
def next (o : Host.Outcome State Fault Refusal) : State :=
  match o with
  | .next t => t
  | _ => State.reset

/-- The outcome is a next state. -/
def isNext (o : Host.Outcome State Fault Refusal) : Bool :=
  match o with
  | .next _ => true
  | _ => false

theorem isNext_spec (o : Host.Outcome State Fault Refusal) (h : isNext o = true) : ∃ t, o = .next t := by
  cases o with
  | next t => exact ⟨t, rfl⟩
  | _ => cases h

/-! ### Decoding: words laid out from R73 to R76 -/

/-- What some words decode to. -/
def dec (l : List (List Nat × Instr)) : Bool := l.all fun x => decodeList x.1 == some x.2

/-- Integer, address and bit instructions. -/
theorem test_decode_integer_1 : dec [
    ([0x800A1306], .add true 5 (.lane 9) (.unif 3) false),
    ([0x010C1307], .sub false 6 (.lane 9) (.unif 3) true),
    ([0x020E1306], .mulLo false 7 (.lane 9) (.unif 3)),
    ([0x83101307], .mulHi true 8 (.lane 9) (.unif 3) true),
    ([0x04121306], .madLo false 9 (.lane 9) (.unif 3)),
    ([0x05141307], .min false 10 (.lane 9) (.unif 3) true),
    ([0x86161306], .max true 11 (.lane 9) (.unif 3) false),
    ([0x07181307], .absd false 12 (.lane 9) (.unif 3) true),
    ([0x081A1306], .and false 13 (.lane 9) (.unif 3)),
    ([0x891C1306], .or true 14 (.lane 9) (.unif 3)),
    ([0x0A1E1306], .xor false 15 (.lane 9) (.unif 3)),
    ([0x0B201306], .andn false 16 (.lane 9) (.unif 3)),
    ([0x8C221306], .shl true 17 (.lane 9) (.unif 3))] = true := by decide +kernel

/-- Integer, address and bit instructions. -/
theorem test_decode_integer_2 : dec [
    ([0x0D241307], .shr false 18 (.lane 9) (.unif 3) true),
    ([0x0E261306], .rot false 19 (.lane 9) (.unif 3)),
    ([0x8F281307], .bfe true 20 (.lane 9) (.unif 3) true),
    ([0x102A1306], .bfi false 21 (.lane 9) (.unif 3)),
    ([0x152C1306], .perm false 22 (.lane 9) (.unif 3)),
    ([0x992E1306], .idiv true 23 (.lane 9) (.unif 3) false),
    ([0x1A301307], .irem false 24 (.lane 9) (.unif 3) true),
    ([0x11FF9E00], .popc false 127 (.pos 15)),
    ([0x12FF9E00], .clz false 127 (.pos 15)),
    ([0x13FF9E00], .ctz false 127 (.pos 15)),
    ([0x14FF9E00], .brev false 127 (.pos 15)),
    ([0x160C1108], .addI64 false 6 (.lane 8) (.unif 4)),
    ([0x170C1108], .subI64 false 6 (.lane 8) (.unif 4))] = true := by decide +kernel

/-- Integer, address and bit instructions. -/
theorem test_decode_integer_3 : dec [
    ([0x180C1109], .mulWide false 6 (.lane 8) (.unif 4) true),
    ([0x1B0C1108], .shlI64 false 6 (.lane 8) (.unif 4)),
    ([0x1C0C1109], .shrI64 false 6 (.lane 8) (.unif 4) true)] = true := by decide +kernel

/-- Floating point. -/
theorem test_decode_floating_1 : dec [
    ([0x200C11B5], .fadd false 6 (.lane 8) (.fp 2) true),
    ([0x210C11B5], .fsub false 6 (.lane 8) (.fp 2) true),
    ([0x220C11B5], .fmul false 6 (.lane 8) (.fp 2) true),
    ([0x230C11B5], .ffma false 6 (.lane 8) (.fp 2) true),
    ([0x240C11B5], .fmin false 6 (.lane 8) (.fp 2) true),
    ([0x250C11B5], .fmax false 6 (.lane 8) (.fp 2) true),
    ([0x260C11B5], .fdiv false 6 (.lane 8) (.fp 2) true),
    ([0x270C1001], .fsqrt false 6 (.lane 8) true),
    ([0x280E11AF], .hadd false 7 (.lane 8) (.neg 7) true),
    ([0x290E11AF], .hsub false 7 (.lane 8) (.neg 7) true),
    ([0x2A0E11AF], .hmul false 7 (.lane 8) (.neg 7) true),
    ([0x2B0E11AF], .hfma false 7 (.lane 8) (.neg 7) true),
    ([0x2C0E11AF], .hmin false 7 (.lane 8) (.neg 7) true)] = true := by decide +kernel

/-- Floating point. -/
theorem test_decode_floating_2 : dec [
    ([0x2D0E11AF], .hmax false 7 (.lane 8) (.neg 7) true),
    ([0x2E0E11AF], .hdot2 false 7 (.lane 8) (.neg 7) true),
    ([0x2F0E1000], .fabs false 7 (.lane 8)),
    ([0x2F0E1001], .fneg false 7 (.lane 8))] = true := by decide +kernel

/-- Compares and predicates. -/
theorem test_decode_compare : dec [
    ([0x30BD09BF], .cmpI32 false 23 .ge (.lane 9) (.unif 63)),
    ([0x310809E2], .cmpN32 false 1 .eq (.lane 9) (.special .wid)),
    ([0x321609D8], .cmpF32 false 2 .ordered (.lane 9) (.fp 0)),
    ([0x331F0802], .cmpF64 false 3 .unordered (.lane 8) (.lane 2)),
    ([0x34220882], .cmpI64 false 4 .lt (.lane 8) (.unif 2)),
    ([0x350C1179], .movp false 6 (.lane 8) 23 true true),
    ([0x360FC52C], .plop false 1 none (some 2) 0x96),
    ([0x37284C02], .fcls false 5 (.lane 9) 0x201 false)] = true := by decide +kernel

/-- Moves, conversions, tables. -/
theorem test_decode_move : dec [
    ([0x380DDC01], .mov false 6 (.special .slot) true),
    ([0x390C1317], .cvt false 6 (.lane 9) .f32 .i64 .rd true),
    ([0x3A0C1280], .dxq false 6 (.lane 9) .dx6),
    ([0x3A0C1340], .dxqUnpack false 6 (.lane 9) .dx4),
    ([0x3B0C1340], .sfu false 6 (.lane 9) .cosPi),
    ([0x3C0C1200], .atab false 6 (.lane 9)),
    ([0x3D001302], .atld false (.lane 9) (.unif 1)),
    ([0x3E000000], .atsw false)] = true := by decide +kernel

/-- Cross-lane. -/
theorem test_decode_lanes : dec [
    ([0x400C130A], .shfl false 6 (.lane 9) 33 .rel),
    ([0x410C1316], .push false 6 (.lane 9) 34 .wrel),
    ([0x420C1340], .red false 6 (.lane 9) .xor),
    ([0x430C1230], .scan false 6 (.lane 9) .addF32 true),
    ([0x4401FC80], .vote false .eq none 4),
    ([0x440D1C00], .voteBallot false 3 (some 7))] = true := by decide +kernel

/-- Team coordination and control. -/
theorem test_decode_control_1 : dec [
    ([0x45371000], .barArrive false 13 (.pos 4)),
    ([0x45771000], .barWait false 13 (.pos 4)),
    ([0x45B71000], .barBoth false 13 (.pos 4)),
    ([0x46800000], .rq false 15),
    ([0x4709FFF0], .spawn false (.lane 9) 0xFFF0),
    ([0x48FDFFFE], .bra false true none 0x1FFFE),
    ([0x4A0E0005], .call false false (some (3, true)) 5),
    ([0x4909FFC0], .bri false (.lane 9) 1023),
    ([0x4B800000], .ret false true),
    ([0x4C000000], .exit false),
    ([0x4D280000], .joinEnrol false 5),
    ([0x4D680000], .joinWait false 5),
    ([0x4DA80000], .joinStrike false 5)] = true := by decide +kernel

/-- Team coordination and control. -/
theorem test_decode_control_2 : dec [
    ([0xCE000000], .nap true)] = true := by decide +kernel

/-- Loads and stores. -/
theorem test_decode_memory_1 : dec [
    ([0x5010143F], .ld false 8 (.lane 5) .u8 63),
    ([0x5110147E], .ldl false 8 (.lane 5) .s8 62),
    ([0x521014BD], .lds false 8 (.lane 5) .u16 61),
    ([0x531014FC], .ldc false 8 (.lane 5) .s16 60),
    ([0x5410157B], .ldk false 8 (.lane 5) .b64 59),
    ([0x551015BA], .ldg false 8 (.lane 5) .b128 58),
    ([0x56860C1F], .st false (.unif 3) (.lane 12) .b8 31),
    ([0x57860C5E], .stl false (.unif 3) (.lane 12) .b16 30),
    ([0x58860C9D], .sts false (.unif 3) (.lane 12) .b32 29),
    ([0x59860CBC], .stc false (.unif 3) (.lane 12) .b64 28),
    ([0x5A860CDB], .stk false (.unif 3) (.lane 12) .b128 27),
    ([0x5B860C9A], .stg false (.unif 3) (.lane 12) .b32 26),
    ([0x5C101480], .ldblk false 8 (.lane 5) .dx6)] = true := by decide +kernel

/-- Loads and stores. -/
theorem test_decode_memory_2 : dec [
    ([0x5D860CA0], .cmpst false (.unif 3) (.lane 12) true),
    ([0x5E098060], .chk false (.lane 9) 513 4),
    ([0x5F101521], .ldw false 8 (.lane 5) false 33)] = true := by decide +kernel

/-- Long forms. -/
theorem test_decode_long : dec [
    ([0x60100001, 0x80000001], .movi false 8 true 0x80000001),
    ([0x61120E01, 0xFFFFFFFE], .addi false 9 (.lane 7) true 0xFFFFFFFE),
    ([0x62120F02, 0xD1E80000], .lop3 false 9 (.lane 7) (.unif 1) (.neg 1) 0xE8),
    ([0x63100D0A, 0x9FFFFFF0], .lea false 8 (.lane 6) (.unif 5) 4 true 0xFFFFFF0),
    ([0x64101580, 0xFFFFFFF0], .ldx false 8 (.lane 5) .b128 0xFFFFFFF0),
    ([0x650A8C40, 0x00000007], .stx false (.lane 5) (.unif 12) .b16 7),
    ([0x6610150D, 0x80800000], .atom false 8 (.lane 5) (.unif 6) true .xchg 0x800000),
    ([0x6710150D, 0x04008000], .cas false 8 (.lane 5) (.unif 6) (.lane 4) true 0x8000),
    ([0x68860000, 0x0000000C], .acq false (.unif 3) 12),
    ([0x69860000, 0x0000000C], .rel false (.unif 3) 12),
    ([0x6A100D09, 0x02400000], .ffma3 false 8 (.lane 6) (.unif 4) (.lane 2) true .rz),
    ([0x6B120F06, 0xC5000000], .shflx false 9 (.lane 7) (.unif 3) (.pos 5))] = true := by decide +kernel

/-- Matrix and copies. -/
theorem test_decode_matrix : dec [
    ([0x70BBC000], .thset false 11 15),
    ([0x71B2F120, 0x12340007], .mma false 5 9 15 .fp16 true 0x1234 7),
    ([0x72370000], .accRd false 6 7),
    ([0x72700000], .accZero false 6),
    ([0x72B00000], .accRel false 6),
    ([0x73120F06, 0x04900000], .mscl false 9 (.lane 7) (.unif 3) (.lane 4) 2 1),
    ([0x740A8600, 0x09C00000], .cpy false (.lane 5) (.unif 3) .none (.lane 9)),
    ([0x740A8680, 0x098A0000], .cpy false (.lane 5) (.unif 3) (.compact (.unif 5)) (.lane 9)),
    ([0x75000000], .cseal false),
    ([0x76A00000], .cwait false 5),
    ([0x77800000], .drain false .host)] = true := by decide +kernel

/-- System. -/
theorem test_decode_system : dec [
    ([0x78BEEF00], .trap false 0xBEEF),
    ([0x790A000B], .rdsr false (.lane 5) .rivl),
    ([0x7A84001F], .wrsr false (.fw 15) (.unif 4)),
    ([0x7B860000, 0x00000080], .launch false (.unif 3) 0x80),
    ([0x7C000000], .trig false),
    ([0x7D000000], .rmark false),
    ([0x7E000000], .eret false)] = true := by decide +kernel

/-- Words that are no instruction, and why (R73 to R78): a reserved opcode and the illegal one; a reserved field, condition,
size, pair of conversion types and predicate; an operand code above the specials and a constant as an address; a pair at an
odd register. -/
theorem test_rejects :
    ([0x1D000000, 0x7F000000, 0x02000001, 0x30060000, 0x500001C0, 0x39000000, 0x48600000, 0x3801DE00, 0x50018100, 0x160A0000,
      0x50001300].map fun w => match decodeWords true w 0 with
        | .ok _ => 0
        | .error r => r.subcode) = [1, 1, 2, 2, 2, 2, 2, 3, 3, 5, 5] := by decide +kernel

/-- `exit` in a VALU clause; `exit` before the last; `add` of v64's code in D in a UNI clause (R65, R77, R78). -/
theorem test_rejects_in_clause :
    ([(Cls.valu, true, 0x4C000000), (.mix, false, 0x4C000000), (.uni, true, 0x00800000), (.mix, true, 0x4C000000)].map fun x =>
      match decodeIn x.1 x.2.1 x.2.2 0 with
        | .ok _ => 0
        | .error r => r.subcode) = [4, 8, 3, 0] := by decide +kernel

/-- A header of each field (R62), and words that are none: N = 0, a reserved bit, GP = 24, GS without a guard, BN without WB. -/
theorem test_headers :
    decodeHeader 0x005667D5 = some { gs := true, gp := some 11, ck := true, bs := true, bn := 1, wb := true, wm := true, wr := true
                                     cls := .ctrl, n := 5 } ∧
    ([0x003E2070, 0x00BE2071, 0x00302071, 0x007E2071, 0x003E2471].all fun w => (decodeHeader w).isNone) = true := by decide +kernel

/-- What WellFormed refuses, for each form that it checks: a register not aligned to its width, equal conversion types, a
64-bit `fadd.f32`, and a barrier's count that is not uniform (R19, R73, R74, R156, R181). -/
theorem test_ill_formed :
    ([Instr.addI64 false 1 (.lane 2) (.lane 4), .subI64 false 2 (.lane 3) (.lane 4), .subI64 false 2 (.lane 2) (.unif 5),
      .mulWide false 3 (.lane 1) (.lane 1) false, .shlI64 false 1 (.lane 2) (.lane 1), .shrI64 false 2 (.unif 1) (.lane 1) true,
      .fadd false 1 (.lane 2) (.lane 2) true, .fsub false 2 (.lane 1) (.lane 2) true, .fmul false 2 (.lane 2) (.lane 1) true,
      .ffma false 1 (.lane 2) (.lane 2) true, .fmin false 2 (.unif 1) (.lane 2) true, .fmax false 1 (.lane 2) (.lane 2) true,
      .fdiv false 1 (.lane 2) (.lane 2) true, .fsqrt false 1 (.lane 2) true, .mov false 2 (.lane 1) true,
      .cmpF64 false 0 .eq (.lane 1) (.lane 2), .cmpI64 false 0 .eq (.lane 2) (.lane 1), .movp false 1 (.lane 2) 0 true true,
      .fcls false 0 (.lane 1) 1 true, .cvt false 1 (.lane 2) .f32 .f64 .rne false, .cvt false 1 (.lane 3) .i64 .f32 .rne false,
      .cvt false 1 (.lane 1) .f32 .f32 .rne false].all fun i => !i.WellFormed) = true ∧
    ([Instr.ld false 1 (.lane 1) .b64 0, .ldl false 2 (.lane 1) .b128 0, .lds false 1 (.lane 1) .b64 0,
      .ldc false 1 (.lane 1) .b64 0, .ldk false 1 (.lane 1) .b64 0, .ldg false 1 (.lane 1) .b64 0, .ldx false 1 (.lane 1) .b64 0,
      .st false (.lane 1) (.lane 1) .b64 0, .stl false (.lane 1) (.lane 2) .b128 0, .sts false (.lane 1) (.lane 1) .b64 0,
      .stc false (.lane 1) (.lane 1) .b64 0, .stk false (.lane 1) (.lane 1) .b64 0, .stg false (.lane 1) (.unif 2) .b128 0,
      .stx false (.lane 1) (.lane 1) .b64 0, .cmpst false (.lane 1) (.lane 1) true, .ldw false 1 (.lane 1) true 0,
      .movi false 1 true 0, .lea false 1 (.lane 2) (.lane 1) 0 false 0, .lea false 2 (.lane 1) (.lane 1) 0 false 0,
      .atom false 1 (.lane 1) (.lane 2) true .add 0, .atom false 1 (.lane 1) (.lane 2) true .faddF32 0,
      .cas false 2 (.lane 1) (.lane 1) (.lane 2) true 0, .cas false 2 (.lane 1) (.lane 2) (.lane 1) true 0,
      .ffma3 false 2 (.lane 2) (.lane 2) (.lane 1) true .rne, .wrsr false .wavew (.lane 1),
      .barArrive false 0 (.lane 1), .barWait false 0 (.special .lid), .barBoth false 0 (.special .tid),
      .barBoth false 0 (.special .spawnArg)].all fun i => !i.WellFormed) = true := by decide +kernel

/-! ### Steps on small states, the results by hand from the rules -/

/-- The register r of a lane after an instruction of the two lanes of `st`, with registers set before it. -/
def after (l : List (Nat × Nat × Nat)) (i : Instr) (out : List (Nat × Nat)) : List Nat :=
  let t := next (exec i (st (regs wv l)))
  out.map fun x => ((t.wave 0 0).reg x.1 x.2).toNat

/-- `add` wraps, writes no lane outside the group, and saturates; `mul.hi` of −1 and 1 (R116). -/
theorem test_add :
    after [(2, 0, 0xFFFFFFFF), (2, 1, 5), (4, 2, 9)] (.add false 4 (.lane 2) (.pos 1) false) [(4, 0), (4, 1), (4, 2)] = [0, 6, 9] ∧
    after [(2, 0, 0x7FFFFFFF), (2, 1, 0x80000000)] (.add false 4 (.lane 2) (.pos 1) true) [(4, 0), (4, 1)] =
      [0x7FFFFFFF, 0x80000001] ∧
    after [(2, 0, 0xFFFFFFFF)] (.mulHi false 4 (.lane 2) (.pos 1) false) [(4, 0)] = [0xFFFFFFFF] := by decide +kernel

/-- A shift by 32, an arithmetic one by more, a source that is the destination, and the 64-bit carry (R116). -/
theorem test_shift_and_pair :
    after [(2, 0, 7), (3, 0, 32)] (.shl false 4 (.lane 2) (.lane 3)) [(4, 0)] = [0] ∧
    after [(2, 0, 0x80000000), (3, 0, 99)] (.shr false 2 (.lane 2) (.lane 3) true) [(2, 0)] = [0xFFFFFFFF] ∧
    after [(2, 0, 0xFFFFFFFF), (3, 0, 1), (4, 0, 1)] (.addI64 false 2 (.lane 2) (.lane 4)) [(2, 0), (3, 0)] = [0, 2] := by
  decide +kernel

/-- 1 + 2^−24 ties to even, and 1.5 × 1.5; binary16 1 + 1 in both halves (R119, R121). -/
theorem test_float :
    after [(2, 0, 0x3F800000), (3, 0, 0x33800000)] (.fadd false 4 (.lane 2) (.lane 3) false) [(4, 0)] = [0x3F800000] ∧
    after [(2, 0, 0x3FC00000)] (.fmul false 4 (.lane 2) (.lane 2) false) [(4, 0)] = [0x40100000] ∧
    after [(2, 0, 0x3C003C00)] (.hadd false 4 (.lane 2) (.lane 2) false) [(4, 0)] = [0x40004000] := by decide +kernel

/-- The majority of three, and an index scaled by 16 below a base (R138, R139). -/
theorem test_long_forms :
    after [(2, 0, 12), (3, 0, 10), (4, 0, 6)] (.lop3 false 5 (.lane 2) (.lane 3) (.lane 4) 0xE8) [(5, 0)] = [14] ∧
    after [(2, 0, 0x100), (3, 0, 1), (4, 0, 0xFFFFFFFF)] (.lea false 6 (.lane 2) (.lane 4) 4 true 4) [(6, 0), (7, 0)] =
      [0xF4, 1] := by decide +kernel

/-- A compare with a NaN is false; `unordered` is true; `ne` is true (R123). -/
theorem test_compare :
    ([FCond.lt, .unordered, .ne].map fun c =>
      ((next (exec (.cmpF32 false 3 c (.lane 2) (.lane 3)) (st (regs wv [(2, 0, 0x7FC00000)])))).wave 0 0).pred 0 3) =
      [false, true, true] := by decide +kernel

/-! ### Witnesses: encoding, the step, memory, division -/

theorem witness_DecodeEncode : (Instr.exit false).WellFormed = true ∧ (Instr.exit false).isEvent = false := by decide

theorem witness_EncodeDecode :
    (0x4C000000 : Nat) < 2 ^ 32 ∧ decodeWords true 0x4C000000 0 = .ok (.exit false) := ⟨by decide, rfl⟩

/-- The state after reset with `exit` placed at the firmware base meets every hypothesis of StepIssuesDecoded. -/
theorem witness_StepIssuesDecoded :
    let s := State.reset.withFetchWord 32 0x4C000000
    let core := turnCore s
    let t0 := tick s
    let c := groupCursor t0 core 0 (BitVec.allOnes 64)
    let s1 := takeSelection t0 core 0 0 (portClocks c) c
    s.inputs = [] ∧ s.turn % 2 = 0 ∧ promptEvent t0 core = none ∧ nextSelection t0 core = some (0, 0, BitVec.allOnes 64) ∧
    ((lanesOf (BitVec.allOnes 64)).any fun l => ((t0.wave core 0).thread l).owes != .nothing) = false ∧
    ((lanesOf c.active).any fun l => ((s1.wave c.core c.slot).thread l).owes != .nothing) = false ∧
    fetchCheck s1 c.core c.slot c.pc.toNat = .ok ∧
    (twoWord (opcodeOf c.w0.toNat) = true → fetchCheck s1 c.core c.slot (c.pc.toNat + 4) = .ok) ∧
    clauseClass s1 c = some .mix ∧ decodeIn .mix c.isLast c.w0.toNat c.w1.toNat = .ok (.exit false) ∧
    pickIssue s1 c (.exit false) = .issue (.exit false) := by decide +kernel

theorem witness_MemoryFormKept : MemSafe State.reset ∧ ∃ t, step State.reset = .next t :=
  ⟨rfl, isNext_spec _ (by decide +kernel)⟩

theorem witness_ReadAfterWrite : [0, 3, 1].Nodup := by decide

/-- A wave with no handler, no checkpoint and no result outstanding. -/
theorem witness_DivisionResults :
    (st).cw.ckpt = none ∧ (st).cw.trapReq = none ∧ (st).cw.handler = none ∧
    (st).cw.outstanding (st).cur.active = false ∧ thdlOf st (st).cw = 0 := by decide +kernel

/-- `push` and `dxq` outside a UNI clause. -/
theorem witness_CrossLaneResults : (st).cur.uni = false := rfl

/-! ### Witnesses: transfers, nap, join -/

/-- The word after the running clause's instruction, where a header stands. -/
def nextHdr : DWord := BitVec.ofNat 64 Config.fwBase + 8
/-- Lanes 0 and 1 return to a header. -/
def wvRet : Wave := { wv with base := { thr with lr := nextHdr } }
/-- Lane 0 returns to a header, lane 1 to word 0; predicate 0 is 1 in lane 0 alone. -/
def wvSplit : Wave := (wv.setThread 0 { thr with lr := nextHdr }).setPred 0 0 true
/-- Firmware's team with a table of one entry. -/
def tableSt (s : State) : State := s.setTeam 0 { fwTeam 0 with tables := [(0, [8])], entry := BitVec.ofNat 64 Config.fwBase }

/-- Every lane of Active goes to the header at +1 word, with U set and in strict mode; back to %lr; by the last index of a
table of one entry. -/
theorem witness_TransferResults :
    (st).cur.pc + (1 : BitVec 17).signExtend 64 * 4 = nextHdr ∧ goodTarget (st) nextHdr = true ∧
    goodTarget (strictSt) nextHdr = true ∧
    (∀ l ∈ (st wvRet).lanes, ((st wvRet).cw.thread l).lr = nextHdr) ∧ (st wvRet).lanes = [0, 1] ∧
    tableAt (tableSt st) 0 = some (BitVec.ofNat 64 Config.fwBase, [8]) ∧
    (∀ l ∈ (tableSt st).lanes, (opnd (tableSt st) (.pos 0) l).toNat < 1) ∧
    goodTarget (tableSt st) (BitVec.ofNat 64 Config.fwBase + BitVec.ofInt 64 8) = true := by decide +kernel

/-- Strict mode with a table of two entries, of which only the first leads to a header; lane 0 takes index 0 and lane 1 index
1, or both the same. -/
def briSt (strict : Bool) (i j : Nat) : State :=
  let w := regs wv [(2, 0, i), (2, 1, j)]
  (if strict then strictSt w else st w).setTeam 0 { fwTeam 0 with tables := [(0, [8, 4])], entry := BitVec.ofNat 64 Config.fwBase }

/-- `bri` of both lanes to one header in strict mode; to two places there; to a place that is no header, with the lanes
divergent or not. A divergent branch, call and return of which one target is bad. -/
theorem witness_BriTraps :
    let jump (s : State) (l : Nat) : DWord := BitVec.ofNat 64 Config.fwBase + BitVec.ofInt 64 ([8, 4].getD (opnd s (.lane 2) l).toNat 0)
    (∀ s ∈ [briSt true 0 0, briSt true 0 1, briSt false 0 1, briSt true 1 1],
      tableAt s 0 = some (BitVec.ofNat 64 Config.fwBase, [8, 4]) ∧ ∀ l ∈ s.lanes, (opnd s (.lane 2) l).toNat < 2) ∧
    (∀ l ∈ [0, 1], jump (briSt true 0 0) l = nextHdr) ∧ (briSt true 0 0).lanes = [0, 1] ∧
    goodTarget (briSt true 0 0) nextHdr = true ∧ jump (briSt true 0 1) 1 ≠ jump (briSt true 0 1) 0 ∧
    (briSt true 0 1).lowLane = 0 ∧ (briSt false 0 1).strict = false ∧
    (∀ s ∈ [briSt false 0 1, briSt true 1 1], goodTarget s (jump s 1) = false) ∧ jump (briSt true 1 1) 0 = jump (briSt true 1 1) 1 ∧
    (∃ l ∈ (st wvSplit).lanes, ((st wvSplit).cw.pred l 0 != false) = true) ∧
    goodTarget (st wvSplit) ((st wvSplit).cur.pc + (0 : BitVec 17).signExtend 64 * 4) = false ∧
    (∃ l ∈ (st wvSplit).lanes, goodTarget (st wvSplit) ((st wvSplit).cw.thread l).lr = false) := by decide +kernel

/-- Lanes that differ in the predicate of the branch and in %lr, in both modes; a target and a %lr that are no header; a
table that is not declared; the first index past a table of one entry. -/
theorem witness_TransferTraps :
    (∃ l ∈ (st wvSplit).lanes, ((st wvSplit).cw.pred l 0 != false) ≠ ((st wvSplit).cw.pred (st wvSplit).lowLane 0 != false)) ∧
    (∃ l ∈ (st wvSplit).lanes, ((st wvSplit).cw.thread l).lr ≠ ((st wvSplit).cw.thread (st wvSplit).lowLane).lr) ∧
    (st wvSplit).strict = false ∧ (strictSt wvSplit).strict = true ∧
    (∃ l ∈ (strictSt wvSplit).lanes, ((strictSt wvSplit).cw.thread l).lr ≠
      ((strictSt wvSplit).cw.thread (strictSt wvSplit).lowLane).lr) ∧
    (∃ l ∈ (strictSt wvSplit).lanes, ((strictSt wvSplit).cw.pred l 0 != false) ≠
      ((strictSt wvSplit).cw.pred (strictSt wvSplit).lowLane 0 != false)) ∧
    (st).lanes ≠ [] ∧ goodTarget st ((st).cur.pc + (0 : BitVec 17).signExtend 64 * 4) = false ∧
    (∀ l ∈ (st).lanes, ((st).cw.thread l).lr = 0) ∧ goodTarget st 0 = false ∧
    tableAt st 0 = none ∧ tableAt (tableSt st) 0 = some (BitVec.ofNat 64 Config.fwBase, [8]) ∧
    (∃ l ∈ (tableSt st).lanes, 1 ≤ (opnd (tableSt st) (.pos 1) l).toNat) := by decide +kernel

/-- Lane 0 enrolled in mask 2, lanes 0 and 1 running: `join.wait` by both where lane 1 is not in the mask; by lane 0 alone,
which frees the mask; `join.strike` of the only lane. A wait by lanes 0 and 1 with lane 2 in the mask parked on another
mask and the rest exited leaves Run empty. -/
def wvJoin (R : Mask) : Wave := { wv with rejoin := [(2, R)] }
/-- Lanes 0 and 1 live, lane 2 parked on mask 1, every other lane exited. -/
def wvStuck : Wave :=
  { wv with rejoin := [(2, 7)], base := { thr with live := false },
            threads := [(0, thr), (1, thr), (2, { thr with hold := .parked 1 })] }

theorem witness_JoinResults :
    (∃ l ∈ (strictSt (wvJoin 1)).lanes, ((strictSt (wvJoin 1)).cw.thread l).live = true ∧
      (look 0 (strictSt (wvJoin 1)).cw.rejoin 2).getLsbD l = false) ∧
    look 0 (strictSt (wvJoin 1)).cw.rejoin 2 = 1 ∧ (strictSt (wvJoin 1) 1).lanes = [0] ∧
    ((strictSt (wvJoin 1) 1).cw.thread 0).live = true ∧ look 0 (strictSt (wvJoin 3)).cw.rejoin 2 = 3 := by decide +kernel

theorem witness_JoinTrap :
    let s := strictSt wvStuck
    s.strict = true ∧ s.hasWave s.cur.core s.cur.slot = true ∧ s.lanes ≠ [] ∧
    (∀ l, l < 64 → (s.cw.thread l).live = true → if l ∈ s.lanes then (look 0 s.cw.rejoin 2).getLsbD l = true
      else ∃ n, n < 8 ∧ (s.cw.thread l).hold = .parked n) ∧
    (∀ l ∈ s.lanes, (s.cw.thread l).live = true) ∧
    (∃ l, l < 64 ∧ (look 0 s.cw.rejoin 2).getLsbD l = true ∧ (s.cw.thread l).live = true ∧ l ∉ s.lanes ∧
      (s.cw.thread l).hold ≠ .parked 2) := by decide +kernel

/-! ### Witnesses: team coordination -/

/-- Lanes 0 and 1 at an `exit` with lanes 2 to 63 live; then with them exited. In strict mode with lanes 0 to 2 live and in
mask 2: lane 2 running; parked on that mask, which frees it; parked on another. -/
theorem witness_ExitResults :
    (st).strict = false ∧ (∀ l ∈ (st).lanes, ((st).cw.thread l).copyMark = none) ∧
    (2 ∉ (st).lanes ∧ ((st).cw.thread 2).live = true ∧ ((st).cw.thread 2).triggered = false ∧
      ∀ k, (((st).cw.thread 2).bar k).since = false) ∧
    (st).hasWave (st).cur.core (st).cur.slot = true ∧ (st).ct.core = some (st).cur.core ∧
    (∀ l ∈ (st wvStuck 7).lanes, ((st wvStuck 7).cw.thread l).copyMark = none) ∧
    (∀ l, l < 64 → ((st wvStuck 7).cw.thread l).live = true → l ∈ (st wvStuck 7).lanes) := by
  and_intros <;> first | decide +kernel | exact fun _ => rfl

/-- The strict wave of `witness_ExitResults`, with lane 2 held as h. -/
def wvStrictExit (h : Hold) : Wave := { wvStuck with threads := [(0, thr), (1, thr), (2, { thr with hold := h })] }

theorem witness_StrictExit :
    (∀ h ∈ [Hold.none, .parked 2, .parked 1], let s := strictSt (wvStrictExit h)
      s.strict = true ∧ (∀ l ∈ s.lanes, (s.cw.thread l).copyMark = none) ∧ s.hasWave s.cur.core s.cur.slot = true ∧
      s.ct.core = some s.cur.core ∧ s.cw.handler = none ∧ 2 ∉ s.lanes ∧ (s.cw.thread 2).live = true ∧
      (s.cw.thread 2).triggered = false ∧ (s.cw.thread 2).bars = [] ∧ (s.cw.thread 2).hold = h ∧
      (∀ l, l < 64 → l ∉ s.lanes → (s.cw.thread l).live = true → l = 2) ∧
      look 0 s.cw.rejoin 2 &&& s.cur.active ≠ 0 ∧ look 0 s.cw.rejoin 2 &&& ~~~s.cur.active = 4) ∧
    (∀ k, Hold.none ≠ .parked k) ∧ (∀ n, (BarView.mk false false n).since = false) :=
  ⟨by decide +kernel, fun _ => Hold.noConfusion, fun _ => rfl⟩

/-- Firmware's team with p rows in the pool of quarter 0, its running wave with a quota of n and its other wave of m. -/
def poolSt (p n m : Nat) : State :=
  let s := (st { wv with quota := n }).setTeam 0 { fwTeam 0 with pools := [(0, p)] }
  s.setCore 0 { s.core 0 with waves := [(0, { wv with quota := n }), (1, { wv with quota := m })] }

/-- A quota of 16 rows asked for by a wave that has 16, then 8: with 8 rows in the pool; with none and 8 in the other wave;
with none at all. -/
theorem witness_QuotaResults :
    let others (s : State) : Nat := ((s.cc.waves.filter fun x =>
      x.2.team == s.cw.team && x.1 / 16 == s.cq && x.1 != s.cur.slot).map (·.2.quota)).sum
    16 ≤ (poolSt 0 16 0).cw.quota ∧
    ((poolSt 8 8 0).cw.quota < 16 ∧ 16 - (poolSt 8 8 0).cw.quota ≤ look 0 (poolSt 8 8 0).ct.pools (poolSt 8 8 0).cq) ∧
    ((poolSt 0 8 8).cw.quota < 16 ∧ look 0 (poolSt 0 8 8).ct.pools (poolSt 0 8 8).cq < 16 - (poolSt 0 8 8).cw.quota ∧
      16 - (poolSt 0 8 8).cw.quota ≤ look 0 (poolSt 0 8 8).ct.pools (poolSt 0 8 8).cq + others (poolSt 0 8 8)) ∧
    look 0 (poolSt 0 8 7).ct.pools (poolSt 0 8 7).cq + others (poolSt 0 8 7) < 16 - (poolSt 0 8 7).cw.quota := by
  decide +kernel

/-! ### Witnesses: memory instructions -/

/-- A grid with 2 KiB of cluster memory and of die pad. -/
def grid0 : Grid :=
  { id := 1, part := 0, kid := 1, depth := 0, parent := none, ctx := 2049, prio := 0, early := false, gx := 1, gy := 1, gz := 1
    waves := 1, quota := 128, lpriv := 64, scratch := 256, clus := 2048, dpad := 2048, timer := 0, deps := [], cmpl := 0x10100
    thdl := 0, argsAt := 0, regions := [], seq := 0, st := .queued, passed := none, nextTeam := 1, liveTeams := 1
    retiredTeams := 0, triggeredTeams := 0, liveChildren := 0, status := 0, trap := none, copyErr := none, cycles := 0
    clusAt := [], padAt := [], lastDie := none }

/-- Team 0 of that grid, with a region of 16 bytes. -/
def team0 : Team :=
  { core := some 0, grid := some 2049, scratch := 256, lpriv := 64, regions := [(0, { base := 0x10000, len := 16, ro := false })],
    numRegions := 1, waves := 1 }

/-- `st` with the team and the grid. -/
def gst (w : Wave := wv) (active : Mask := 3) : State := ((st w active).setTeam 0 team0).setGrid 2049 grid0

/-- Lanes 0 and 1 hold the address a, and a + 16, in v2:v3, and 0 in s0:s1. -/
def atAddr (a : Nat) : Wave := regs wv [(2, 0, a), (3, 0, a / 2 ^ 32), (2, 1, a + 16), (3, 1, a / 2 ^ 32)]

/-- A check passes, and nothing older holds its accesses back. -/
def mayPass (s : State) (r : Checked) : Bool :=
  match r with
  | .ok _ u => !s.cw.uncLoad && (!(u || s.cw.careful) || s.cw.quiet && s.cw.effects.isEmpty)
  | _ => false

theorem mayPass_spec (s : State) (r : Checked) (h : mayPass s r = true) : ∃ acc u, MayIssue s u ∧ r = .ok acc u := by
  cases r with
  | ok acc u =>
    simp only [mayPass, Bool.and_eq_true, Bool.or_eq_true, Bool.not_eq_true', List.isEmpty_iff] at h
    exact ⟨acc, u, ⟨h.1, fun x => h.2.resolve_left (by rcases x with rfl | x <;> simp_all)⟩, rfl⟩
  | trap t => cases h
  | miss a b => cases h

/-- The check of n bytes a lane, aligned to n, at v2:v3. -/
def chk2 (s : State) (form : Option Win) (write : Bool) (n : Nat) : Checked :=
  checkLanes s form write n 0 n (formAddr s form (.lane 1) 0) s.lanes [] false

/-- Two lanes' checks pass for 16 bytes a lane, read and written: by an address without a window and with the global one,
and in each window on the chip by an offset from its first byte. -/
theorem witness_LoadIssue :
    (∀ w ∈ [false, true], ∀ f ∈ [none, some Win.global],
      ∃ acc u, MayIssue (gst (atAddr 0x10000)) u ∧ chk2 (gst (atAddr 0x10000)) f w 16 = .ok acc u) ∧
    (∀ w ∈ [false, true], ∀ f ∈ [some Win.lane, some .scratch, some .cluster, some .pad],
      ∃ acc u, MayIssue (gst (atAddr 0)) u ∧ chk2 (gst (atAddr 0)) f w 16 = .ok acc u) ∧
    (∃ acc u, MayIssue (gst (atAddr 0x10000)) u ∧ checkLanes (gst (atAddr 0x10000)) none false 1 0 (DxFmt.dx8).blockBytes
      (formAddr (gst (atAddr 0x10000)) none (.lane 1) 0) (halfLeads (gst (atAddr 0x10000))) [] false = .ok acc u) := by
  refine ⟨fun w hw f hf => mayPass_spec _ _ ?_, fun w hw f hf => mayPass_spec _ _ ?_, mayPass_spec _ _ (by decide +kernel)⟩
  · revert f; revert w; decide +kernel
  · revert f; revert w; decide +kernel

/-- The stores' checks above are those with `write`; the store buffer has room for the first; and two lanes of `cmpst`. -/
theorem witness_StoreIssue :
    bufferRoom (gst (atAddr 0x10000)).cw (newEntry (gst (atAddr 0x10000)) .store
      [{ acc := { lane := 0, va := 0x10000, keys := keysFrom 0x10000 16 }, data := 0, other := 0 }]) = true ∧
    (∃ ks c, checkAccess (gst (atAddr 0x10000)) ((gst (atAddr 0x10000)).who (gst (atAddr 0x10000)).lowLane) none true 4 4 0x10000 8 = .ok ks c) ∧
    formAddr (gst (atAddr 0x10000)) none (.lane 1) 0 (gst (atAddr 0x10000)).lowLane = 0x10000 ∧
    (∃ acc u, MayIssue (gst (atAddr 0x10000)) u ∧ checkLanes (gst (atAddr 0x10000)) none true 4 4 4
      (fun l => (0x10000 + (gst (atAddr 0x10000)).lanes.idxOf l * 4) % 2 ^ 64) (gst (atAddr 0x10000)).lanes [] false = .ok acc u) :=
  by
    refine ⟨?_, ⟨keysFrom 0x10000 8, true, ?_⟩, ?_, mayPass_spec _ _ ?_⟩
    all_goals decide +kernel

/-- The offset −2^23 of `atom` and −2^15 of `cas` from an address that far up; room in an empty buffer. -/
theorem witness_AtomicIssue :
    (∃ acc u, MayIssue (gst (atAddr 0x810000)) u ∧ checkLanes (gst (atAddr 0x810000)) none true 4 4 4
      (formAddr (gst (atAddr 0x810000)) none (.lane 1) (0x800000 : BitVec 24).toInt) [0, 1] [] false = .ok acc u) ∧
    (∃ acc u, MayIssue (gst (atAddr 0x18000)) u ∧ checkLanes (gst (atAddr 0x18000)) none true 8 5 8
      (formAddr (gst (atAddr 0x18000)) none (.lane 1) (0x8000 : BitVec 16).toInt) [0, 1] [] false = .ok acc u) :=
  ⟨mayPass_spec _ _ (by decide +kernel), mayPass_spec _ _ (by decide +kernel)⟩

/-- A wave whose store buffer holds an entry of two lanes on its scratch, with a result that waits for it, and a load of
one lane outstanding. -/
def scratchAcc (l o : Nat) : Access :=
  { lane := l, va := Win.scratch.first + o, keys := keysFrom (scratchKey 0 o) 4 }
def entry0 (op : SbOp) (o : Nat) : SbEntry :=
  { id := 7, pc := thr.pc, hdr := thr.hdr, mask := 3, op := op, spec := false
    lanes := [{ acc := scratchAcc 0 0, data := 5, other := 6 }, { acc := scratchAcc 1 o, data := 9, other := 8 }] }
def pend0 (id : Nat) (src : Source) : Pend :=
  { id := id, pc := thr.pc, hdr := thr.hdr, mask := 3, d := 4, n := 1, src := src, spec := false }

/-- The oldest entry of a wave, with the results ps outstanding and a later effect held, may perform: its lanes on the line of
its first, those of f. -/
def MayPerform (e f : SbEntry) (ps : List Pend) : Prop :=
  let s := gst { wv with sbuf := [e], pend := ps, effects := [{ id := 9, mask := 3, spec := false, eff := .trig 3 }] }
  let line (x : SbLane) : Nat := x.acc.keys.headD 0 / 128
  (s.wave 0 0).sbuf = [e] ∧ e.lanes ≠ [] ∧ e.spec = false ∧ (s.wave 0 0).liveMask ≠ 0 ∧ (∀ h ∈ (s.wave 0 0).effects, e.id ≤ h.id) ∧
  entryBlock s 0 0 e = none ∧
  refresh s 0 0 { e with lanes := e.lanes.filter fun x => line x == (e.lanes.map line).headD 0 } = .ok f ∧
  missingKey (s.core 0) true (tokenKeys s 0 0 f.accesses) = none

/-- A store to two words of the scratch on one line, and on two, of which the first line's performs. -/
theorem witness_StorePerforms :
    (MayPerform (entry0 .store 4) (entry0 .store 4) [] ∧ ((entry0 .store 4).lanes.flatMap (·.acc.keys)).Nodup) ∧
    MayPerform (entry0 .store 128) { entry0 .store 128 with lanes := (entry0 .store 128).lanes.take 1 } [] := by
  refine ⟨⟨?_, ?_⟩, ?_⟩ <;> (try refine ⟨?_, ?_, ?_, ?_, ?_, ?_, ?_, ?_⟩) <;> decide +kernel

/-- An atomic and a `cas`, on two words and on one word twice. -/
theorem witness_AtomicPerforms :
    (∀ e ∈ [entry0 (.atom .add false) 4, entry0 (.atom .add false) 0, entry0 (.cas false) 4, entry0 (.cas false) 0],
      MayPerform e e [pend0 7 .buffered] ∧ (pend0 7 .buffered).id = e.id ∧ (e.lanes.map (·.acc.lane)).Nodup ∧
      ∀ x ∈ e.lanes, x.acc.lane < 64 ∧ x.acc.keys.Nodup ∧ x.data < 2 ^ 32 ∧ x.acc.keys.length = 4) ∧
    (pend0 7 .buffered).n = wideRegs false := by
  refine ⟨fun e he => ?_, rfl⟩
  simp only [List.mem_cons, List.not_mem_nil, or_false] at he
  rcases he with rfl | rfl | rfl | rfl <;>
    (refine ⟨⟨?_, ?_, ?_, ?_, ?_, ?_, ?_, ?_⟩, ?_, ?_, ?_⟩ <;> decide +kernel)

/-- A load of two lanes of the scratch may perform. -/
theorem witness_LoadPerforms :
    let acc := [scratchAcc 0 0, scratchAcc 1 4]
    let s := gst { wv with pend := [pend0 3 (.load .b32 acc)] }
    (s.wave 0 0).pend[0]? = some (pend0 3 (.load .b32 acc)) ∧ readState s 0 0 (pend0 3 (.load .b32 acc)) acc = .ready [] ∧
    (acc.map (·.lane)).Nodup ∧ (∀ x ∈ acc, x.lane < 64) :=
  ⟨by decide +kernel, rfl, by decide +kernel, by decide +kernel⟩

/-- A computed result may be written. -/
theorem witness_ResultWritten :
    (gst { wv with pend := [pend0 3 (.value [.reg 4 0 1])] } |>.wave 0 0).pend[0]? = some (pend0 3 (.value [.reg 4 0 1])) := by
  decide +kernel

/-- Lock words on the scratch, in strict mode, where no region opens: two lanes at free words; two lanes at held ones with
LKCNT at 2. -/
def lockSt (v n : Nat) : State :=
  let s := gst (atAddr Win.scratch.first)
  let s := s.setCore 0 { s.core 0 with strict := true }
  let s := writeKeys (writeKeys s (keysFrom (scratchKey 0 0) 4) v) (keysFrom (scratchKey 0 16) 4) v
  s.setTeam 0 { team0 with lkcnt := n }

/-- The two lanes' accesses to the lock words. -/
def lockAcc : List Access := [scratchAcc 0 0, { scratchAcc 1 16 with lane := 1 }]

/-- An `acq` of two lanes at free words, and a `rel` of two held ones. -/
theorem witness_LockResults :
    ∀ v ∈ [0, 1],
    let s := lockSt v (2 * v)
    let s1 := issuing lockAcc false s
    let e := newEntry s1 (if v = 0 then .lock else .rel) (lockAcc.map fun x => { acc := x, data := 1 - v, other := 0 })
    checkLanes s none true 4 4 4 (formAddr s none (.lane 1) 0) s.lanes [] false = .ok lockAcc false ∧ MayIssue s false ∧
    s.cw.effects = [] ∧ s1.cw.ckpt = none ∧ lockAcc.map (·.lane) = s.lanes ∧ (∀ x ∈ lockAcc, x.keys.length = 4) ∧
    refresh s1 0 0 e = .ok e ∧ entryBlock s1 0 0 e = none ∧ missingKey s1.cc true (tokenKeys s1 0 0 e.accesses) = none ∧
    (lockAcc.flatMap (·.keys)).Nodup ∧ (s.team s.cw.team).lkcnt < 2 ^ 32 := by
  intro v hv
  simp only [List.mem_cons, List.not_mem_nil, or_false] at hv
  rcases hv with rfl | rfl <;>
    (refine ⟨?_, ⟨?_, fun _ => ?_⟩, ?_, ?_, ?_, ?_, ?_, ?_, ?_, ?_, ?_⟩ <;> decide +kernel)

/-- The core with other translations. -/
def pagedSt (s : State) (l : List TlbEntry) : State := s.setCore 0 { s.core 0 with tlb := l }
/-- A page at 0x10000 with leaf bits b. -/
def page0 (b : Nat) : TlbEntry := { base := 0x10000, size := 65536, asid := none, leaf := 0x10000 + b }
/-- The page of physical address 0x10000, cached and writable, in admission. -/
def admitSt : State :=
  { gst with device := { (gst).device with checking := [{ part := 0, index := 0, unit := 0, since := 0, dest := 0, bytes := 65536
                                                          fault := 0, desc := 0, image := 0, size := 0, head := [], pas := [0x10000] }] } }
/-- What a leaf says, where there is one. -/
def leafIs (s : State) (va : Nat) (P : Leaf → Bool) : Bool :=
  match dataLeaf s 0 (some 0) va with
  | some l => P l
  | none => false

/-- A page that is missed, with and without a service for it; a write to a sealed page, to one in admission and to one that is
not writable; the two bytes about a page's end, of which the second is missed; a page that is fine. -/
theorem witness_AccessTranslated :
    windowOf 0x1FFFE = some .global ∧ Win.global.translated = true ∧ 0x1FFFE % 2 = 0 ∧ 0x1FFFE + 4 - 1 ≤ Win.global.last ∧
    (gst).partOf ((gst).who 0).team = some 0 ∧ dataLeaf gst 0 (some 0) 0x20000 = none ∧
    leafIs (pagedSt gst [page0 57]) 0x10000 (·.sealed_) = true ∧ leafIs admitSt 0x10000 (inAdmission admitSt ·.pa) = true ∧
    leafIs (pagedSt gst [page0 17]) 0x10000 (fun l => !l.sealed_ && !l.w) = true ∧ inAdmission gst 0x10000 = false ∧
    leafIs gst 0x1FFFF (fun l => !l.sealed_ && l.w) = true ∧ inAdmission gst 0x1FFFF = false ∧
    (st).partOf (st).ct = none ∧ (gst).partOf (gst).ct ≠ none ∧ (gst).ct.faulted = [] := by decide +kernel

/-- A misaligned address traps; a page without a translation is missed. -/
theorem witness_AccessTraps :
    (∃ t, chk2 (gst (atAddr 0x10001)) none false 4 = .trap t) ∧ (∃ t, chk2 (gst (atAddr 0x10001)) none true 4 = .trap t) ∧
    (∃ va w, chk2 (gst (atAddr 0x20000)) none false 4 = .miss va w) ∧
    (∃ va w, chk2 (gst (atAddr 0x20000)) none true 4 = .miss va w) ∧
    (∃ t, checkAccess (gst) ((gst).who 0) none true 4 4 2 128 = .trap t) :=
  ⟨⟨_, rfl⟩, ⟨_, rfl⟩, ⟨_, _, rfl⟩, ⟨_, _, rfl⟩, ⟨_, rfl⟩⟩

/-- The places of one access of 4 bytes: misaligned; past the last window; of another window than the form's; the last
address of the scratch window for 8 bytes; the first and the last bytes of a scratch of 256 and the first past it. -/
theorem witness_AccessChecks :
    2 % 4 ≠ 0 ∧ (2 ^ 57) % 4 = 0 ∧ windowOf (2 ^ 57) = none ∧ windowOf Win.scratch.first = some .scratch ∧
    Win.scratch.first % 4 = 0 ∧ Win.scratch ≠ .lane ∧ windowOf (Win.scratch.last - 3) = some .scratch ∧
    (Win.scratch.last - 3) % 4 = 0 ∧ Win.scratch.last < (Win.scratch.last - 3) + 8 - 1 ∧
    Win.scratch.translated = false ∧ allotment (gst) ((gst).who 0) .scratch = 256 ∧
    Win.scratch.first + 252 + 4 - 1 ≤ Win.scratch.last ∧ ¬ 256 < 252 + 4 ∧ 256 < 256 + 4 ∧
    windowOf (Win.scratch.first + 256) = some .scratch := by decide +kernel

/-- A region of four words: index 3 lies below its length, index 4 does not; region 1 is not declared. -/
theorem witness_ChkResults :
    regionAt (gst) 0 = some { base := 0x10000, len := 16, ro := false } ∧ regionAt (gst) 1 = none ∧
    (∀ l ∈ (gst).lanes, (opnd (gst) (.pos 3) l).toNat < 16 / 2 ^ 2) ∧
    (∃ l ∈ (gst).lanes, 16 / 2 ^ 2 ≤ (opnd (gst) (.pos 4) l).toNat) := by decide +kernel

/-! ### Witnesses: barriers, buffered effects, copies -/

/-- A released effect of the wave in slot 0 of core 0. -/
def frees (s : State) (e : Effect) : Bool := (releaseEffect s 0 0 e).isSome

/-- Lanes 0 and 1 with a destination on the scratch in v2:v3 and a source in global memory in v4:v5. -/
def wvCopy (scratch : Nat) : Wave :=
  regs (atAddr (Win.scratch.first + scratch)) [(4, 0, 0x10000), (5, 0, 0), (4, 1, 0x10010), (5, 1, 0)]
/-- The copy of 16 bytes that lane l of such a group issues. -/
def copyOf (s : State) (id l len : Nat) : CopyOp :=
  { id := id, team := s.cw.team, slot := 0, lane := l, wave := s.cw.serial, pc := s.cur.pc, xf := 0
    dst := (pairVal s (.lane 1) l).toNat, src := (pairVal s (.lane 2) l).toNat, len := len, metaAddr := 0 }
/-- An effect that the wave holds. -/
def held0 : Held := { id := 1, mask := 3, spec := false, eff := .seal 3 }
/-- A launch record's address in s0:s1. -/
def atRecord (w : Wave) (a : Nat) : Wave := { w with unif := putd 0 w.unif 0 (BitVec.ofNat 32 a) }

/-- A group with an effect held whose copies, spawn at the next clause and launch all pass their checks. -/
theorem witness_HeldEffects :
    let s := gst { atRecord (wvCopy 0) 0x10000 with effects := [held0] }
    s.cw.effects ≠ [] ∧ (∀ l ∈ s.lanes, checkCopy s (s.who l) (copyOf s 0 l 16) = none) ∧
    s.cur.pc + (1 : BitVec 16).signExtend 64 * 4 = nextHdr ∧ goodTarget s nextHdr = true ∧
    (binFor s.cc s.cw.team nextHdr).isSome = true ∧ s.cw.wid = 0 ∧ s.cur.active.getLsbD 0 = true ∧
    specialTeam s .depth < 10 ∧ (pairVal s (.unif 0) 0).toNat = 0x10000 ∧ 0x10000 % 128 = 0 ∧
    windowOf 0x10000 = some .global ∧ 0x10000 + 127 ≤ Win.global.last := by decide +kernel

/-- A group with nothing older whose effects can all be released; one with no bin left; a group not of lane 0; a launch too
deep; one outside every window; a copy of one lane that passes, and one whose destination is misaligned. -/
theorem witness_EffectsAtOnce :
    let s := gst (atRecord (wvCopy 0) 0x10000)
    let full := s.setCore 0 { s.cc with bins := (List.range 16).map fun n =>
      (n, { team := 9, entry := 0, args := [0], expires := none, dueWave := false }) }
    let one := gst (wvCopy 0) 1
    let bad := gst (wvCopy 1) 1
    s.cw.quiet = true ∧ s.cw.effects = [] ∧ goodTarget s nextHdr = true ∧ (binFor s.cc s.cw.team nextHdr).isSome = true ∧
    frees s (.seal 3) = true ∧ frees (progress s) (.trig 3) = true ∧ frees (progress s) (.spawn nextHdr [0, 0]) = true ∧
    frees (progress s) (.launch 0x10000) = true ∧
    full.cw.quiet = true ∧ goodTarget full nextHdr = true ∧ binFor full.cc full.cw.team nextHdr = none ∧
    goodTarget s s.cur.pc = false ∧ (gst wv 2).cur.active.getLsbD 0 = false ∧
    10 ≤ specialTeam (s.setGrid 2049 { grid0 with depth := 10 }) .depth ∧ windowOf (2 ^ 57) = none ∧
    one.lanes = [0] ∧ checkCopy one (one.who 0) (copyOf one 0 0 16) = none ∧
    frees { progress one with fresh := one.fresh + 1 } (.copy (copyOf one one.fresh 0 16)) = true ∧
    bad.lanes = [0] ∧ (checkCopy bad (bad.who 0) (copyOf bad 0 0 16)).isSome = true := by decide +kernel

/-- Seals of threads with no batch and with 15; spawns into no bin, a new and an open one; launches with the buffer full, in
firmware's team and in a grid; copies of none and of some bytes. -/
theorem witness_EffectRelease :
    let s := gst (wvCopy 0)
    let b : Bin := { team := 0, entry := nextHdr, args := [0], expires := some 65535, dueWave := false }
    let some_ := s.setCore 0 { s.cc with bins := [(0, b)] }
    let full := s.setCore 0 { s.cc with bins := (List.range 16).map fun n => (n, { b with team := 9 }) }
    let busy := gst { wv with base := { thr with batches := List.replicate 15 { copies := [1], err := none } } }
    (∃ l ∈ lanesOf 3, 15 ≤ unfinished ((busy.wave 0 0).thread l)) ∧ (∀ l ∈ lanesOf 3, unfinished ((s.wave 0 0).thread l) < 15) ∧
    binFor (full.core 0) 0 nextHdr = none ∧ binFor (s.core 0) 0 nextHdr = some 0 ∧ find? (s.core 0).bins 0 = none ∧
    binFor (some_.core 0) 0 nextHdr = some 0 ∧ find? (some_.core 0).bins 0 = some b ∧
    8 ≤ ((s.setTeam 0 { team0 with launches := List.replicate 8 0 }).team 0).launches.length ∧
    (s.team 0).launches.length < 8 ∧ ((st).team 0).grid = none ∧ (s.team 0).grid = some 2049 ∧
    find? s.grids 2049 = some grid0 ∧ (copyOf s 5 0 0).len = 0 ∧ (copyOf s 5 0 16).len ≠ 0 ∧
    ((s.core 0).copies.filter fun x => !x.active).length < 32 ∧
    (copyRanges (copyOf s 5 0 16)).length ≤ (freeEntries (s.core 0)).length := by decide +kernel

/-- Threads with no batch and with one finished that has an error mark; one more batch than is allowed; a core with no copy
to the window and with one. -/
theorem witness_CopyWaits :
    let s := gst
    let marked := gst { wv with base := { thr with batches := [{ copies := [], err := some 0x10000 }] } }
    let many := gst { wv with base := { thr with batches := [{ copies := [1], err := none }] } }
    let c : Copy :=
      { op := { copyOf s 1 0 16 with dst := 0x10000 }, reg := 0, seq := 0, entries := [], active := false, left := 16, faulted := [] }
    let copying := s.setCore 0 { s.cc with copies := [c] }
    (∀ l ∈ s.lanes, unfinished (s.cw.thread l) ≤ 0) ∧ (∀ l ∈ s.lanes, batchError (s.cw.thread l) = none) ∧
    marked.lanes.find? (fun l => (batchError (marked.cw.thread l)).isSome) = some 0 ∧
    batchError (marked.cw.thread 0) = some 0x10000 ∧ marked.cw.ckpt = none ∧ marked.cw.trapReq = none ∧
    (∃ l ∈ many.lanes, 0 < unfinished (many.cw.thread l)) ∧
    (s.cc.copies.filter fun c => windowOf c.op.dst == some .global) = [] ∧
    (copying.cc.copies.filter fun c => windowOf c.op.dst == some .global).map (·.op.id) = [1] ∧
    (copying.cw.thread 0).hold = .none := by decide +kernel

/-! ### Witnesses: handles, quartets, tables -/

/-- A wave of quartet 0, waiting at the copy r of a quartet instruction where one is given. -/
def wvQuartet (r : Option Cursor) : Wave := { wv with quartet := some 0, rdv := r }
/-- Team 0 with a quartet of four waves and one slot, all lanes of the wave in slot 0 running an instruction, the other three
waiting at `r`, and some tags bound; three slots of `acc` taken or none free. -/
def quartetSt (r : Option Cursor) (tags : List (Nat × Nat) := []) (acc : Nat := 3) (w : Wave := wvQuartet none) : State :=
  let s := gst w (BitVec.allOnes 64)
  let s := s.setTeam 0 { team0 with waves := 4, quartets := 1, slots := 1, tags := tags }
  s.setCore 0 { s.core 0 with
    waves := [(0, w), (16, wvQuartet r), (32, wvQuartet r), (48, wvQuartet r)], acc := (List.range acc).map fun n => (n, {}) }
/-- The cursor of that group; and one of another instruction. -/
def hereC : Cursor := (quartetSt none).cur
def otherC : Cursor := { hereC with w0 := 1 }
/-- The copies that stand at the quartet once the running wave has joined. -/
def copiesAt (s : State) : List Cursor :=
  let s1 := holdGroup .quartet (s.setCw { s.cw with rdv := some s.cur })
  (quartetSlots s1 0 0 0).filterMap fun n => (s1.wave 0 n).rdv

/-- The same with a matrix operation of tag 0 waiting. -/
def waitingSt (s : State) : State :=
  let m : MmaWait := {
    team := 0, quartet := 0, tag := 0, zero := false, at_ := 0, slot0 := 0, due := none, handle := 0, b := 0, fmt := .dx8,
    fold := false, row0 := 0, kb := 0 }
  s.setCore 0 { s.cc with mmaWait := [m] }

/-- A handle of one dx8 block over the region of 16 bytes passes or fails; the all-zero one is reserved. -/
theorem witness_HandleResults :
    let s := (gst).setTeam 0 { team0 with regions := [(0, { base := 0x10000, len := 4096, ro := false })] }
    let v : BitVec 128 := BitVec.ofNat 128 (0x10000 + 64 * 2 ^ 64 + 1 * 2 ^ 88 + 1 * 2 ^ 102)
    checkHandle s v = none ∧ (checkHandle (gst) (v + 1)).isSome = true ∧ handleReserved 0 = true := by decide +kernel

/-- Whole quartets: with the tag bound and not; with a matrix operation pending; with `.slots` 0; with an abort mark; a wave
of no quartet; a quartet with a lane exited. -/
theorem witness_AccReadResults :
    let s := quartetSt none [(0, 0)]
    let pending := waitingSt s
    s.cw.quartet = some 0 ∧ s.cur.active = BitVec.allOnes 64 ∧ quartetWhole s 0 0 0 = true ∧ s.cw.aborts = [] ∧
    0 < s.ct.slots ∧ mmaPending s.cc 0 0 0 = false ∧ find? s.ct.tags 0 = some 0 ∧ find? (quartetSt none).ct.tags 0 = none ∧
    mmaPending pending.cc 0 0 0 = true ∧ (s.ct.slots ≤ 1) ∧
    find? (quartetSt none [] 3 { wvQuartet none with aborts := [(0, { cause := 8, sub := 3, addr := 0 })] }).cw.aborts 0 =
      some { cause := 8, sub := 3, addr := 0 } ∧
    (gst).cw.quartet = none ∧ ¬ ((gst (wvQuartet none)).cur.active = BitVec.allOnes 64) ∧ (wvQuartet none).quartet = some 0 ∧
    (let e := s.setCore 0 { s.cc with acc := [(0, { bad := [64 * 16 * s.cq + 5] })] }
     0 ∈ e.lanes ∧ 64 * (16 * e.cq + 0 / 4) + 0 % 4 * 16 + 5 ∈ (look ({} : AccSlot) e.cc.acc 0).bad) := by decide +kernel

/-- The first copy of a quartet; a fourth that differs; a fourth that is like the rest, with the tag bound, with it unbound
and a slot free, and with no slot free. -/
theorem witness_QuartetResults :
    (∀ s ∈ [quartetSt none, quartetSt (some otherC), quartetSt (some hereC), quartetSt (some hereC) [(0, 0)],
        quartetSt (some hereC) [] 16],
      s.cw.quartet = some 0 ∧ s.cur.active = BitVec.allOnes 64 ∧ quartetWhole s 0 0 0 = true ∧ 0 < s.ct.slots ∧
      find? s.cw.aborts 0 = none ∧ mmaPending s.cc 0 0 0 = false) ∧
    (copiesAt (quartetSt none)).length < 4 ∧ 4 ≤ (copiesAt (quartetSt (some otherC))).length ∧
    (∃ c ∈ copiesAt (quartetSt (some otherC)), c.w0 ≠ hereC.w0) ∧ 4 ≤ (copiesAt (quartetSt (some hereC))).length ∧
    (∀ c ∈ copiesAt (quartetSt (some hereC)), c.w0 = hereC.w0 ∧ c.w1 = hereC.w1) ∧
    find? (quartetSt (some hereC) [(0, 0)]).ct.tags 0 = some 0 ∧ freeSlot (quartetSt (some hereC)).cc = some 3 ∧
    freeSlot (quartetSt (some hereC) [] 16).cc = none ∧ dueFirst (quartetSt (some hereC)).cc.mmaWait = none ∧
    (let s := quartetSt (some hereC)
     let t := s.setCore 0 { s.cc with mmaWait := [{
       team := 0, quartet := 0, tag := 1, zero := true, at_ := 0, slot0 := 0, due := some 0, handle := 0, b := 0, fmt := .dx8,
       fold := false, row0 := 0, kb := 0 }] }
     mmaPending t.cc 0 0 0 = false ∧ (dueFirst t.cc.mmaWait).isSome = true) := by decide +kernel

/-- `gst` with quarter 0's banks owned and a switch under way or not. -/
def bankSt (a b sw : Option Nat) : State :=
  let s := gst
  s.setCore 0 ((s.core 0).setQuarter 0 { (s.core 0).quarter 0 with
    active := { owner := a }, shadow := { owner := b }, switching := sw })

/-- Both banks the team's own, and neither; a switch under way; a bank that is being cleared, and a clock that exchanged. -/
theorem witness_TableResults :
    (let Q := (bankSt (some 0) (some 0) none).cc.quarter (bankSt (some 0) (some 0) none).cq
     Q.switching = none ∧ Q.shadow.owner = some 0 ∧ Q.active.owner = some 0) ∧ (bankSt (some 0) (some 0) none).cw.team = 0 ∧
    ((bankSt none none none).cc.quarter 0).shadow.owner ≠ some 0 ∧ ((bankSt none none none).cc.quarter 0).active.owner ≠ some 0 ∧
    (((bankSt none none (some 0)).core 0).quarter 0).switching.isSome = true ∧
    atabInFlight ((bankSt none none (some 0)).core 0) 0 = false ∧
    (∀ x ∈ [(0, 0), (25, 1)], let s := bankSt (some 0) (some 0) none
      let t := s.setCore 0 (s.cc.setQuarter 0 { s.cc.quarter 0 with clearEnd := x.1, bankFree := x.2 })
      decide ((t.cc.quarter 0).clearEnd ≤ t.cc.clk.toNat) = (x.1 == 0) ∧
      decide ((t.cc.quarter 0).bankFree ≤ t.cc.clk.toNat) = (x.2 == 0)) := by decide +kernel

/-! ### Witnesses: exceptions and the return from them -/

/-- A group whose frame stands in its scratch, in a grid with a handler address. -/
def trapSt (thdl : DWord) (w : Wave := { wv with quota := 2 }) (active : Mask := 3) : State :=
  let w := { w with tfb := BitVec.ofNat 64 Win.scratch.first }
  ((gst w active).setGrid 2049 { grid0 with thdl := thdl }).setTeam 0 { team0 with scratch := 4096, scratchAt := 8192 }
/-- A trap to be raised. -/
def info (cause : Nat) : TrapInfo := { cause := cause, sub := 1, addr := 0 }
/-- A checkpoint of a wave's first state. -/
def ck0 : Checkpoint :=
  { threads := [], base := thr, preds := [], unif := [], rows := [], shadows := [], at_ := thr.pc, bad := [] }
/-- The handler that the group of lanes 0 and 1 runs; lanes at an `eret`. -/
def hd0 : Handler :=
  { frame := Win.scratch.first, quota := 2, group := 3, pc := thr.pc, hdr := thr.hdr, npc := nextHdr + 4, nhdr := nextHdr }
/-- A trap of the wave waiting for its results. -/
def wvReq : Wave :=
  { wv with trapReq := some { info := info 1, group := 3, cur := (st).cur, fetched := true, emu := [] } }

theorem witness_ExceptionEntry :
    let s := trapSt nextHdr
    s.cw.ckpt = none ∧ s.cw.trapReq = none ∧ (info 1).cause ≠ 0x0D ∧ s.cw.handler = none ∧
    s.cw.outstanding s.cur.active = false ∧ thdlOf s s.cw ≠ 0 := by decide +kernel

/-- A live region; a trap waiting; poison in a context with a closed interval; a result outstanding; and a trap that waits
with none. -/
theorem witness_TrapWaits :
    (gst { wv with ckpt := some ck0 }).cw.ckpt.isSome = true ∧ (gst wvReq).cw.trapReq.isSome = true ∧
    (let s := (gst).setContext grid0.ctx { (gst).context grid0.ctx with frames := some [] }
     s.cw.ckpt = none ∧ s.cw.trapReq = none ∧ (info 0x0D).cause = 0x0D ∧ (poisonRollsBack s s.cw.team).isSome = true) ∧
    (let s := gst { wv with pend := [pend0 7 (.value [])] }
     s.cw.ckpt = none ∧ s.cw.trapReq = none ∧ (info 1).cause ≠ 0x0D ∧ s.cw.handler = none ∧
     s.cw.outstanding s.cur.active = true) ∧
    (let w := (gst wvReq).wave 0 0
     w.trapReq = wvReq.trapReq ∧ w.ckpt = none ∧ w.outstanding 3 = false) := by decide +kernel

/-- A trap in a handler, and one with no handler address. -/
theorem witness_TrapEndsGrid :
    (∀ s ∈ [gst { wv with handler := some hd0 }, gst],
      s.cw.ckpt = none ∧ s.cw.trapReq = none ∧ (info 1).cause ≠ 0x0D ∧ (info 1).cause ≠ 2 ∧
      (s.team s.cw.team).grid = some 2049 ∧ find? s.grids 2049 = some grid0 ∧ grid0.st ≠ .ended ∧ grid0.trap = none) ∧
    (gst { wv with handler := some hd0 }).cw.handler.isSome = true ∧
    (gst).cw.outstanding (gst).cur.active = false ∧ thdlOf gst (gst).cw = 0 := by decide +kernel

/-- The group in its handler, its frame at `at_` with an active mask of lanes m. -/
def retSt (m : Nat) (active : Mask := 3) (at_ : Nat := Win.scratch.first) : State :=
  writeKeys (trapSt nextHdr { wv with quota := 2, handler := some { hd0 with frame := at_ } } active)
    (keysFrom (scratchKey 0 (8192 + 0x30)) 8) m
/-- The state in which its `eret` looks at the frame, and what it finds. -/
def retX (s : State) : State := park false (holdGroup .eret s)
def retFate (s : State) (at_ : Nat) : Fate := frameFate (retX s) 0 0 0 at_ (0x340 + 256 * 2)
/-- The keys of a frame in the scratch, and in memory. -/
def frameKeys : List Nat := keysFrom (scratchKey 0 8192) (0x340 + 256 * 2)
def frameNeed : List (Nat × Nat) :=
  tokenKeys (retX (retSt 3 3 0x10000)) 0 0 [{ lane := 0, va := 0x10000, keys := keysFrom 0x10000 (0x340 + 256 * 2) }]

/-- `eret` with no trap in progress; with lane 1 elsewhere; with both lanes there. -/
theorem witness_ReturnWaits :
    (gst).cw.handler = none ∧
    ((retSt 3 1).cw.handler = some hd0 ∧ 1 ∉ (retSt 3 1).lanes ∧ ((retSt 3 1).cw.thread 1).live = true ∧
      hd0.group.getLsbD 1 = true ∧ ((retSt 3 1).cw.thread 1).hold ≠ .eret ∧ ((retSt 3 1).cw.thread 0).live = true) ∧
    ∀ m ∈ [3, 1], ∀ a ∈ [Win.scratch.first, 0x10000, 0x20000, 2 ^ 57], let s := retSt m 3 a
      s.cw.handler = some { hd0 with frame := a } ∧ hd0.group.getLsbD 0 = true ∧ (s.cw.thread 0).live = true ∧
      ∀ l, l < 64 → hd0.group.getLsbD l = true → l ∈ s.lanes := by decide +kernel

/-- A frame whose page is missed, where the partition's service can supply it; one outside every window. -/
theorem witness_FrameRefused :
    retFate (retSt 3 3 0x20000) 0x20000 = .miss 0x20000 ∧ (retSt 3).partOf (retSt 3).ct ≠ none ∧ (retSt 3).ct.faulted = [] ∧
    retFate (retSt 3 3 (2 ^ 57)) (2 ^ 57) = .trap { cause := 8, sub := 1, addr := 2 ^ 57 } := by decide +kernel

/-- The bytes of the data page are at the physical addresses of the same numbers. -/
theorem dataPage (s : State) (part : Option Nat) (hl : (s.core 0).l1 = []) (ht : (s.core 0).tlb = pages) (va : Nat) (h0 : 0x10000 ≤ va)
    (h1 : va < 0x20000) : dataLeaf s 0 part va = some { pa := va, w := true, sealed_ := false, c := true } := by
  have h2 : ¬ Config.fwBase ≤ va := by simp only [Config.fwBase]; omega
  have h3 : va < Win.host.first := by simp only [Win.first]; omega
  have h4 : (0x10000 : Nat) + (va - 0x10000) % 65536 = va := by omega
  have hx : dataLeaf s 0 part va = translate s 0 part va := by simp only [dataLeaf, l1Hit, hl, List.find?_nil]
  have ht' : tlbTag s part va = none := by rw [tlbTag, if_pos h3]
  rw [hx]
  show (tlbEntry s 0 part va).map (·.leafAt va) = _
  rw [tlbEntry, ht', ht]
  have hy : tlbHit pages none va = some { base := 0x10000, size := 65536, asid := none, leaf := 0x10000 + 16 + 8 + 1 } := by
    simp only [tlbHit, pages, List.find?_cons, h0, h1, h2, decide_true, decide_false, Bool.false_and, Bool.true_and]
  rw [hy]
  simp only [Option.map_some, TlbEntry.leafAt, Option.some.injEq, Leaf.mk.injEq]
  exact ⟨h4, rfl, rfl, rfl⟩

/-- A range of that page is read at those addresses. -/
theorem checkPages_data (s : State) (part : Option Nat) (hl : (s.core 0).l1 = []) (ht : (s.core 0).tlb = pages) (vas acc : List Nat)
    (h : ∀ va ∈ vas, 0x10000 ≤ va ∧ va < 0x20000) : checkPages s 0 part false vas acc true = .ok (acc ++ vas) true := by
  induction vas generalizing acc with
  | nil => simp [checkPages]
  | cons va r ih =>
    obtain ⟨h0, h1⟩ := h va (by simp)
    simp [checkPages, dataPage s part hl ht va h0 h1, ih _ fun x hx => h x (by simp [hx])]

/-- A frame in memory whose tokens are missing. -/
theorem witness_FrameWithoutTokens :
    retFate (retSt 3 3 0x10000) 0x10000 = .ok (keysFrom 0x10000 (0x340 + 256 * 2)) true ∧
    (missingKey (retX (retSt 3 3 0x10000)).cc false frameNeed).isSome = true := by
  refine ⟨?_, by decide +kernel⟩
  have hp : (retX (retSt 3 3 0x10000)).poison = [] := by decide +kernel
  have hl : ((retX (retSt 3 3 0x10000)).core 0).l1 = [] := by decide +kernel
  have ht : ((retX (retSt 3 3 0x10000)).core 0).tlb = pages := by decide +kernel
  have hw : windowOf 0x10000 = some .global := by decide +kernel
  unfold retFate
  generalize retX (retSt 3 3 0x10000) = s at hp hl ht
  have hc := checkPages_data s (s.partOf (s.team (s.wave 0 0).team)) hl ht (keysFrom 0x10000 (0x340 + 256 * 2)) []
    (fun va h => by simp only [keysFrom, List.mem_map, List.mem_range] at h; omega)
  have hn (l : List Nat) : l.findIdx? (fun _ => false) = none := by simp
  rw [frameFate, checkRange, hw]
  dsimp only [Win.translated]
  generalize keysFrom 0x10000 (0x340 + 256 * 2) = ks at hc ⊢
  simp [Win.last, hc, hp, hn]

/-- A frame in the scratch, with the mask of both lanes, and of lane 0 alone. -/
theorem witness_FrameRead :
    (∀ m ∈ [3, 1], retFate (retSt m) Win.scratch.first = .ok frameKeys false ∧
      readKeys (retSt m) frameKeys / 256 ^ 0x30 % 2 ^ 64 = m) ∧
    missingKey (retX (retSt 3)).cc false
      (tokenKeys (retX (retSt 3)) 0 0 [{ lane := 0, va := Win.scratch.first, keys := frameKeys }]) = none := by decide +kernel

/-- Another lane of the wave lives on beside the group. -/
theorem witness_ReturnResults :
    let s := retSt 3
    s.hasWave s.cur.core s.cur.slot = true ∧ (s.cw.thread 2).live = true ∧ hd0.group.getLsbD 2 = false ∧
    s.ct.core = some s.cur.core ∧ (s.cw.thread 2).triggered = false ∧ (s.cw.thread 2).bars = [] ∧
    (s.cw.thread 2).hold = .none := by decide +kernel

/-! ### Witnesses: system instructions, clause entry, events of a core -/

theorem witness_RegisterWrites :
    (gst).ct.grid = some 2049 ∧ find? (gst).grids 2049 = some grid0 ∧ (st).ct.grid = none := by decide +kernel

theorem witness_TrapAndMark : ctxOf gst (gst).ct = some grid0.ctx ∧ ctxOf st (st).ct = none := by decide +kernel

/-- The group at a header word h of its clause. -/
def hdrSt (h : Nat) (w : Wave) : State := writePA (quartetSt none [] 3 w) Config.fwBase 4 h
/-- The header there meets a condition. -/
def atHeader (s : State) (p : Header → Bool) : Bool :=
  match decodeHeader (codeWord s s.cur.core s.cur.slot s.cur.hdr.toNat) with
  | some h => p h
  | none => false
/-- All lanes at the clause entry. -/
def wvEntry : Wave := { wvQuartet none with base := { thr with owes := .entry } }
/-- A batch of one copy outstanding, and one with an error mark. -/
def wvBatch (copies : List Nat) (err : Option Nat) : Wave :=
  { wvEntry with base := { wvEntry.base with batches := [{ copies := copies, err := err }] } }

/-- A word that is no header; WR with a result outstanding; WM with a matrix operation; WB with a batch unfinished; each with
nothing to wait for; CK with no checkpoint and with one live, or an uncached load outstanding; a guard that fails. -/
theorem witness_ClauseEntry :
    decodeHeader (codeWord (hdrSt 0 wvEntry) 0 0 (hdrSt 0 wvEntry).cur.hdr.toNat) = none ∧
    (let s := hdrSt (mixHeaderWord + 2 ^ 7) { wvEntry with pend := [pend0 7 (.value [])] }
     atHeader s (fun h => h.wr) = true ∧ s.cw.resultIds s.cur.active ≠ []) ∧
    (let s := waitingSt (hdrSt (mixHeaderWord + 2 ^ 8) wvEntry)
     atHeader s (fun h => !h.wr && h.wm) = true ∧ matrixBusy s = true) ∧
    (let s := hdrSt (mixHeaderWord + 2 ^ 9) (wvBatch [1] none)
     atHeader s (fun h => !h.wr && !h.wm && h.wb && decide (h.bn < unfinished (s.cw.thread 0))) = true ∧ 0 ∈ s.lanes) ∧
    (let s := hdrSt (mixHeaderWord + 2 ^ 7 + 2 ^ 8 + 2 ^ 9) wvEntry
     atHeader s (fun h => h.wr && h.wm && h.wb && !h.ck && h.gp.isNone) = true ∧ s.cw.resultIds s.cur.active = [] ∧
     matrixBusy s = false ∧ (∀ l ∈ s.lanes, unfinished (s.cw.thread l) = 0 ∧ batchError (s.cw.thread l) = none) ∧
     s.cw.aborts = []) ∧
    (∀ w ∈ [wvEntry, { wvEntry with ckpt := some ck0 },
        { wvEntry with pend := [{ pend0 7 (.load .b32 [scratchAcc 0 0]) with unc := true }] }],
      let s := hdrSt (mixHeaderWord + 2 ^ 14) w
      atHeader s (fun h => !h.wr && !h.wm && !h.wb && h.ck) = true ∧ 0 ∈ s.lanes ∧ (s.cw.thread 0).owes = .entry) ∧
    ({ wvEntry with ckpt := some ck0 } : Wave).ckpt.isSome = true ∧
    ({ wvEntry with pend := [{ pend0 7 (.load .b32 [scratchAcc 0 0]) with unc := true }] } : Wave).uncLoad = true ∧
    (let s := hdrSt (mixHeaderWord - 31 * 2 ^ 17) wvEntry
     atHeader s (fun h => h.gp == some 0 && !h.gs) = true ∧ (s.cw.pred 0 0 != false) = false) := by decide +kernel

/-- A wave in a region whose store buffer holds some entries. -/
def wvRegion (es : List SbEntry) : Wave := { wv with ckpt := some ck0, region := 5, sbuf := es }
/-- A speculative store. -/
def specStore : SbEntry := { entry0 .store 4 with spec := true }
/-- An effect held: the `trig` of lanes 0 and 1. -/
def heldTrig : Held := { id := 3, mask := 3, spec := false, eff := .trig 3 }

/-- A region of one store, and one of none, may commit; a `trig` of a quiet wave may be released. -/
theorem witness_CommitResults :
    (∀ es ∈ [[], [specStore]],
      gathered (gst (wvRegion es)) 0 0 = true ∧ ((gst (wvRegion es)).wave 0 0).effects = [] ∧
      ∃ x, performAll 0 0 ((gst (wvRegion es)).wave 0 0).sbuf (gst (wvRegion es)) = .ok x) ∧
    (let w := (gst { wv with effects := [heldTrig] }).wave 0 0
     w.ckpt = none ∧ w.quiet = true ∧ w.effects = [heldTrig] ∧
     ∃ s2, releaseEffect (gst { wv with effects := [heldTrig] }) 0 0 heldTrig.eff = some s2) := by
  have ok (r : Except (SbEntry × Block) State) (h : (match r with | .ok _ => true | .error _ => false) = true) :
      ∃ x, r = .ok x := by
    cases r with
    | ok x => exact ⟨x, rfl⟩
    | error x => cases h
  refine ⟨fun es he => ?_, ?_, ?_, ?_, _, rfl⟩
  · simp only [List.mem_cons, List.not_mem_nil, or_false] at he
    rcases he with rfl | rfl <;> refine ⟨?_, ?_, ok _ ?_⟩ <;> decide +kernel
  all_goals decide +kernel

theorem witness_RollbackResults :
    ((gst { wvRegion [specStore] with lost := true }).wave 0 0).ckpt = some ck0 ∧
    ((gst { wvRegion [specStore] with lost := true }).wave 0 0).lost = true := by decide +kernel

/-- `gst` with a bin of n arguments, due or not, its timer at 0; the wave's quota and rows free in every quarter. -/
def binSt (n : Nat) (due : Bool) (quota : Nat) : State :=
  let s := (gst { wv with quota := 32 }).setTeam 0 { team0 with quota := quota }
  s.setCore 0 { s.core 0 with bins := [(2, {
    team := 0, entry := nextHdr, args := List.replicate n 9, expires := some 0, dueWave := due })] }

/-- A bin with room that is due, one of 70 entries, and one whose timer ends; and one with no room for 500 rows. -/
theorem witness_SpawnResults :
    (∀ x ∈ [(3, true), (70, false), (3, false)],
      let s := binSt x.1 x.2 32
      spawnSlot s 0 (s.team 0).quota = some 16 ∧ spawnWid s 0 0 = 16 ∧
      firstFit (scratchUsed s 0) scratchBytes (64 * (s.team 0).lpriv) = some 256 ∧
      (find? (s.core 0).bins 2).map (fun b => (b.dueWave, b.args.length, b.expires)) = some (x.2, x.1, some 0) ∧
      0 ≤ (s.core 0).clk.toNat) ∧
    spawnSlot (binSt 3 false 500) 0 ((binSt 3 false 500).team 0).quota = none ∧
    (find? ((binSt 3 false 500).core 0).bins 2).map (·.expires) = some (some 0) := by decide +kernel

/-- Two lanes' waiting load on the scratch, with the expected words es, parked since `start` and read again at `poll`. -/
def waitSt (es : List Nat) (start poll : Option Nat) (clk : Nat) : State :=
  let s := gst { wv with pend := [pend0 3 (.wait false [scratchAcc 0 0, scratchAcc 1 4] es start poll)] }
  s.setCore 0 { s.core 0 with clk := BitVec.ofNat 64 clk }
/-- Core 0 at clock 18. -/
def atClk18 (s : State) : State := s.setCore 0 { s.core 0 with clk := 18 }
/-- Such a load may read. -/
def MayRead (s : State) (es : List Nat) (start poll : Option Nat) : Prop :=
  let acc := [scratchAcc 0 0, scratchAcc 1 4]
  let p := pend0 3 (.wait false acc es start poll)
  (s.wave 0 0).pend[0]? = some p ∧ (∃ a, rereadKeys s 0 0 acc = .ok a ∧ a = acc) ∧ readState s 0 0 p acc = .ready [] ∧
  (acc.map (·.lane)).Nodup ∧ ∀ x ∈ acc, x.lane < 64

theorem mayRead (es : List Nat) (start poll : Option Nat) (clk : Nat)
    (h : (match rereadKeys (waitSt es start poll clk) 0 0 [scratchAcc 0 0, scratchAcc 1 4] with
      | .ok a => decide (a = [scratchAcc 0 0, scratchAcc 1 4]) | .error _ => false) = true) :
    MayRead (waitSt es start poll clk) es start poll := by
  refine ⟨rfl, ?_, rfl, by decide +kernel, by decide +kernel⟩
  cases hr : rereadKeys (waitSt es start poll clk) 0 0 [scratchAcc 0 0, scratchAcc 1 4] with
  | ok a => rw [hr] at h; exact ⟨a, rfl, by simpa using h⟩
  | error x => rw [hr] at h; cases h

/-- The second lane of a park on a page without C, or with 64 lanes parked on its cluster word, reads again by the clock; two
lanes on the scratch are watched. A table's result 18 clocks after its issue. -/
theorem witness_WatchedLanes :
    (let clus (o : Nat) : Access := { lane := 1, va := Win.cluster.first + o, keys := keysFrom (scratchKey 1 o) 4 }
     let p := pend0 4 (.wait false (List.replicate 64 (clus 0)) [] (some 0) none)
     let s := (gst { wv with pend := [p] }).setGrid 2049 { grid0 with clusAt := [(1, 0)] }
     (s.team 0).core.isSome = true ∧ (clus 0).banks s = [1] ∧ 64 ≤ watchCount s 1) ∧
    (∀ b, watchCount gst b + (([] : List Nat).filter (· == b)).length + 2 ≤ 64) ∧
    (∀ x ∈ [scratchAcc 0 0, scratchAcc 1 4], onUncached gst 0 0 x = false) ∧
    onUncached (pagedSt gst [page0 9]) 0 0 { lane := 0, va := 0x10000, keys := keysFrom 0x10000 4 } = true ∧
    (let s := atClk18 (gst { wv with pend := [pend0 3 (.table [.reg 4 0 1])] })
     (s.wave 0 0).pend[0]? = some (pend0 3 (.table [.reg 4 0 1])) ∧ 0 + 18 ≤ (s.core 0).clk.toNat) := by
  refine ⟨?_, fun _ => Nat.le_of_ble_eq_true rfl, ?_⟩ <;> decide +kernel

/-- A first read, of words that differ from those expected and that equal them; a reread of a park that nothing watches, and
one that its home notifies with the word changed, its core the only one with anything in it; the end of the park. -/
theorem witness_WaitingLoads :
    MayRead (waitSt [0, 1] none none 0) [0, 1] none none ∧ MayRead (waitSt [0, 0] none none 0) [0, 0] none none ∧
    MayRead (waitSt [0, 0] (some 0) (some 1024) 1024) [0, 0] (some 0) (some 1024) ∧
    MayRead (waitSt [0, 1] (some 0) none 9) [0, 1] (some 0) none ∧
    ((waitSt [0, 1] (some 0) none 9).cores = [(0, (waitSt [0, 1] (some 0) none 9).core 0)] ∧
      parksOn ((waitSt [0, 1] (some 0) none 9).core 0) (onChip + 4) = [(0, 0)]) ∧
    MayRead (waitSt [0, 0] (some 0) none 65536) [0, 0] (some 0) none ∧
    ((waitSt [0, 0] none none 0).wave 0 0).ckpt = none ∧
    (1024 ≤ ((waitSt [0, 0] (some 0) (some 1024) 1024).core 0).clk.toNat) ∧
    0 + 65536 ≤ ((waitSt [0, 0] (some 0) none 65536).core 0).clk.toNat := by
  refine ⟨mayRead _ _ _ _ ?_, mayRead _ _ _ _ ?_, mayRead _ _ _ _ ?_, mayRead _ _ _ _ ?_, ⟨?_, ?_⟩, mayRead _ _ _ _ ?_, ?_, ?_, ?_⟩
    <;> decide +kernel

/-! ### Witnesses: the engines -/

/-- A copy of 16 bytes within the scratch by lane 0, its destination at offset d, in the engine with n bytes left to move. -/
def engineCopy (d n : Nat) : Copy :=
  { op := { copyOf gst 1 0 16 with src := Win.scratch.first, dst := Win.scratch.first + d }, reg := 1, seq := 0,
    entries := [0, 1], active := true, left := n, faulted := [] }

def copySt (d n : Nat) : State := (gst).setCore 0 { (gst).core 0 with copies := [engineCopy d n], clk := 9 }
theorem witness_CopyEngine :
    (∀ d ∈ [64, 4096], let s := syncCopies (copySt d 0) 0
      (s.core 0).copies[0]? = some (engineCopy d 0) ∧ (engineCopy d 0).active = true ∧ (copySt d 0).hasWave 0 0 = true ∧
      ((copySt d 0).wave 0 0).serial = (engineCopy d 0).op.wave ∧ (((copySt d 0).wave 0 0).thread 0).live = true ∧
      copyMiss s 0 (engineCopy d 0) = none) ∧
    (engineCopy 64 0).left = 0 ∧ (engineCopy 64 0).op.xf < 3 ∧ (engineCopy 64 0).op.len ≠ 0 ∧
    (engineCopy 64 0).op.len % (copyAlign (engineCopy 64 0).op.xf).2.2 = 0 ∧
    ((moveCopies (copySt 64 16) ((copySt 64 16).core 0)).copies.find? (fun y => y.op.id == 1)).map (·.left) = some 0 ∧
    (let s := syncCopies (copySt 64 0) 0
     blockedBy s (s.core 0) 0 1 (copyRanges (engineCopy 64 0).op) = false ∧
     (match (copyRanges (engineCopy 64 0).op).mapM (rangeKeys s (copyWho s 0 (engineCopy 64 0).op)) with
      | .ok ks => !(fetcherHolds s (some 0) ((ks.getD 1 []).map (· / 4))) &&
          (engineGather s (s.partOf (s.team 0)) ks.flatten).isSome && decide (ks.getD 1 []).Nodup &&
          (ks.getD 1 []).all fun a => !(lostPA (copySt 64 0) a)
      | .error _ => false) = true) ∧
    copyFailure (syncCopies (copySt 4096 0) 0) 0 (engineCopy 4096 0) = some (Win.scratch.first + 4096) := by decide +kernel

/-- A copy whose source is poisoned, and a thread with open copies or a batch that an abort finds. -/
theorem witness_CopyErrors :
    firstPoison ({ copySt 64 0 with poison := [poisonUnit (scratchKey 0 256)] }) (keysFrom (scratchKey 0 256) 16) |>.isSome := by
  decide +kernel

/-- A handle of one dx8 k-block of one row at an address. -/
def handleAt (a : Nat) : BitVec 128 := BitVec.ofNat 128 (a + 64 * 2 ^ 64 + 1 * 2 ^ 88 + 1 * 2 ^ 102)
/-- The quartet of four waves waiting, tag 0 bound to slot 0 where `bound`, with handle 0 where one is given, and an `mma` or
an `acc.zero` of that tag waiting. -/
def acceptSt (bound zero : Bool) (h : Option (BitVec 128)) (fmt : MmaFmt := .dx8) (due : Option Nat := none) : State :=
  let s := quartetSt (some hereC) (if bound then [(0, 0)] else [])
  let s := s.setTeam 0 { s.team 0 with handles := match h with | some h => [(0, h)] | none => [] }
  let m : MmaWait := {
    team := 0, quartet := 0, tag := 0, zero := zero, at_ := 0, slot0 := 0, due := due, handle := 0, b := 0, fmt := fmt,
    fold := false, row0 := 0, kb := 0 }
  s.setCore 0 { s.core 0 with mmaWait := [m] }
/-- The same behind an `acc.zero` that waits for its quartet's slot; with every entry of the lock table taken. -/
def behindSt (s : State) : State :=
  s.setCore 0 { s.core 0 with mmaWait := (s.core 0).mmaWait.map (fun m => { m with tag := 1, zero := true }) ++ (s.core 0).mmaWait }
def fullSt (s : State) : State :=
  s.setCore 0 { s.core 0 with locks := (List.range 256).map fun n => (n, { v := true }) }
/-- An operation that an engine has accepted. -/
def op0 : MmaOp :=
  { reg := 1, team := 0, quartet := 0, tag := 0, slot := 0, stage := 0, fmt := .dx8, fold := false
    handle := handleAt Win.scratch.first, row0 := 0, kb := 0, b := [], bRead := true, a := some [], held := [], started := true
    acceptAt := 0, startAt := 0, replays := [], lock := none, faulted := [] }
/-- The quartet, each of its waves at its own quartet instruction, with that operation in the engine at clock 1000. -/
def engineSt (m : MmaOp) : State :=
  let s := quartetSt none [(0, 0)]
  s.setCore 0 { s.core 0 with
    clk := 1000, mmas := [m]
    waves := [0, 16, 32, 48].map fun k => (k, wvQuartet (some { hereC with slot := k })) }

/-- What `MMA_ACCEPT` meets: with the tag bound, and unbound with a slot free; no handle, one of another format, one that is
right. A slot for an `acc.zero` that became due. -/
theorem witness_MatrixEngine_accept :
    (∀ b ∈ [true, false], ∀ s ∈ [acceptSt b false none, acceptSt b false (some (handleAt 0x10000)) .dx4,
        acceptSt b false (some (handleAt 0x10000))],
      ((s.core 0).mmaWait.map (·.zero)) = [false] ∧ ((behindSt s).core 0).mmaWait.length = 2 ∧
      (∀ x ∈ ((behindSt s).core 0).mmaWait.take 1, (tryAccept 0 (behindSt s) x).isNone = true) ∧ (s.core 0).wake = none ∧ dueFirst (s.core 0).mmaWait = none ∧
      freeStage (s.core 0) = some 0 ∧ find? (s.team 0).tags 0 = (if b then some 0 else none) ∧ freeSlot (s.core 0) = some 3) ∧
    find? ((acceptSt true false none).team 0).handles 0 = none ∧ handleFmt (handleAt 0x10000) = some .dx8 ∧
    find? ((acceptSt true false (some (handleAt 0x10000))).team 0).handles 0 = some (handleAt 0x10000) ∧
    (lockEntryFor ((acceptSt true false (some (handleAt 0x10000))).core 0)
      ((acceptSt true false (some (handleAt 0x10000))).team 0) 0).isSome = true ∧
    (tileRange (handleAt 0x10000) .dx8 0 0).isSome = true ∧ tileRange (handleAt 0x10000) .dx8 9 0 = none ∧
    (let s := fullSt (acceptSt true false (some (handleAt 0x10000)))
     lockEntryFor (s.core 0) (s.team 0) 0 = none ∧ freeStage (s.core 0) = some 0 ∧ dueFirst (s.core 0).mmaWait = none) ∧
    (let s := acceptSt false false none
     let s := s.setCore 0 { s.core 0 with acc := (List.range 16).map fun n => (n, {}) }
     find? (s.team 0).tags 0 = none ∧ freeSlot (s.core 0) = none ∧ (s.core 0).mmaWait.map (·.due) = [none]) ∧
    (dueFirst ((acceptSt false true none .dx8 (some 1)).core 0).mmaWait).map (·.zero) = some true ∧
    find? ((acceptSt false true none .dx8 (some 1)).team 0).tags 0 = none ∧
    freeSlot ((acceptSt false true none .dx8 (some 1)).core 0) = some 3 := by decide +kernel

/-- The end of the reads of B, of the fetch of A, a start, an end, a first and a second mismatch, an abort. -/
theorem witness_MatrixEngine :
    (let m := { op0 with bRead := false, a := none, started := false }
     let s := engineSt m
     (s.core 0).mmas.find? (fun m => m.stage == 0 && !m.bRead) = some m ∧
     m.acceptAt + (mmaBlockLen m.fmt + 3) / 4 ≤ (s.core 0).clk.toNat ∧
     ∀ k ∈ quartetSlots s 0 0 0, (s.wave 0 k).rdv = some { hereC with slot := k } ∧ hereC.core = 0) ∧
    (let m := { op0 with a := none, started := false }
     let s := engineSt m
     fetching (s.core 0) = some m ∧ fetchBlocked s 0 m = false ∧ fetchEnd (s.core 0) m ≤ (s.core 0).clk.toNat ∧
     (match tileKeys s 0 m with
      | .ok bs => (firstPoison s (bs.flatMap (·.2))).isNone && (match engineGather s (s.partOf (s.team 0))
            (bs.flatMap (·.2)) with
          | some s1 => (firstPoison s1 (bs.flatMap (·.2))).isNone
          | none => false)
      | .error _ => false) = true) ∧
    ((engineSt { op0 with started := false }).core 0).mmas = [{ op0 with started := false }] ∧
    (let s := engineSt op0
     (s.core 0).mmas = [op0] ∧ computeEnd op0 ≤ (s.core 0).clk.toNat ∧ abortCause s 0 op0 = none ∧
     (find? (s.core 0).acc op0.slot).map (·.releasing) = some false) ∧
    (∀ r ∈ [[], [2]], ((engineSt { op0 with replays := r }).core 0).mmas = [{ op0 with replays := r }] ∧
      (r.filter (· == 2)).length < 3) ∧
    (let m := { op0 with a := none, started := false, handle := handleAt (Win.scratch.first + 4096) }
     (((engineSt m).core 0).mmas.find? fun m => m.stage == 0) = some m ∧
     abortCause (engineSt m) 0 m = some (8, Win.scratch.first + 4096)) ∧
    (let m := { op0 with replays := [2, 2, 2] }
     (((engineSt m).core 0).mmas.find? fun m => m.stage == 0) = some m ∧ m.bRead = true ∧
     abortCause (engineSt m) 0 m = some (0x0C, 0) ∧ m.failed 2 = [2]) := by decide +kernel

/-! ### Witnesses: launch records, placement, pre-emption, page faults -/

/-- A partition of cluster 0 with two colours of memory. -/
def part0 : Partition :=
  { created := true, ready := true, clusters := 1, colours := 3, asidBase := 16, asidCount := 1, memBytes := 2 ^ 32, pad := 0 }
/-- A kernel of no region, in one page, of one wave of 16 registers. -/
def kern0 : Kernel :=
  { part := 0, entry := Config.fwBase + 8, codeBytes := 8, dest := Config.fwBase, destBytes := 65536, runtime := false
    regs := 2, waves := 1, quartets := 0, slots := 0, lpriv := 0, scratch := 0, clusMin := 0, padMin := 0, regions := []
    argsMin := 8, tables := [], pages := [Config.fwBase], firstPage := Config.fwBase }
/-- `gst` in that partition, with that kernel. -/
def launchSt (w : Wave := wv) : State :=
  let s := gst w
  { s.setPart 0 part0 with kernels := [(1, kern0)], nextHandle := 5000 }
/-- The record of a grid of one team of that kernel, its slot byte set, its tag 0. -/
def rec0 : Nat :=
  [(8, 1), (0x10, 1), (0x12, 1), (0x14, 1), (0x18, 64), (0x1C, 256), (0x28, 0x10000), (0x30, 8), (0x34, 256), (0x60, 0x10100),
   (0x7F, 1)].foldl (fun r x => r + x.2 * 256 ^ x.1) 0
/-- A slot of the partition's launch window with its slot byte seen and a record r in it. -/
def slotSt (r : Nat) : State :=
  let s := launchSt
  let s := s.setPart 0 { part0 with slotsSeen := [3] }
  writePA s (controlPA s 0 (128 * 3)) 128 r
/-- The state in which its checks are made: the slot no longer seen, its slot byte cleared. -/
def parseSt (s : State) : State :=
  controlWrite (s.setPart 0 { s.part 0 with slotsSeen := [] }) 0 (128 * 3 + 127) 1 0

/-- A slot byte of 0; a refused record; a child's record that is accepted. -/
theorem witness_RecordParsed :
    (∀ r ∈ [0, 256 ^ 0x7F], ((slotSt r).part 0).slotsSeen = [3] ∧ ((slotSt r).part 0).ready = true) ∧
    fieldOf (controlRead (slotSt 0) 0 (128 * 3) 128) 127 1 = 0 ∧
    fieldOf (controlRead (slotSt (256 ^ 0x7F)) 0 (128 * 3) 128) 127 1 ≠ 0 ∧
    refusal (parseSt (slotSt (256 ^ 0x7F))) 0 (controlRead (slotSt (256 ^ 0x7F)) 0 (128 * 3) 128) none = some 3 ∧
    (let s := launchSt.setTeam 0 { team0 with launches := [rec0] }
     (s.team 0).launches = [rec0] ∧ (s.team 0).grid = some 2049 ∧ find? s.grids 2049 = some grid0 ∧ grid0.part = 0 ∧
     (s.part 0).ready = true ∧ 2049 ≠ s.nextHandle ∧
     refusal (s.setTeam 0 { s.team 0 with launches := [] }) 0 rec0 (some grid0) = none) := by decide +kernel

/-- A grid that waits, with no dependence; and with one that failed. -/
theorem witness_GridQueued :
    (∀ ds ∈ [[], [5]], find? (launchSt.setGrid 9 { grid0 with st := .waiting, deps := ds }).grids 9 =
      some { grid0 with st := .waiting, deps := ds }) ∧
    (∀ d ∈ ([] : List Nat), depFailed launchSt 0 d = false) ∧
    (let s := launchSt.setPart 0 { part0 with ended := [(5, 2)] }
     depFailed (s.setGrid 9 { grid0 with st := .waiting, deps := [5] }) 0 5 = true) := by decide +kernel

/-- `launchSt` with a grid of another team to place, of class c and quota n. -/
def queuedSt (c n : Nat) (w : Wave := wv) (t : Team := team0) : State :=
  ((launchSt w).setTeam 0 t).setGrid 2050 { grid0 with
    id := 2, prio := c, quota := n, nextTeam := 0, liveTeams := 0, lpriv := 16, clus := 0, dpad := 0, passed := some (0, 0) }
/-- What the partition places next, where a condition on it holds. -/
def placesNext (s : State) (p : Waiting × Nat × Nat × Plan → Bool) : Bool :=
  decide (nextPart s = some 0) && match choose s 0 (queuesOf s 0) [] with
    | (sk, some x) => p x && (find? (sk.foldl markPassed s).grids x.2.1).isSome &&
        decide (x.2.2.2.slots.map (·.2)).Nodup && decide (x.2.2.2.slots.map (·.1)).Nodup
    | _ => false
/-- The saved form of team 0's wave. -/
def savedTeam : Team :=
  { team0 with core := none, saved := [(0, { wv with quota := 128 })], readyAt := some 4 }

/-- A new team placed; a saved one restored. -/
theorem witness_TeamPlaced :
    placesNext (queuedSt 0 16) (fun x => decide (x.1 = .new 2050) && decide (x.2.1 = 2050)) = true ∧
    (find? (queuedSt 0 16).kernels grid0.kid).isSome = true ∧
    (let s := ((launchSt.setCore 0 { launchSt.core 0 with waves := [] }).setTeam 0 savedTeam).setGrid 2049
       { grid0 with clus := 0, dpad := 0 }
     (s.team 0).grid = some 2049 ∧ s.partOf (s.team 0) = some 0 ∧ (s.team 0).ready = true ∧
     placesNext s (fun x => decide (x.1 = .saved 0) && decide (x.2.1 = 2049) && banksFree s x.2.2.1 (s.team 0)) = true) := by
  decide +kernel

/-- The clock of core 0 at n. -/
def atClk (s : State) (n : Nat) : State := s.setCore 0 { s.core 0 with clk := BitVec.ofNat 64 n }

/-- A team whose slice is over with a team passed over, whatever slice firmware set. -/
theorem witness_TeamTakenOff_slice :
    let s := atClk (queuedSt 0 500) (2 ^ 24)
    (s.team 0).core = some 0 ∧ s.partOf (s.team 0) = some 0 ∧ (s.team 0).due = none ∧
    ((firmwareSlice s 0).part 0).slice ≤ (s.core 0).clk.toNat - (s.team 0).since ∧
    Waiting.new 2050 ∈ queuesOf (firmwareSlice s 0) 0 ∧
    classOf (firmwareSlice s 0) (s.team 0) ≤ (Waiting.new 2050).cls (firmwareSlice s 0) ∧
    ((Waiting.new 2050).passed (firmwareSlice s 0)).isSome = true := by
  intro s
  by_cases h : 2 ^ 16 ≤ Config.freeNat s.draw.1 ∧ Config.freeNat s.draw.1 ≤ 2 ^ 24
  · have hs : firmwareSlice s 0 = s.draw.2.setPart 0 { s.draw.2.part 0 with slice := Config.freeNat s.draw.1 } := by
      simp only [firmwareSlice, if_pos h]
    rw [hs]
    refine ⟨?_, ?_, ?_, Nat.le_trans h.2 ?_, ?_, ?_, ?_⟩ <;> decide +kernel
  · have hs : firmwareSlice s 0 = s.draw.2 := by simp only [firmwareSlice, if_neg h]
    rw [hs]
    decide +kernel

/-- A team that is due and may be saved, and one with a store buffered; one outranked with a lock held; one whose deferral is
over. -/
theorem witness_TeamTakenOff :
    (∀ w ∈ [wv, { wv with sbuf := [entry0 .store 4] }],
      let s := queuedSt 0 16 w { team0 with due := some 0 }
      (s.team 0).core = some 0 ∧ (s.team 0).live = true ∧ (s.team 0).grid = some 2049 ∧ (s.team 0).saving = false ∧
      (s.team 0).posting = [] ∧ (s.team 0).due.isSome = true ∧ (s.team 0).lkcnt = 0 ∧
      saveable (beginSave s 0) 0 0 = decide (w.sbuf = []) ∧ saveRoom (beginSave s 0) 0 = true) ∧
    (let s := queuedSt 3 480 wv { team0 with lkcnt := 1 }
     (s.team 0).due = none ∧ outranked s 0 = true ∧ 0 < (s.team 0).lkcnt ∧ (s.team 0).forced = false) ∧
    (let s := atClk (queuedSt 0 16 wv { team0 with lkcnt := 1, due := some 0 }) (2 ^ 20)
     (s.team 0).grid = some 2049 ∧ (s.team 0).due = some 0 ∧ (s.team 0).forced = false ∧ 0 < (s.team 0).lkcnt ∧
     0 + 2 ^ 20 ≤ (s.core 0).clk.toNat) := by decide +kernel

/-- A team of partition 1 on a core of partition 0, which has a team to place. -/
def lentSt (t : Team) (since : List (Nat × Nat)) (clk : Nat) : State :=
  let s := queuedSt 0 16 wv t
  let s := (s.setPart 1 { part0 with clusters := 0 }).setGrid 2049 { grid0 with part := 1 }
  let s := s.setDie 0 { s.die 0 with clk := clk }
  { s with device := { s.device with reclaims := since } }

/-- A reclaim; and its deadline. -/
theorem witness_TeamTakenOff_reclaim :
    (let s := lentSt team0 [] 0
     let s' := settleReclaims s
     clusterOwner s (8 * 0) = some 0 ∧ borrowed s 0 = [(0, 0)] ∧ find? s'.device.reclaims 0 = none ∧
     Waiting.new 2050 ∈ queuesOf s' 0 ∧ (match (Waiting.new 2050).needs s' with
       | some (_, g, e) => (fits ((coreTeams s' 0).foldl saveTeam s') 0 g e).isSome
       | none => false) = true) ∧
    (let s := lentSt { team0 with lkcnt := 1 } [(0, 0)] (2 ^ 20)
     find? s.device.reclaims 0 = some 0 ∧ 0 + 2 ^ 20 ≤ (s.die (0 / 16)).clk ∧
     ((borrowed s 0).filter fun b => decide (0 < (s.team b.2).lkcnt) && !(s.team b.2).forced) = [(0, 0)]) := by
  decide +kernel

/-- A wave whose lane 0 waits for a page. -/
def wvFault : Wave := wv.setThread 0 { thr with hold := .fault 0x20000 0 }

/-- The state in which a page fault looks whether the save can end. -/
def faultSt (s : State) : State :=
  let s0 := s.setTeam 0 { s.team 0 with posting := [(0x20000, 0)] }
  if (s.team 0).saving then s0 else beginSave s0 0

/-- A team that a missing page takes off its core; one with a store unperformed; one whose frame has no room, being saved;
a pre-emption that ends such a save; an `FQACK`. -/
theorem witness_PageFaults :
    (∀ s ∈ [launchSt wvFault, launchSt { wvFault with sbuf := [entry0 .store 4] },
        (launchSt wvFault).setTeam 0 { team0 with saving := true, lpriv := 2 ^ 26, blocks := [(0, 0)] }],
      s.gridOf (s.team (s.wave 0 0).team) = some grid0 ∧ (s.team 0).core = some 0 ∧
      (teamFaults s 0 0).filter (fun f => !(s.team 0).waiting.contains (f.1 / 65536) && !(s.team 0).posting.contains f) =
        [(0x20000, 0)] ∧
      saveable (faultSt s) 0 0 = decide ((s.wave 0 0).sbuf = []) ∧
      saveRoom (faultSt s) 0 = decide ((s.team 0).saving = false)) ∧
    (let s := (launchSt wv).setTeam 0 { team0 with saving := true, posting := [(0x20000, 0)] }
     s.gridOf (s.team 0) = some grid0 ∧ (s.team 0).live = true ∧ saveable s 0 0 = true ∧ saveRoom s 0 = true) ∧
    (launchSt.part 0).created = true ∧ (launchSt.part 0).unposted = [] ∧
    faultAsid launchSt 0 (65536 * (0x2FFFF / 65536 % 2 ^ 41)) = 0x2FFFF % 65536 ∧
    launchSt.partOf (launchSt.team 0) = some 0 := by decide +kernel

/-- A field of n bytes that are read is what its own bytes read as. -/
theorem ofBytes_field (bs : List Byte) : ∀ off n, fieldOf (ofBytes bs) off n = ofBytes ((bs.drop off).take n) := by
  have low : ∀ (bs : List Byte) n, ofBytes bs % 256 ^ n = ofBytes (bs.take n) := by
    intro bs
    induction bs with
    | nil => intro n; simp [ofBytes]
    | cons b r ih =>
      intro n
      cases n with
      | zero => simp [ofBytes, Nat.mod_one]
      | succ n =>
        have hb : b.toNat < 256 := b.isLt
        simp only [ofBytes, List.take_succ_cons, ← ih]
        rw [Nat.pow_succ, Nat.mul_comm (256 ^ n) 256, Nat.mod_mul,
          show (b.toNat + 256 * ofBytes r) % 256 = b.toNat by omega, show (b.toNat + 256 * ofBytes r) / 256 = ofBytes r by omega]
  have drop : ∀ (bs : List Byte) off, ofBytes bs / 256 ^ off = ofBytes (bs.drop off) := by
    intro bs
    induction bs with
    | nil => intro n; simp [ofBytes]
    | cons b r ih =>
      intro n
      cases n with
      | zero => simp
      | succ n =>
        have hb : b.toNat < 256 := b.isLt
        simp only [ofBytes, List.drop_succ_cons, ← ih]
        rw [Nat.pow_succ, Nat.mul_comm (256 ^ n) 256, ← Nat.div_div_eq_div_mul]
        congr 1
        omega
  intro off n
  rw [fieldOf, drop, low]

theorem ofBytes_getD (l : List Byte) : ∀ n, l.length ≤ n → ofBytes ((List.range n).map fun i => l.getD i 0) = ofBytes l := by
  induction l with
  | nil =>
    intro n _
    induction n with
    | zero => rfl
    | succ n ih =>
      rw [List.range_succ_eq_map, List.map_cons, List.map_map]
      simp only [ofBytes]
      simpa [Function.comp_def, ofBytes] using ih (by simp)
  | cons b r ih =>
    intro n hn
    cases n with
    | zero => simp at hn
    | succ n =>
      rw [List.range_succ_eq_map, List.map_cons, List.map_map]
      simp only [ofBytes, List.getD_cons_zero]
      rw [← ih n (by simpa using hn)]
      congr 3

/-- The tag that Ulusor's key gives the record `rec0` (R348). -/
def goodTag : List Byte := (hmacSha256 (bytesOf 32 (Config.launchKey 0 0).toNat) (bytesOf 4 1 ++ List.replicate 8 0)).take 16
/-- The same byte by byte. -/
def tagByte (i : Nat) : Byte := goodTag.getD i 0
/-- `slotSt` with `rec0` and some bytes as its tag. -/
def taggedSt (b : Nat → Byte) : State :=
  let s := slotSt rec0
  let pa := controlPA s 0 (128 * 3) + 0x68
  { s with mem := (s.mem.filter fun c => decide (c.1 < pa)) ++ ((List.range 16).map fun i => (pa + i, b i)) ++
      s.mem.filter fun c => decide (pa + 16 ≤ c.1) }
/-- The bytes of the record there. -/
def taggedBytes (b : Nat → Byte) : List Byte :=
  (keysFrom (controlPA (taggedSt b) 0 (128 * 3)) 128).map (readByte (taggedSt b))

theorem look_append (d : Byte) (A B : List (Nat × Byte)) (k : Nat) (h : ∀ x ∈ A, x.1 ≠ k) :
    look d (A ++ B) k = look d B k := by
  induction A with
  | nil => rfl
  | cons x r ih =>
    rw [List.cons_append, look, if_neg (fun e => h x (by simp) e.symm)]
    exact ih fun y hy => h y (by simp [hy])

theorem look_cells (d : Byte) (B : List (Nat × Byte)) : ∀ (n p : Nat) (b : Nat → Byte) (j : Nat), j < n →
    look d ((List.range n).map (fun i => (p + i, b i)) ++ B) (p + j) = b j := by
  intro n
  induction n with
  | zero => intro p b j h; omega
  | succ n ih =>
    intro p b j h
    rw [List.range_succ_eq_map, List.map_cons, List.cons_append, look]
    cases j with
    | zero => simp
    | succ j =>
      rw [if_neg (by omega), List.map_map]
      have := ih (p + 1) (fun i => b (i + 1)) j (by omega)
      simpa [Function.comp_def, Nat.add_assoc, Nat.add_comm 1] using this

theorem taggedBytes_tag (b : Nat → Byte) : ((taggedBytes b).drop 0x68).take 16 = (List.range 16).map b := by
  have hk : ((keysFrom (controlPA (taggedSt b) 0 (128 * 3)) 128).drop 0x68).take 16 =
      (List.range 16).map fun i => controlPA (slotSt rec0) 0 (128 * 3) + 0x68 + i := by
    have h : (taggedSt b).part 0 = (slotSt rec0).part 0 := by simp only [taggedSt, State.part]
    rw [controlPA, h, ← controlPA]; decide +kernel
  rw [taggedBytes, ← List.map_drop, ← List.map_take, hk, List.map_map]
  refine List.map_congr_left fun i hi => ?_
  simp only [Function.comp_apply, readByte, taggedSt, List.append_assoc]
  rw [look_append _ _ _ _ fun x hx => ?_, look_cells _ _ _ _ _ _ (List.mem_range.1 hi)]
  have := (List.mem_filter.1 hx).2
  simp only [decide_eq_true_eq] at this
  omega

/-- The record with its right tag, and the state in which it is judged. -/
def hostRec : Nat := ofBytes (taggedBytes tagByte)
def judged : State := parseSt (taggedSt tagByte)

theorem hostRec_read : controlRead (taggedSt tagByte) 0 (128 * 3) 128 = hostRec := by
  simp only [controlRead, readPA, readKeys, hostRec, taggedBytes]
theorem hostRec_field (off n : Nat) : fieldOf hostRec off n = ofBytes (((taggedBytes tagByte).drop off).take n) :=
  ofBytes_field _ _ _
theorem hostRec_kid : fieldOf hostRec 8 4 = 1 := by rw [hostRec_field]; decide +kernel
theorem hostRec_args : readArgs judged 0 0x10000 8 = some (List.replicate 8 0) := by decide +kernel
theorem hostRec_malformed : malformed judged 0 hostRec false = false := by
  simp only [malformed, hostRec_field]; decide +kernel
theorem hostRec_kernel : launchKernel judged 0 hostRec = some kern0 := by
  have hk : find? judged.kernels 1 = some kern0 := by decide +kernel
  rw [launchKernel, hostRec_kid, hk]; rfl
theorem hostRec_handler : handlerOk judged 0 (fieldOf hostRec 0x38 8) = true := by
  simp only [hostRec_field]; decide +kernel
theorem hostRec_below : belowKernel kern0 hostRec = false := by
  simp only [belowKernel, hostRec_field]; decide +kernel
theorem hostRec_fits : neverFits kern0 hostRec = false := by
  simp only [neverFits, hostRec_field]; decide +kernel
theorem hostRec_deps : (recordDeps hostRec).any (depFailed judged 0) = false := by
  simp only [recordDeps, hostRec_field]; decide +kernel
theorem hostRec_tag : launchTag judged 0 hostRec (List.replicate 8 0) = fieldOf hostRec 0x68 16 := by
  have hc : (judged.part 0).creations = 0 := by decide +kernel
  rw [launchTag, hostRec_kid, hostRec_field, taggedBytes_tag, hc]
  exact (ofBytes_getD goodTag 16 (List.length_take_le ..)).symm
theorem hostRec_grants : grantsBad judged 0 hostRec none kern0 (List.replicate 8 0) = false := by
  simp only [grantsBad, Option.isNone_none, if_true, hostRec_tag, ne_eq, not_true_eq_false, decide_false]
  simp [kern0]
theorem hostRec_accepted : refusal judged 0 hostRec none = none := by
  have h2 : fieldOf hostRec 0x28 8 = 0x10000 := by rw [hostRec_field]; decide +kernel
  have h3 : fieldOf hostRec 0x30 4 = 8 := by rw [hostRec_field]; decide +kernel
  rw [refusal]
  simp only [Option.isSome_none, hostRec_malformed, hostRec_kernel, hostRec_handler, hostRec_below, h2, h3, hostRec_args,
    hostRec_grants, hostRec_fits, hostRec_deps, Bool.false_eq_true, if_false, Bool.not_true]

/-- The record of the host with its right tag is accepted. -/
theorem witness_RecordParsed_host :
    let s := taggedSt tagByte
    let r := controlRead s 0 (128 * 3) 128
    (s.part 0).slotsSeen = [3] ∧ (s.part 0).ready = true ∧ fieldOf r 127 1 ≠ 0 ∧ refusal (parseSt s) 0 r none = none := by
  intro s r
  have hr : r = hostRec := hostRec_read
  rw [hr]
  refine ⟨?_, ?_, ?_, hostRec_accepted⟩
  rotate_right
  · rw [hostRec_field]; decide +kernel
  all_goals decide +kernel

/-! ### Witnesses: translations, the host, tokens -/

theorem witness_Shootdowns :
    (∀ c ∈ (launchSt).cores, rangeInUse launchSt c.1 0x10000 65536 none = false) ∧ (launchSt.part 0).created = true ∧
    (let s := launchSt.setPart 0 { part0 with asids := [(0, 0x1000, 7)] }
     pasidIndexes s 0 7 = [0] ∧ ∀ n ∈ [65536, 2 ^ 56], ∀ c ∈ s.cores, rangeInUse s c.1 (2 ^ 56) n (some 16) = false) := by
  decide +kernel

/-- `launchSt` with the page of the partition's memory in device bias or not, and device fields set. -/
def hostSt (dev cxl minimal : Bool) : State :=
  let s := launchSt
  let pa := partPA (s.part 0) 0
  { s with hostBias := if dev then [] else [pa / 65536], device := { s.device with cxl := cxl, minimal := minimal } }

/-- Both biases; a snoop of a line of host memory and of a host-bias page; minimal mode and PCIe mode. -/
theorem witness_HostAccesses :
    (∀ dev ∈ [true, false], let s := hostSt dev true false
      let l := partPA (s.part 0) 0 / 128
      (s.part 0).created = true ∧ s.device.cxl = true ∧ s.devBias (partPA (s.part 0) 0) = dev ∧ (s.dir l).busy = none ∧
      tokensInFlight s l = false ∧ s.dies = [] ∧ lineHeld s l = false ∧ 384 + 128 ≤ (s.part 0).memBytes ∧
      sealedPA s (partPA (s.part 0) 384) = false ∧
      ∀ w ∈ [true, false], engineHolds s none w ((keysFrom (partPA (s.part 0) 384) 128).map (· / 4)) = false) ∧
    ownDram (128 * 2 ^ 44) = false ∧ 2 ^ 51 ≤ 128 * 2 ^ 44 ∧ ((hostSt false true false).dir (2 ^ 44)).busy = none ∧
    tokensInFlight (hostSt false true false) (2 ^ 44) = false ∧
    ownDram (128 * (partPA ((hostSt false true false).part 0) 0 / 128)) = true ∧
    (hostSt false true true).device.minimal = true ∧ (hostSt false false false).device.minimal = false ∧
    (hostSt false false false).device.cxl = false ∧ ((hostSt false false false).part 0).created = true ∧
    (let s := hostSt false false false
     s.unitWaits = [] ∧ fetcherHolds s none ((keysFrom (controlPA s 0 0x2000) 8).map (· / 4)) = false) := by decide +kernel

/-- `gst` with a frame of line 512, which the page at 0x10000 has, on die 0, requests and records of core 0, and a message. -/
def tokSt (fr : Frame) (rq : List TokenReq) (rs : List Span) (x : Msg) : State :=
  let s := (gst).setFrame 0 512 fr
  let c := { s.core 0 with reqs := rq }
  { s.setCore 0 (if rs.isEmpty then c else { c with l1 := [(512, { va := 512, asid := none, w := true, sealed_ := false, spans := rs })] })
    with msgs := [x] }
/-- Core 0's request 5 for words 0 to 3, and a request of core 1. -/
def rq0 (write : Bool) : TokenReq :=
  { num := 5, line := 512, va := 512, f := 0, n := 4, write := write, at_ := 0, fails := 0, persistent := false, ctx := none }
def lr0 : LocalReq := { core := 0, num := 5, va := 512, f := 0, n := 4, write := true, ctx := none }
/-- All tokens of a line; those of words 0 to 7 and 8 to 31, the latter owned by core 3. -/
def whole : List Span := [{ f := 0, n := 32, tk := 128, o := true, dm := 0, oc := 0 }]
def parts : List Span := [{ f := 0, n := 2, tk := 128, o := true, dm := 0, oc := 0 }, { f := 2, n := 30, tk := 5, o := false, dm := 0, oc := 3 }]
/-- What a request at its slice needs there. -/
def MaySlice (s : State) (write : Bool) : Prop :=
  (s.core 0).reqs.find? (fun x => x.num == 5 && x.line == 512) = some (rq0 write) ∧ setAside s 0 0 512 0 4 = false ∧
  (s.frame 0 512).recalled = false ∧ (s.frame 0 512).waiting = [] ∧ (s.frame 0 512).later = [] ∧ (s.frame 0 512).asked = none ∧
  engineHolds s (some 0) write (spanWords 512 0 4) = false

theorem witness_TokenMessages_requests :
    (∀ st ∈ [Moesi.m, .e, .o, .s, .i],
      MaySlice (tokSt { st := st, recs := parts, valid := 15 } [rq0 false] [] (.gets 0 512 0 4 5 none)) false ∧
      MaySlice (tokSt { st := st, recs := parts, valid := 15 } [rq0 true] [] (.getx 0 512 0 4 5 none)) true) ∧
    ((tokSt { st := .m } [rq0 false] [] (.gets 0 512 0 4 5 none)).msgs[0]? = some (.gets 0 512 0 4 5 none)) ∧
    ((tokSt { st := .m } [rq0 true] [] (.getx 0 512 0 4 5 none)).msgs[0]? = some (.getx 0 512 0 4 5 none)) := by
  refine ⟨fun st h => ?_, ?_, ?_⟩
  rotate_left
  · decide +kernel
  · decide +kernel
  simp only [List.mem_cons, List.not_mem_nil, or_false] at h
  rcases h with rfl | rfl | rfl | rfl | rfl <;> (constructor <;> (unfold MaySlice; decide +kernel))

/-- A forwarded read and write at a holder; tokens that a request awaits, and that none does; a `DONE`; tokens and a notice
at a slice that serves no write and one. -/
theorem witness_TokenMessages :
    (∀ w ∈ [true, false], let s := tokSt { st := .m } [] whole (.fwd 0 1 512 0 4 5 w)
      s.msgs[0]? = some (.fwd 0 1 512 0 4 5 w) ∧ setAside s 0 1 512 0 4 = false ∧
      (gather false 0 (splitWords w 0 4 (spread ((s.core 0).line 512))).2).length ≤ 2) ∧
    (let sp : List Span := [{ f := 0, n := 4, tk := 128, o := true, dm := 0, oc := 0 }]
     let s := tokSt { st := .m } [rq0 true] [{ f := 4, n := 2, tk := 3, o := false, dm := 0, oc := 0 }] (.tok 0 none (some 0) 512 sp)
     s.msgs[0]? = some (.tok 0 none (some 0) 512 sp) ∧ (s.die 0).arbiter = [] ∧
     ((s.core 0).reqs.find? fun r => r.line == 512 && (List.range r.n).any fun i =>
        decide (0 < ((spread sp).getD (r.f + i) (noTok 0)).tk)) = some (rq0 true) ∧
     (fillLeaf s 0 (rq0 true)).isSome = true ∧ (find? (s.core 0).l1 512).map (·.va) = some (rq0 true).va ∧
     ((s.core 0).l1.filter fun e => e.1 != 512).length < 8 ∧
     (gather false 0 (addWords (spread ((s.core 0).line 512)) (spread sp))).length ≤ 2) ∧
    (let s := tokSt { st := .m } [] [] (.tok 0 (some 3) (some 0) 512 whole)
     s.msgs[0]? = some (.tok 0 (some 3) (some 0) 512 whole) ∧ (s.die 0).arbiter = [] ∧ (s.core 0).reqs = [] ∧ (s.core 0).line 512 = [] ∧
     0 < (tokensOf whole 0).1) ∧
    (tokSt { st := .m, serving := [lr0] } [] whole (.done 0 512 0 4 5 whole)).msgs[0]? = some (.done 0 512 0 4 5 whole) ∧
    (∀ x ∈ [Msg.tok 0 (some 0) none 512 whole, .notice 0 1 512 whole], ∀ sv ∈ [[], [lr0]],
      let s := tokSt { st := .m, serving := sv } [rq0 true] [] x
      s.msgs[0]? = some x ∧ (s.die 0).arbiter = [] ∧ (s.frame 0 512).serving = sv ∧ (s.frame 0 512).recalled = false ∧ alive s 512 lr0 = true) ∧
    (∀ w, w < 32 → (tokensOf whole w).2 = true → 0 < (tokensOf whole w).1) := by decide +kernel

/-- An arbiter entry of core 0 for words 0 to 3. -/
def pr0 (active : Bool) : Persistent := { core := 0, line := 512, f := 0, n := 4, write := true, active := active }
/-- Such a state with an arbiter, and core 0's clock at 512. -/
def arbSt (fr : Frame) (rq : List TokenReq) (ps : List Persistent) : State :=
  let s := tokSt fr rq whole (.inv 0 9)
  let s := s.setDie 0 { s.die 0 with arbiter := ps }
  { s.setCore 0 { s.core 0 with clk := 512 } with msgs := [] }

/-- A line to be recalled; a request that fails first and for the third time, the arbiter busy with another of its core or
not; a persistent request; the turn of core 0; its end. -/
theorem witness_TokenArbiter :
    (let s := arbSt { st := .m, recalled := true } [] []
     (s.frame 0 512).recalled = true ∧ recallMsg s 0 512 = none ∧ holdersOf s 0 512 = [0] ∧
     (let t := { s with msgs := [.recall 0 512] }
      recallMsg t 0 512 = some (0, 0) ∧ 0 < (tokensOf ((t.core 0).line 512) 0).1) ∧
     let t := s.setCore 0 { s.core 0 with l1 := [] }
     recallDone t 0 512 = true ∧ (t.frame 0 512).probed = false ∧ (t.frame 0 512).waiting = [] ∧ (t.frame 0 512).later = [] ∧
     (t.frame 0 512).serving = [] ∧ (t.frame 0 512).st ≠ .i) ∧
    (∀ k ∈ [0, 2], ∀ ps ∈ [[], [{ pr0 true with line := 700 }]],
      let s := arbSt { st := .m } [{ rq0 true with fails := k }] ps
      (s.core 0).reqs.find? (fun r => r.line == 512 && r.f == 0 && r.n == 4 && r.write == true) =
        some { rq0 true with fails := k } ∧ (rq0 true).at_ + 512 ≤ (s.core 0).clk.toNat ∧ (s.die 0).arbiter = ps) ∧
    (let s := arbSt { st := .m } [{ rq0 true with persistent := true }] []
     (∃ x ∈ (s.core 0).reqs, (x.line == 512 && x.f == 0 && x.n == 4 && x.write == true) = true ∧ x.persistent = true) ∧
     (s.die 0).arbiter = []) ∧
    (let s := arbSt { st := .m } [{ rq0 true with persistent := true }] [pr0 false, { pr0 false with core := 3 }]
     ((s.die 0).arbiter.find? fun x => x.core == 0) = some (pr0 false) ∧
     (∀ q ∈ (s.die 0).arbiter, q.overlaps (pr0 false) = true → q.active = false ∧ turnOf (s.die 0) 0 ≤ turnOf (s.die 0) q.core) ∧
     engineHolds s (some 0) true (spanWords 512 0 4) = false) ∧
    (let s := arbSt { st := .m } [] [pr0 true]
     ((s.die 0).arbiter.find? fun x => x.core == 0 && x.active) = some (pr0 true) ∧ (s.core 0).reqs = [] ∧
     stillNeeds (s.core 0) (pr0 true) = false) := by decide +kernel

/-! ### Witnesses: between dies -/

/-- The home's entry of line 512, a message about it, die 1's frame of it and die 1's notice buffer. -/
def homeSt (d : Dir) (x : Msg) (fr : Frame := {}) (buf : List Notice := []) : State :=
  let s := ((gst).setDir 512 d).setFrame 1 512 fr
  { s.setDie 1 { s.die 1 with noticeBuf := buf } with msgs := [x] }
/-- The home serving a request of die 1 that waits for some Acks. -/
def busy0 (acks : List Nat) (a : After) : Busy := { die := 1, acks := acks, after := a, ctx := none }
/-- The messages of die 1 that reach a home. -/
def homeMsgs : List Msg :=
  [.rds 1 512 none, .rdx 1 512 none, .upg 1 512 none, .evs 1 512, .eve 1 512, .wbm 1 512 1, .wbo 1 512 1]

/-- Each message at a home that is busy; at one that is free in each state, die 1 listed and not. -/
theorem witness_HomeRequests :
    (∀ x ∈ homeMsgs, let s := homeSt { st := .s, sharers := 1, busy := some (busy0 [] .data) } x
      s.msgs[0]? = some x ∧ (s.dir 512).busy.isSome = true ∧ sliceQueue s 512 < 32) ∧
    (∀ x ∈ homeMsgs, ∀ st ∈ [Moesi.i, .s, .e, .o, .m], ∀ ow ∈ [0, 1], ∀ sh ∈ [1, 3],
      let s := homeSt { st := st, owner := ow, sharers := sh } x
      s.msgs[0]? = some x ∧ (s.dir 512).busy = none ∧ (dirPeers s 512).length < 16) ∧
    (1 ∉ ({ st := .i } : Dir).listed ∧ 1 ∉ ({ st := .s, sharers := 1 } : Dir).listed ∧
      1 ∉ ({ st := .o, owner := 0, sharers := 4 } : Dir).listed ∧ 1 ∉ ({ st := .m, owner := 0 } : Dir).listed ∧
      1 ∈ ({ st := .s, sharers := 3 } : Dir).listed ∧ (3 : BitVec 8).getLsbD 1 = true) ∧
    (let s := homeSt { st := .s, sharers := 3 } (.evs 1 512) {} [{ line := 512, st := .s, mask := 0, valid := 0, stale := true }]
     (∃ e ∈ (s.die 1).noticeBuf, e.line = 512 ∧ e.stale = true) ∧ 1 ∈ (s.dir 512).listed) := by decide +kernel

/-- Probes at a die that holds the line; data, of a line in device bias; Acks that are the last and that are not. -/
theorem witness_HomeProbes :
    (∀ x ∈ [Msg.fwds 1 0 512, .fwds 1 1 512, .fwdx 1 0 512, .inv 1 512, .binv 1 512], let s := homeSt {} x { st := .m, recs := whole }
      s.msgs[0]? = some x ∧ inFlight s 1 512 = false ∧ (s.frame 1 512).st ≠ .i ∧ recallDone s 1 512 = true ∧
      (let t := s.setCore 128 { s.core 0 with l1 := [(512, { va := 512, asid := none, w := true, sealed_ := false, spans := whole })] }
       recallDone t 1 512 = false ∧ (t.frame 1 512).probed = false)) ∧
    (let x := Msg.data 1 (2 ^ 44) 5 .m 15
     let s := { (gst).setDir (2 ^ 44) { st := .m, busy := some (busy0 [] .data) } with msgs := [x] }
     s.msgs[0]? = some x ∧ (s.dir (2 ^ 44)).busy = some (busy0 [] .data) ∧ hostGrants s (2 ^ 44) = true ∧
     granted s (2 ^ 44) true = false ∧ s.device.cxl = true ∧
     granted { s with hostGrants := [(2 ^ 44, { own := true, given := true })] } (2 ^ 44) true = true) ∧
    (∀ g ∈ [Moesi.m, .o, .e, .s], let x := Msg.data 1 512 5 g 15
      let s := homeSt { st := g, busy := some (busy0 [] .data) } x
      s.msgs[0]? = some x ∧ (s.dir 512).busy = some (busy0 [] .data) ∧ (s.frame 1 512).waiting = [] ∧
      (s.frame 1 512).later = [] ∧ (s.dir 512).queue = [] ∧ hostGrants s 512 = false ∧
      (setPeers s 1 512).length < 16 - (s.die 1).padWays) ∧
    (∀ a ∈ [After.data, .ack, .owner, .free], ∀ l ∈ [[1], [1, 2]], let x := Msg.ack 1 512 true false 0
      let s := homeSt { st := .m, busy := some (busy0 l a) } x
      s.msgs[0]? = some x ∧ (s.dir 512).busy = some (busy0 l a) ∧ (s.dir 512).queue = [] ∧
      (busy0 l a).acks.filter (· ≠ 1) = l.filter (· ≠ 1)) ∧
    ([1, 2].filter (· ≠ 1) ≠ [] ∧ [1].filter (· ≠ 1) = []) ∧
    (∀ ev ∈ [true, false], let x := Msg.ack 1 512 false ev 0
      let s := homeSt { st := .m, busy := some (busy0 [] .ack) } x
      s.msgs[0]? = some x ∧ (s.frame 1 512).waiting = [] ∧ (s.frame 1 512).later = [] ∧ (s.dir 512).queue = []) := by
  decide +kernel

/-! ### Witnesses: admission -/

/-- A program image of one block: MIX-class header words h, then the word w, its record naming 8 registers (R239, R241). -/
def imageOf (h w : Nat) : List Byte :=
  bytesOf 4 1 ++ bytesOf 4 8 ++ bytesOf 4 8 ++ bytesOf 4 1 ++ bytesOf 4 0 ++ bytesOf 4 0 ++ bytesOf 4 0x101 ++ bytesOf 36 0 ++
  bytesOf 4 h ++ bytesOf 4 w ++ bytesOf 8 (2 ^ 32)
/-- A kernel that exits; and a library that returns. -/
def exitImage : List Byte := imageOf 0x003E2051 0x4C000000
def eretImage : List Byte := imageOf 0x003E2061 0x7E000000
/-- An image whose instruction word is 0 in a class that has none such. -/
def badImage : List Byte := imageOf 0x003E2051 0
def checks (bs : List Byte) (runtime : Bool) : Nat :=
  match Pavane.check bs runtime with
  | .ok _ => 0
  | .error e => e.rule

/-- A leaf of a page of the global window, writable, cacheable, G128 in device bias. -/
def leafAt (pa : Nat) : Nat := pa + 2 ^ 9 + 2 * 2 ^ 7 + 2 ^ 6 + 2 ^ 4 + 2 ^ 3 + 2 + 1
/-- A state with page tables that map 0x10000 to the partition's page at 0x10000, and 0x20000 to that at 0x800000. -/
def mapped (s : State) : State :=
  [(Config.globalRoot, 0x100000 + 1), (0x100000, 0x101000 + 1), (0x101000, 0x102000 + 1), (0x102000, 0x103000 + 1),
   (0x103000 + 8 * 1, leafAt 0x10000), (0x103000 + 8 * 2, leafAt 0x800000)].foldl (fun s x => writePA s x.1 8 x.2) s
/-- The partition with admission entry 0 named: opcode op, kernel ID kid, an image at 0x10000 of n bytes for one page at
0x20000. -/
def ringSt (op kid n : Nat) (img : List Byte) : State :=
  let s := (mapped launchSt).setPart 0 { part0 with admPending := [0] }
  let s := writeBytes s 0x10000 img
  [(0, 4, op), (4, 4, kid), (8, 8, 0x10000), (0x10, 4, n), (0x18, 8, 0x20000), (0x20, 4, 65536), (0x28, 8, 0x10400),
   (0x30, 8, 0x10800)].foldl (fun s x => writePA s (controlPA s 0 (0x2000 + x.1)) x.2.1 x.2.2) s
/-- The unit takes up entry 0 next. -/
def takes (s : State) : Bool := unitFree s && decide (admPart s = some 0) && decide (nextEntry (s.part 0) = some 0)
/-- An admission entry with an image of 80 bytes that can be read, whose header and destination are sound. -/
def soundEntry (s : State) (img : List Byte) : Bool :=
  !isUnload s 0 0 && !ringBad s 0 0 && decide (imageBytes s (imageKeys s 0 0x10000 64) 64 = some (img.take 64)) &&
  (Pavane.headRule (Pavane.head (img.take 64)) 80 false).isNone && (destPages 0x20000 65536).all (destPageOk s 0) &&
  decide (sealedBytes (Pavane.head (img.take 64)) ≤ 65536) && decide (imageBytes s (imageKeys s 0 0x10000 80) 80 = some img)
/-- The same with its entry taken up by unit 0, whose die's clock is t. -/
def taken0 (img : List Byte) : Checking := readEntry (ringSt 0 0 80 img) 0 0 (img.take 64) (destPAs (ringSt 0 0 80 img) 0 0x20000 65536)
def takenSt (img : List Byte) (t : Nat) : State :=
  let s := ringSt 0 0 80 img
  let s := { s with device := { s.device with checking := [taken0 img] } }
  s.setDie 0 { s.die 0 with clk := t }
/-- An image that passes is sealed. -/
def seals (s : State) (img : List Byte) : Bool :=
  match Pavane.check img false with
  | .ok (m, g) =>
    let a := taken0 img
    let body := Pavane.sections img
    let s := { s with device := { s.device with checking := s.device.checking.filter (· ≠ a) } }
    (sealKernel (unitWrite s (destKeys a.pas body.length) (ofBytes body)) a m g (sha256 img)).isSome
  | .error _ => false

/-- A malformed entry; one whose destination is not a tenant's page. -/
theorem witness_Admission :
    (takes (ringSt 0 0 0 []) = true ∧ isUnload (ringSt 0 0 0 []) 0 0 = false ∧ ringBad (ringSt 0 0 0 []) 0 0 = true ∧
      (ringSt 0 0 0 []).device.checking = [] ∧ (ringSt 0 0 0 []).unitWaits = [] ∧ ∀ c ∈ (ringSt 0 0 0 []).cores, c.2.mmas = []) ∧
    (let s := ringSt 0 0 80 exitImage
     let t := writePA s (controlPA s 0 (0x2000 + 0x18)) 8 0x30000
     takes t = true ∧ isUnload t 0 0 = false ∧ ringBad t 0 0 = false ∧
     imageBytes t (imageKeys t 0 0x10000 64) 64 = some (exitImage.take 64) ∧
     (destPages 0x30000 65536).all (destPageOk t 0) = false) := by decide +kernel

/-- A sound entry. -/
theorem witness_AdmissionTaken :
    takes (ringSt 0 0 80 exitImage) = true ∧ soundEntry (ringSt 0 0 80 exitImage) exitImage = true := by decide +kernel

/-- Checks under way, and done, of an image to be rejected and of one to be accepted. -/
theorem witness_AdmissionChecked :
    ∀ img ∈ [badImage, exitImage], let s := takenSt img 1000
      let a := taken0 img
      (s.device.checking.find? fun a => a.part == 0 && a.index == 0) = some a ∧
      ((takenSt img 0).device.checking.find? fun a => a.part == 0 && a.index == 0) = some a ∧
      ((takenSt img 0).die a.unit).clk < a.since + checkClocks a ∧ a.since + checkClocks a ≤ (s.die a.unit).clk ∧
      imageBytes s (imageKeys s 0 (a.image + 64) (a.size - 64)) (a.size - 64) = some (img.drop 64) ∧
      a.head ++ img.drop 64 = img := by decide +kernel

theorem witness_AdmissionResult :
    checks badImage false = 3 ∧ seals (takenSt exitImage 1000) exitImage = true := by decide +kernel

/-- Unloads: with a reserved field set, of a kernel of nobody, of the partition's; one that a unit has taken up, its kernel
named by a grid and not. -/
theorem witness_Admission_unload :
    (∀ k ∈ [1, 7], takes (ringSt 2 k 0 []) = true ∧ isUnload (ringSt 2 k 0 []) 0 0 = true ∧
      ringReserved (ringSt 2 k 0 []) 0 0 = false ∧ (ringSt 2 k 0 []).device.unloads = [] ∧ ringField (ringSt 2 k 0 []) 0 0 4 4 = k) ∧
    find? (ringSt 2 7 0 []).kernels 7 = none ∧ (find? (ringSt 2 1 0 []).kernels 1).map (·.part) = some 0 ∧
    (let s := writePA (ringSt 2 1 0 []) (controlPA (ringSt 2 1 0 []) 0 0x2038) 8 1
     takes s = true ∧ isUnload s 0 0 = true ∧ ringReserved s 0 0 = true) ∧
    (∀ gs ∈ [[], [(2049, grid0)]], let s := { launchSt with grids := gs, device := { launchSt.device with unloads := [(0, 0, 1)] } }
      (s.device.unloads.find? fun u => u.1 == 0 && u.2.1 == 0) = some (0, 0, 1) ∧
      kernelBusy s 0 1 = decide (gs ≠ []) ∧ (find? s.kernels 1).isSome = true) := by decide +kernel

/-- Firmware's request for a library of 80 bytes at host address 0, whose bytes are there, or poison. -/
def fwSt (ok : Bool) : State :=
  let s := if ok then writeBytes State.reset (2 ^ 51) eretImage else { State.reset with poison := [poisonUnit (2 ^ 51)] }
  { s with device := { s.device with fwRing := [(0x10, 80)], fwPending := [0] } }
/-- The library that it asks for. -/
def fwImage (s : State) : Option (List Byte) := imageBytes s (keysFrom (2 ^ 51 + 0) 80) 80

theorem witness_Admission_library :
    (∀ ok ∈ [true, false], unitFree (fwSt ok) = true ∧ (fwSt ok).device.fwPending.head? = some 0 ∧
      ofBytes ((keysFrom (64 * 0 + 0x10) 4).map (look (0 : Byte) (fwSt ok).device.fwRing)) = 80 ∧
      ofBytes ((keysFrom (64 * 0 + 8) 8).map (look (0 : Byte) (fwSt ok).device.fwRing)) = 0) ∧
    fwImage (fwSt false) = none ∧ fwImage (fwSt true) = some eretImage ∧
    Pavane.headRule (Pavane.head eretImage) 80 true = none ∧ checks eretImage true = 0 ∧
    (fwSt true).device.runtimeTop + (sealedBytes (Pavane.head eretImage) + 65535) / 65536 * 65536 ≤ runtimeArea := by
  decide +kernel

/-! ### Witnesses: partitions and their services -/

/-- The mailbox with command cmd running and some request bytes: offset, bytes, value. -/
def mbSt (s : State) (cmd : Nat) (fs : List (Nat × Nat × Nat)) : State :=
  { s with device := { s.device with
      mbCmd := cmd, mbBusy := true
      mbReq := fs.flatMap fun x => (List.range x.2.1).map fun i => (x.1 + i, (bytesOf x.2.1 x.2.2).getD i 0) } }
/-- A creation request for partition n with clusters c. -/
def createSt (n c : Nat) : State :=
  mbSt launchSt 1 [(0, 1, n), (4, 2, 100), (6, 2, 1), (8, 1, c), (0x18, 1, 12), (0x28, 8, 2 ^ 30), (0x38, 4, 4096)]

theorem witness_MailboxInstall :
    let s := mbSt State.reset 5 [(8, 4, 80)]
    mbRuns s 5 = true ∧ s.device.minimal = false ∧ mbField s 8 4 = 80 ∧ mbField s 0 8 + 80 ≤ 2 ^ 51 ∧ s.device.fwPending = [] := by
  decide +kernel

/-- A creation that is sound, and one of no cluster; a partition to reset, with a grid and a team; a destruction. -/
theorem witness_Partitions :
    (∀ c ∈ [2, 0], let s := createSt 2 c
      let r := creationRequest s
      mbRuns s 1 = true ∧ modeAllows s 1 r.part = true ∧ r.part = 2 ∧
      resourceBad s r = decide (c = 0) ∧ imageUnreadable s r = false ∧ imageBad s r = false) ∧
    (launchSt.part 0).created = true ∧ admissionBegun launchSt 0 = false ∧ (∀ x ∈ launchSt.grids, x.1 < launchSt.nextHandle) ∧
    find? launchSt.grids 2049 = some grid0 ∧ grid0.part = 0 ∧ grid0.st ≠ .ended ∧
    (find? launchSt.teams 0).map (·.live) = some true ∧ launchSt.partOf (launchSt.team 0) = some 0 ∧
    (let s := mbSt launchSt 2 []
     mbRuns s 2 = true ∧ modeAllows s 2 (mbField s 0 1) = true ∧ (s.part (mbField s 0 1)).created = true ∧
     admissionBegun s (mbField s 0 1) = false) := by decide +kernel

/-- `launchSt` with services of the partition under way. -/
def serviceSt (bias gran : Option PageCmd) (reqs : List Nat) : State :=
  launchSt.setPart 0 { part0 with bias := bias, gran := gran, requests := reqs }
/-- A page of the partition's memory that no table maps, and one that core 0's TLB maps. -/
def cmd2 (code : Nat) : PageCmd := { page := 2, code := code }
def cmd1 : PageCmd := { page := 1, code := 0 }

/-- Commands that start and that set ERR; the ends of both services; a usage record; a command of the mailbox. -/
theorem witness_PartServices :
    (∀ s ∈ [serviceSt none none [], serviceSt (some (cmd2 1)) none (List.replicate 16 0), serviceSt none (some (cmd2 1)) []],
      (s.part 0).created = true) ∧
    ((serviceSt none none []).part 0).memBytes ≤ 65536 * (2 ^ 24 - 1) ∧ ¬ ((serviceSt none none []).part 0).memBytes ≤ 65536 * 2 ∧
    (serviceSt none none []).devBias (partPA ((serviceSt none none []).part 0) (65536 * 2)) = true ∧
    (∀ c ∈ [0, 1], ((serviceSt (some (cmd2 c)) none []).part 0).bias = some (cmd2 c)) ∧
    (let s := serviceSt none (some cmd1) []
     pageMapped s (partPA (s.part 0) (65536 * 1) / 65536) = true) ∧
    (let s := serviceSt none (some (cmd2 1)) []
     pageMapped s (partPA (s.part 0) (65536 * 2) / 65536) = false) ∧
    (let s := { serviceSt none none [512, 0] with device := { launchSt.device with usage := [0, 1, 0] } }
     (s.part 0).requests = [512, 0] ∧ s.device.usage.head? = some 0 ∧ s.unitWaits = [] ∧ ∀ c ∈ s.cores, c.2.mmas = []) ∧ 512 % 512 = 0 ∧
    sealedPA (serviceSt none none [512, 0]) (partPA ((serviceSt none none [512, 0]).part 0) 512) = false ∧
    launchSt.device.mbBusy = false ∧ (mbSt launchSt 2 []).device.mbBusy = true := by decide +kernel

/-- No die holds a line and none is asked for. -/
def Unheld (s : State) : Prop := s.dies = [] ∧ s.frames = [] ∧ s.msgs = [] ∧ s.llc = [] ∧ ∀ l, (s.dir l).busy = none

theorem foldl_id {α β : Type} (f : α → β → α) (l : List β) (s : α) (h : ∀ b ∈ l, f s b = s) : l.foldl f s = s := by
  induction l with
  | nil => rfl
  | cons b l ih =>
    rw [List.foldl_cons, h b (by simp)]
    exact ih fun c hc => h c (by simp [hc])

theorem foldl_zero {α : Type} (f : α → BitVec 4) (l : List α) (h : ∀ a ∈ l, f a = 0) :
    l.foldl (fun m a => m ||| f a) 0 = 0 := foldl_id _ l 0 fun a ha => by rw [h a ha]; rfl

theorem foldl_del (l : List Nat) : l.foldl del ([] : List (Nat × BitVec 4 × BitVec 4)) = [] :=
  foldl_id _ l [] fun _ _ => rfl

theorem recall_unheld (s : State) (h : Unheld s) (l : Nat) :
    ∃ t, recallEverywhere s l = some t ∧ Unheld (llcEvict t l) := by
  obtain ⟨hd, hf, hm, hl, hb⟩ := h
  have hr : recallEverywhere s l =
      some { s.setDir l { s.dir l with st := .i, sharers := 0 } with hostGrants := del s.hostGrants l } := by
    have hi : ∀ d, (s.frame d l).st = .i := fun d => by simp [State.frame, hf]
    rw [recallEverywhere, hb, hd, tokensInFlight, hm, foldl_id _ _ s (fun d _ => by simp [hi])]
    simp
  refine ⟨_, hr, ?_⟩
  have he : ∀ t : State, t.llc = [] → llcEvict t l = { t with llc := [] } := fun t ht => by
    simp only [llcEvict, ht, foldl_del]
    exact if_pos (foldl_zero (fun l => (look (0, 0) [] l).2) _ fun _ _ => rfl)
  rw [he _ (by simpa [State.setDir] using hl)]
  refine ⟨hd, hf, hm, rfl, fun n => ?_⟩
  exact (congrArg Dir.busy (State.dir_setDir s l n _)).trans (by split <;> simp [hb])

theorem recalls_unheld : ∀ (ls : List Nat) (s : State), Unheld s → (recallLines ls s).isSome = true
  | [], _, _ => rfl
  | l :: ls, s, h => by
    obtain ⟨t, ht, hu⟩ := recall_unheld s h l
    simp only [recallLines, ht]
    exact recalls_unheld ls _ hu

/-- Every line of the page can be taken back. -/
theorem witness_BiasChange :
    (recallLines (pageLines (partPA ((serviceSt (some (cmd2 0)) none []).part 0) (65536 * 2)))
      (serviceSt (some (cmd2 0)) none [])).isSome = true :=
  recalls_unheld _ _ ⟨rfl, rfl, rfl, rfl, fun _ => rfl⟩

/-! ### Witnesses: recovery, faults of the part, start-up -/

/-- `launchSt` with the context of its grid c, its team with blocks of lane-private memory. -/
def ctxSt (c : Context) (lpriv : Nat) (w : Wave := wv) : State :=
  ((launchSt w).setTeam 0 { team0 with lpriv := lpriv, blocks := [(0, 0)] }).setContext 2049 c
/-- A context in a recovery interval with two lines logged. -/
def ctx1 : Context :=
  { rivl := 1, frames := some [(0, team0)]
    log := [{ line := 512, interval := 1, old := List.replicate 128 7, shared := false, seq := 0 },
            { line := 514, interval := 1, old := List.replicate 128 9, shared := false, seq := 1 }] }
/-- A wave with a lane held for poison. -/
def wvPoisoned : Wave := { wv with base := { thr with hold := .trapWait } }

/-- A close with room and without; a context that consumes poison; a job rollback, its context with a frame set and not. -/
theorem witness_ContextRecovery :
    (∀ x ∈ [(64, true), (2 ^ 26, false)], let s := ctxSt { closing := true } x.1
      (find? s.grids 2049).map (·.part) = some 0 ∧ (s.context 2049).closing = true ∧ ctxTeams s 2049 = [0] ∧
      teamClosed s 0 = true ∧
      contextRoom ((ctxTeams s 2049).foldl flushStale s) 0 (s.context 2049).spare
        ((ctxTeams s 2049).map (teamImage ((ctxTeams s 2049).foldl flushStale s))) = x.2) ∧
    (let s := ctxSt ctx1 64 wvPoisoned
     (find? s.grids 2049).map (·.part) = some 0 ∧ s.context 2049 = ctx1 ∧ ctx1.frames = some [(0, team0)] ∧
     ctx1.rolledBack = false ∧ (∀ e ∈ ctx1.log, e.shared = false ∧ e.old.length = 128) ∧ (ctx1.log.map (·.line)).Nodup ∧
     (∃ k ∈ s.cores, ∃ w ∈ k.2.waves, ctxOf s (s.team w.2.team) = some 2049 ∧ consumesPoison s k.1 w.1 = true)) ∧
    (∀ c ∈ [ctx1, {}], let s := mbSt (ctxSt c 64) 4 []
      mbRuns s 4 = true ∧ modeAllows s 4 (mbField s 0 1) = true ∧ (s.part (mbField s 0 1)).created = true ∧
      jobContexts s (mbField s 0 1) = [2049] ∧ (s.context 2049).frames = c.frames) := by decide +kernel

/-- The state after reset with `exit` placed, its team t, the mismatches ms seen. -/
def pipeSt (t : Team → Team) (ms : List (Nat × Nat)) : State :=
  let s := State.reset.withFetchWord 32 0x4C000000
  let n := (s.wave 0 0).team
  let s := s.setTeam n (t (s.team n))
  s.setCore 0 { s.core 0 with mismatches := ms }
/-- An uncached access of lane 0 whose value has been sent. -/
def sent0 (s : State) : State :=
  s.setWave 0 0 { s.wave 0 0 with sent := some { pc := thr.pc, hdr := thr.hdr, active := 1 } }

/-- A mismatch the first time, again, and in a team that has been moved; and after a value was sent. -/
theorem witness_PipelineErrors :
    (let s := sent0 (pipeSt id [])
     s.hasWave 0 0 = true ∧ (s.wave 0 0).sent.isSome = true) ∧
    (∀ x ∈ [(false, false), (false, true), (true, false)],
      let id := (0, Config.fwBase + 4)
      let s := pipeSt (fun t => { t with retry := x.1, grid := some 2049 }) (if x.2 then [id] else [])
      let m := groupOf s 0 0
      let c := groupCursor s 0 0 m
      s.hasWave 0 0 = true ∧ (s.wave 0 0).sent = none ∧ m ≠ 0 ∧ pick s c = .issue (.exit false) ∧
      (s.team (s.wave 0 0).team).retry = x.1 ∧ (s.team (s.wave 0 0).team).grid.isSome = true ∧ (s.team (s.wave 0 0).team).core = some 0 ∧ (s.wave 0 0).ckpt = none ∧
      ((0, c.pc.toNat) ∈ (s.core 0).mismatches ↔ x.2 = true)) := by decide +kernel

/-- A scrub that corrects one pin, and one with an uncorrectable codeword; a fault of one router; an event not yet reported;
the loss of a chip that owns a line; and of the first and the last port. -/
theorem witness_PartFaults :
    (∀ ps ∈ [[3], List.range 64],
      let k := look ({} : Stack) State.reset.hbmStacks 0
      k.scrubAt = 0 ∧ (∃ c ∈ codesOf (State.reset.granule (chunkPA 0 0)), codeFails 0 c ps k.dead = decide (1 < ps.length)) ∧
      3 ∉ k.dead) ∧
    (∃ c ∈ codesOf (State.reset.granule (chunkPA 0 0)), codeFails 0 c [3] [] = false ∧ pinIn 0 c 3 = true) ∧
    (let s := { State.reset with hbmStacks := [(0, { corrected := [(3, 15)], dead := [70] })] }
     15 ≤ look 0 (look ({} : Stack) s.hbmStacks 0).corrected 3 ∧ (look ({} : Stack) s.hbmStacks 0).scrubAt = 0) ∧
    5 ∉ (State.reset.die 0).deadRouters ∧ coresAt State.reset 0 5 = [5] ∧
    (let s := State.reset.setDie 0 { State.reset.die 0 with unreported := [(3, 7), (19, 1)] }
     (s.die 0).unreported ≠ [] ∧ ((s.die 0).unreported.map (·.1)).Nodup) ∧
    (let s := State.reset.setDir 9 { st := .m, ownerChip := some (Config.deviceNumber + 1) }
     Config.deviceNumber + 1 < Config.domain ∧ Config.deviceNumber + 1 ∉ s.device.lostChips ∧
     (s.dir 9).ownerChip = some (Config.deviceNumber + 1) ∧ (s.dir 9).st = .m) ∧
    (∀ n ∈ [0, 17], let s := { State.reset with device := { State.reset.device with downPorts := List.range n } }
      n ∉ s.device.downPorts ∧ s.device.downPorts.length = n) ∧
    (let s := (gst).setCore 0 { (gst).core 0 with
       acc := [(3, {})], l1 := [(512, { va := 512, asid := none, w := true, sealed_ := false, spans := whole })] }
     s.hasWave 0 0 = true ∧ 2 < (s.wave 0 0).quota ∧ (s.wave 0 0).bad = [] ∧ find? (s.core 0).acc 3 = some {} ∧
     firstPoison s [scratchKey 0 4] = none ∧ onChip ≤ scratchKey 0 4 ∧ firstPoison s [0x10000] = none ∧
     (find? (s.core 0).l1 (0x10000 / 128)).isSome = true ∧ heldKeys 512 ((s.core 0).line 512) ≠ []) := by decide +kernel

/-- A start report without a fault. -/
def rep : StartReport :=
  { copyA := true, copyB := true, identity := true, config := true, hostLink := true, fabric := none, dram := none
    badPorts := [], memory := true, replaced := [], noSpare := none, degraded := none }
/-- The state after reset with STARTCNT at n. -/
def startSt (n : Nat) : State := { State.reset with device := { State.reset.device with startCnt := n } }

/-- A start at the count limit; starts whose step 6 ends well, with a spare left and with none; a core to reset; an update
in minimal mode and after a failure for reason 2; the start counter's command. -/
theorem witness_StartUp :
    (3 ≤ (startSt 3).device.startCnt ∧ (startSt 2).device.startCnt < 3) ∧
    (spareless (startSt 2) rep = none ∧ (spareless (startSt 2) { rep with noSpare := some 5 }).isSome = true ∧
     (spareless (startSt 2) { rep with replaced := List.range 9 }).isSome = true ∧ degradedStack (startSt 2) = none ∧
     rep.copyA = true ∧ ({ rep with copyA := false } : StartReport).copyB = true) ∧
    (∀ s ∈ [State.reset, State.reset.setCore 9 { State.reset.core 9 with waves := [] }],
      9 < Config.cores ∧ 9 ∉ s.device.lostCores) ∧
    coreTeams (State.reset.setCore 9 { State.reset.core 9 with waves := [] }) 9 = [] ∧
    (∀ d ∈ [{ State.reset.device with minimal := true }, { State.reset.device with failed := true, reason := 2 }],
      d.minimal = true ∨ (d.failed = true ∧ d.reason = 2)) ∧
    mbRuns (mbSt (startSt 2) 3 []) 3 = true := by decide +kernel

end Sys2Proof.Tests
end

/-!
The predicate results (R123, R126): what the writes of a predicate with its flags do to a wave, what an instruction that
ends in `predOp` does, and the class test.
-/
namespace Sys2Proof.Machine
open State Wave

/-- The lanes whose threads gain the flags that lane `l` raises: its own, or every one of the group in a UNI clause
(R20, R31). -/
def flagLanes (s : State) (l : Nat) : List Nat := if s.cur.uni then s.lanes else [l]

theorem flagLanes_nodup (s : State) (l : Nat) : (flagLanes s l).Nodup := by
  unfold flagLanes
  split
  · exact lanes_nodup s
  · exact List.nodup_singleton l

theorem wrFlags_eq (s : State) (l : Nat) (f : Flags) :
    wrFlags s l f = if f = 0 then [] else (flagLanes s l).map fun k => .flags k f := by
  by_cases hu : s.cur.uni = true
  · simp [wrFlags, flagLanes, hu]
  · simp [wrFlags, flagLanes, hu]

/-- The flags that one lane raises reach the threads of `flagLanes`, and nothing else changes. -/
theorem writes_wrFlags (s : State) (l : Nat) (f : Flags) (w : Wave) :
    (∀ k, (writes (wrFlags s l f) w).thread k =
      if k ∈ flagLanes s l then { w.thread k with fpst := (w.thread k).fpst ||| f } else w.thread k) ∧
    writes (wrFlags s l f) w = { w with threads := (writes (wrFlags s l f) w).threads } := by
  rw [wrFlags_eq]
  by_cases h0 : f = 0
  · simp [h0, writes]
  · rw [if_neg h0]
    exact writes_flags _ (flagLanes_nodup s l) f w

/-- The writes of one lane of a predicate result: its predicate, and the flags that it raises. -/
def predWrites (s : State) (pd : Fin 24) (f : Nat → Bool × Flags) (l : Nat) : List Write :=
  .pred l pd.val (f l).1 :: wrFlags s l (f l).2

theorem writes_predWrites (s : State) (pd : Fin 24) (f : Nat → Bool × Flags) (l : Nat) (w : Wave) :
    (∀ k p, p < 24 → (writes (predWrites s pd f l) w).pred k p =
      if k = l ∧ p = pd.val then (f l).1 else w.pred k p) ∧
    (∀ k, (writes (predWrites s pd f l) w).thread k =
      if k ∈ flagLanes s l then { w.thread k with fpst := (w.thread k).fpst ||| (f l).2 } else w.thread k) ∧
    writes (predWrites s pd f l) w = { w with
      preds := (writes (predWrites s pd f l) w).preds, threads := (writes (predWrites s pd f l) w).threads } := by
  obtain ⟨h1, h2⟩ := writes_wrFlags s l (f l).2 (w.setPred l pd.val (f l).1)
  have e : writes (predWrites s pd f l) w = writes (wrFlags s l (f l).2) (w.setPred l pd.val (f l).1) := rfl
  rw [e]
  refine ⟨fun k p hp => ?_, h1, ?_⟩
  · rw [h2, ← pred_setPred w l pd.val (f l).1 k p hp]; rfl
  · rw [h2]; rfl

/-- The flags of thread `k` after the flags that some lanes raise, each in the threads of its `flagLanes`. -/
def gained (s : State) (fl : Nat → Flags) (k : Nat) (ls : List Nat) (x : Flags) : Flags :=
  ls.foldl (fun x l => if k ∈ flagLanes s l then x ||| fl l else x) x

/-- Outside a UNI clause a thread gains what its own lane raises. -/
theorem gained_lane (s : State) (fl : Nat → Flags) (k : Nat) (ls : List Nat) (x : Flags) (hu : s.cur.uni = false)
    (hn : ls.Nodup) : gained s fl k ls x = if k ∈ ls then x ||| fl k else x := by
  induction ls generalizing x with
  | nil => rfl
  | cons l r ih =>
    obtain ⟨h1, h2⟩ := List.nodup_cons.1 hn
    rw [gained, List.foldl_cons, ← gained, ih _ h2]
    by_cases hk : k = l
    · subst hk; simp [h1, flagLanes, hu]
    · simp [hk, flagLanes, hu]

/-- In a UNI clause a thread of the group gains what any of the lanes raises. -/
theorem gained_uni (s : State) (fl : Nat → Flags) (k : Nat) (ls : List Nat) (x : Flags) (hu : s.cur.uni = true) :
    gained s fl k ls x = if k ∈ s.lanes then x ||| (ls.map fl).foldl (· ||| ·) 0 else x := by
  by_cases hk : k ∈ s.lanes
  · have ha := List.foldl_assoc (op := fun a b : Flags => a ||| b) (l := ls.map fl) (a₁ := x) (a₂ := 0)
    rw [if_pos hk, ← ha, List.foldl_map]
    simp [gained, flagLanes, hu, hk]
  · simp [gained, flagLanes, hu, hk]

/-- Only the threads of the group gain flags: those of their own lane, in a UNI clause those of every lane (R20, R31). -/
theorem gained_lanes (s : State) (fl : Nat → Flags) (k : Nat) (x : Flags) :
    gained s fl k s.lanes x =
      if k ∈ s.lanes then x ||| (if s.cur.uni then (s.lanes.map fl).foldl (· ||| ·) 0 else fl k) else x := by
  cases hu : s.cur.uni
  · exact gained_lane s fl k s.lanes x hu (lanes_nodup s)
  · exact gained_uni s fl k s.lanes x hu

/-- What the writes of a predicate result do to a wave: predicate pd of the lanes, the flags raised, nothing else. -/
theorem writes_predLanes (s : State) (pd : Fin 24) (f : Nat → Bool × Flags) (ls : List Nat) (hn : ls.Nodup) (w : Wave) :
    let w' := writes (ls.flatMap (predWrites s pd f)) w
    (∀ k p, p < 24 → w'.pred k p = if k ∈ ls ∧ p = pd.val then (f k).1 else w.pred k p) ∧
    (∀ k, w'.thread k = { w.thread k with fpst := gained s (fun l => (f l).2) k ls (w.thread k).fpst }) ∧
    w' = { w with preds := w'.preds, threads := w'.threads } := by
  induction ls generalizing w with
  | nil => exact ⟨fun k p _ => by simp [writes], fun k => rfl, rfl⟩
  | cons l r ih =>
    obtain ⟨hl, hr⟩ := List.nodup_cons.1 hn
    obtain ⟨a1, a2, a3⟩ := writes_predWrites s pd f l w
    obtain ⟨b1, b2, b3⟩ := ih hr (writes (predWrites s pd f l) w)
    simp only [List.flatMap_cons, writes_append]
    refine ⟨fun k p hp => ?_, fun k => ?_, ?_⟩
    · rw [b1 k p hp, a1 k p hp]
      by_cases hk : k = l
      · subst hk; simp [hl]
      · simp [hk]
    · rw [b2 k, a2 k, gained, gained, List.foldl_cons]
      split <;> rfl
    · rw [b3, a3]

/-- Flags that a thread had gained when it went on are flags that it gained. -/
theorem wentOn_of_gained {s : State} {a b : Thread} {f : Flags}
    (h : WentOn s { a with fpst := a.fpst ||| f } b 0) : WentOn s a b f := by
  obtain ⟨h1, h2⟩ := h
  exact ⟨h1, by simpa using h2⟩

/-- What a predicate result does (R123): predicate pd of the lanes of Active and the flags they raise; the threads go on. -/
theorem decides_of_predOp {i : Instr} {sw : Bool} {pd : Fin 24} {f : Nat → Bool × Flags} {s : State}
    (h : exec i s = .next (predOp sw pd f s)) : Decides i s pd (fun l => (f l).1) (fun l => (f l).2) := by
  obtain ⟨w1, w2, w3⟩ := writes_predLanes s pd f s.lanes (lanes_nodup s) s.cw
  set s' := applyWrites (s.lanes.flatMap (predWrites s pd f)) s
  obtain ⟨g1, g2, g3⟩ := finish_spec sw s'
  have hcw : s'.cw = writes (s.lanes.flatMap (predWrites s pd f)) s.cw := cw_setCw ..
  rw [← hcw] at w1 w2 w3
  have ht : finish sw s' = s.setCw (finish sw s').cw := g1.trans (setCw_setCw ..)
  refine ⟨finish sw s', h, fun l p hp => ?_, fun l => ?_, ⟨ht, fun k => ?_⟩, ?_⟩
  · rw [← w1 l p hp, g2]; rfl
  · have hl := g3 l
    rw [w2 l, gained_lanes] at hl
    by_cases hm : l ∈ s.lanes
    · rw [if_pos (show l ∈ s'.lanes from hm), if_pos hm] at hl
      rw [if_pos hm]
      exact wentOn_of_gained hl
    · rw [if_neg (show l ∉ s'.lanes from hm), if_neg hm] at hl
      rw [if_neg hm]
      exact hl
  · rw [ht]; rfl
  · rw [g2, w3]

/-- `fcls` is a predicate result: the bit of the mask at the class of A, and no flag (R126). -/
theorem exec_fcls (sw : Bool) (pd : Fin 24) (a : Opnd) (mask : BitVec 10) (wide : Bool) (s : State) :
    exec (.fcls sw pd a mask wide) s =
      .next (predOp sw pd (fun l => (mask.getLsbD (fpClass (fmtOf wide) (opndF (fmtOf wide) s a l)), 0)) s) := rfl

/-- Settles O18: `fcls` is a predicate result of which no lane raises a flag. -/
theorem classTest : Obligations.ClassTest := by
  unfold Obligations.ClassTest
  intro s sw wide pd a mask
  exact decides_of_predOp (exec_fcls sw pd a mask wide s)

end Sys2Proof.Machine

/-!
The yield (R149, R151): where `finish` leaves the holds of its group, what demoting a group does, what follows for the frame
of a step that changes threads alone, and `nap`.
-/
namespace Sys2Proof.Machine
open State Wave

/-- A step that changes nothing but threads of the running wave leaves the machine, its memory and its registers. -/
theorem onlyWave_sameRegs_of_threads {s t : State} (hs : t = s.setCw t.cw)
    (hw : t.cw = { s.cw with threads := t.cw.threads }) : OnlyWave s t ∧ SameRegs s t := by
  refine ⟨⟨hs, fun k => ?_⟩, fun r l => ?_, fun r => ?_, fun p l => ?_⟩
  · rw [hs]; rfl
  all_goals rw [hw]; rfl

/-- A thread that goes on is held by nothing. -/
@[simp] theorem step_hold (t : Thread) (c : Cursor) : (t.step c).hold = .none := by
  unfold Thread.step
  split <;> rfl

/-- The threads of the group once advanced: each at the next PC. -/
theorem thread_advance (s : State) (l : Nat) :
    (advance s).cw.thread l = if l ∈ s.lanes then (s.cw.thread l).step s.cur else s.cw.thread l := by
  simp only [advance, cw_setCw]
  exact thread_mapThreads _ _ (lanes_nodup s) _ _

/-- A switch marker's park sets a wait and no hold (R70). -/
theorem park_hold (sw : Bool) (s : State) (l : Nat) : ((park sw s).cw.thread l).hold = (s.cw.thread l).hold := by
  cases sw
  · rfl
  · simp only [park, if_true, cw_setCw]
    rw [thread_mapThreads _ _ (lanes_nodup s)]
    split <;> rfl

/-- No thread of a group that falls through is held (R61, R70). -/
theorem finish_hold (sw : Bool) (s : State) {l : Nat} (h : l ∈ s.lanes) :
    ((finish sw s).cw.thread l).hold = .none := by
  rw [finish, park_hold, thread_advance, if_pos h, step_hold]

/-- The group demoted, its backward-branch counts at 0 (R151). -/
def demoteGroup (s : State) : State :=
  s.setCw (s.cw.mapThreads (fun _ t => { t with back := 0, demoted := true }) s.lanes)

/-- What `demoteGroup` does: each thread of the group is demoted with its count at 0, and nothing else changes. -/
theorem demoteGroup_spec (s : State) :
    demoteGroup s = s.setCw (demoteGroup s).cw ∧
    (demoteGroup s).cw = { s.cw with threads := (demoteGroup s).cw.threads } ∧
    ∀ l, (demoteGroup s).cw.thread l =
      if l ∈ s.lanes then { s.cw.thread l with back := 0, demoted := true } else s.cw.thread l := by
  refine ⟨by simp [demoteGroup], by simpa [demoteGroup] using mapThreads_eq .., fun l => ?_⟩
  simp only [demoteGroup, cw_setCw]
  exact thread_mapThreads _ _ (lanes_nodup s) _ _

/-- `nap` falls through and demotes its group (R149). -/
theorem exec_nap (sw : Bool) (s : State) : exec (.nap sw) s = .next (demoteGroup (finish sw s)) := rfl

/-- A thread that fell through and is then demoted, in terms of the thread before it. -/
theorem demoted_of_wentOn {s : State} {a b : Thread} (h : WentOn s a b 0) (hb : b.hold = .none) :
    ({ b with back := 0, demoted := true } : Thread) =
      { a with pc := b.pc, hdr := b.hdr, owes := b.owes, hold := .none, wait := b.wait, back := 0, demoted := true } := by
  obtain ⟨-, heq⟩ := h
  rw [show a.fpst ||| 0 = a.fpst from BitVec.or_zero] at heq
  rw [← hb]
  exact congrArg (fun x : Thread => { x with back := 0, demoted := true }) heq

/-- Settles O20: the group goes on as after any instruction that falls through, and is then demoted. -/
theorem napResults : Obligations.NapResults := by
  unfold Obligations.NapResults
  intro s sw
  obtain ⟨f1, f2, f3⟩ := finish_spec sw s
  obtain ⟨d1, d2, d3⟩ := demoteGroup_spec (finish sw s)
  have hlanes : (finish sw s).lanes = s.lanes := by rw [f1]; rfl
  have hs : demoteGroup (finish sw s) = s.setCw (demoteGroup (finish sw s)).cw := by
    rw [d1, f1, setCw_setCw, cw_setCw]
  have hw : (demoteGroup (finish sw s)).cw = { s.cw with threads := (demoteGroup (finish sw s)).cw.threads } := by
    rw [d2, f2]
  obtain ⟨honly, hregs⟩ := onlyWave_sameRegs_of_threads hs hw
  refine ⟨_, exec_nap sw s, honly, hregs, hw, fun l => ?_⟩
  have hf := f3 l
  rw [d3 l, hlanes]
  by_cases hl : l ∈ s.lanes
  · rw [if_pos hl] at hf
    simp only [if_pos hl]
    exact ⟨hf.1, demoted_of_wentOn hf (finish_hold sw s hl)⟩
  · simpa only [if_neg hl] using hf

end Sys2Proof.Machine
